-- ==== Sys2Proof/Word.lean ====
section
/-! DEFINITION. The word types of the KH4 model: the 64-bit scalar word and instruction word (R99, R152), the byte of
memory (R5) and the register index (R105). -/

namespace Sys2Proof

/-- A 64-bit scalar register, state register or instruction word. -/
abbrev Word := BitVec 64

/-- One byte of memory. -/
abbrev Byte := BitVec 8

/-- A six-bit register field of an instruction word (R105). -/
abbrev RegIdx := BitVec 6

/-- A bit string whose length a declaration fixes at run time: a vector register's image (R198), a mask (R205), a tile's
data or headers, an accumulator (R330). Bit `i` of the string is bit `i` of the number. -/
abbrev Bits := Nat

end Sys2Proof
end

