-- ==== Sys2Proof/Syntax.lean ====
section
/-! DEFINITION. The abstract syntax of the KH4's steps: the fields of the instruction formats (Tables 4.1 to 4.10) and the
one inductive `Instr`, with one constructor per row of the opcode table: the instructions of Flaica and the steps of the
device, the host and the peers that the table lists beside them. -/

namespace Sys2Proof

/-- The element types of Table 4.7 (R108), in the order of their ET codes. -/
inductive ElemType where
  | i8 | i16 | i32 | i64 | n8 | n16 | n32 | n64 | bf16 | f16 | f32 | f64 | e4m3 | e5m2 | k4 | q4
  deriving DecidableEq, Repr

/-- The rounding modes of Table 4.2, in the order of their codes; code 111 is illegal and has no constructor. -/
inductive RoundMode where
  | rne | rtz | rdn | rup | rna | rsr | dyn
  deriving DecidableEq, Repr

/-- The fields of an R-format word below MAJ, FN excepted (Table 4.1). -/
structure RFields where
  d : RegIdx
  a : RegIdx
  b : RegIdx
  c : RegIdx
  masked : Bool
  mr : BitVec 3
  xa : Bool
  xb : Bool
  gd : Bool
  et : ElemType
  gm : BitVec 2
  rm : RoundMode
  sat : Bool
  gs : BitVec 3
  aux4 : Bool
  aux : BitVec 4
  deriving DecidableEq, Repr

/-- The fields of an I-format word below MAJ, FN excepted (Table 4.3). -/
structure IFields where
  d : RegIdx
  a : RegIdx
  imm : BitVec 32
  deriving DecidableEq, Repr

/-- The fields of an M-format word below MAJ, FN (field C) excepted (Table 4.4). The scalar atomics read `gm` as ACQ, REL
and `am` as SC (Table 12.4). -/
structure MFields where
  d : RegIdx
  a : RegIdx
  b : RegIdx
  masked : Bool
  mr : BitVec 3
  xb : Bool
  xd : Bool
  gd : Bool
  et : ElemType
  gm : BitVec 2
  am : BitVec 3
  ch : BitVec 4
  gs : BitVec 3
  off : BitVec 9
  deriving DecidableEq, Repr

/-- The fields of a J-format word below MAJ, CC or FN excepted (Table 4.6). -/
structure JFields where
  d : RegIdx
  a : RegIdx
  b : RegIdx
  off : BitVec 32
  deriving DecidableEq, Repr

/-- The fields of an X-format word below MAJ, FN8 excepted (Table 4.6a). -/
structure XFields where
  d : RegIdx
  a : RegIdx
  b : RegIdx
  c : RegIdx
  sc : BitVec 3
  acq : Bool
  rel : Bool
  masked : Bool
  imm : BitVec 18
  deriving DecidableEq, Repr

/-- The scalar pairable operations of Table 4.11, in the order of their HOP codes. -/
inductive ScalarHop where
  | add | sub | and | or | xor | sll | srl | sra | mov | min | max | minn | maxn | mul | slt | sltn
  deriving DecidableEq, Repr

/-- The vector pairable operations of Table 4.11, in the order of their HOP codes. -/
inductive VectorHop where
  | vadd | vsub | vmul | vand | vor | vxor | vmin | vmax | vmv | vfadd | vfsub | vfmul | vfmin | vfmax | vsll | vsrl
  deriving DecidableEq, Repr

/-- One slot of a paired word (Table 4.10): a scalar operation with an optional immediate (I = 1), or a vector operation. -/
inductive Slot where
  | scalar (hop : ScalarHop) (d a : RegIdx) (imm : Option (BitVec 11))
  | vector (hop : VectorHop) (d a : RegIdx) (et : ElemType) (masked xa : Bool)
  deriving DecidableEq, Repr

/-- The three read-modify-write forms of a state-register instruction (R453). -/
inductive CsrOp where
  | write | set | clear
  deriving DecidableEq, Repr

/-- A seat: a hart context with its lane grant (R81, Tables 3.3, 3.4 and 6.5). -/
structure Seat where
  die : BitVec 2
  cluster : BitVec 4
  core : BitVec 3
  ctx : BitVec 4
  lanes : BitVec 4
  qtr : BitVec 2
  deriving DecidableEq, Repr

/-- A launch queue: die, class (`true` for bulk) and queue number (R71). -/
structure QueueId where
  die : BitVec 2
  bulk : Bool
  q : BitVec 3
  deriving DecidableEq, Repr

/-- The PCI Express AtomicOps of the host (R73, R93). -/
inductive HostAtomic where
  | fetchAdd | swap | cas
  deriving DecidableEq, Repr

/-- A merge point of an exchange as this device holds it (R385). -/
inductive MergePt where
  | cluster (die cl : Nat)
  | die (die : Nat)
  | hub
  | rowHop
  | colHop
  deriving DecidableEq, Repr

/-- A flit: its header (Table 14.2) and its 56 bytes of payload (R317). -/
structure Flit where
  header : BitVec 64
  payload : List Byte
  deriving DecidableEq, Repr

/-- What management firmware sets at bring-up (R315): NR − 1, NC − 1, ROW and COL. -/
structure Grid where
  nr : BitVec 4
  nc : BitVec 4
  row : BitVec 4
  col : BitVec 4
  deriving DecidableEq, Repr

/-- A firmware image that a reset loads (R69): its bytes, and the grid that it sets at bring-up (R315). -/
structure Firmware where
  bytes : List Byte
  grid : Grid
  deriving DecidableEq, Repr

/-- A response of a peer (Table 14.7): the header's EXPINC and TAG, then RSP and DATA. -/
structure PeerResponse where
  expinc : BitVec 16
  tag : BitVec 16
  rsp : BitVec 8
  data : Word
  deriving DecidableEq, Repr

/-- An 8-byte word of a hart's own state (R267, R450): of a register, tile, accumulator or scale register, of the length queue
or the condition queue, and the word's position in its storage image. -/
inductive HartWord where
  | scalar (r : RegIdx)
  | vector (r : RegIdx) (word : Nat)
  | mask (r : BitVec 3) (word : Nat)
  | tile (r : BitVec 2) (word : Nat)
  | headers (r : BitVec 2) (word : Nat)
  | accumulator (r : BitVec 2) (word : Nat)
  | scale (r : BitVec 3) (word : Nat)
  | length (word : Nat)
  | condition
  deriving DecidableEq, Repr

/-- Where a soft error is met (R267): an 8-byte word of storage by the number of its first byte, or a word of a hart's own
state (R450). -/
inductive ErrorSite where
  | storage (word : Nat)
  | hartState (hart : Nat) (word : HartWord)
  deriving DecidableEq, Repr

/-- The steps of the device, one constructor per row of the opcode table. -/
inductive Instr where
  /-- ADD (R152). Scalar add of sA and sB, wrapping to 64 bits, or saturating when SAT is set. -/
  | add (f : RFields)
  /-- SUB (R152). Scalar subtract of sB from sA, wrapping or saturating. -/
  | sub (f : RFields)
  /-- AND (R152). Scalar bitwise AND. -/
  | and (f : RFields)
  /-- OR (R152). Scalar bitwise OR. -/
  | or (f : RFields)
  /-- XOR (R152). Scalar bitwise XOR. -/
  | xor (f : RFields)
  /-- SLL (R152). Scalar logical left shift by sB[5:0], wrapping or saturating. -/
  | sll (f : RFields)
  /-- SRL (R152). Scalar logical right shift. -/
  | srl (f : RFields)
  /-- SRA (R152). Scalar arithmetic right shift. -/
  | sra (f : RFields)
  /-- SLT (R152). Sets sD to 1 when sA is less than sB as signed integers, else 0. -/
  | slt (f : RFields)
  /-- SLTN (R152). Sets sD to 1 when sA is less than sB as unsigned integers, else 0. -/
  | sltn (f : RFields)
  /-- MIN (R152). Writes the signed lesser of sA and sB. -/
  | min (f : RFields)
  /-- MAX (R152). Writes the signed greater of sA and sB. -/
  | max (f : RFields)
  /-- MINN (R152). Writes the unsigned lesser of sA and sB. -/
  | minn (f : RFields)
  /-- MAXN (R152). Writes the unsigned greater of sA and sB. -/
  | maxn (f : RFields)
  /-- MUL (R152). Scalar multiply, low 64 bits, wrapping or saturating. -/
  | mul (f : RFields)
  /-- MULH (R152). High 64 bits of the signed product. -/
  | mulh (f : RFields)
  /-- MULHN (R152). High 64 bits of the unsigned product. -/
  | mulhn (f : RFields)
  /-- CLZ (R152). Counts the leading zero bits of sA. -/
  | clz (f : RFields)
  /-- CTZ (R152). Counts the trailing zero bits of sA. -/
  | ctz (f : RFields)
  /-- POPC (R152). Counts the one bits of sA. -/
  | popc (f : RFields)
  /-- BREV (R152). Reverses the bit order of sA. -/
  | brev (f : RFields)
  /-- SEL (R152). Writes sA when sC is nonzero, else sB. -/
  | sel (f : RFields)
  /-- DIV (R154). Signed 64-bit division with defined results on division by zero and on overflow. -/
  | div (f : RFields)
  /-- REM (R154). Signed 64-bit remainder. -/
  | rem (f : RFields)
  /-- DIVN (R154). Unsigned 64-bit division. -/
  | divn (f : RFields)
  /-- REMN (R154). Unsigned 64-bit remainder. -/
  | remn (f : RFields)
  /-- ADDI (R155). Adds the sign-extended immediate to sA. -/
  | addi (f : IFields)
  /-- ANDI (R155). ANDs sA with the sign-extended immediate. -/
  | andi (f : IFields)
  /-- ORI (R155). ORs sA with the sign-extended immediate. -/
  | ori (f : IFields)
  /-- XORI (R155). XORs sA with the sign-extended immediate. -/
  | xori (f : IFields)
  /-- SLLI (R155). Shifts sA left by an immediate count. -/
  | slli (f : IFields)
  /-- SRLI (R155). Shifts sA right logically by an immediate count. -/
  | srli (f : IFields)
  /-- SRAI (R155). Shifts sA right arithmetically by an immediate count. -/
  | srai (f : IFields)
  /-- SLTI (R155). Sets sD to 1 when sA is less than the immediate as signed integers, else 0. -/
  | slti (f : IFields)
  /-- LI (R155). Loads the sign-extended immediate. -/
  | li (f : IFields)
  /-- LIH (R155). Replaces bits 63:32 of sA with the immediate. -/
  | lih (f : IFields)
  /-- BEQ (R157). Branches when sA equals sB. -/
  | beq (f : JFields)
  /-- BNE (R157). Branches when sA differs from sB. -/
  | bne (f : JFields)
  /-- BLT (R157). Branches when sA is less than sB as signed integers. -/
  | blt (f : JFields)
  /-- BGE (R157). Branches when sA is greater than or equal to sB as signed integers. -/
  | bge (f : JFields)
  /-- BLTN (R157). Branches when sA is less than sB as unsigned integers. -/
  | bltn (f : JFields)
  /-- BGEN (R157). Branches when sA is greater than or equal to sB as unsigned integers. -/
  | bgen (f : JFields)
  /-- JMP (R159). Jumps to a PC-relative target, popping loop levels the target leaves. -/
  | jmp (f : JFields)
  /-- JAL (R159). Writes the link and jumps to a PC-relative target. -/
  | jal (f : JFields)
  /-- JR (R159). Jumps to a register plus word offset, with an optional link. -/
  | jr (f : JFields)
  /-- RET (R159). Jumps to s1 as JR does with no link. -/
  | ret (f : JFields)
  /-- LOOP (R138). Pushes a hardware loop level with the trip count from sA, or skips the body when the count is zero. -/
  | loop (f : JFields)
  /-- LOOPP (R142). Pushes a pipelined loop level, setting the guards and the rotating block. -/
  | loopp (f : JFields)
  /-- LCNT (R141). Writes the innermost loop level's remaining count. -/
  | lcnt (f : JFields)
  /-- BCQ (R162). Pops a condition bit and branches on it. -/
  | bcq (f : JFields)
  /-- VDECL (R166). Declares NV and SEW and zeroes the vector and mask registers, VL.LEN, VSTART and ROTB. -/
  | vdecl (f : RFields)
  /-- VSETL (R167). Opens a strip with VL equal to the lesser of sA and VLMAX, incrementing ORD. -/
  | vsetl (f : RFields)
  /-- VSETLQ (R169). Opens a strip with a length popped from the length queue. -/
  | vsetlq (f : RFields)
  /-- VGETMAX (R171). Writes VLMAX to sD. -/
  | vgetmax (f : RFields)
  /-- LQPOP (R172). Pops a length into sD. -/
  | lqpop (f : RFields)
  /-- CQPOP (R172). Pops a condition bit into sD. -/
  | cqpop (f : RFields)
  /-- VADD (R218). Element-wise integer add. -/
  | vadd (f : RFields)
  /-- VSUB (R218). Element-wise integer subtract. -/
  | vsub (f : RFields)
  /-- VMUL (R218). Element-wise integer multiply. -/
  | vmul (f : RFields)
  /-- VMULH (R218). High half of the element-wise product. -/
  | vmulh (f : RFields)
  /-- VMAC (R218). Element-wise multiply-accumulate into D. -/
  | vmac (f : RFields)
  /-- VWMAC (R219). Widening multiply-accumulate into a group twice the size. -/
  | vwmac (f : RFields)
  /-- VWMUL (R219). Widening multiply. -/
  | vwmul (f : RFields)
  /-- VADDS (R218). Adds a scalar to each element. -/
  | vadds (f : RFields)
  /-- VSUBS (R218). Subtracts a scalar from each element. -/
  | vsubs (f : RFields)
  /-- VMIN (R218). Element-wise integer minimum. -/
  | vmin (f : RFields)
  /-- VMAX (R218). Element-wise integer maximum. -/
  | vmax (f : RFields)
  /-- VABS (R218). Element-wise absolute value. -/
  | vabs (f : RFields)
  /-- VNEG (R218). Element-wise negation. -/
  | vneg (f : RFields)
  /-- VAND (R218). Element-wise AND. -/
  | vand (f : RFields)
  /-- VOR (R218). Element-wise OR. -/
  | vor (f : RFields)
  /-- VXOR (R218). Element-wise XOR. -/
  | vxor (f : RFields)
  /-- VSLL (R218). Element-wise left shift. -/
  | vsll (f : RFields)
  /-- VSRL (R218). Element-wise logical right shift. -/
  | vsrl (f : RFields)
  /-- VSRA (R218). Element-wise arithmetic right shift. -/
  | vsra (f : RFields)
  /-- VCLZ (R218). Element-wise count of leading zeros. -/
  | vclz (f : RFields)
  /-- VPOPC (R218). Element-wise population count. -/
  | vpopc (f : RFields)
  /-- VSEL (R220). Selects between A and B per element by the mask bit. -/
  | vsel (f : RFields)
  /-- VMV (R221). Copies element bits. -/
  | vmv (f : RFields)
  /-- VBCAST (R221). Broadcasts the low bits of sA to active elements. -/
  | vbcast (f : RFields)
  /-- VID (R221). Writes each element's index. -/
  | vid (f : RFields)
  /-- VCMP (R222). Integer compare writing a mask register. -/
  | vcmp (f : RFields)
  /-- VDIV (R223). Element-wise integer division on the iterative divider. -/
  | vdiv (f : RFields)
  /-- VREM (R223). Element-wise integer remainder. -/
  | vrem (f : RFields)
  /-- VFADD (R225). Floating add, rounded once. -/
  | vfadd (f : RFields)
  /-- VFSUB (R225). Floating subtract. -/
  | vfsub (f : RFields)
  /-- VFMUL (R225). Floating multiply. -/
  | vfmul (f : RFields)
  /-- VFMA (R225). Fused multiply-add a times b plus c. -/
  | vfma (f : RFields)
  /-- VFMS (R225). Fused multiply-subtract a times b minus c. -/
  | vfms (f : RFields)
  /-- VFNMA (R225). Fused c minus a times b. -/
  | vfnma (f : RFields)
  /-- VFMIN (R226). Floating minimum that passes over a single NaN. -/
  | vfmin (f : RFields)
  /-- VFMAX (R226). Floating maximum that passes over a single NaN. -/
  | vfmax (f : RFields)
  /-- VFCMP (R227). Floating compare writing a mask register. -/
  | vfcmp (f : RFields)
  /-- VFCLASS (R228). Writes a one-hot class of each element. -/
  | vfclass (f : RFields)
  /-- VFABS (R225). Clears the sign bit of each element. -/
  | vfabs (f : RFields)
  /-- VFNEG (R225). Inverts the sign bit of each element. -/
  | vfneg (f : RFields)
  /-- VFDIV (R230). Floating division on the special-function unit. -/
  | vfdiv (f : RFields)
  /-- VFSQRT (R230). Floating square root. -/
  | vfsqrt (f : RFields)
  /-- VFRCP (R230). Floating reciprocal. -/
  | vfrcp (f : RFields)
  /-- VFRSQ (R230). Faithful reciprocal square root. -/
  | vfrsq (f : RFields)
  /-- VEXP2 (R195). Faithful base-2 exponential. -/
  | vexp2 (f : RFields)
  /-- VLOG2 (R195). Faithful base-2 logarithm. -/
  | vlog2 (f : RFields)
  /-- VEXP (R195). Faithful natural exponential. -/
  | vexp (f : RFields)
  /-- VLOG (R195). Faithful natural logarithm. -/
  | vlog (f : RFields)
  /-- VTANH (R231). Faithful, odd and monotonic hyperbolic tangent. -/
  | vtanh (f : RFields)
  /-- VCVT (R232). Converts each element between types. -/
  | vcvt (f : RFields)
  /-- VQUANT (R234). Quantises binary32 data to K4 or FP8 blocks, writing headers to scale registers. -/
  | vquant (f : RFields)
  /-- VDEQ (R236). Dequantises FP8 or K4 elements using block headers. -/
  | vdeq (f : RFields)
  /-- VMAND (R244). Mask AND. -/
  | vmand (f : RFields)
  /-- VMOR (R244). Mask OR. -/
  | vmor (f : RFields)
  /-- VMXOR (R244). Mask XOR. -/
  | vmxor (f : RFields)
  /-- VMNOT (R244). Mask NOT. -/
  | vmnot (f : RFields)
  /-- VMPRE (R245). Marks the positions before the reference set bit. -/
  | vmpre (f : RFields)
  /-- VMINC (R245). Marks the positions up to and including the reference set bit. -/
  | vminc (f : RFields)
  /-- VMONE (R245). Marks the reference set bit only. -/
  | vmone (f : RFields)
  /-- VMPOP (R246). Counts the active set bits into element 0 or the length queue. -/
  | vmpop (f : RFields)
  /-- VMFIRST (R246). Finds the first active set bit, writing it to element 0 or the length queue. -/
  | vmfirst (f : RFields)
  /-- VANYQ (R246). Pushes whether any active bit is set to the condition queue. -/
  | vanyq (f : RFields)
  /-- VALLQ (R246). Pushes whether every active bit is set to the condition queue. -/
  | vallq (f : RFields)
  /-- VMSET (R244). Sets the active mask bits. -/
  | vmset (f : RFields)
  /-- VMCLR (R244). Clears the active mask bits. -/
  | vmclr (f : RFields)
  /-- VSLIDEUP (R248). Slides elements up by a scalar offset. -/
  | vslideup (f : RFields)
  /-- VSLIDEDN (R248). Slides elements down by a scalar offset. -/
  | vslidedn (f : RFields)
  /-- VPERM (R248). Gathers elements of A by index. -/
  | vperm (f : RFields)
  /-- VPUSHL (R249). Scatters elements to indexed positions, optionally writing a collision mask. -/
  | vpushl (f : RFields)
  /-- VCOMPR (R250). Packs the active elements to the low positions. -/
  | vcompr (f : RFields)
  /-- VEXPND (R250). Spreads packed elements to the active positions. -/
  | vexpnd (f : RFields)
  /-- VREC (R251). Computes the first-order recurrence y = a times previous y plus b. -/
  | vrec (f : RFields)
  /-- VREDSUM (R253). Tree sum reduction into element 0. -/
  | vredsum (f : RFields)
  /-- VREDMAX (R253). Maximum reduction. -/
  | vredmax (f : RFields)
  /-- VREDMIN (R253). Minimum reduction. -/
  | vredmin (f : RFields)
  /-- VREDAND (R253). AND reduction. -/
  | vredand (f : RFields)
  /-- VREDOR (R253). OR reduction. -/
  | vredor (f : RFields)
  /-- VSCAN (R254). Inclusive tree scan of a selected operation. -/
  | vscan (f : RFields)
  /-- VBSORT (R257). Stable sort of keys with their values. -/
  | vbsort (f : RFields)
  /-- VBMERGE (R257). Stable merge of two ordered runs of keys with their values. -/
  | vbmerge (f : RFields)
  /-- VTOPK (R258). Selects the top k keys with their original positions. -/
  | vtopk (f : RFields)
  /-- VGTOPK (R260). Grouped top-k gate selection per token, writing group indices, maxima and M. -/
  | vgtopk (f : RFields)
  /-- VSPRS (R261). Compresses 8-element blocks to 4-of-8 form with metadata. -/
  | vsprs (f : RFields)
  /-- LDB (R283). Loads a sign-extended byte. -/
  | ldb (f : MFields)
  /-- LDH (R283). Loads a sign-extended half. -/
  | ldh (f : MFields)
  /-- LDW (R283). Loads a sign-extended word. -/
  | ldw (f : MFields)
  /-- LDD (R283). Loads a dword. -/
  | ldd (f : MFields)
  /-- LDBN (R283). Loads a zero-extended byte. -/
  | ldbn (f : MFields)
  /-- LDHN (R283). Loads a zero-extended half. -/
  | ldhn (f : MFields)
  /-- LDWN (R283). Loads a zero-extended word. -/
  | ldwn (f : MFields)
  /-- STB (R283). Stores a byte. -/
  | stb (f : MFields)
  /-- STH (R283). Stores a half. -/
  | sth (f : MFields)
  /-- STW (R283). Stores a word. -/
  | stw (f : MFields)
  /-- STD (R283). Stores a dword. -/
  | std (f : MFields)
  /-- VLD (R285). Vector load in unit-stride, strided, indexed, lane-slice or broadcast mode. -/
  | vld (f : MFields)
  /-- VLDFF (R286). Fault-only-first unit-stride load that pushes the count of elements loaded. -/
  | vldff (f : MFields)
  /-- VST (R287). Vector store. -/
  | vst (f : MFields)
  /-- VRSTORE (R291). Remote-reduce store that adds elements atomically at the target's home. -/
  | vrstore (f : MFields)
  /-- PREF (R292). Scalar prefetch of a line under a cache hint. -/
  | pref (f : MFields)
  /-- VPREF (R292). Vector prefetch of element lines. -/
  | vpref (f : MFields)
  /-- AADD (R295). Atomic add returning the old value. -/
  | aadd (f : MFields)
  /-- AAND (R295). Atomic AND. -/
  | aand (f : MFields)
  /-- AOR (R295). Atomic OR. -/
  | aor (f : MFields)
  /-- AXOR (R295). Atomic XOR. -/
  | axor (f : MFields)
  /-- AMIN (R295). Atomic signed minimum. -/
  | amin (f : MFields)
  /-- AMAX (R295). Atomic signed maximum. -/
  | amax (f : MFields)
  /-- AMINN (R295). Atomic unsigned minimum. -/
  | aminn (f : MFields)
  /-- AMAXN (R295). Atomic unsigned maximum. -/
  | amaxn (f : MFields)
  /-- AXCHG (R295). Atomic exchange. -/
  | axchg (f : MFields)
  /-- ACAS (R295). Atomic compare-and-swap with the compare value in sD. -/
  | acas (f : MFields)
  /-- VAADD (R297). Vector atomic add per element at the home. -/
  | vaadd (f : MFields)
  /-- VAMIN (R297). Vector atomic minimum. -/
  | vamin (f : MFields)
  /-- VAMAX (R297). Vector atomic maximum. -/
  | vamax (f : MFields)
  /-- PHASE (R373). Arrives at the next boundary of the scope's phase group and waits for it to complete. -/
  | phase (f : XFields)
  /-- PHASEA (R373). Arrives at the next phase boundary and writes its number. -/
  | phasea (f : XFields)
  /-- PHASEW (R373). Waits for the outstanding boundary at the scope to complete. -/
  | phasew (f : XFields)
  /-- FENCE (R374). Orders the hart's accesses with acquire and/or release at a scope. -/
  | fence (f : XFields)
  /-- WAITW (R375). Repeatedly reads an aligned word atomically until a condition holds. -/
  | waitw (f : XFields)
  /-- ESUB (R312). Reads a command record from memory and submits it as an engine node. -/
  | esub (f : XFields)
  /-- ECMD (R313). Submits a batch of command records from vector registers. -/
  | ecmd (f : XFields)
  /-- EWAIT (R314). Waits for a node to finish and writes its status. -/
  | ewait (f : XFields)
  /-- EPOLL (R314). Writes a node's status, or pending, without waiting. -/
  | epoll (f : XFields)
  /-- TLOAD (R340). Loads a tile from the local windows and latches its shape. -/
  | tload (f : XFields)
  /-- TZERO (R342). Zeroes a tile, latches its shape and sets ZF. -/
  | tzero (f : XFields)
  /-- MMUL (R345). Multiplies activation rows against a tile into accumulator rows. -/
  | mmul (f : XFields)
  /-- MMULS (R346). Sparse 4-of-8 multiply with metadata checks. -/
  | mmuls (f : XFields)
  /-- MDRAIN (R349). Drains accumulator cells to vector registers, converting or encoding them. -/
  | mdrain (f : XFields)
  /-- MZERO (R350). Zeroes accumulator rows. -/
  | mzero (f : XFields)
  /-- ESETS (R351). Writes one scale-register header from a scalar. -/
  | esets (f : XFields)
  /-- ESETV (R351). Writes scale-register headers from a vector span. -/
  | esetv (f : XFields)
  /-- MATRIX_STATE_SWAP (R332). When another hart reaches the head of its matrix queue, the engine completes the owner's work and swaps matrix state through the spill slots. -/
  | matrixStateSwap (hart : Nat)
  /-- XOPEN (R405). Opens or joins an exchange from a plan, reporting rank or refusal. -/
  | xopen (f : XFields)
  /-- XSPLIT (R412). Installs splitters for the next round. -/
  | xsplit (f : XFields)
  /-- XSEND (R406). Sends keyed records in key order to the exchange. -/
  | xsend (f : XFields)
  /-- XSENDQ (R407). Sends records whose K4 segment is quantised on send. -/
  | xsendq (f : XFields)
  /-- XFLOOR (R408). Raises the sender's floor. -/
  | xfloor (f : XFields)
  /-- XROUND (R409). Closes the sender's run of its current round. -/
  | xround (f : XFields)
  /-- XRECV (R410). Supplies a receive area and waits for Whisk to end it. -/
  | xrecv (f : XFields)
  /-- XSTAT (R411). Reads exchange status selected by sel. -/
  | xstat (f : XFields)
  /-- XSAMPLE (R413). Writes Sieve's shadow splitters to memory. -/
  | xsample (f : XFields)
  /-- XREBAL (R414). Sets the rebalancing mode for later rounds. -/
  | xrebal (f : XFields)
  /-- XCLOSE (R415). Leaves the exchange, closing the open run and releasing any area. -/
  | xclose (f : XFields)
  /-- MERGE_INPUT_ARRIVAL (R388). A record, floor or close from an input arrives at a merge point and is held. -/
  | mergeInputArrival (xid recv : Nat) (pt : MergePt) (input : Nat)
  /-- MERGE_POINT_EMIT (R390). A merge point passes on, or folds and passes on, its least held record once its inputs' floors allow it. -/
  | mergePointEmit (xid recv : Nat) (pt : MergePt)
  /-- WHISK_DELIVER (R396). Whisk writes the next record of a receiver's stream into its area, holding it when there is no room. -/
  | whiskDeliver (xid recv : Nat)
  /-- ROUND_CLOSE (R389). A round closes when every sender has closed it and every record is delivered or discarded. -/
  | roundClose (xid : Nat)
  /-- EXCHANGE_CLOSE (R415). The exchange closes and frees its XID once every member has closed or exited and every round has closed. -/
  | exchangeClose (xid : Nat)
  /-- INGRESS_RECORD (R425). The expert ingress unit ranks a delivered record's scores, weights the chosen experts and appends their entries. -/
  | ingressRecord (die xid : Nat)
  /-- BATCH_PUBLISH (R428). A started batch takes its ring entry once the previous occupant is released, writes it and advances PUB. -/
  | batchPublish (die xid : Nat)
  /-- RING_RELEASE_WRITE (R429). A write to a ring entry's RELEASE frees the first blocks of its list. -/
  | ringReleaseWrite (die xid : Nat)
  /-- LAUNCH (R88). Appends a launch record to a launch queue from a hart. -/
  | launch (f : XFields)
  /-- TNEXT (R89). Takes the next schedule-table entry of the core group. -/
  | tnext (f : XFields)
  /-- TQGET (R90). Takes a shrinking chunk from the central task queue. -/
  | tqget (f : XFields)
  /-- TQPUT (R90). Adds an interval to the central task queue. -/
  | tqput (f : XFields)
  /-- WIDR (R91). Reads the hart's WID or one of its fields. -/
  | widr (f : XFields)
  /-- HEXIT (R92). Ends the hart after closing its runs, arriving at its boundaries and freeing its seat. -/
  | hexit (f : XFields)
  /-- TRAP (R454). Takes a TRAPI trap with the immediate in TVAL. -/
  | trap (f : XFields)
  /-- TRET (R454). Returns from a handler to TPC at program level. -/
  | tret (f : XFields)
  /-- CSRR (R453). Reads a state register. -/
  | csrr (f : XFields)
  /-- CSRW (R453). Writes a state register's writable fields. -/
  | csrw (f : XFields)
  /-- CSRS (R453). Sets bits of a state register. -/
  | csrs (f : XFields)
  /-- CSRC (R453). Clears bits of a state register. -/
  | csrc (f : XFields)
  /-- TSAVE (R455). Writes the hart's program context as a record. -/
  | tsave (f : XFields)
  /-- TRSTR (R456). Restores a context record, writing a status. -/
  | trstr (f : XFields)
  /-- WFE (R457). Waits for a write to a line, a pending source, a timeout or any event. -/
  | wfe (f : XFields)
  /-- DSTOP (R458). Sets the debug stop request of a hart of the launch. -/
  | dstop (f : XFields)
  /-- WFE_TIMEOUT (R457). The WFE time limit expires and the wait ends. -/
  | wfeTimeout (hart : Nat)
  /-- RSPLIT (R62). Splits a range at an address, optionally using a spare node. -/
  | rsplit (f : XFields)
  /-- RMERGE (R63). Joins two adjacent ranges. -/
  | rmerge (f : XFields)
  /-- RINVAL (R64). Invalidates cached translations at a scope and waits for accesses through them. -/
  | rinval (f : XFields)
  /-- RSEAL (R65). Seals a range's extent, hashes it and appends an attestation log entry. -/
  | rseal (f : XFields)
  /-- RRES (R66). Moves a range's resident mark. -/
  | rres (f : XFields)
  /-- RPROBE (R67). Translates an address without access and reports the outcome. -/
  | rprobe (f : XFields)
  /-- RCOMPACT (R68). Starts a hardware compaction of a range to a new extent. -/
  | rcompact (f : XFields)
  /-- COMPACTION_SWING (R56). After the copy ends, accesses are held, the range is invalidated, the new offset written and CMPX cleared. -/
  | compactionSwing (ctx : Nat)
  /-- COMPACTION_ABANDON (R57). An uncorrectable error in the copy abandons the compaction and clears CMPX. -/
  | compactionAbandon (ctx : Nat)
  /-- NOP (R118). Hint word with no effect beyond advancing the PC. -/
  | nop (hint : BitVec 2) (bits : BitVec 56)
  /-- PAIRED_WORD (R116). Executes two pairable operations as one instruction, reading all operands before writing. -/
  | pairedWord (slot0 slot1 : Slot)
  /-- VECTOR_MICRO_OP_ISSUE (R209). A micro-operation issues from the lane cluster window once its operands and a unit are ready. -/
  | vectorMicroOpIssue (hart : Nat)
  /-- PREEMPT_INTERRUPT (R443). A pending interrupt source is taken at a preemption point as a PREEMPT trap. -/
  | preemptInterrupt (hart : Nat)
  /-- STRIPSTOP (R449). With DREQ or SSTOP set, a STRIPSTOP trap is taken before a VSETL, VSETLQ or HEXIT. -/
  | stripstop (hart : Nat)
  /-- SAMPLE_TAG (R479). The sampling countdown reaches zero and tags the fetched instruction. -/
  | sampleTag (hart : Nat)
  /-- SAMPBUF_READ (R480). A read of SAMPBUF returns the next dword of the oldest record, freeing it after dword 7. -/
  | sampbufRead (d : RegIdx)
  /-- PMU_REGISTER_WRITE (R482). A write of a PMSEL or PMC takes effect at the end of the cycle. -/
  | pmuRegisterWrite (op : CsrOp) (count : Bool) (n : BitVec 4) (a : RegIdx)
  /-- ROTB_WRITE (R143). A write of ROTB stores a valid rotation or leaves ROTB unchanged. -/
  | rotbWrite (op : CsrOp) (a : RegIdx)
  /-- GREG_WRITE (R144). A write of GREG changes the guard bits in program order. -/
  | gregWrite (op : CsrOp) (a : RegIdx)
  /-- SEED_WRITE (R181). A write of SEED that would leave STATE zero stores 1. -/
  | seedWrite (op : CsrOp) (a : RegIdx)
  /-- ACFG_WRITE (R184). A write of ACFG that would set DRM to 110 or 111 leaves DRM unchanged. -/
  | acfgWrite (op : CsrOp) (a : RegIdx)
  /-- QUEUE_STATUS_WRITE (R133). A write of LQSTAT or CQSTAT sets QCHK and UNDER and ignores COUNT. -/
  | queueStatusWrite (op : CsrOp) (cond : Bool) (a : RegIdx)
  /-- HART_PLACEMENT (R83). A waiting hart group gets a seat and its next WID starts as a new hart. -/
  | hartPlacement (tag : Word) (group : Nat) (seat : Seat)
  /-- CORE_VACATE (R80). For an unplaceable latency WID, the die preempts the borrowed bulk harts of a reserved core and frees it. -/
  | coreVacate (die cluster core : Nat)
  /-- PHASE_GROUP_VACATE (R448). When no seat frees within 40 µs for a swapped-out hart blocking a boundary, the waiting members of its group are vacated. -/
  | phaseGroupVacate (tag : Word) (scope unit : Nat)
  /-- HART_RESUME (R445). A vacated hart is placed again, its context record loaded onto the new seat. -/
  | hartResume (tag wid : Word) (seat : Seat)
  /-- ENGINE_NODE_START (R304). A released node begins running on its engine. -/
  | engineNodeStart (core slot : Nat)
  /-- ENGINE_NODE_FINISH (R304). A node finishes, writes its status and decrements or cancels its successors. -/
  | engineNodeFinish (core slot : Nat)
  /-- NODE_NEVER_RELEASED (R310). Waiting nodes that can no longer be released finish with CODE 0x03. -/
  | nodeNeverReleased (tag : Word)
  /-- DEVICE_RESET (R69). Reset runs the boot ROM check of the firmware, and bring-up or recovery follows. -/
  | deviceReset (image : Firmware)
  /-- TAIL_FETCHADD (R73). A host FetchAdd on a queue's TAIL reserves positions. -/
  | tailFetchadd (q : QueueId) (op : HostAtomic) (wide : Bool) (addend : Word)
  /-- SLOT_WRITE (R73). The host writes a queue slot with VALID set. -/
  | slotWrite (q : QueueId) (slot : BitVec 8) (value : Word)
  /-- QCTL_WRITE (R75). A write of QCTL sets or clears ENABLE. -/
  | qctlWrite (q : QueueId) (value : Word)
  /-- LATLO_WRITE (R72). A write to LATLO stores a pending low half of LATMASK. -/
  | latloWrite (die : BitVec 2) (value : Word)
  /-- LATHI_WRITE (R72). A write to LATHI commits LATMASK when its conditions hold. -/
  | lathiWrite (die : BitVec 2) (value : Word)
  /-- TVECD_WRITE (R72). A write of TVECD sets the trap vector for later-created harts. -/
  | tvecdWrite (die : BitVec 2) (value : Word)
  /-- REGISTER_WRITE (R94). A write to a Window A register without behaviour of its own, or a dropped write. -/
  | registerWrite (offset : Nat) (data : List Byte)
  /-- TAKE_POSITION (R74). A queue takes its HEAD position once its slot is valid, reads and checks the record, and zeroes the slot. -/
  | takePosition (q : QueueId)
  /-- LAUNCH_COMPLETE (R466). A launch that has met all completion conditions hashes, writes its completion word, raises MSI-X and takes its successor. -/
  | launchComplete (tag : Word)
  /-- REPLAY_ABANDON (R477). Every live hart of a replay launch waits on the log for 10 ms and replay is abandoned. -/
  | replayAbandon (tag : Word)
  /-- MSIX_VECTOR_UNMASK (R468). Unmasking a vector with its pending bit set sends the message. -/
  | msixVectorUnmask (vector : BitVec 6)
  /-- WINDOW_B_READ (R95). A host memory read at Window B translated through the Window B tree. -/
  | windowBRead (offset size : Nat)
  /-- WINDOW_B_WRITE (R95). A host memory write at Window B. -/
  | windowBWrite (offset : Nat) (data : List Byte)
  /-- WINDOW_B_ATOMIC (R95). A host AtomicOp at Window B. -/
  | windowBAtomic (offset : Nat) (op : HostAtomic) (size : Nat) (operand compare : Word)
  /-- IDENT (R97). Mailbox command returning incarnation, grid position and identity key. -/
  | ident
  /-- AREAS (R97). Mailbox command returning the spill-slot and context-store areas of a die. -/
  | areas
  /-- READLOG (R98). Mailbox command returning entries of a log. -/
  | readlog
  /-- COUNTERS (R97). Mailbox command returning the STALE and error counters. -/
  | counters
  /-- ATTLOG (R97). Mailbox command returning attestation log entries. -/
  | attlog
  /-- QUOTE (R52). Mailbox command returning a signed quote over a nonce and the attestation log. -/
  | quote
  /-- VACATE (R445). Mailbox command that vacates the hart at a seat. -/
  | vacate
  /-- ENDLAUNCH (R470). Mailbox command that ends a live launch by tag. -/
  | endlaunch
  /-- DEBUG (R449). Mailbox command that sets DREQ of the hart at a seat. -/
  | debug
  /-- SYSGRP (R76). Mailbox command that defines or removes a system group. -/
  | sysgrp
  /-- LAUNCHES (R97). Mailbox command listing the live launches with their tags. -/
  | launches
  /-- FWLOAD (R97). Mailbox command loading a firmware chunk and, at the last one, checking and restarting. -/
  | fwload
  /-- UNKNOWN_COMMAND (R97). A mailbox command code that is not listed ends with code 1. -/
  | unknownCommand
  /-- MAILBOX_COMMAND_DONE (R96). A command ends: results stand, BUSY clears, DONE sets and MSI-X may be raised. -/
  | mailboxCommandDone
  /-- FLHEAD_WRITE (R329). Advancing FLHEAD releases fault log entries and the requests waiting behind them. -/
  | flheadWrite (value : BitVec 32)
  /-- REMOTE_LOAD_REQUEST (R324). A peer load request is translated at the target and answered. -/
  | remoteLoadRequest (k : Nat)
  /-- REMOTE_STORE_REQUEST (R324). A peer store request is performed, or logged in the fault log, and accepted. -/
  | remoteStoreRequest (k : Nat)
  /-- REMOTE_ATOMIC_REQUEST (R324). A peer atomic request is performed at its home and answered. -/
  | remoteAtomicRequest (k : Nat)
  /-- REMOTE_RESPONSE (R323). A response reaches the source and completes or traps its element. -/
  | remoteResponse (r : PeerResponse)
  /-- PEER_TIMEOUT (R326). A request's 2 ms wait expires and the source traps PEER. -/
  | peerTimeout (tag : BitVec 16)
  /-- HOST_COMPLETION (R299). A completion from the host answers a host-target load or atomic. -/
  | hostCompletion (tag : BitVec 16) (ok : Bool) (data : List Byte)
  /-- FLIT_RECEIVE (R317). A link delivers a flit to the router, dropping unknown kinds. -/
  | flitReceive (port : Nat) (flit : Flit)
  /-- LINK_DOWN (R317). A link that cannot deliver a flit within its retry limit is taken down. -/
  | linkDown (port : Nat)
  /-- LANE_FAILURE (R316). A failed lane is replaced by a spare, or its port goes down. -/
  | laneFailure (port : Nat)
  /-- SOFT_ERROR_DETECTED (R267). An error in coded storage is corrected and counted, or logged as uncorrectable. -/
  | softErrorDetected (site : ErrorSite) (correctable : Bool)
  /-- CYCLE_EVENT_OVERFLOW (R481). A counter selecting a cycle event (seated cycles, stall or wait cycles) wraps past 2^48 − 1, sets OVF and, with OVIE, makes its interrupt source pending. -/
  | cycleEventOverflow (hart : Nat) (n : BitVec 4)
  /-- WFE_OTHER_EVENT (R457). The device ends a WFE wait at a moment of its own choosing, with no line write, pending source or timeout. -/
  | wfeOtherEvent (hart : Nat)
  deriving DecidableEq, Repr

end Sys2Proof
end

