-- ==== Sys2Proof/WellFormed.lean ====
section
/-! DEFINITION. Which instructions are well formed: the checks of Table 4.12, order 2 (R120), as a predicate on the fields.
A field an entry does not name is zero, and a field it names holds a value the entry allows (R104). -/

namespace Sys2Proof

/-- Bits per element (Table 4.7). -/
def ElemType.bits : ElemType → Nat
  | .i8 | .n8 | .e4m3 | .e5m2 => 8
  | .i16 | .n16 | .bf16 | .f16 => 16
  | .i32 | .n32 | .f32 => 32
  | .i64 | .n64 | .f64 => 64
  | .k4 | .q4 => 4

/-- The offset unit in bytes (Table 4.7). -/
def ElemType.unit : ElemType → Nat
  | .i8 | .n8 | .e4m3 | .e5m2 | .k4 | .q4 => 1
  | .i16 | .n16 | .bf16 | .f16 => 2
  | .i32 | .n32 | .f32 => 4
  | .i64 | .n64 | .f64 => 8

/-- The ET code (Table 4.7). -/
def ElemType.code : ElemType → Nat
  | .i8 => 0 | .i16 => 1 | .i32 => 2 | .i64 => 3 | .n8 => 4 | .n16 => 5 | .n32 => 6 | .n64 => 7
  | .bf16 => 8 | .f16 => 9 | .f32 => 10 | .f64 => 11 | .e4m3 => 12 | .e5m2 => 13 | .k4 => 14 | .q4 => 15

/-- The element type of an ET code (Table 4.7). -/
def ElemType.ofCode : Nat → ElemType
  | 0 => .i8 | 1 => .i16 | 2 => .i32 | 3 => .i64 | 4 => .n8 | 5 => .n16 | 6 => .n32 | 7 => .n64
  | 8 => .bf16 | 9 => .f16 | 10 => .f32 | 11 => .f64 | 12 => .e4m3 | 13 => .e5m2 | 14 => .k4 | _ => .q4

/-- ET 0 to 7: the integer types of whole bytes. -/
def ElemType.isInt (t : ElemType) : Bool := t.code < 8
/-- ET 8 to 11: the types of vector floating arithmetic (R224). -/
def ElemType.isFloat (t : ElemType) : Bool := 8 ≤ t.code && t.code < 12
/-- ET 0 to 3 and 15: read as two's complement. -/
def ElemType.isSigned (t : ElemType) : Bool := t.code < 4 || t.code == 15
/-- Every floating format: ET 8 to 13 (R176). -/
def ElemType.isFp (t : ElemType) : Bool := 8 ≤ t.code && t.code < 14
/-- Every integer type, .q4 among them (R174). -/
def ElemType.isInteger (t : ElemType) : Bool := t.code < 8 || t.code == 15
/-- The two FP8 formats. -/
def ElemType.isFp8 (t : ElemType) : Bool := t == .e4m3 || t == .e5m2

/-- The RM code (Table 4.2). -/
def RoundMode.code : RoundMode → Nat
  | .rne => 0 | .rtz => 1 | .rdn => 2 | .rup => 3 | .rna => 4 | .rsr => 5 | .dyn => 6

/-- The rounding mode of an RM code; 111 names none (Table 4.2). -/
def RoundMode.ofCode : Nat → Option RoundMode
  | 0 => some .rne | 1 => some .rtz | 2 => some .rdn | 3 => some .rup | 4 => some .rna | 5 => some .rsr
  | 6 => some .dyn | _ => none

/-- What a register field of an entry names. -/
inductive OpKind where
  | none | scalar | vector | mask | scale
  deriving DecidableEq, Repr

/-- A field of the kind `k` may hold `r` (R105, R215, R239). -/
def OpKind.accepts (k : OpKind) (r : RegIdx) : Bool :=
  match k with
  | .none => r == 0
  | .scalar | .vector => true
  | .mask | .scale => r.toNat < 8

/-- Which rounding modes an entry accepts. -/
inductive RmRule where
  | never | all | noStochastic
  deriving DecidableEq, Repr

/-- `RmRule.accepts`: RM is 000 where nothing rounds (R104); R238 leaves out code 101. -/
def RmRule.accepts (k : RmRule) (m : RoundMode) : Bool :=
  match k with
  | .never => m == .rne
  | .all => true
  | .noStochastic => m != .rsr

/-- Whether an entry takes a mask (R106). -/
inductive MaskRule where
  | refused | accepted | required
  deriving DecidableEq, Repr

/-- The field use of one R-format entry. -/
structure RSpec where
  d : OpKind
  a : OpKind
  b : OpKind
  c : OpKind
  et : ElemType → Bool
  rm : RmRule
  sat : Bool
  masks : MaskRule
  guarded : Bool
  grouped : Bool
  aux : Bool

/-- The checks of R104 to R108 and R111, R112 on an R-format word with the field use `p`. -/
def RSpec.accepts (p : RSpec) (f : RFields) : Bool :=
  p.d.accepts f.d && p.a.accepts f.a && p.b.accepts f.b && p.c.accepts f.c && p.et f.et && p.rm.accepts f.rm &&
  (p.sat || !f.sat) && p.aux &&
  (match p.masks with | .refused => !f.masked | .accepted => true | .required => f.masked) &&
  (f.masked || (f.mr == 0 && !f.aux4)) &&
  (!f.xa || p.a == .vector) && (!f.xb || p.b == .vector) &&
  (p.guarded || !f.gd) && (f.gd || f.gs == 0) && (p.grouped || f.gm == 0)

/-- ET must be 0 where an entry gives no element type (R104). -/
def etZero (t : ElemType) : Bool := t == .i8

/-- The field use of a scalar R-format entry of MAJ 0x00 or 0x01 (R148, R149, R151, R154). -/
def scalarSpec (b c : OpKind) (satOk : Bool) (f : RFields) : RSpec :=
  { d := .scalar, a := .scalar, b := b, c := c, et := etZero, rm := .never, sat := satOk, masks := .refused,
    guarded := true, grouped := false, aux := f.aux == 0 || (f.aux == 1 && f.sat) }

/-- The field use of a MAJ 0x05 entry (R163, Table 6.4). -/
def configSpec (d a : OpKind) (aux : Bool) : RSpec :=
  { d := d, a := a, b := .none, c := .none, et := etZero, rm := .never, sat := false, masks := .refused,
    guarded := false, grouped := false, aux := aux }

/-- The field use of a vector R-format entry: mask, guard and group accepted (R214, R238). -/
def vectorSpec (d a b c : OpKind) (et : ElemType → Bool) (rm : RmRule) (satOk aux : Bool) : RSpec :=
  { d := d, a := a, b := b, c := c, et := et, rm := rm, sat := satOk, masks := .accepted, guarded := true,
    grouped := true, aux := aux }

/-- The field use of a mask instruction without a vector operand (Table 10.2). -/
def maskSpec (d a b : OpKind) (aux : Bool) : RSpec :=
  { d := d, a := a, b := b, c := .none, et := etZero, rm := .never, sat := false, masks := .accepted, guarded := true,
    grouped := false, aux := aux }

/-- Integer entries of Table 9.1 with vector sources. -/
def intSpec (a b : OpKind) (satOk : Bool) (f : RFields) : RSpec :=
  vectorSpec .vector a b .none ElemType.isInt .never satOk (f.aux == 0)

/-- Floating entries of Tables 9.2 and 9.4. -/
def floatSpec (b c : OpKind) (et : ElemType → Bool) (rm : RmRule) (f : RFields) : RSpec :=
  vectorSpec .vector .vector b c et rm false (f.aux == 0)

/-- VCVT's field use (R232): neither type is .k4; RM and SAT as the kinds of the two types give. -/
def cvtSpec (f : RFields) : RSpec :=
  let st := ElemType.ofCode f.aux.toNat
  let ints := f.et.isInteger && st.isInteger
  vectorSpec .vector .vector .none .none (· != .k4) (if ints then .never else .all) ints (f.aux != 14)

/-- The codes 8 to 10, for the faithful functions (Table 9.4). -/
def etSpecial (t : ElemType) : Bool := 8 ≤ t.code && t.code < 11
/-- ET 0 to 13 (Tables 9.1 and 10.3). -/
def etMove (t : ElemType) : Bool := t.code < 14
/-- ET 0 to 11 (Tables 10.3 and 10.4). -/
def etArith (t : ElemType) : Bool := t.code < 12
/-- ET 0 to 2 and 4 to 6 (R219). -/
def etWiden (t : ElemType) : Bool := t.isInt && t != .i64 && t != .n64
/-- ET 2, 3, 6 and 7 (Table 10.2). -/
def etCount (t : ElemType) : Bool := t == .i32 || t == .i64 || t == .n32 || t == .n64

/-- VMPOP's and VMFIRST's field use (R246). -/
def countSpec (f : RFields) : RSpec :=
  if f.aux == 1 then maskSpec .none .mask .none true
  else { vectorSpec .vector .mask .none .none etCount .never false (f.aux == 0) with }

/-- A reduction's rounding and saturation: RM for floating types, SAT for integers (Table 10.4). -/
def reduceSpec (et : ElemType → Bool) (sum : Bool) (aux : Bool) (f : RFields) : RSpec :=
  vectorSpec .vector .vector .none .none et (if sum && f.et.isFloat then .noStochastic else .never)
    (sum && f.et.isInt) aux

/-- VSCAN's field use (R254). -/
def scanSpec (f : RFields) : RSpec :=
  let logical := f.aux == 3 || f.aux == 4
  reduceSpec (if logical then ElemType.isInt else etArith) (f.aux == 0) (f.aux.toNat < 5) f

/-- The field use of VBSORT and VBMERGE (Table 10.5). -/
def sortSpec (f : RFields) : RSpec :=
  vectorSpec .vector .vector .vector .vector (·.code < 11) .never false (f.aux.toNat < 2)

/-- AUX bit 0 alone may be set. -/
def auxBit (f : RFields) : Bool := f.aux.toNat < 2

/-- The state-register numbers of Table 24.5 (R452). -/
def csrListed (n : Nat) : Bool :=
  n ≤ 0x004 || (0x010 ≤ n && n ≤ 0x013) || (0x020 ≤ n && n ≤ 0x023) || (0x030 ≤ n && n ≤ 0x035) ||
  (0x040 ≤ n && n ≤ 0x048) || n == 0x050 || n == 0x051 || (0x060 ≤ n && n ≤ 0x07F)

/-! ### M format -/

/-- The address modes a vector memory entry accepts, and its use of B, XB and XD (Table 12.1, R281). -/
def memVector (f : MFields) (modes : List Nat) (xd : Bool) (et : ElemType → Bool) : Bool :=
  modes.contains f.am.toNat && et f.et && (f.am == 1 || f.am == 2 || f.b == 0) && (!f.xb || f.am == 2) &&
  (xd || !f.xd) && (f.masked || f.mr == 0) && (f.gd || f.gs == 0) &&
  (f.et.bits != 4 || f.am == 0 || f.am == 3)

/-- The field use of MAJ 0x20 (Table 12.1). -/
def memScalar (f : MFields) : Bool :=
  f.b == 0 && !f.masked && f.mr == 0 && !f.xb && !f.xd && f.et == .i8 && f.gm == 0 && f.am == 0 && (f.gd || f.gs == 0)

/-- The field use of MAJ 0x24 (Tables 12.1 and 12.4, R294): a scope only with ACQ or REL. -/
def memAtomic (f : MFields) : Bool :=
  !f.masked && f.mr == 0 && !f.xb && !f.xd && (f.et == .i32 || f.et == .i64) && f.am.toNat < 6 &&
  (f.gm != 0 || f.am == 0) && (f.gd || f.gs == 0)

/-- The field use of VRSTORE (Table 12.1, R289). -/
def memReduce (f : MFields) : Bool :=
  let scaled := f.et == .e4m3 || f.et == .e5m2 || f.et == .k4
  f.am == 0 && (scaled || f.et == .i32 || f.et == .bf16 || f.et == .f16 || f.et == .f32) &&
  (if scaled then f.b.toNat < 8 else f.b == 0) && !f.xb && (f.masked || f.mr == 0) && (f.gd || f.gs == 0)

/-! ### X format -/

/-- Which register fields an X-format entry names; the others are zero (R104). -/
def XFields.regs (f : XFields) (d a b c : Bool) : Bool :=
  (d || f.d == 0) && (a || f.a == 0) && (b || f.b == 0) && (c || f.c == 0)

/-- An X-format entry without scope, ordering flags, mask or immediate beyond those allowed here. -/
def XFields.plain (f : XFields) (mk imm : Bool) : Bool :=
  f.sc == 0 && !f.acq && !f.rel && (mk || !f.masked) && (imm || f.imm == 0)

/-- A bit field of an immediate. -/
def XFields.immBits (f : XFields) (lo len : Nat) : Nat := f.imm.toNat / 2 ^ lo % 2 ^ len

/-- Table 15.2's tile formats. -/
def tileFormat (c : Nat) : Bool := c == 0 || c == 8 || c == 9 || c == 12 || c == 13 || c == 14 || c == 15

/-- Dense K capacity of a tile format (Table 15.3); a sparse tile holds twice as much. -/
def tileCapacity (fmt : Nat) (sparse : Bool) : Nat :=
  (if fmt == 8 || fmt == 9 then 128 else if fmt == 14 || fmt == 15 then 512 else 256) * (if sparse then 2 else 1)

/-- The shape fields of TLOAD and TZERO (Table 15.6, R333, R339). -/
def tileShapeOk (f : XFields) : Bool :=
  let fmt := f.immBits 0 4
  let sp := f.immBits 4 1 == 1
  let bs := f.immBits 5 1 == 1
  f.immBits 16 2 == 0 && tileFormat fmt && (if fmt == 14 then bs else !bs || fmt == 12 || fmt == 13) &&
  32 * (f.immBits 6 5 + 1) ≤ tileCapacity fmt sp

/-- MMUL's C field (R343). -/
def mmulScales (f : XFields) : Bool :=
  let aet := f.immBits 0 4
  let bs := f.c.toNat / 8 % 2 == 1
  f.c.toNat < 16 && (if bs then aet == 12 || aet == 13 || aet == 14 else aet != 14 && f.c == 0)

/-- AROW + M at most 128 (R343). -/
def mmulRows (f : XFields) : Bool := f.immBits 11 7 + f.immBits 4 7 + 1 ≤ 128

/-- MDRAIN's fields (R349, Table 15.8). -/
def drainOk (f : XFields) : Bool :=
  let dt := f.immBits 0 4
  let rm := f.immBits 4 3
  let scaled := dt == 12 || dt == 13 || dt == 14
  f.immBits 14 4 == 0 && rm != 7 && (scaled || dt == 0 || dt == 2 || dt == 8 || dt == 9 || dt == 10) &&
  (rm == 0 || !(dt == 0 || dt == 2 || dt == 10 || dt == 14)) && (if scaled then f.c.toNat < 8 else f.c == 0)

/-! ### Paired words -/

/-- The ET codes a vector slot accepts (Table 4.11). -/
def VectorHop.accepts (h : VectorHop) (t : ElemType) : Bool :=
  match h with
  | .vmv => t.code < 14
  | .vfadd | .vfsub | .vfmul | .vfmin | .vfmax => t.isFloat
  | _ => t.isInt

/-- One slot alone (R114). -/
def Slot.ok : Slot → Bool
  | .scalar hop _ a imm => hop != .mov || imm.isNone || a == 0
  | .vector hop _ _ et _ _ => hop.accepts et

/-- A register's bank (R115). -/
def bank (r : RegIdx) : Nat := r.toNat % 4

/-- The bank rule of R115 for two slots of one class. -/
def slotBanks : Slot → Slot → Bool
  | .scalar _ d0 a0 _, .scalar _ d1 a1 _ => bank d0 != bank d1 && bank a0 != bank a1
  | .vector _ d0 a0 _ _ _, .vector _ d1 a1 _ _ _ => bank d0 != bank d1 && bank a0 != bank a1
  | _, _ => true

/-! ### The predicate -/

/-- The field checks of one instruction (Table 4.12, order 2), and for a step of the device the ranges of its arguments. -/
def Instr.wellFormed : Instr → Bool
  | .add f | .sub f | .sll f | .mul f => (scalarSpec .scalar .none true f).accepts f
  | .and f | .or f | .xor f | .srl f | .sra f | .slt f | .sltn f | .min f | .max f | .minn f | .maxn f | .mulh f
  | .mulhn f | .div f | .rem f | .divn f | .remn f => (scalarSpec .scalar .none false f).accepts f
  | .clz f | .ctz f | .popc f | .brev f => (scalarSpec .none .none false f).accepts f
  | .sel f => (scalarSpec .scalar .scalar false f).accepts f
  | .addi _ | .andi _ | .ori _ | .xori _ | .slti _ | .lih _ => true
  | .slli f | .srli f | .srai f => f.imm.toNat < 64
  | .li f => f.a == 0
  | .beq f | .bne f | .blt f | .bge f | .bltn f | .bgen f => f.d == 0
  | .jmp f => f.d == 0 && f.a == 0 && f.b == 0
  | .jal f => f.a == 0 && f.b == 0
  | .jr f => f.b == 0
  | .ret f => f.d == 0 && f.a == 0 && f.b == 0 && f.off == 0
  | .loop f => f.d == 0 && f.b == 0
  | .loopp f => f.d.toNat < 16 && (f.d.toNat < 8 || f.b == 0)
  | .lcnt f => f.a == 0 && f.b == 0 && f.off == 0
  | .bcq f => f.d == 0 && f.a.toNat < 2 && f.b == 0
  | .vdecl f => (configSpec .none .none true).accepts f
  | .vsetl f => (configSpec .scalar .scalar (f.aux == 0)).accepts f
  | .vsetlq f => (configSpec .none .none (f.aux == 0)).accepts f
  | .vgetmax f | .lqpop f | .cqpop f => (configSpec .scalar .none (f.aux == 0)).accepts f
  | .vadd f | .vsub f | .vmul f | .vmac f => (intSpec .vector .vector true f).accepts f
  | .vmulh f | .vmin f | .vmax f | .vand f | .vor f | .vxor f | .vsll f | .vsrl f | .vsra f | .vdiv f | .vrem f =>
    (intSpec .vector .vector false f).accepts f
  | .vwmac f => (vectorSpec .vector .vector .vector .none etWiden .never true (f.aux == 0)).accepts f
  | .vwmul f => (vectorSpec .vector .vector .vector .none etWiden .never false (f.aux == 0)).accepts f
  | .vadds f | .vsubs f => (intSpec .vector .scalar true f).accepts f
  | .vabs f => f.et.code < 4 && (intSpec .vector .none true f).accepts f
  | .vneg f => (intSpec .vector .none true f).accepts f
  | .vclz f | .vpopc f => (intSpec .vector .none false f).accepts f
  | .vsel f =>
    RSpec.accepts { vectorSpec .vector .vector .vector .none etMove .never false (f.aux == 0) with masks := .required } f
  | .vmv f => (vectorSpec .vector .vector .none .none etMove .never false (f.aux == 0)).accepts f
  | .vbcast f => (vectorSpec .vector .scalar .none .none etMove .never false (f.aux == 0)).accepts f
  | .vid f => (intSpec .none .none false f).accepts f
  | .vcmp f => (vectorSpec .mask .vector .vector .none ElemType.isInt .never false (f.aux.toNat < 6)).accepts f
  | .vfadd f | .vfsub f | .vfmul f | .vfdiv f => (floatSpec .vector .none ElemType.isFloat .all f).accepts f
  | .vfma f | .vfms f | .vfnma f => (floatSpec .vector .vector ElemType.isFloat .all f).accepts f
  | .vfmin f | .vfmax f => (floatSpec .vector .none ElemType.isFloat .never f).accepts f
  | .vfcmp f => (vectorSpec .mask .vector .vector .none ElemType.isFloat .never false (f.aux.toNat < 8)).accepts f
  | .vfclass f | .vfabs f | .vfneg f => (floatSpec .none .none ElemType.isFloat .never f).accepts f
  | .vfsqrt f | .vfrcp f => (floatSpec .none .none ElemType.isFloat .all f).accepts f
  | .vfrsq f | .vexp2 f | .vlog2 f | .vexp f | .vlog f | .vtanh f => (floatSpec .none .none etSpecial .never f).accepts f
  | .vcvt f => (cvtSpec f).accepts f
  | .vquant f =>
    (vectorSpec .vector .vector .none .scale (fun t => t == .k4 || t.isFp8) (if f.et == .k4 then .never else .all) false
      (f.aux == 0)).accepts f
  | .vdeq f =>
    (vectorSpec .vector .vector .none .scale etSpecial .all false (12 ≤ f.aux.toNat && f.aux.toNat < 15)).accepts f
  | .vmand f | .vmor f | .vmxor f => (maskSpec .mask .mask .mask (f.aux == 0)).accepts f
  | .vmnot f => (maskSpec .mask .mask .none (f.aux == 0)).accepts f
  | .vmpre f | .vminc f | .vmone f => (maskSpec .mask .mask .none (auxBit f)).accepts f
  | .vmpop f | .vmfirst f => (countSpec f).accepts f
  | .vanyq f | .vallq f => (maskSpec .none .mask .none (f.aux == 0)).accepts f
  | .vmset f | .vmclr f => (maskSpec .mask .none .none (f.aux == 0)).accepts f
  | .vslideup f | .vslidedn f => (vectorSpec .vector .vector .scalar .none etMove .never false (f.aux == 0)).accepts f
  | .vperm f => (vectorSpec .vector .vector .vector .none etMove .never false (f.aux == 0)).accepts f
  | .vpushl f =>
    (vectorSpec .vector .vector .vector (if f.aux == 1 then .mask else .none) etMove .never false (auxBit f)).accepts f
  | .vcompr f | .vexpnd f => (vectorSpec .vector .vector .none .none etMove .never false (f.aux == 0)).accepts f
  | .vrec f =>
    RSpec.accepts { vectorSpec .vector .vector .vector .none etArith (if f.et.isFloat then .all else .never) f.et.isInt
      (f.aux == 0) with masks := .refused } f
  | .vredsum f => (reduceSpec etArith true (f.aux == 0) f).accepts f
  | .vredmax f | .vredmin f => (reduceSpec etArith false (f.aux == 0) f).accepts f
  | .vredand f | .vredor f => (reduceSpec ElemType.isInt false (f.aux == 0) f).accepts f
  | .vscan f => (scanSpec f).accepts f
  | .vbsort f | .vbmerge f => (sortSpec f).accepts f
  | .vtopk f =>
    (vectorSpec .vector .vector .scalar .vector (if f.aux == 1 then (· == .f32) else etArith) .never false
      (auxBit f)).accepts f
  | .vgtopk f => (vectorSpec .vector .vector .scalar .vector (· == .f32) .never false (f.aux == 0)).accepts f
  | .vsprs f =>
    (vectorSpec .vector .vector .none .vector (fun t => t == .i8 || t == .bf16 || t == .f16 || t.isFp8) .never false
      (f.aux == 0)).accepts f
  | .ldb f | .ldh f | .ldw f | .ldd f | .ldbn f | .ldhn f | .ldwn f | .stb f | .sth f | .stw f | .std f => memScalar f
  | .vld f => memVector f [0, 1, 2, 4, 5] false (fun _ => true)
  | .vldff f => memVector f [3] false (fun _ => true)
  | .vst f => memVector f [0, 1, 2, 4] true (fun _ => true)
  | .vrstore f => memReduce f
  | .pref f => f.d == 0 && memScalar f
  | .vpref f => f.d == 0 && memVector f [0, 1, 2] false etMove
  | .aadd f | .aand f | .aor f | .axor f | .amin f | .amax f | .aminn f | .amaxn f | .axchg f | .acas f => memAtomic f
  | .vaadd f | .vamin f | .vamax f =>
    memVector f [0, 1, 2] true (fun t => etCount t || t == .f32)
  | .phase f | .phasew f =>
    f.regs false false false false && f.sc.toNat < 6 && !f.acq && !f.rel && !f.masked && f.imm == 0
  | .phasea f => f.regs true false false false && f.sc.toNat < 6 && !f.acq && !f.rel && !f.masked && f.imm == 0
  | .fence f => f.regs false false false false && f.sc.toNat < 6 && (f.acq || f.rel) && !f.masked && f.imm == 0
  | .waitw f =>
    f.regs true true true false && f.sc.toNat < 6 && (f.acq || f.sc == 0) && !f.rel && !f.masked && f.imm.toNat < 4
  | .esub f | .ewait f | .epoll f => f.regs true true false false && f.plain false false
  | .ecmd f => f.regs true true false true && f.plain true false
  | .tload f =>
    f.d.toNat < 4 && f.regs true true true false && f.plain false true && tileShapeOk f &&
    (f.immBits 15 1 == 1 || f.immBits 12 3 == 0)
  | .tzero f => f.d.toNat < 4 && f.regs true false false false && f.plain false true && tileShapeOk f && f.immBits 11 5 == 0
  | .mmul f =>
    f.d.toNat < 4 && f.b.toNat < 4 && f.plain true true && tileFormat (f.immBits 0 4) && mmulScales f && mmulRows f
  | .mmuls f =>
    f.d.toNat < 4 && f.b.toNat < 4 && f.plain true true && tileFormat (f.immBits 0 4) && f.immBits 0 4 < 14 && mmulRows f
  | .mdrain f => f.a.toNat < 4 && f.regs true true false true && f.plain true true && drainOk f
  | .mzero f =>
    f.d.toNat < 4 && f.regs true false false false && f.plain false true && f.immBits 14 4 == 0 &&
    f.immBits 0 7 + f.immBits 7 7 + 1 ≤ 128
  | .esets f => f.d.toNat < 8 && f.regs true true false false && f.plain false true && f.imm.toNat < 64
  | .esetv f => f.d.toNat < 8 && f.regs true true false false && f.plain true false
  | .xopen f => f.regs true true false false && f.plain false false
  | .xsplit f | .xsample f => f.regs true true false false && f.plain false true && f.imm.toNat < 16
  | .xsend f => f.regs false true true true && f.plain true true && f.imm.toNat < 16
  | .xsendq f => f.regs false true true false && f.plain true true && f.imm.toNat < 16
  | .xfloor f => f.regs false true false false && f.plain false true && f.imm.toNat < 16
  | .xround f | .xclose f => f.regs false false false false && f.plain false true && f.imm.toNat < 16
  | .xrecv f => f.regs true true true false && f.plain false true && f.imm.toNat < 16
  | .xstat f => f.regs true false false false && f.plain false true && f.imm.toNat < 64
  | .xrebal f => f.regs false false false false && f.plain false true && f.imm.toNat < 48
  | .launch f =>
    f.regs true true false false && f.plain false true && f.imm.toNat < 128 && (f.immBits 6 1 == 0 || f.immBits 4 2 == 0)
  | .tnext f => f.regs true false false false && f.plain false false
  | .tqget f => f.regs true false false false && f.sc == 0 && !f.rel && !f.masked && f.imm == 0
  | .tqput f => f.regs true true true false && f.sc == 0 && !f.acq && !f.masked && f.imm == 0
  | .widr f => f.regs true false false false && f.plain false true && f.imm.toNat < 8 && f.imm != 6
  | .hexit f => f.regs false false false false && f.plain false false
  | .trap f => f.regs false false false false && f.plain false true
  | .tret f => f.regs false false false false && f.plain false false
  | .csrr f => f.regs true false false false && f.plain false true && csrListed f.imm.toNat
  | .csrw f | .csrs f | .csrc f => f.regs false true false false && f.plain false true && csrListed f.imm.toNat
  | .tsave f => f.regs false true false false && f.plain false false
  | .trstr f | .dstop f => f.regs true true false false && f.plain false false
  | .wfe f => f.regs false true false false && f.plain false true && f.imm.toNat < 2 ^ 16
  | .rsplit f | .rres f | .rcompact f => f.regs true true true false && f.plain false false
  | .rmerge f | .rseal f => f.regs true true false false && f.plain false false
  | .rinval f => f.regs false true true false && f.sc.toNat < 6 && !f.acq && !f.rel && !f.masked && f.imm == 0
  | .rprobe f => f.regs true true false false && f.plain false true && f.imm.toNat < 4
  | .nop _ _ => true
  | .pairedWord x y => x.ok && y.ok && slotBanks x y
  | .hartPlacement _ _ seat | .hartResume _ _ seat =>
    seat.cluster.toNat < 12 && seat.lanes != 0
  | .coreVacate d cl k => d < 4 && cl < 12 && k < 8
  | .phaseGroupVacate _ scope _ => 1 ≤ scope && scope ≤ 5
  | .windowBRead _ n => 0 < n
  | .windowBWrite _ data | .registerWrite _ data => !data.isEmpty
  | .windowBAtomic _ _ n _ _ => n == 4 || n == 8
  | .flitReceive _ x => x.payload.length == 56
  | .mergeInputArrival x _ _ _ | .mergePointEmit x _ _ | .whiskDeliver x _ | .roundClose x | .exchangeClose x => x < 16
  | .ingressRecord d x | .batchPublish d x | .ringReleaseWrite d x => d < 4 && x < 16
  | .compactionSwing c | .compactionAbandon c => c < 4
  | .matrixStateSwap _ | .wfeTimeout _ | .vectorMicroOpIssue _ | .preemptInterrupt _ | .stripstop _ | .sampleTag _
  | .sampbufRead _ | .pmuRegisterWrite _ _ _ _ | .rotbWrite _ _ | .gregWrite _ _ | .seedWrite _ _ | .acfgWrite _ _
  | .queueStatusWrite _ _ _ | .engineNodeStart _ _ | .engineNodeFinish _ _ | .nodeNeverReleased _ | .deviceReset _
  | .tailFetchadd _ _ _ _ | .slotWrite _ _ _ | .qctlWrite _ _ | .latloWrite _ _ | .lathiWrite _ _ | .tvecdWrite _ _
  | .takePosition _ | .launchComplete _ | .replayAbandon _ | .msixVectorUnmask _ | .ident | .areas | .readlog | .counters
  | .attlog | .quote | .vacate | .endlaunch | .debug | .sysgrp | .launches | .fwload | .unknownCommand
  | .mailboxCommandDone | .flheadWrite _ | .remoteLoadRequest _ | .remoteStoreRequest _ | .remoteAtomicRequest _
  | .remoteResponse _ | .peerTimeout _ | .hostCompletion _ _ _ | .linkDown _ | .laneFailure _
  | .softErrorDetected _ _ | .cycleEventOverflow _ _ | .wfeOtherEvent _ => true

end Sys2Proof
end

