-- ==== Sys2Proof/Decode.lean ====
section
/-! DEFINITION. Decoding (Tables 4.1 to 4.12): from any 64 bits, or any bytes, to an instruction or a refusal by name, and
the encoder written from the same tables. The checks of orders 3 and 4 of Table 4.12 read the hart's state and stand in the
machine (Sys2Proof/Machine/Operands.lean). -/

namespace Sys2Proof

/-- Why 64 bits are no instruction: the checks of Table 4.12 that need no state, in their order. Both trap ILLOP. -/
inductive DecodeError where
  /-- Order 1: MAJ, FN, CC, FN8 or HOP not allocated, or a paired word with bit 0 set. -/
  | unallocated
  /-- Order 2: a field holds a value that the entry does not allow. -/
  | illegalField
  /-- Fewer than eight bytes were given to `decodeBytes`; a fetched word always has eight. -/
  | short
  deriving DecidableEq, Repr

/-- Bits `lo + n - 1` to `lo` of a word. -/
abbrev bitsAt (w : Word) (lo n : Nat) : BitVec n := w.extractLsb' lo n

/-- Bit `i` of a word. -/
abbrev bitAt (w : Word) (i : Nat) : Bool := w.getLsbD i

/-- The fields of an R-format word; RM = 111 names no rounding mode (Tables 4.1 and 4.2). -/
def fieldsR (w : Word) : Option RFields :=
  match RoundMode.ofCode (bitsAt w 9 3).toNat with
  | none => none
  | some rm =>
    some { d := bitsAt w 50 6, a := bitsAt w 44 6, b := bitsAt w 38 6, c := bitsAt w 32 6, masked := bitAt w 31,
           mr := bitsAt w 28 3, xa := bitAt w 27, xb := bitAt w 26, gd := bitAt w 25,
           et := ElemType.ofCode (bitsAt w 21 4).toNat, gm := bitsAt w 19 2, rm := rm, sat := bitAt w 8,
           gs := bitsAt w 5 3, aux4 := bitAt w 4, aux := bitsAt w 0 4 }

/-- The fields of an I-format word; bits 39:32 are reserved (Table 4.3). -/
def fieldsI (w : Word) : Option IFields :=
  if bitsAt w 32 8 == 0 then some { d := bitsAt w 50 6, a := bitsAt w 44 6, imm := bitsAt w 0 32 } else none

/-- The fields of an M-format word (Table 4.4). -/
def fieldsM (w : Word) : Option MFields :=
  some { d := bitsAt w 50 6, a := bitsAt w 44 6, b := bitsAt w 38 6, masked := bitAt w 31, mr := bitsAt w 28 3,
         xb := bitAt w 27, xd := bitAt w 26, gd := bitAt w 25, et := ElemType.ofCode (bitsAt w 21 4).toNat,
         gm := bitsAt w 19 2, am := bitsAt w 16 3, ch := bitsAt w 12 4, gs := bitsAt w 9 3, off := bitsAt w 0 9 }

/-- The fields of a J-format word; bits 37:36 are reserved (Table 4.6). -/
def fieldsJ (w : Word) : Option JFields :=
  if bitsAt w 36 2 == 0 then
    some { d := bitsAt w 50 6, a := bitsAt w 44 6, b := bitsAt w 38 6, off := bitsAt w 0 32 }
  else none

/-- The fields of an X-format word (Table 4.6a). -/
def fieldsX (w : Word) : Option XFields :=
  some { d := bitsAt w 50 6, a := bitsAt w 44 6, b := bitsAt w 38 6, c := bitsAt w 32 6, sc := bitsAt w 21 3,
         acq := bitAt w 20, rel := bitAt w 19, masked := bitAt w 18, imm := bitsAt w 0 18 }

/-- The R-format entries of Table 4.11a: the instruction of a MAJ and a function value. -/
def opcodeR (maj fn : Nat) : Option (RFields → Instr) :=
  match maj, fn with
  | 0x00, 0 => some .add | 0x00, 1 => some .sub | 0x00, 2 => some .and | 0x00, 3 => some .or
  | 0x00, 4 => some .xor | 0x00, 5 => some .sll | 0x00, 6 => some .srl | 0x00, 7 => some .sra
  | 0x00, 8 => some .slt | 0x00, 9 => some .sltn | 0x00, 10 => some .min | 0x00, 11 => some .max
  | 0x00, 12 => some .minn | 0x00, 13 => some .maxn | 0x00, 14 => some .mul | 0x00, 15 => some .mulh
  | 0x00, 16 => some .mulhn | 0x00, 17 => some .clz | 0x00, 18 => some .ctz | 0x00, 19 => some .popc
  | 0x00, 20 => some .brev | 0x00, 21 => some .sel
  | 0x01, 0 => some .div | 0x01, 1 => some .rem | 0x01, 2 => some .divn | 0x01, 3 => some .remn
  | 0x05, 0 => some .vdecl | 0x05, 1 => some .vsetl | 0x05, 2 => some .vsetlq | 0x05, 3 => some .vgetmax
  | 0x05, 4 => some .lqpop | 0x05, 5 => some .cqpop
  | 0x10, 0 => some .vadd | 0x10, 1 => some .vsub | 0x10, 2 => some .vmul | 0x10, 3 => some .vmulh
  | 0x10, 4 => some .vmac | 0x10, 5 => some .vwmac | 0x10, 6 => some .vwmul | 0x10, 7 => some .vadds
  | 0x10, 8 => some .vsubs | 0x10, 9 => some .vmin | 0x10, 10 => some .vmax | 0x10, 11 => some .vabs
  | 0x10, 12 => some .vneg | 0x10, 13 => some .vand | 0x10, 14 => some .vor | 0x10, 15 => some .vxor
  | 0x10, 16 => some .vsll | 0x10, 17 => some .vsrl | 0x10, 18 => some .vsra | 0x10, 19 => some .vclz
  | 0x10, 20 => some .vpopc | 0x10, 21 => some .vsel | 0x10, 22 => some .vmv | 0x10, 23 => some .vbcast
  | 0x10, 24 => some .vid | 0x10, 25 => some .vcmp
  | 0x11, 0 => some .vdiv | 0x11, 1 => some .vrem
  | 0x12, 0 => some .vfadd | 0x12, 1 => some .vfsub | 0x12, 2 => some .vfmul | 0x12, 3 => some .vfma
  | 0x12, 4 => some .vfms | 0x12, 5 => some .vfnma | 0x12, 6 => some .vfmin | 0x12, 7 => some .vfmax
  | 0x12, 8 => some .vfcmp | 0x12, 9 => some .vfclass | 0x12, 10 => some .vfabs | 0x12, 11 => some .vfneg
  | 0x13, 0 => some .vfdiv | 0x13, 1 => some .vfsqrt | 0x13, 2 => some .vfrcp | 0x13, 3 => some .vfrsq
  | 0x13, 4 => some .vexp2 | 0x13, 5 => some .vlog2 | 0x13, 6 => some .vexp | 0x13, 7 => some .vlog
  | 0x13, 8 => some .vtanh
  | 0x14, 0 => some .vcvt | 0x14, 1 => some .vquant | 0x14, 2 => some .vdeq
  | 0x15, 0 => some .vmand | 0x15, 1 => some .vmor | 0x15, 2 => some .vmxor | 0x15, 3 => some .vmnot
  | 0x15, 4 => some .vmpre | 0x15, 5 => some .vminc | 0x15, 6 => some .vmone | 0x15, 7 => some .vmpop
  | 0x15, 8 => some .vmfirst | 0x15, 9 => some .vanyq | 0x15, 10 => some .vallq | 0x15, 11 => some .vmset
  | 0x15, 12 => some .vmclr
  | 0x16, 0 => some .vslideup | 0x16, 1 => some .vslidedn | 0x16, 2 => some .vperm | 0x16, 3 => some .vpushl
  | 0x16, 4 => some .vcompr | 0x16, 5 => some .vexpnd | 0x16, 6 => some .vrec
  | 0x17, 0 => some .vredsum | 0x17, 1 => some .vredmax | 0x17, 2 => some .vredmin | 0x17, 3 => some .vredand
  | 0x17, 4 => some .vredor | 0x17, 5 => some .vscan
  | 0x18, 0 => some .vbsort | 0x18, 1 => some .vbmerge | 0x18, 2 => some .vtopk | 0x18, 3 => some .vgtopk
  | 0x18, 4 => some .vsprs
  | _, _ => none

/-- The I-format entries of Table 4.11a: the instruction of a MAJ and a function value. -/
def opcodeI (maj fn : Nat) : Option (IFields → Instr) :=
  match maj, fn with
  | 0x02, 0 => some .addi | 0x02, 1 => some .andi | 0x02, 2 => some .ori | 0x02, 3 => some .xori
  | 0x02, 4 => some .slli | 0x02, 5 => some .srli | 0x02, 6 => some .srai | 0x02, 7 => some .slti
  | 0x02, 8 => some .li | 0x02, 9 => some .lih
  | _, _ => none

/-- The M-format entries of Table 4.11a: the instruction of a MAJ and a function value. -/
def opcodeM (maj fn : Nat) : Option (MFields → Instr) :=
  match maj, fn with
  | 0x20, 0 => some .ldb | 0x20, 1 => some .ldh | 0x20, 2 => some .ldw | 0x20, 3 => some .ldd
  | 0x20, 4 => some .ldbn | 0x20, 5 => some .ldhn | 0x20, 6 => some .ldwn | 0x20, 7 => some .stb
  | 0x20, 8 => some .sth | 0x20, 9 => some .stw | 0x20, 10 => some .std
  | 0x21, 0 => some .vld | 0x21, 1 => some .vldff
  | 0x22, 0 => some .vst | 0x22, 1 => some .vrstore
  | 0x23, 0 => some .pref | 0x23, 1 => some .vpref
  | 0x24, 0 => some .aadd | 0x24, 1 => some .aand | 0x24, 2 => some .aor | 0x24, 3 => some .axor
  | 0x24, 4 => some .amin | 0x24, 5 => some .amax | 0x24, 6 => some .aminn | 0x24, 7 => some .amaxn
  | 0x24, 8 => some .axchg | 0x24, 9 => some .acas
  | 0x25, 0 => some .vaadd | 0x25, 1 => some .vamin | 0x25, 2 => some .vamax
  | _, _ => none

/-- The J-format entries of Table 4.11a: the instruction of a MAJ and a function value. -/
def opcodeJ (maj fn : Nat) : Option (JFields → Instr) :=
  match maj, fn with
  | 0x03, 0 => some .beq | 0x03, 1 => some .bne | 0x03, 2 => some .blt | 0x03, 3 => some .bge
  | 0x03, 4 => some .bltn | 0x03, 5 => some .bgen
  | 0x04, 0 => some .jmp | 0x04, 1 => some .jal | 0x04, 2 => some .jr | 0x04, 3 => some .ret
  | 0x04, 4 => some .loop | 0x04, 5 => some .loopp | 0x04, 6 => some .lcnt | 0x04, 7 => some .bcq
  | _, _ => none

/-- The X-format entries of Table 4.11a: the instruction of a MAJ and a function value. -/
def opcodeX (maj fn : Nat) : Option (XFields → Instr) :=
  match maj, fn with
  | 0x30, 0 => some .phase | 0x30, 1 => some .phasea | 0x30, 2 => some .phasew | 0x30, 3 => some .fence
  | 0x30, 4 => some .waitw
  | 0x31, 0 => some .esub | 0x31, 1 => some .ecmd | 0x31, 2 => some .ewait | 0x31, 3 => some .epoll
  | 0x32, 0 => some .tload | 0x32, 1 => some .tzero | 0x32, 2 => some .mmul | 0x32, 3 => some .mmuls
  | 0x32, 4 => some .mdrain | 0x32, 5 => some .mzero | 0x32, 6 => some .esets | 0x32, 7 => some .esetv
  | 0x33, 0 => some .xopen | 0x33, 1 => some .xsplit | 0x33, 2 => some .xsend | 0x33, 3 => some .xsendq
  | 0x33, 4 => some .xfloor | 0x33, 5 => some .xround | 0x33, 6 => some .xrecv | 0x33, 7 => some .xstat
  | 0x33, 8 => some .xsample | 0x33, 9 => some .xrebal | 0x33, 10 => some .xclose
  | 0x34, 0 => some .launch | 0x34, 1 => some .tnext | 0x34, 2 => some .tqget | 0x34, 3 => some .tqput
  | 0x34, 4 => some .widr | 0x34, 5 => some .hexit
  | 0x38, 0 => some .trap | 0x38, 1 => some .tret | 0x38, 2 => some .csrr | 0x38, 3 => some .csrw
  | 0x38, 4 => some .csrs | 0x38, 5 => some .csrc | 0x38, 6 => some .tsave | 0x38, 7 => some .trstr
  | 0x38, 8 => some .wfe | 0x38, 9 => some .dstop
  | 0x39, 0 => some .rsplit | 0x39, 1 => some .rmerge | 0x39, 2 => some .rinval | 0x39, 3 => some .rseal
  | 0x39, 4 => some .rres | 0x39, 5 => some .rprobe | 0x39, 6 => some .rcompact
  | _, _ => none

/-- The scalar operation of a HOP (Table 4.11). -/
def scalarHopOf : Nat → Option ScalarHop
  | 0 => some .add | 1 => some .sub | 2 => some .and | 3 => some .or | 4 => some .xor | 5 => some .sll | 6 => some .srl
  | 7 => some .sra | 8 => some .mov | 9 => some .min | 10 => some .max | 11 => some .minn | 12 => some .maxn
  | 13 => some .mul | 14 => some .slt | 15 => some .sltn | _ => none

/-- The vector operation of a HOP (Table 4.11). -/
def vectorHopOf : Nat → Option VectorHop
  | 0 => some .vadd | 1 => some .vsub | 2 => some .vmul | 3 => some .vand | 4 => some .vor | 5 => some .vxor
  | 6 => some .vmin | 7 => some .vmax | 8 => some .vmv | 9 => some .vfadd | 10 => some .vfsub | 11 => some .vfmul
  | 12 => some .vfmin | 13 => some .vfmax | 14 => some .vsll | 15 => some .vsrl | _ => none

/-- The HOP code of a scalar operation (Table 4.11). -/
def ScalarHop.code : ScalarHop → BitVec 6
  | .add => 0 | .sub => 1 | .and => 2 | .or => 3 | .xor => 4 | .sll => 5 | .srl => 6 | .sra => 7 | .mov => 8
  | .min => 9 | .max => 10 | .minn => 11 | .maxn => 12 | .mul => 13 | .slt => 14 | .sltn => 15

/-- The HOP code of a vector operation (Table 4.11). -/
def VectorHop.code : VectorHop → BitVec 6
  | .vadd => 0 | .vsub => 1 | .vmul => 2 | .vand => 3 | .vor => 4 | .vxor => 5 | .vmin => 6 | .vmax => 7 | .vmv => 8
  | .vfadd => 9 | .vfsub => 10 | .vfmul => 11 | .vfmin => 12 | .vfmax => 13 | .vsll => 14 | .vsrl => 15

/-- One slot of a paired word from its 31 bits (Table 4.10). -/
def decodeSlot (v : BitVec 31) : Except DecodeError Slot :=
  let d := v.extractLsb' 18 6
  let a := v.extractLsb' 12 6
  if v.getLsbD 30 then
    match vectorHopOf (v.extractLsb' 24 6).toNat with
    | none => .error .unallocated
    | some hop =>
      if v.extractLsb' 0 6 == 0 then
        .ok (.vector hop d a (ElemType.ofCode (v.extractLsb' 8 4).toNat) (v.getLsbD 7) (v.getLsbD 6))
      else .error .illegalField
  else
    match scalarHopOf (v.extractLsb' 24 6).toNat with
    | none => .error .unallocated
    | some hop =>
      if v.getLsbD 11 then .ok (.scalar hop d a (some (v.extractLsb' 0 11)))
      else if v.extractLsb' 0 11 == 0 then .ok (.scalar hop d a none)
      else .error .illegalField

/-- A step with its field checks (Table 4.12, order 2). -/
def checked (i : Instr) : Except DecodeError Instr := if i.wellFormed then .ok i else .error .illegalField

/-- A paired word (R113, R114). An unallocated HOP of either slot comes before every field check (Table 4.12). -/
def decodePaired (w : Word) : Except DecodeError Instr :=
  if bitAt w 0 then .error .unallocated
  else
    match decodeSlot (bitsAt w 32 31), decodeSlot (bitsAt w 1 31) with
    | .error .unallocated, _ => .error .unallocated
    | _, .error .unallocated => .error .unallocated
    | .ok x, .ok y => checked (.pairedWord x y)
    | _, _ => .error .illegalField

/-- The instruction `op` allocates, with the fields of its format (Table 4.12, orders 1 and 2). -/
def decodeFields {α : Type} (op : Option (α → Instr)) (fields : Option α) : Except DecodeError Instr :=
  match op with
  | none => .error .unallocated
  | some mk =>
    match fields with
    | none => .error .illegalField
    | some f => checked (mk f)

/-- The format of a major opcode (Table 4.11a). -/
inductive Format where
  | r | i | m | j | x
  deriving DecidableEq, Repr

/-- Table 4.11a's format column; none where the MAJ is not allocated. -/
def formatOf (maj : Nat) : Option Format :=
  if maj == 0x02 then some .i
  else if maj == 0x03 || maj == 0x04 then some .j
  else if maj ≤ 0x05 || (0x10 ≤ maj && maj ≤ 0x18) then some .r
  else if 0x20 ≤ maj && maj ≤ 0x25 then some .m
  else if (0x30 ≤ maj && maj ≤ 0x34) || maj == 0x38 || maj == 0x39 then some .x
  else none

/-- Decodes any 64 bits (R117, R118, R120 orders 1 and 2). -/
def decodeWord (w : Word) : Except DecodeError Instr :=
  if bitAt w 63 then decodePaired w
  else
    let maj := (bitsAt w 56 7).toNat
    if 0x7C ≤ maj then .ok (.nop (bitsAt w 56 2) (bitsAt w 0 56))
    else
      match formatOf maj with
      | none => .error .unallocated
      | some .r => decodeFields (opcodeR maj (bitsAt w 12 7).toNat) (fieldsR w)
      | some .i => decodeFields (opcodeI maj (bitsAt w 40 4).toNat) (fieldsI w)
      | some .m => decodeFields (opcodeM maj (bitsAt w 32 6).toNat) (fieldsM w)
      | some .j => decodeFields (opcodeJ maj (bitsAt w 32 4).toNat) (fieldsJ w)
      | some .x => decodeFields (opcodeX maj (bitsAt w 24 8).toNat) (fieldsX w)

/-- A little-endian number from bytes, the first byte the lowest (R5). -/
def ofBytesLE : List Byte → Nat
  | [] => 0
  | b :: bs => b.toNat + 256 * ofBytesLE bs

/-- The `n` little-endian bytes of a number (R5). -/
def toBytesLE : Nat → Nat → List Byte
  | 0, _ => []
  | n + 1, v => BitVec.ofNat 8 v :: toBytesLE n (v / 256)

/-- Decodes the instruction at the head of a list of bytes (R99) and leaves the rest. -/
def decodeBytes (bs : List Byte) : Except DecodeError (Instr × List Byte) :=
  if bs.length < 8 then .error .short
  else
    match decodeWord (BitVec.ofNat 64 (ofBytesLE (bs.take 8))) with
    | .ok i => .ok (i, bs.drop 8)
    | .error e => .error e

/-! ### The encoder -/

/-- The word of an R-format instruction (Table 4.1). -/
def packR (maj fn : BitVec 7) (f : RFields) : Word :=
  BitVec.ofBool false ++ maj ++ f.d ++ f.a ++ f.b ++ f.c ++ BitVec.ofBool f.masked ++ f.mr ++ BitVec.ofBool f.xa ++
  BitVec.ofBool f.xb ++ BitVec.ofBool f.gd ++ BitVec.ofNat 4 f.et.code ++ f.gm ++ fn ++ BitVec.ofNat 3 f.rm.code ++
  BitVec.ofBool f.sat ++ f.gs ++ BitVec.ofBool f.aux4 ++ f.aux

/-- The word of an I-format instruction (Table 4.3). -/
def packI (maj : BitVec 7) (fn : BitVec 4) (f : IFields) : Word :=
  BitVec.ofBool false ++ maj ++ f.d ++ f.a ++ fn ++ (0 : BitVec 8) ++ f.imm

/-- The word of an M-format instruction (Table 4.4). -/
def packM (maj : BitVec 7) (fn : BitVec 6) (f : MFields) : Word :=
  BitVec.ofBool false ++ maj ++ f.d ++ f.a ++ f.b ++ fn ++ BitVec.ofBool f.masked ++ f.mr ++ BitVec.ofBool f.xb ++
  BitVec.ofBool f.xd ++ BitVec.ofBool f.gd ++ BitVec.ofNat 4 f.et.code ++ f.gm ++ f.am ++ f.ch ++ f.gs ++ f.off

/-- The word of a J-format instruction (Table 4.6). -/
def packJ (maj : BitVec 7) (fn : BitVec 4) (f : JFields) : Word :=
  BitVec.ofBool false ++ maj ++ f.d ++ f.a ++ f.b ++ (0 : BitVec 2) ++ fn ++ f.off

/-- The word of an X-format instruction (Table 4.6a). -/
def packX (maj : BitVec 7) (fn : BitVec 8) (f : XFields) : Word :=
  BitVec.ofBool false ++ maj ++ f.d ++ f.a ++ f.b ++ f.c ++ fn ++ f.sc ++ BitVec.ofBool f.acq ++
  BitVec.ofBool f.rel ++ BitVec.ofBool f.masked ++ f.imm

/-- The 31 bits of a slot (Table 4.10). -/
def packSlot : Slot → BitVec 31
  | .scalar hop d a none => BitVec.ofBool false ++ hop.code ++ d ++ a ++ BitVec.ofBool false ++ (0 : BitVec 11)
  | .scalar hop d a (some imm) => BitVec.ofBool false ++ hop.code ++ d ++ a ++ BitVec.ofBool true ++ imm
  | .vector hop d a et mk xa =>
    BitVec.ofBool true ++ hop.code ++ d ++ a ++ BitVec.ofNat 4 et.code ++ BitVec.ofBool mk ++ BitVec.ofBool xa ++
    (0 : BitVec 6)

/-- The word of a paired word (Table 4.9). -/
def packPaired (x y : Slot) : Word := BitVec.ofBool true ++ packSlot x ++ packSlot y ++ BitVec.ofBool false

/-- The word of a hint: MAJ 0x7C to 0x7F (R118). -/
def packHint (h : BitVec 2) (b : BitVec 56) : Word := BitVec.ofBool false ++ (31 : BitVec 5) ++ h ++ b

/-- The word of an instruction of Flaica, from the layouts of Tables 4.1 to 4.10 and the map of Table 4.11a; a step that
is no instruction has none. -/
def encode : Instr → Option Word
  | .add f => some (packR 0x00 0 f) | .sub f => some (packR 0x00 1 f) | .and f => some (packR 0x00 2 f)
  | .or f => some (packR 0x00 3 f) | .xor f => some (packR 0x00 4 f) | .sll f => some (packR 0x00 5 f)
  | .srl f => some (packR 0x00 6 f) | .sra f => some (packR 0x00 7 f) | .slt f => some (packR 0x00 8 f)
  | .sltn f => some (packR 0x00 9 f) | .min f => some (packR 0x00 10 f) | .max f => some (packR 0x00 11 f)
  | .minn f => some (packR 0x00 12 f) | .maxn f => some (packR 0x00 13 f) | .mul f => some (packR 0x00 14 f)
  | .mulh f => some (packR 0x00 15 f) | .mulhn f => some (packR 0x00 16 f) | .clz f => some (packR 0x00 17 f)
  | .ctz f => some (packR 0x00 18 f) | .popc f => some (packR 0x00 19 f) | .brev f => some (packR 0x00 20 f)
  | .sel f => some (packR 0x00 21 f) | .div f => some (packR 0x01 0 f) | .rem f => some (packR 0x01 1 f)
  | .divn f => some (packR 0x01 2 f) | .remn f => some (packR 0x01 3 f) | .addi f => some (packI 0x02 0 f)
  | .andi f => some (packI 0x02 1 f) | .ori f => some (packI 0x02 2 f) | .xori f => some (packI 0x02 3 f)
  | .slli f => some (packI 0x02 4 f) | .srli f => some (packI 0x02 5 f) | .srai f => some (packI 0x02 6 f)
  | .slti f => some (packI 0x02 7 f) | .li f => some (packI 0x02 8 f) | .lih f => some (packI 0x02 9 f)
  | .beq f => some (packJ 0x03 0 f) | .bne f => some (packJ 0x03 1 f) | .blt f => some (packJ 0x03 2 f)
  | .bge f => some (packJ 0x03 3 f) | .bltn f => some (packJ 0x03 4 f) | .bgen f => some (packJ 0x03 5 f)
  | .jmp f => some (packJ 0x04 0 f) | .jal f => some (packJ 0x04 1 f) | .jr f => some (packJ 0x04 2 f)
  | .ret f => some (packJ 0x04 3 f) | .loop f => some (packJ 0x04 4 f) | .loopp f => some (packJ 0x04 5 f)
  | .lcnt f => some (packJ 0x04 6 f) | .bcq f => some (packJ 0x04 7 f) | .vdecl f => some (packR 0x05 0 f)
  | .vsetl f => some (packR 0x05 1 f) | .vsetlq f => some (packR 0x05 2 f)
  | .vgetmax f => some (packR 0x05 3 f) | .lqpop f => some (packR 0x05 4 f) | .cqpop f => some (packR 0x05 5 f)
  | .vadd f => some (packR 0x10 0 f) | .vsub f => some (packR 0x10 1 f) | .vmul f => some (packR 0x10 2 f)
  | .vmulh f => some (packR 0x10 3 f) | .vmac f => some (packR 0x10 4 f) | .vwmac f => some (packR 0x10 5 f)
  | .vwmul f => some (packR 0x10 6 f) | .vadds f => some (packR 0x10 7 f) | .vsubs f => some (packR 0x10 8 f)
  | .vmin f => some (packR 0x10 9 f) | .vmax f => some (packR 0x10 10 f) | .vabs f => some (packR 0x10 11 f)
  | .vneg f => some (packR 0x10 12 f) | .vand f => some (packR 0x10 13 f) | .vor f => some (packR 0x10 14 f)
  | .vxor f => some (packR 0x10 15 f) | .vsll f => some (packR 0x10 16 f) | .vsrl f => some (packR 0x10 17 f)
  | .vsra f => some (packR 0x10 18 f) | .vclz f => some (packR 0x10 19 f) | .vpopc f => some (packR 0x10 20 f)
  | .vsel f => some (packR 0x10 21 f) | .vmv f => some (packR 0x10 22 f) | .vbcast f => some (packR 0x10 23 f)
  | .vid f => some (packR 0x10 24 f) | .vcmp f => some (packR 0x10 25 f) | .vdiv f => some (packR 0x11 0 f)
  | .vrem f => some (packR 0x11 1 f) | .vfadd f => some (packR 0x12 0 f) | .vfsub f => some (packR 0x12 1 f)
  | .vfmul f => some (packR 0x12 2 f) | .vfma f => some (packR 0x12 3 f) | .vfms f => some (packR 0x12 4 f)
  | .vfnma f => some (packR 0x12 5 f) | .vfmin f => some (packR 0x12 6 f) | .vfmax f => some (packR 0x12 7 f)
  | .vfcmp f => some (packR 0x12 8 f) | .vfclass f => some (packR 0x12 9 f)
  | .vfabs f => some (packR 0x12 10 f) | .vfneg f => some (packR 0x12 11 f) | .vfdiv f => some (packR 0x13 0 f)
  | .vfsqrt f => some (packR 0x13 1 f) | .vfrcp f => some (packR 0x13 2 f) | .vfrsq f => some (packR 0x13 3 f)
  | .vexp2 f => some (packR 0x13 4 f) | .vlog2 f => some (packR 0x13 5 f) | .vexp f => some (packR 0x13 6 f)
  | .vlog f => some (packR 0x13 7 f) | .vtanh f => some (packR 0x13 8 f) | .vcvt f => some (packR 0x14 0 f)
  | .vquant f => some (packR 0x14 1 f) | .vdeq f => some (packR 0x14 2 f) | .vmand f => some (packR 0x15 0 f)
  | .vmor f => some (packR 0x15 1 f) | .vmxor f => some (packR 0x15 2 f) | .vmnot f => some (packR 0x15 3 f)
  | .vmpre f => some (packR 0x15 4 f) | .vminc f => some (packR 0x15 5 f) | .vmone f => some (packR 0x15 6 f)
  | .vmpop f => some (packR 0x15 7 f) | .vmfirst f => some (packR 0x15 8 f) | .vanyq f => some (packR 0x15 9 f)
  | .vallq f => some (packR 0x15 10 f) | .vmset f => some (packR 0x15 11 f)
  | .vmclr f => some (packR 0x15 12 f) | .vslideup f => some (packR 0x16 0 f)
  | .vslidedn f => some (packR 0x16 1 f) | .vperm f => some (packR 0x16 2 f)
  | .vpushl f => some (packR 0x16 3 f) | .vcompr f => some (packR 0x16 4 f)
  | .vexpnd f => some (packR 0x16 5 f) | .vrec f => some (packR 0x16 6 f) | .vredsum f => some (packR 0x17 0 f)
  | .vredmax f => some (packR 0x17 1 f) | .vredmin f => some (packR 0x17 2 f)
  | .vredand f => some (packR 0x17 3 f) | .vredor f => some (packR 0x17 4 f)
  | .vscan f => some (packR 0x17 5 f) | .vbsort f => some (packR 0x18 0 f)
  | .vbmerge f => some (packR 0x18 1 f) | .vtopk f => some (packR 0x18 2 f)
  | .vgtopk f => some (packR 0x18 3 f) | .vsprs f => some (packR 0x18 4 f) | .ldb f => some (packM 0x20 0 f)
  | .ldh f => some (packM 0x20 1 f) | .ldw f => some (packM 0x20 2 f) | .ldd f => some (packM 0x20 3 f)
  | .ldbn f => some (packM 0x20 4 f) | .ldhn f => some (packM 0x20 5 f) | .ldwn f => some (packM 0x20 6 f)
  | .stb f => some (packM 0x20 7 f) | .sth f => some (packM 0x20 8 f) | .stw f => some (packM 0x20 9 f)
  | .std f => some (packM 0x20 10 f) | .vld f => some (packM 0x21 0 f) | .vldff f => some (packM 0x21 1 f)
  | .vst f => some (packM 0x22 0 f) | .vrstore f => some (packM 0x22 1 f) | .pref f => some (packM 0x23 0 f)
  | .vpref f => some (packM 0x23 1 f) | .aadd f => some (packM 0x24 0 f) | .aand f => some (packM 0x24 1 f)
  | .aor f => some (packM 0x24 2 f) | .axor f => some (packM 0x24 3 f) | .amin f => some (packM 0x24 4 f)
  | .amax f => some (packM 0x24 5 f) | .aminn f => some (packM 0x24 6 f) | .amaxn f => some (packM 0x24 7 f)
  | .axchg f => some (packM 0x24 8 f) | .acas f => some (packM 0x24 9 f) | .vaadd f => some (packM 0x25 0 f)
  | .vamin f => some (packM 0x25 1 f) | .vamax f => some (packM 0x25 2 f) | .phase f => some (packX 0x30 0 f)
  | .phasea f => some (packX 0x30 1 f) | .phasew f => some (packX 0x30 2 f) | .fence f => some (packX 0x30 3 f)
  | .waitw f => some (packX 0x30 4 f) | .esub f => some (packX 0x31 0 f) | .ecmd f => some (packX 0x31 1 f)
  | .ewait f => some (packX 0x31 2 f) | .epoll f => some (packX 0x31 3 f) | .tload f => some (packX 0x32 0 f)
  | .tzero f => some (packX 0x32 1 f) | .mmul f => some (packX 0x32 2 f) | .mmuls f => some (packX 0x32 3 f)
  | .mdrain f => some (packX 0x32 4 f) | .mzero f => some (packX 0x32 5 f) | .esets f => some (packX 0x32 6 f)
  | .esetv f => some (packX 0x32 7 f) | .xopen f => some (packX 0x33 0 f) | .xsplit f => some (packX 0x33 1 f)
  | .xsend f => some (packX 0x33 2 f) | .xsendq f => some (packX 0x33 3 f) | .xfloor f => some (packX 0x33 4 f)
  | .xround f => some (packX 0x33 5 f) | .xrecv f => some (packX 0x33 6 f) | .xstat f => some (packX 0x33 7 f)
  | .xsample f => some (packX 0x33 8 f) | .xrebal f => some (packX 0x33 9 f)
  | .xclose f => some (packX 0x33 10 f) | .launch f => some (packX 0x34 0 f)
  | .tnext f => some (packX 0x34 1 f) | .tqget f => some (packX 0x34 2 f) | .tqput f => some (packX 0x34 3 f)
  | .widr f => some (packX 0x34 4 f) | .hexit f => some (packX 0x34 5 f) | .trap f => some (packX 0x38 0 f)
  | .tret f => some (packX 0x38 1 f) | .csrr f => some (packX 0x38 2 f) | .csrw f => some (packX 0x38 3 f)
  | .csrs f => some (packX 0x38 4 f) | .csrc f => some (packX 0x38 5 f) | .tsave f => some (packX 0x38 6 f)
  | .trstr f => some (packX 0x38 7 f) | .wfe f => some (packX 0x38 8 f) | .dstop f => some (packX 0x38 9 f)
  | .rsplit f => some (packX 0x39 0 f) | .rmerge f => some (packX 0x39 1 f)
  | .rinval f => some (packX 0x39 2 f) | .rseal f => some (packX 0x39 3 f) | .rres f => some (packX 0x39 4 f)
  | .rprobe f => some (packX 0x39 5 f) | .rcompact f => some (packX 0x39 6 f)
  | .nop h b => some (packHint h b)
  | .pairedWord x y => some (packPaired x y)
  | .matrixStateSwap _ | .mergeInputArrival _ _ _ _ | .mergePointEmit _ _ _ | .whiskDeliver _ _ | .roundClose _
  | .exchangeClose _ | .ingressRecord _ _ | .batchPublish _ _ | .ringReleaseWrite _ _ | .wfeTimeout _
  | .compactionSwing _ | .compactionAbandon _ | .vectorMicroOpIssue _ | .preemptInterrupt _ | .stripstop _
  | .sampleTag _ | .sampbufRead _ | .pmuRegisterWrite _ _ _ _ | .rotbWrite _ _ | .gregWrite _ _
  | .seedWrite _ _ | .acfgWrite _ _ | .queueStatusWrite _ _ _ | .hartPlacement _ _ _ | .coreVacate _ _ _
  | .phaseGroupVacate _ _ _ | .hartResume _ _ _ | .engineNodeStart _ _ | .engineNodeFinish _ _
  | .nodeNeverReleased _ | .deviceReset _ | .tailFetchadd _ _ _ _ | .slotWrite _ _ _ | .qctlWrite _ _
  | .latloWrite _ _ | .lathiWrite _ _ | .tvecdWrite _ _ | .registerWrite _ _ | .takePosition _
  | .launchComplete _ | .replayAbandon _ | .msixVectorUnmask _ | .windowBRead _ _ | .windowBWrite _ _
  | .windowBAtomic _ _ _ _ _ | .flheadWrite _ | .remoteLoadRequest _ | .remoteStoreRequest _
  | .remoteAtomicRequest _ | .remoteResponse _ | .peerTimeout _ | .hostCompletion _ _ _ | .flitReceive _ _
  | .linkDown _ | .laneFailure _ | .softErrorDetected _ _ | .cycleEventOverflow _ _ | .wfeOtherEvent _ | .ident
  | .areas | .readlog | .counters | .attlog | .quote | .vacate | .endlaunch | .debug | .sysgrp | .launches
  | .fwload | .unknownCommand | .mailboxCommandDone => none

/-- The word itself, for TVAL (R120). -/
def encodeWord (i : Instr) : Word := (encode i).getD 0

/-- The instruction this decoder reads from the bits `w` of an opcode-table row of `nbits` bits; the bits above are 0. -/
def decodeTableWord (nbits w : Nat) : Option Instr :=
  if nbits ≤ 64 then
    match decodeBytes (toBytesLE 8 w) with
    | .ok (i, _) => some i
    | .error _ => none
  else none

end Sys2Proof
end

