-- ==== Sys2Proof/Config.lean ====
section
/-! DEFINITION. What the spec leaves to the device: the FREE VALUES (opaque constants without a body: no proof can see
one) and the constants the model fixes where the spec gives none (each named in the assumption log). -/

namespace Sys2Proof.Config

/-- The free values of the device (log 2, DESIGN CHOICE). Where the spec states a set of outcomes and no rule that picks one (R8), or an
effect without its value, the model draws `freeNat n` for a counter `n` of the state that every draw advances. -/
opaque freeNat : Nat → Nat

/-- The functions whose result the spec bounds to the exact value or one of its two neighbours (R195, R229, R231). -/
inductive Faithful where
  | exp2 | log2 | exp | ln | tanh | rsqrt
  deriving DecidableEq, Repr

/-- The free threshold of a faithful function (log 3, DESIGN CHOICE): for a function, a format code (the ET of Table 4.7) and the bit
pattern of the neighbour nearer zero, the operand key from which the neighbour away from zero is returned. Every faithful
and monotonic function is one choice of these thresholds, and every choice is faithful and monotonic. -/
opaque faithfulThreshold : Faithful → Nat → Nat → Int

/-- The survivor among conflicting writes of one phase (R360): for a unit of memory and the numbers of the latest writes, the
same choice for every read (log 2, DESIGN CHOICE). -/
opaque conflictChoice : List Nat → Nat

/-- The fused digest of the boot ROM's public key (R69); the spec gives no key (log 4, DESIGN CHOICE). -/
opaque fusedDigest : List Byte

/-- The public key that a firmware image holds, X then Y, 48 bytes each, big-endian; its signature, r and s; and the bytes that it
signs (R69): the spec does not lay an image out (log 4, DESIGN CHOICE). -/
opaque imageKey : List Byte → List Byte
opaque imageSignature : List Byte → Nat × Nat
opaque imageSigned : List Byte → List Byte

/-- What the firmware derives the private identity key from, by the incarnation it derives it in (R69; log 4, DESIGN CHOICE). -/
opaque identitySecret : BitVec 16 → Nat

/-- The secret numbers of the signature of a digest (R52; log 4, DESIGN CHOICE). -/
opaque quoteNumber : List Byte → Nat → Nat

/-- The L2 slice of a line of a die's HBM (R266): the hash is not given (log 98, DESIGN CHOICE). -/
opaque l2Slice : Nat → Nat

/-- What a byte of storage that nothing has written reads as (log 5, DESIGN CHOICE, unsafe). -/
def unlistedByte : Byte := 0

end Sys2Proof.Config
end

