-- ==== Sys2Proof/Machine/State.lean ====
section
/-! DEFINITION. The state of one KH4 device as plain data: its harts with their registers, memory, launches, engines,
exchanges, host windows, fabric and logs; the faults and refusals; and the state right after reset. The comment on a field
names the rule of spec/ that gives the machine that state; a field marked MODEL is the model's own. -/

namespace Sys2Proof.Machine

/-- A finite map with numeric keys: pairs in strictly rising order of their keys (the order is kept by the operations of
Ops.lean). -/
abbrev Assoc (α : Type) := List (Nat × α)

/-- Memory: the bytes that differ from what an unlisted byte reads as, in strictly rising order of their numbers. Numbers
below 2^52 are device physical addresses (R265); the fixed local windows (R262) have numbers of their own above. -/
abbrev Mem := List Host.Cell

/-! ### The hart -/

/-- The trap causes of Table 24.3. -/
inductive Cause where
  | illop | priv | misalign | rmiss | rperm | rpartial | rcross | sealed | watch | group | sparsemeta | xorder | xstate
  | remote | peer | trapi | preempt | stripstop | dataerr | queue | tile
  deriving DecidableEq, Repr

/-- A level of the loop stack (R137); `pipe` holds Nn and St of a pipelined level. -/
structure LoopLevel where
  start : Word
  stop : Word
  count : Word
  pipe : Option (BitVec 32 × BitVec 4)
  deriving DecidableEq, Repr

/-- The length and condition queues (R130, R133), guards (R144) and loop stack, innermost level first (R137). `lqAt` is the
place of the oldest length in the queue's storage of 16 entries, whose 8-byte words hold two each (R267). -/
structure Control where
  lq : List (BitVec 32)
  lqAt : BitVec 4
  lqChk : Bool
  lqUnder : Bool
  cq : List Bool
  cqChk : Bool
  cqUnder : Bool
  greg : BitVec 8
  loops : List LoopLevel
  deriving DecidableEq, Repr

/-- The vector state: the architectural registers by physical position (R198, R143), the masks (R205), VL, VSTART (R201),
VCFG (R164) and ROTB (R143). -/
structure VectorState where
  v : Vector Bits 64
  m : Vector Bits 8
  len : BitVec 16
  ord : BitVec 32
  vstart : BitVec 16
  nvc : BitVec 2
  sewc : BitVec 2
  vlclass : BitVec 2
  qtr : BitVec 2
  lcmask : BitVec 4
  rotBase : BitVec 6
  rotSize : BitVec 7
  deriving DecidableEq, Repr

/-- A tile: data, headers (R330) and shape state (Table 15.2, bits 11:0). -/
structure Tile where
  data : Bits
  headers : Bits
  shape : BitVec 12
  deriving DecidableEq, Repr

/-- The matrix state of a hart (Table 15.1). -/
structure Matrix where
  t : Vector Tile 4
  acc : Vector Bits 4
  e : Vector (BitVec 1024) 8
  deriving DecidableEq, Repr

/-- ACFG, AFLAGS, GFLAGS and SEED (Table 24.5; R181, R184 to R186). -/
structure Arith where
  acfg : Word
  aflags : Word
  gflags : Word
  seed : Word
  deriving DecidableEq, Repr

/-- The trap state (R438) with TVEC (R442), the debug stop request (R449) and the pending interrupt sources (R443): bit n
of `irq` for counter n, bit 16 for the sample buffer. `due` says that a source was pending at the TRET the hart has just made
(R441). `stripAt` is the instruction at which the STRIPSTOP being handled was taken, and `stripDone` says that the hart has
just returned to it by TRET (R449). -/
structure TrapState where
  prv : Bool
  cause : BitVec 8
  tval : Word
  tpc : Word
  tvstart : BitVec 16
  tvec : Word
  sstop : Bool
  dreq : Bool
  irq : BitVec 17
  due : Bool
  stripAt : Option Word
  stripDone : Bool
  deriving DecidableEq, Repr

/-- The watchpoints (R276). -/
structure Watch where
  lo : Vector Word 4
  hi : Vector Word 4
  cfg : Word
  deriving DecidableEq, Repr

/-- Sampling (R478 to R480) and counters (R481). `strip` is the address of the VSETL or VSETLQ that opened the strip (R168),
`countdown` the sampling countdown (none: to be loaded), `tagged` the VSTART at which the instruction was tagged, `untag` the
tagged instruction that has stopped and is not tagged again when it resumes, `ops` the micro-operations queued and not yet
issued (R209), `bands` the band up to which those of the instruction under way are counted (R208). -/
structure Observe where
  period : BitVec 16
  fie : Bool
  ven : Bool
  en : Bool
  lost : BitVec 16
  records : List (Vector Word 8)
  next : Nat
  countdown : Option Nat
  tagged : Option Nat
  untag : Option Word
  strip : Word
  pmsel : Vector Word 16
  pmc : Vector Word 16
  ops : Nat
  bands : Nat
  deriving DecidableEq, Repr

/-- What an access to the host or a peer came to (Table 12.6). -/
inductive Answer where
  | data (v : Nat)
  | failed (c : Cause)
  deriving DecidableEq, Repr

/-- What a translation leads to (R40): storage of the device, host memory or a peer. -/
inductive Target where
  | memory | host | peer
  deriving DecidableEq, Repr

/-- Where the bytes of an access lead (R40, R47): local memory (`addr` a byte's number), the host (`addr` a host-link address)
or a peer (`addr` a virtual address there, under `asid`, at `row` and `col`, with the incarnation expected). `phased` is the
discipline of R356; `nc` is NC, for the L2 (R266); `track`, in a range with HT = 1, is its address space with a virtual address and
what that translates to, by which the virtual addresses of the bytes are told (R472). -/
structure Place where
  target : Target
  addr : Nat
  row : BitVec 4
  col : BitVec 4
  inc : BitVec 16
  asid : BitVec 16
  phased : Bool
  nc : Bool
  track : Option (BitVec 16 × Nat × Nat)
  deriving DecidableEq, Repr

/-- Consecutive bytes of an element at one place (R48). -/
structure Piece where
  place : Place
  size : Nat
  deriving DecidableEq, Repr

/-- What an element's translation came to (R47, R48, R273): its pieces, or the cause and the address that failed. -/
inductive Probe where
  | pieces (ps : List Piece)
  | failed (c : Cause) (va : Nat)
  deriving DecidableEq, Repr

/-- What a hart waits for between two steps. MODEL: a step is an instruction or a part of one. (Log 9, DESIGN CHOICE.) -/
structure Waiting where
  /-- The word of the instruction in which the hart holds: it is not fetched again. -/
  word : Option Word
  /-- The tag of the host or peer request in flight for the element at which the hart holds (R299). -/
  request : Option (BitVec 16)
  /-- The answer of that request, once it is there. -/
  answer : Option Answer
  /-- Pieces of the element still to be requested, and the bytes that have come (R48). -/
  left : List Piece
  got : List Byte
  /-- What the access has translated ahead of its elements, by element (R273). -/
  probed : Option (Assoc Probe)
  /-- Of a vector access: the first active element it began with, which stays first whatever step goes on (R286); the value that a
  broadcast has read (R285); and where a load that stops short has ended (R286, R480). -/
  first : Option Nat
  value : Option Nat
  short : Option Nat
  /-- A WFE has begun (R457): the 128-byte line it watches, when its address names storage, and its limit in microseconds. -/
  wfe : Option (Option Nat)
  limit : Nat
  /-- The WFE's wait has ended. -/
  wfeDone : Bool
  deriving DecidableEq, Repr

/-- A seated hart (R84, Table 3.4). Its HARTID is its key in the state. -/
structure Hart where
  tag : Word
  wid : Word
  halted : Bool
  pc : Word
  asid : BitVec 16
  s : Vector Word 64
  ctl : Control
  vec : VectorState
  mat : Matrix
  ar : Arith
  trp : TrapState
  wp : Watch
  obs : Observe
  wait : Waiting
  /-- Memory as it stood at the hart's start or last phase boundary, for its fetches (R101). -/
  code : Mem
  /-- How many atomics the hart has made, and how many nodes it has submitted, as the recording log numbers them (R475). -/
  atomics : Nat
  submissions : Nat
  /-- Handles of nodes whose status word a plain read of the hart has returned (R370). -/
  polled : List Nat
  deriving DecidableEq, Repr

/-! ### Launches -/

/-- A write to a PHASED location in phase order (R359, R360): its number, the member and the member's epoch and clock at the
write, its first byte's address and bytes, the nibble it writes (0 whole bytes, 1 low, 2 high), the width of the writing
element in bits, and whether it has a place in the location's single order (R362, R364). -/
structure WriteRec where
  seq : Nat
  who : Nat
  epoch : Nat
  clock : Assoc Nat
  addr : Nat
  bytes : List Byte
  nibble : Nat
  width : Nat
  home : Bool
  deriving DecidableEq, Repr

/-- A write of an agent outside the launch (R361): the launch that made it, or 0 for the host or a peer. A `final` one is an
edit of a range tree, which no earlier write undoes (R58); `seq` is its number among the writes. -/
structure ForeignRec where
  source : Nat
  addr : Nat
  bytes : List Byte
  nibble : Nat
  final : Bool := false
  seq : Nat := 0
  deriving DecidableEq, Repr

/-- The status word of a finished node as its STAT names it (R307): where it lies, in the device, at the host or at a peer, and the
bytes written. -/
structure StatusAt where
  target : Target
  row : BitVec 4
  col : BitVec 4
  addr : Nat
  bytes : List Byte
  deriving DecidableEq, Repr

/-- The PHASED writes of an engine node, or of Whisk to a receive area, that stand outside phase order until an instruction of
the hart `who` observes their end (R370, R371): whether they take their place there (REL = 1) or at the end of the launch,
whether they are all made, whether they have been placed, and the node's status word once it is written. -/
structure Deferred where
  who : Nat
  rel : Bool
  finished : Bool
  placed : Bool
  status : Option StatusAt
  writes : List WriteRec
  deriving DecidableEq, Repr

/-- An outstanding arrival (R358): the boundary's number and the member's clock at the arrival. -/
structure Arrival where
  number : Nat
  clock : Assoc Nat
  deriving DecidableEq, Repr

/-- An EWAIT in which a hart waits (R310): its PC, the register with the handle, and the handle. -/
structure Ewaiting where
  pc : Word
  reg : RegIdx
  handle : Word
  deriving DecidableEq, Repr

/-- A created hart as a member of its launch: the HARTID of the seat it took when it was created, which fixes its phase
groups (R357), its phase clock and epoch (R359), its outstanding arrivals by scope (R358), the PC and scope of the PHASE whose
wait it is in, by its level (R373, R444), the EWAIT it waits in, by its level, and whether it has exited. -/
structure Member where
  seat : Nat
  epoch : Nat
  clock : Assoc Nat
  arrivals : Assoc Arrival
  inPhase : Assoc (Word × Nat)
  inEwait : Assoc Ewaiting
  exited : Bool
  deriving DecidableEq, Repr

/-- The boundaries of one phase group (R358): how many are complete, and the joined clock of the last. -/
structure Boundary where
  complete : Nat
  clock : Assoc Nat
  deriving DecidableEq, Repr

/-- An interval of a central task queue (R86). -/
structure Interval where
  start : Nat
  count : Nat
  deriving DecidableEq, Repr

/-- A core group's schedule table and cursor (R85): the entries, or the fault its read recorded. `core` is the core whose store
holds it; 512 while the group is vacated and its store with it. -/
structure Schedule where
  core : Nat
  entries : List Word
  fault : Option (Cause × Word)
  cursor : Nat
  deriving DecidableEq, Repr

/-- The completion block fields read when the launch is taken (R471) and the state of recording or replay (R475, R476).
`on` says that REPLAY = 1, `rpos` is the next log entry, as a byte offset. -/
structure Replay where
  on : Bool
  blockOk : Bool
  blk : Bool
  rmode : Bool
  rlog : Word
  rcap : Word
  rlen : Nat
  rpos : Nat
  rovf : Bool
  rdiv : Bool
  deriving DecidableEq, Repr

/-- The copy of a record that is being made (R25): where the record lies, and by dword the values that it has held since then, the
oldest first. -/
structure RecordCopy where
  base : Nat
  values : List (List Word)
  deriving DecidableEq, Repr

/-- A completion that has begun (R466) and waits until its writes to a peer are performed (R54): its completion word, whether the
word has been written, the copy of the successor's record while it is being read, what has been read of the successor, when it is to
be taken, with its address, the tag of the word's request, and its answer once it is there. -/
structure Closing where
  word : Word
  written : Bool
  copy : Option RecordCopy
  next : Option (Option (Vector Word 16) × Nat)
  request : Option (BitVec 16)
  answer : Option Answer
  deriving DecidableEq, Repr

/-- A live launch. -/
structure Launch where
  /-- The die that took it, the physical address of its record and the device's copy of it (R25). -/
  die : Nat
  record : Nat
  dwords : Vector Word 16
  /-- The order in which launches were taken (R78). -/
  order : Nat
  /-- Ended by system software (R470). -/
  ended : Bool
  /-- Members by WID (R357). -/
  members : Assoc Member
  /-- WIDs that have started, by hart group: the next WID of each group that has been placed (R83). -/
  started : Assoc Nat
  /-- The unit of each placed WIDSHAPE group, keyed by 2^64 × field + group (R82). -/
  units : Assoc Nat
  /-- The seat of each hart group that holds one (R83), with its lane grant: HARTID + 2^13 × lane clusters + 2^17 × QTR. -/
  seats : Assoc Nat
  /-- Memory at the launch's start (R360). -/
  base : Mem
  writes : List WriteRec
  foreign : List ForeignRec
  /-- Deferred writes, by the handle of the node, or 2^40 and more for receive areas. -/
  deferred : Assoc Deferred
  boundaries : Assoc Boundary
  /-- The central task queue of each die, when TQEN = 1 (R22, R86). -/
  tasks : Vector (List Interval) 4
  schedules : Assoc Schedule
  /-- Lines pinned in the L2 by the launch (R269). -/
  pins : List Nat
  /-- Written bytes of tracked ranges, by the first address of their 256-byte granule, with its end: a range's bounds are multiples
  of 256, so that the block of each, as the ranges stand when they are hashed, is dirty (R472). -/
  dirty : Assoc Nat
  replay : Option Replay
  /-- Its completion has begun (R466). -/
  closing : Option Closing
  deriving DecidableEq, Repr

/-- What a LAUNCH leaves beside its slot (R88): the ASID and RTROOT[51:12] it puts in place of the record's own, at program
level, and the launch, WID and clock of its hart with the number of the next write, for what it releases (R363). -/
structure Appended where
  override : Option (BitVec 16 × Nat)
  tag : Word
  who : Nat
  clock : Assoc Nat
  seq : Nat
  deriving DecidableEq, Repr

/-- A launch queue block (Tables 3.1 and 3.2). `appends` holds, by position, what a LAUNCH left there; `late`, by slot, a value of a
slot that the host wrote and did not own, which takes effect for the position 256 later (R74); and `copies`, by slot, the dwords of
the record since its slot was written (R25), with those of a late value by 256 + slot. -/
structure LaunchQueue where
  tail : Word
  head : Word
  enable : Bool
  slots : Assoc Word
  appends : Assoc Appended
  copies : Assoc RecordCopy
  late : Assoc Word
  deriving DecidableEq, Repr

/-- A die configuration block (Table 3.6). -/
structure DieConfig where
  latLo : Word
  latHi : Word
  pendingLo : Option Word
  tvecd : Word
  deriving DecidableEq, Repr

/-- A vacated hart (R445), by the number of its context record (4608 × die + record): its launch, WID and last core, with
what the record has no place for: its pending sources and debug stop request (R443, R449), the STRIPSTOP it handles or has
just handled (R449), its strip's address (R168), a tagged instruction it stopped in (R480), its counts for the recording log
(R475), its memory for fetches (R101) and the status words it has read (R370); with the instruction it held in, and whether it
was vacated with its phase group, to resume ahead (R448). -/
structure Vacated where
  tag : Word
  wid : Word
  core : Nat
  irq : BitVec 17
  dreq : Bool
  due : Bool
  stripAt : Option Word
  stripDone : Bool
  untag : Option Word
  strip : Word
  atomics : Nat
  submissions : Nat
  code : Mem
  polled : List Nat
  held : Option Word
  ahead : Bool
  deriving DecidableEq, Repr

/-! ### Ranges -/

/-- A range descriptor's four dwords (Table 2.1). -/
structure Descriptor where
  d0 : Word
  d1 : Word
  d2 : Word
  d3 : Word
  deriving DecidableEq, Repr

/-- An entry of a core's range lookaside table (R44). Accesses of the host and of peers have an entry holder of their own:
core 512. -/
structure Cached where
  holder : Nat
  asid : BitVec 16
  root : Nat
  desc : Descriptor
  deriving DecidableEq, Repr

/-- A sealed extent and its attestation log number (R50, R65); while its RSEAL has not completed, the seat of the sealing hart and the
descriptor as it was, and no number yet. -/
structure SealEntry where
  base : Nat
  size : Nat
  seq : Nat
  under : Option (Nat × Descriptor)
  deriving DecidableEq, Repr

/-- Who stores to memory, as far as a walk is concerned: a hart by its seat, a node by its key, or an agent outside the device. -/
inductive Storer where
  | hart (seat : Nat)
  | node (key : Nat)
  | outside
  deriving DecidableEq, Repr

/-- A plain store to a dword of memory that a walk under way may not see yet (R45): who made it, the dword's number and what it
held. -/
structure TreeStore where
  who : Storer
  dword : Nat
  old : Word
  deriving DecidableEq, Repr

/-- An attestation log entry (Table 2.2). -/
structure AttEntry where
  seq : Nat
  asid : BitVec 16
  inc : BitVec 16
  vbase : Nat
  size : Nat
  pbase : Nat
  digest : List Byte
  deriving DecidableEq, Repr

/-- A running compaction (R56, R68): the range (root and base), its extents, the bytes copied so far, and whether the range leads to its
new extent already. -/
structure Compaction where
  asid : BitVec 16
  root : Nat
  base : Nat
  size : Nat
  source : Nat
  target : Nat
  copied : Nat
  swung : Bool
  deriving DecidableEq, Repr

/-! ### Engines -/

/-- The life of a node (R303). -/
inductive NodeState where
  | waiting | released | running | finished
  deriving DecidableEq, Repr

/-- A position that an engine node is still to deliver (R308, R309): the pieces still to be read, the bytes read so far, the
pieces still to be written, and the position (an offset from P0 for a copy, else a row or element). -/
structure Move where
  srcs : List Piece
  got : List Byte
  dsts : List Piece
  pos : Nat
  deriving DecidableEq, Repr

/-- A slot of a core's node table (R302 to R307). `count` is the predecessors still to finish, `succ` the successors' handles
and `ancestors` those of finished predecessors, whose writes the node sees (R306); `epoch`, `clock` and `position` place its
reads in phase order (R370). `plan` holds what is still to be delivered, `closing` says that the status write is under way,
and `request` and `answer` are its exchange with the host or a peer (R299). -/
structure Node where
  gen : Nat
  st : NodeState
  tag : Word
  wid : Word
  asid : BitVec 16
  dwords : Vector Word 8
  count : Nat
  succ : List Nat
  ancestors : List Nat
  cancelled : Bool
  status : Word
  fval : Word
  epoch : Nat
  clock : Assoc Nat
  position : Nat
  ordinal : Nat
  plan : List Move
  closing : Bool
  request : Option (BitVec 16)
  answer : Option Answer
  deriving DecidableEq, Repr

/-! ### The exchange fabric -/

/-- A record in Whisk (R380): its key and payload, and under concat its used length and TRUNC (R393). -/
structure XRecord where
  key : Nat
  payload : List Byte
  used : Nat
  trunc : Bool
  deriving DecidableEq, Repr

/-- What travels between a sender, the merge points and a receiver (R388, R391). -/
inductive XItem where
  | record (r : XRecord)
  | floor (f : Nat)
  | close
  deriving DecidableEq, Repr

/-- A sender or receiver entry of a plan (Table 19.4). -/
structure Endpoint where
  row : Nat
  col : Nat
  kind : Nat
  die : Nat
  wid : Nat
  deriving DecidableEq, Repr

/-- A sender of an exchange on this device: whether it has joined, its leaf (16 × die + cluster, R483), whether it has left, its
round, floor and count of records sent in the round (R388, R411), and what waits at its leaf, with its round. -/
structure Sender where
  joined : Bool
  leaf : Nat
  gone : Bool
  round : Nat
  floor : Nat
  sent : Nat
  queue : List (Nat × XItem)
  deriving DecidableEq, Repr

/-- A receive area (R410): the address space and core of its hart, its address, size and storage, the key of its deferred writes
(R371), the bytes written, the round of its records, and its end, with END. -/
structure Area where
  asid : BitVec 16
  core : Nat
  va : Nat
  size : Nat
  pieces : List Piece
  key : Nat
  written : Nat
  round : Nat
  ended : Option Bool
  deriving DecidableEq, Repr

/-- A receiver of an exchange on this device, with the stream that has left the root of its tree (R389, R396). -/
structure Receiver where
  joined : Bool
  gone : Bool
  area : Option Area
  stream : List (Nat × XItem)
  deriving DecidableEq, Repr

/-- An input of a merge point: what is on its way there, what is held, and the last floor or close it sent (R390). -/
structure MergeInput where
  link : List XItem
  held : List XRecord
  floor : Nat
  closed : Bool
  deriving DecidableEq, Repr

/-- A merge point of one receiver's tree: its inputs by the lowest sender rank that reaches them (R386), and the floor and
close it has sent (R391). -/
structure MergeState where
  inputs : Assoc MergeInput
  sentFloor : Nat
  sentClose : Bool
  deriving DecidableEq, Repr

/-- Sieve's samples of a round (R398): the shift, and the count and key of each. -/
structure Sample where
  shift : Nat
  keys : List (Nat × Nat)
  deriving DecidableEq, Repr

/-- An expert's buffer (R426): its blocks in order, and its rows. -/
structure Buffer where
  blocks : List Nat
  rows : Nat
  deriving DecidableEq, Repr

/-- A write of another agent to bytes that an ingress unit is still to write (R430). -/
structure Contest where
  addr : Nat
  bytes : List Byte
  deriving DecidableEq, Repr

/-- An entry to be appended (R425): the local expert, and the entry's bytes. -/
structure IngressEntry where
  expert : Nat
  bytes : List Byte
  deriving DecidableEq, Repr

/-- A batch (R427, R428): its number, local expert, round, rows and blocks, whether it was started short or by the round's
end, and how many of its blocks have been freed (R429). -/
structure Batch where
  seq : Nat
  expert : Nat
  round : Nat
  rows : Nat
  blocks : List Nat
  short : Bool
  close : Bool
  freed : Nat
  deriving DecidableEq, Repr

/-- An open context of a die's expert ingress unit: its opener's address space, its descriptor (Table 22.1) with the addresses
and storage of pool and ring, its counters (Table 22.2), the blocks that are out, its buffers, the records and entries that wait, whether the entry that waits
has already started a short batch, the batches that wait to be published, those published by ring entry, the writes to
RELEASE not yet acted on, with the batches they name (R423 to R429), and the writes of others to bytes that the unit is still to write
(R430). -/
structure Ingress where
  asid : BitVec 16
  gs : Nat
  kg : Nat
  ng : Nat
  glo : Nat
  nbq : Nat
  thresh : Nat
  nb : Nat
  poolVa : Nat
  ringVa : Nat
  pool : List Piece
  ring : List Piece
  entrySize : Nat
  ringEntry : Nat
  pub : Nat
  dropped : Nat
  nans : Nat
  short : Nat
  nextSeq : Nat
  seedsOut : List Nat
  taken : List Nat
  buffers : Assoc Buffer
  inbox : List XRecord
  waiting : List IngressEntry
  pressed : Bool
  started : List Batch
  published : Assoc Batch
  releases : List (Nat × Nat)
  contests : List Contest
  deriving DecidableEq, Repr

/-- A sender of an exchange on another device, as far as its traffic tells: whether it has joined, whether it has left, and its round
(R387, R483). -/
structure FarSender where
  joined : Bool
  gone : Bool
  round : Nat
  deriving DecidableEq, Repr

/-- A receiver of an exchange on another device: whether it has joined, whether it has left, and in which round, and the last round
delivered to it in full (R389). -/
structure FarReceiver where
  joined : Bool
  gone : Bool
  since : Nat
  round : Nat
  deriving DecidableEq, Repr

/-- What another device says of a member of an exchange (R385, R387, R389, R483). MODEL: its packets have no layout (log 27, DESIGN
CHOICE), so that it comes as an input (log 113, DESIGN CHOICE). -/
inductive XNews where
  | joined (rank : Nat)
  | closedRun (rank : Nat)
  | senderLeft (rank : Nat)
  | delivered (recv : Nat)
  | receiverJoined (recv : Nat)
  | receiverLeft (recv : Nat)
  deriving DecidableEq, Repr

/-- An open exchange (R382, R387): its launch, plan address, opener's die and plan; its senders by rank and receivers by index
on this device, and those of other devices; the merge points, keyed by receiver and place; the lowest round not yet closed
with its RBMODE, the RBMODE set for the next, a table installed for it (R412), the last shadow table with its round (R399), and Sieve's samples by round; the
records discarded (R389); and the ingress contexts by die. -/
structure Exchange where
  tag : Word
  plan : Nat
  die : Nat
  scope : Nat
  wide : Bool
  comb : Nat
  sshift : Nat
  segs : List (Nat × Nat)
  map : List Nat
  senderList : List Endpoint
  receiverList : List Endpoint
  splitters : List Nat
  senders : Assoc Sender
  receivers : Assoc Receiver
  far : Assoc FarSender
  farReceivers : Assoc FarReceiver
  points : Assoc MergeState
  round : Nat
  mode : Nat
  nextMode : Nat
  install : Option (List Nat)
  shadow : Option (Nat × List Nat)
  samples : Assoc Sample
  discarded : Nat
  ingress : Assoc Ingress
  deriving DecidableEq, Repr

/-! ### Host, fabric and management -/

/-- What the device has sent out, newest first. -/
inductive Output where
  /-- A posted write on the host link (R299); `nibble` 1 or 2 when it writes the low or high nibble of its byte alone (R288; log
  15, DESIGN CHOICE). -/
  | hostWrite (addr : Nat) (bytes : List Byte) (nibble : Nat)
  /-- A read or atomic request on the host link, with its tag. -/
  | hostRead (tag : BitVec 16) (addr size : Nat)
  | hostAtomic (tag : BitVec 16) (op : HostAtomic) (addr size : Nat) (operand compare : Word)
  /-- A completion with data to a host request; none for Unsupported Request, or Completer Abort. -/
  | completion (data : List Byte)
  | unsupported
  | completerAbort
  /-- An MSI-X message (R468): the vector, with its entry's Message Address and Message Data. -/
  | message (vector : Nat) (addr : Word) (data : BitVec 32)
  /-- A flit on a fabric port (R317). -/
  | flit (port : Nat) (f : Flit)
  /-- Exchange traffic to another device's merge point or receiver (R385), on a port and virtual channel 0 or 1 (R318): the layout
  of its flits is not given. -/
  | exchange (port vc row col xid recv : Nat) (x : XItem)
  deriving DecidableEq, Repr

/-- Who waits for an answer: the hart at a seat, a node by its key, a peer's request that goes on to the host or another peer
(R324), a host request at Window B that does so (R95), the rejection of a launch (R27), a launch's completion (R466), the device for
another of its writes, or Whisk for one to a receive area, with the core that translated it (R410). `gone`: nobody, the request having
timed out (R325). -/
inductive Waiter where
  | hart (k : Nat)
  | node (key : Nat)
  | peer
  | window
  | reject (record reason : Nat)
  | completion (tag : Word)
  | device
  | area (key core : Nat)
  | gone
  deriving DecidableEq, Repr

/-- A request in flight to the host or to a peer (R299, R322), by its tag: who waits, the size, the address space and entry
holder of its translation (R54), the destination's position (R320), and of a write or atomic the stretch that is dirty once it is
performed (R472). -/
structure Pending where
  waiter : Waiter
  peer : Bool
  size : Nat
  asid : BitVec 16
  holder : Nat
  dest : Nat
  track : Option (BitVec 16 × Nat × Nat)
  deriving DecidableEq, Repr

/-- A request of a peer that has arrived (Table 14.6): its source, header fields and prologue, with the block's bytes of a
store; `nibble` is 1 or 2 when it writes the low or high nibble of its byte alone, which no field of the packet says (R288; log 15,
DESIGN CHOICE). When its range leads to the host or another peer (R324): the request made for it, its answer, the pieces still to be
requested and the bytes that have come. -/
structure PeerRequest where
  row : BitVec 4
  col : BitVec 4
  expinc : BitVec 16
  tag : BitVec 16
  srcinc : BitVec 16
  asid : BitVec 16
  op : BitVec 8
  size : BitVec 8
  aop : BitVec 8
  va : Word
  bmask : Word
  opb : Word
  opc : Word
  block : List Byte
  nibble : Nat := 0
  request : Option (BitVec 16) := none
  answer : Option Answer := none
  left : List Piece := []
  got : List Byte := []
  deriving DecidableEq, Repr

/-- A read or AtomicOp of the host at Window B whose range leads to the host or a peer (R95): the address space, the virtual address,
the operation with its operands, none for a read, the pieces still to be requested, the bytes that have come, the request made for it
and its answer. -/
structure WindowRequest where
  asid : BitVec 16
  va : Nat
  op : Option (HostAtomic × Word × Word)
  left : List Piece
  got : List Byte
  request : Option (BitVec 16)
  answer : Option Answer
  deriving DecidableEq, Repr

/-- An entry held in the target fault log (Table 14.5), as far as R328 needs it; its bytes stand in `flData`. -/
structure FaultEntry where
  seq : BitVec 32
  cause : BitVec 8
  row : BitVec 4
  col : BitVec 4
  asid : BitVec 16
  deriving DecidableEq, Repr

/-- A management log entry (Table 3.11). -/
structure LogEntry where
  seq : BitVec 32
  kind : BitVec 8
  code : BitVec 8
  time : Word
  addr : Word
  tag : Word
  who : Word
  wid : Word
  pc : Word
  val : Word
  deriving DecidableEq, Repr

/-- A management log: the entries held, oldest first, and the next SEQ (R98). -/
structure Log where
  entries : List LogEntry
  next : BitVec 32
  deriving DecidableEq, Repr

/-- The stage of the mailbox's command (R96): none, started and not yet done, or done with its result to be reported. -/
inductive Stage where
  | idle
  | started
  | executed (code : Nat)
  deriving DecidableEq, Repr

/-- The mailbox (Table 3.9). -/
structure Mailbox where
  cmd : Word
  isDone : Bool
  result : BitVec 16
  doneTag : BitVec 16
  msi : Word
  args : Vector Word 32
  data : Mem
  stage : Stage
  deriving DecidableEq, Repr

/-- The MSI-X table and pending bits (R94, R468), with the MSI-X Enable and Function Mask bits of the capability (R93). -/
structure Msix where
  enabled : Bool
  masked : Bool
  addr : Vector Word 64
  data : Vector (BitVec 32) 64
  control : Vector (BitVec 32) 64
  pending : Word
  deriving DecidableEq, Repr

/-- A packet whose flits are still arriving (R317): its head flit, and its body flits so far. It goes on as a whole once its tail is
there, contiguously. -/
structure Flow where
  head : Flit
  body : List Flit
  deriving DecidableEq, Repr

/-- The host windows and the management controller. -/
structure Hub where
  /-- Recovery (R69) and the incarnation (R325). -/
  recovery : Bool
  incarnation : BitVec 16
  /-- NR − 1, NC − 1, ROW and COL (R315). -/
  nr : BitVec 4
  nc : BitVec 4
  row : BitVec 4
  col : BitVec 4
  /-- Ports that are down and spare lanes left (R316, R317). -/
  down : List Nat
  spares : Nat
  /-- Host-link addresses of Window A and Window B, when the host has set them (R93; log 114, DESIGN CHOICE). -/
  barA : Option Nat
  barB : Option Nat
  /-- The size of Window B (R93). -/
  sizeB : Nat
  /-- Window B control (Table 3.8). -/
  wbctl : Word
  wbbase : Word
  wbroot : Word
  /-- Requests at Window B that have gone on to the host or a peer (R95). -/
  windowIn : List WindowRequest
  box : Mailbox
  msix : Msix
  errorLog : Log
  launchLog : Log
  rangeLog : Log
  engineLog : Log
  stale : Word
  correctable : Word
  uncorrectable : Word
  boxDrops : Word
  /-- The target fault log (R327). -/
  flHead : BitVec 32
  flTail : BitVec 32
  flCtl : Word
  faults : List FaultEntry
  flData : Mem
  /-- Chunks of firmware received by FWLOAD (R97). -/
  image : Mem
  imageEnd : Nat
  /-- System groups: number and member map (R76). -/
  groups : Assoc (BitVec 256)
  /-- Packets of which a port has delivered the head and not yet the tail, by 8 × port + VC (R317). -/
  arriving : Assoc Flow
  /-- Ports whose credits of a class are exhausted beyond the threshold that firmware sets (R318, R319), as 8 × port + class. (Log
  102, DESIGN CHOICE.) -/
  starved : List Nat
  /-- The route of each flow of this device (R320): the next device, as 16 × row + column, by 4 × destination + class. -/
  routes : Assoc Nat
  deriving DecidableEq, Repr

/-- One entry of the schedule of steps. MODEL: which step comes next is data of the state. -/
inductive Action where
  /-- The hart executes its next instruction, in a vector instruction up to the element `stopAt`. -/
  | run (hart : Nat) (stopAt : Option Nat)
  /-- A step of the device, the host or a peer. -/
  | event (i : Instr)
  /-- The host reads Window A, or sends it an AtomicOp (R94). -/
  | windowARead (offset size : Nat)
  | windowAAtomic (offset : Nat) (op : HostAtomic) (size : Nat) (operand : Word)
  /-- The host places Window A and Window B, and sizes Window B to 2^`log` bytes (R93). -/
  | placeWindows (a b : Option Nat) (log : Nat)
  /-- The host writes the MSI-X capability's Enable and Function Mask (R93, R468). -/
  | msixControl (enabled masked : Bool)
  /-- A port's credits of a class fall below the threshold, or are above it again (R319). -/
  | credit (port cls : Nat) (spent : Bool)
  /-- No packet of a flow is in flight (R320). -/
  | drained (flow : Nat)
  /-- A compaction copies its next bytes (R56). -/
  | compactionCopy (ctx bytes : Nat)
  /-- A request at Window B that has gone on to the host or a peer goes on with its answer (R95). -/
  | windowTurn (k : Nat)
  /-- Another device that takes part in a launch invalidates at scope 5 a stretch of an address space (R64). -/
  | remoteInval (asid : BitVec 16) (lo hi : Nat)
  /-- Another device opens an exchange whose traffic reaches this device (R385, R405), for a launch of the tag here or, with tag 0, for
  none, from the plan at an address. -/
  | remoteOpen (tag : Word) (va : Nat) (plan : List Byte)
  /-- Another device's member of an exchange joins, closes a run, or leaves, or its round is delivered. -/
  | exchangeNews (xid : Nat) (news : XNews)
  deriving DecidableEq, Repr

/-- The state of a device. -/
structure State where
  /-- The schedule; empty: the hart `cur` executes on. MODEL. -/
  agenda : List Action
  cur : Nat
  stopAt : Option Nat
  /-- How many free values have been drawn. MODEL (log 2, DESIGN CHOICE). -/
  draws : Nat
  /-- How many recorded PHASED writes there have been, to number them. MODEL. -/
  writeSeq : Nat
  /-- Seated harts by HARTID. -/
  harts : Assoc Hart
  mem : Mem
  /-- Eight-byte words of storage, by number / 8, that hold an uncorrectable error (R267). -/
  badWords : List Nat
  /-- Words of harts that hold an uncorrectable error (R450). -/
  badHarts : List (Nat × HartWord)
  /-- The hart whose matrix state each core's engine holds, by core, and the harts of which a spill slot holds it (R332). -/
  owners : Assoc Nat
  spilled : List Nat
  rlt : List Cached
  seals : List SealEntry
  treeStores : List TreeStore
  attestation : List AttEntry
  compactions : Vector (Option Compaction) 4
  queues : Vector LaunchQueue 64
  dies : Vector DieConfig 4
  launches : Assoc Launch
  nextTag : Nat
  /-- The queue last served, by 2 × die + class (R77). -/
  turns : Vector Nat 8
  vacated : Assoc Vacated
  nodes : Assoc Node
  /-- Open exchanges by XID. -/
  exchanges : Assoc Exchange
  pending : Assoc Pending
  peerIn : List PeerRequest
  hub : Hub
  outputs : List Output
  deriving DecidableEq, Repr

/-! ### Reset -/

/-- A log without entries (R98). -/
def Log.reset : Log := { entries := [], next := 0 }

/-- The mailbox at reset (log 20, DESIGN CHOICE, where the spec gives no value). -/
def Mailbox.reset : Mailbox :=
  { cmd := 0, isDone := false, result := 0, doneTag := 0, msi := 0, args := Vector.replicate 32 0, data := [], stage := .idle }

/-- MSI-X at reset: not enabled, and every vector masked (log 21, PRESUMED). -/
def Msix.reset : Msix :=
  { enabled := false, masked := false, addr := Vector.replicate 64 0, data := Vector.replicate 64 0, control := Vector.replicate 64 1, pending := 0 }

/-- The hub after a reset whose boot ROM check passed (R69, R70): a grid of one device until firmware sets another (R315; log
22, DESIGN CHOICE), the first incarnation (log 20, DESIGN CHOICE), no window placed, and empty logs. -/
def Hub.reset : Hub :=
  { recovery := false, incarnation := 1, nr := 0, nc := 0, row := 0, col := 0, down := [], spares := 64, barA := none,
    barB := none, sizeB := 2 ^ 30, wbctl := 0, wbbase := 0, wbroot := 0, windowIn := [], box := Mailbox.reset, msix := Msix.reset, errorLog := Log.reset,
    launchLog := Log.reset, rangeLog := Log.reset, engineLog := Log.reset, stale := 0, correctable := 0, uncorrectable := 0,
    boxDrops := 0, flHead := 0, flTail := 0, flCtl := 0, faults := [], flData := [], image := [], imageEnd := 0,
    groups := [], arriving := [], starved := [], routes := [] }

/-- A launch queue after reset (R70, Table 3.2). -/
def LaunchQueue.reset : LaunchQueue := { tail := 0, head := 0, enable := false, slots := [], appends := [], copies := [], late := [] }

/-- A die configuration block after reset (Table 3.6). -/
def DieConfig.reset : DieConfig := { latLo := 0x0101010101010101, latHi := 0, pendingLo := none, tvecd := 0 }

/-- The device right after reset (R69, R70): no hart, no launch and nothing in memory. What the spec gives no reset value for
stands in the log (5, 20 and 22, DESIGN CHOICE; 21, PRESUMED). -/
def State.reset : State :=
  { agenda := [], cur := 0, stopAt := none, draws := 0, writeSeq := 0, harts := [], mem := [], badWords := [], badHarts := [],
    owners := [], spilled := [], rlt := [], seals := [], treeStores := [], attestation := [], compactions := Vector.replicate 4 none,
    queues := Vector.replicate 64 LaunchQueue.reset, dies := Vector.replicate 4 DieConfig.reset, launches := [], nextTag := 1,
    turns := Vector.replicate 8 7, vacated := [], nodes := [], exchanges := [], pending := [], peerIn := [],
    hub := Hub.reset, outputs := [] }

/-- Why the machine stops. -/
inductive Fault where
  /-- Raised by every hart instruction when the current hart does not exist or is halted (R441): there is nothing to execute.
  Safe: no claim about a next state follows. -/
  | noHart
  deriving DecidableEq, Repr

/-- Why the model gives no answer. -/
inductive Refusal where
  /-- The instruction has no meaning yet, by its mnemonic. Raised by a refused arm of `exec` alone. Safe. -/
  | notModelled (mnemonic : String)
  deriving DecidableEq, Repr

end Sys2Proof.Machine
end

