-- ==== Sys2Proof/Machine/Ops.lean ====
section
/-! DEFINITION. The named operations on the state: finite maps and memory, the registers of a hart, free values, counters and
samples, taking a trap and returning from one (R440, R441, R454), and how an instruction's effect becomes the next state. -/

namespace Sys2Proof.Machine

/-! ### Finite maps and memory -/

/-- The value at a key. -/
def Assoc.find {α : Type} : Assoc α → Nat → Option α
  | [], _ => none
  | (k, v) :: r, i => if i = k then some v else if i < k then none else Assoc.find r i

/-- Sets the value at a key, keeping the keys rising. -/
def Assoc.put {α : Type} : Assoc α → Nat → α → Assoc α
  | [], i, x => [(i, x)]
  | (k, v) :: r, i, x => if i = k then (i, x) :: r else if i < k then (i, x) :: (k, v) :: r else (k, v) :: Assoc.put r i x

/-- Removes a key. -/
def Assoc.drop {α : Type} : Assoc α → Nat → Assoc α
  | [], _ => []
  | (k, v) :: r, i => if i = k then r else if i < k then (k, v) :: r else (k, v) :: Assoc.drop r i

/-- Changes the value at a key, when there is one. -/
def Assoc.change {α : Type} (m : Assoc α) (i : Nat) (f : α → α) : Assoc α :=
  match Assoc.find m i with
  | none => m
  | some x => Assoc.put m i (f x)

/-- Strictly rising keys. -/
def Assoc.wf {α : Type} : Assoc α → Bool
  | [] => true
  | [_] => true
  | (k, _) :: (l, w) :: r => k < l && Assoc.wf ((l, w) :: r)

/-- One byte of memory; an unlisted one reads as `Config.unlistedByte`. -/
def Mem.read (m : Mem) (a : Nat) : Byte := (Assoc.find m a).getD Config.unlistedByte

/-- Writes one byte of memory, in canonical form. -/
def Mem.write (m : Mem) (a : Nat) (b : Byte) : Mem :=
  if b = Config.unlistedByte then Assoc.drop m a else Assoc.put m a b

/-- The canonical form: rising addresses, and no entry equal to what an unlisted byte reads as. -/
def Mem.wf (m : Mem) : Bool := Assoc.wf m && m.all (fun c => c.2 != Config.unlistedByte)

/-- The `n` bytes from `a` upward. -/
def Mem.readBytes (m : Mem) : Nat → Nat → List Byte
  | _, 0 => []
  | a, n + 1 => m.read a :: Mem.readBytes m (a + 1) n

/-- Writes bytes from `a` upward. -/
def Mem.writeBytes (m : Mem) : Nat → List Byte → Mem
  | _, [] => m
  | a, b :: bs => Mem.writeBytes (m.write a b) (a + 1) bs

/-- The little-endian number of the `n` bytes from `a` upward (R5). -/
def Mem.readLE (m : Mem) (a n : Nat) : Nat := ofBytesLE (m.readBytes a n)

/-- The eight bytes at `a` as a dword (R5). -/
def Mem.dword (m : Mem) (a : Nat) : Word := BitVec.ofNat 64 (m.readLE a 8)

/-- The cells of a stretch of memory, in rising order. -/
def Mem.cells (m : Mem) (lo size : Nat) : Mem := m.filter (fun c => lo ≤ c.1 && c.1 < lo + size)

/-- Clears a stretch of memory to what unlisted bytes read as. -/
def Mem.clear (m : Mem) (lo size : Nat) : Mem := m.filter (fun c => !(lo ≤ c.1 && c.1 < lo + size))

/-- Copies `size` bytes from one stretch to another. -/
def Mem.copy (m : Mem) (src dst size : Nat) : Mem :=
  (m.cells src size).foldl (fun acc c => acc.write (c.1 - src + dst) c.2) (m.clear dst size)

/-! ### Numbers as bit strings -/

/-- Bits `lo + n - 1` to `lo` of a number. -/
def bitsOf (x lo n : Nat) : Nat := x / 2 ^ lo % 2 ^ n

/-- Bit `i` of a number. -/
def bitOf (x i : Nat) : Bool := x.testBit i

/-- Replaces bits `lo + n - 1` to `lo` of a number. -/
def setBits (x lo n v : Nat) : Nat := x - bitsOf x lo n * 2 ^ lo + v % 2 ^ n * 2 ^ lo

/-- A 64-bit word with bits `lo + n - 1` to `lo` replaced. -/
def setField (x : Word) (lo n : Nat) (v : Nat) : Word := BitVec.ofNat 64 (setBits x.toNat lo n v)

/-- Bits of a word as a number. -/
def fieldOf (x : Word) (lo n : Nat) : Nat := bitsOf x.toNat lo n

/-- A truth value as a number. -/
def bit01 (b : Bool) : Nat := if b then 1 else 0

/-! ### Free values -/

/-- Draws a free value (log 2, DESIGN CHOICE). -/
def State.draw (s : State) : Nat × State := (Config.freeNat s.draws, { s with draws := s.draws + 1 })

/-- Draws a choice among `n` outcomes (R8); with one outcome there is no choice. -/
def State.choose (s : State) (n : Nat) : Nat × State :=
  if n ≤ 1 then (0, s) else (Config.freeNat s.draws % n, { s with draws := s.draws + 1 })

/-! ### Harts -/

/-- The hart at a seat. -/
def State.hart? (s : State) (k : Nat) : Option Hart := Assoc.find s.harts k

/-- Replaces or adds the hart at a seat. -/
def State.setHart (s : State) (k : Nat) (h : Hart) : State := { s with harts := Assoc.put s.harts k h }

/-- Changes the hart at a seat, when there is one. -/
def State.onHart (s : State) (k : Nat) (f : Hart → Hart) : State := { s with harts := Assoc.change s.harts k f }

/-- Changes the executing hart. -/
def State.onCur (s : State) (f : Hart → Hart) : State := s.onHart s.cur f

/-- The executing hart, when it is seated and not halted (R441). -/
def State.running (s : State) : Option Hart :=
  match s.hart? s.cur with
  | none => none
  | some h => if h.halted then none else some h

/-- A live launch, by its tag. -/
def State.launch? (s : State) (tag : Word) : Option Launch := Assoc.find s.launches tag.toNat

/-- Changes a launch. -/
def State.onLaunch (s : State) (tag : Word) (f : Launch → Launch) : State :=
  { s with launches := Assoc.change s.launches tag.toNat f }

/-- Changes a member of a launch. -/
def State.onMember (s : State) (tag wid : Word) (f : Member → Member) : State :=
  s.onLaunch tag fun l => { l with members := Assoc.change l.members wid.toNat f }

/-- The parts of a HARTID (Table 3.4). -/
def dieOf (k : Nat) : Nat := k / 2048 % 4
def clusterOf (k : Nat) : Nat := k / 128 % 16
def coreOf (k : Nat) : Nat := k / 16 % 8
/-- Bits 12:4 of a HARTID: the core on the device. -/
def coreIndex (k : Nat) : Nat := k / 16 % 512
/-- The HARTID of a seat. -/
def Seat.hartId (x : Seat) : Nat := 2048 * x.die.toNat + 128 * x.cluster.toNat + 16 * x.core.toNat + x.ctx.toNat

/-- Reads a scalar register; s0 reads zero (R105). -/
def Hart.sreg (h : Hart) (r : RegIdx) : Word := if r = 0 then 0 else h.s[r.toNat]

/-- Writes a scalar register; a write to s0 is discarded (R105). -/
def Hart.setS (h : Hart) (r : RegIdx) (x : Word) : Hart := if r = 0 then h else { h with s := h.s.set r.toNat x }

/-- Sets VSTART. -/
def Hart.setVstart (h : Hart) (n : Nat) : Hart := { h with vec := { h.vec with vstart := BitVec.ofNat 16 n } }

/-- NV, SEW and the granted lanes (Tables 6.5 and 3.3). -/
def Hart.nv (h : Hart) : Nat := 8 * 2 ^ h.vec.nvc.toNat
def Hart.sew (h : Hart) : Nat := 8 * 2 ^ h.vec.sewc.toNat

/-- Granted lanes and partition bytes by class (Table 3.3). -/
def lanesOf (c : BitVec 2) : Nat := if c = 0 then 16 else 16 * 2 ^ (c.toNat - 1)
def partitionOf (c : BitVec 2) : Nat := if c = 0 then 16384 else 65536 * 2 ^ (c.toNat - 1)

/-- G of the hart. -/
def Hart.lanes (h : Hart) : Nat := lanesOf h.vec.vlclass

/-- VLMAX (R165). -/
def Hart.vlmax (h : Hart) : Nat :=
  let per := partitionOf h.vec.vlclass / ((h.nv + h.nv / 4) * (h.sew / 8))
  Nat.min (per / h.lanes * h.lanes) 32768

/-- VL and VSTART as numbers. -/
def Hart.vl (h : Hart) : Nat := h.vec.len.toNat
def Hart.vstart (h : Hart) : Nat := h.vec.vstart.toNat

/-! ### Counters and samples -/

/-- Adds `n` events of the code `ev` to each counter that selects it at the hart's level; a counter that passes 2^48 − 1 sets
OVF, and with OVIE makes its source pending (R481). -/
def Hart.countEvent (h : Hart) (ev n : Nat) : Hart :=
  let counts (i : Fin 16) : Bool :=
    fieldOf h.obs.pmsel[i] 0 16 == ev && bitOf h.obs.pmsel[i].toNat (if h.trp.prv then 17 else 16) && n != 0
  let wraps (i : Fin 16) : Bool := counts i && 2 ^ 48 ≤ h.obs.pmc[i].toNat + n
  let pmc := Vector.ofFn fun i : Fin 16 =>
    if counts i then BitVec.ofNat 64 ((h.obs.pmc[i].toNat + n) % 2 ^ 48) else h.obs.pmc[i]
  let pmsel := Vector.ofFn fun i : Fin 16 => if wraps i then setField h.obs.pmsel[i] 19 1 1 else h.obs.pmsel[i]
  let irq := (List.finRange 16).foldl
    (fun (q : BitVec 17) i => if wraps i && bitOf h.obs.pmsel[i].toNat 18 then q ||| BitVec.ofNat 17 (2 ^ i.val) else q)
    h.trp.irq
  { h with obs := { h.obs with pmc := pmc, pmsel := pmsel }, trp := { h.trp with irq := irq } }

/-- Issues every micro-operation still queued (R127, R209): Table 26.10, code 0x04. -/
def Hart.issueAll (h : Hart) : Hart :=
  let h := h.countEvent 0x04 h.obs.ops
  { h with obs := { h.obs with ops := 0 } }

/-- Event codes whose number the spec leaves to the machine's timing (Table 26.10; log 8, DESIGN CHOICE). -/
def timingEvents : List Nat := [0x01, 0x05, 0x06, 0x07, 0x08, 0x09, 0x0A]

/-- Whether some counter of the hart selects an event at its level. -/
def Hart.selects (h : Hart) (ev : Nat) : Bool :=
  (List.finRange 16).any fun i =>
    fieldOf h.obs.pmsel[i] 0 16 == ev && bitOf h.obs.pmsel[i].toNat (if h.trp.prv then 17 else 16)

/-- Counts the timing events of one step of the executing hart: each a free number (log 8, DESIGN CHOICE). -/
def State.countTiming (s : State) : State :=
  timingEvents.foldl (fun s ev =>
    match s.hart? s.cur with
    | none => s
    | some h =>
      if h.selects ev then
        let (n, s) := s.draw
        s.setHart s.cur (h.countEvent ev (n % 2 ^ 48))
      else s) s

/-- Appends a sample record, or counts it as lost; the record that makes 64 raises the interrupt when FIE = 1 (R480). -/
def Hart.addSample (h : Hart) (r : Vector Word 8) : Hart :=
  if 64 ≤ h.obs.records.length then
    { h with obs := { h.obs with lost := if h.obs.lost = 0xFFFF then 0xFFFF else h.obs.lost + 1 } }
  else
    let rs := h.obs.records ++ [r]
    let full := rs.length = 64 && h.obs.fie
    { h with obs := { h.obs with records := rs },
             trp := { h.trp with irq := if full then h.trp.irq ||| 0x10000 else h.trp.irq } }

/-- The lane clusters a hart holds, in increasing order. -/
def Hart.clusters (h : Hart) : List Nat := [0, 1, 2, 3].filter fun k => bitOf h.vec.lcmask.toNat k

/-- How an instruction came out, for its sample (R480). -/
inductive Ending where
  | completed | stopped (c : BitVec 8) | squashed
  deriving DecidableEq, Repr

/-- Dword 4 of a type 1 record, from a free value: zero for the stages that the instruction has not passed. One that issues no
micro-operation has no first issue, and a word that is no instruction leaves at its decode. (Log 80, DEDUCED.) -/
def Ending.stages (how : Ending) (issues : Bool) (cycles : Nat) : Nat :=
  let kept := match how with
    | .completed => if issues then 4 else 2
    | .squashed => 2
    | .stopped c => if c = 0x01 then 1 else if issues then 4 else 2
  cycles % 2 ^ (16 * kept) * 2 ^ (64 - 16 * kept)

/-- The PC at which an instruction that a stop has recorded resumes, which no tag falls on again (R480). -/
def Ending.untag (how : Ending) (h : Hart) : Option Word :=
  match how with
  | .stopped _ => some h.pc
  | _ => h.obs.untag

/-- The records of a tagged instruction (Table 26.7). The cycle fields are free values (log 8, DESIGN CHOICE); `elems` gives the active
elements completed on each lane cluster of an instruction that issues micro-operations. (Log 80, DEDUCED.) -/
def State.sample (s : State) (word : Word) (how : Ending) (elems : Option (Nat → Nat)) : State :=
  match s.hart? s.cur with
  | none => s
  | some h =>
    if h.obs.tagged.isNone then s
    else
      let (cycles, s) := s.draw
      let reports := if h.obs.ven && elems.isSome then h.clusters else []
      let flag := match how with | .completed => 0 | .stopped _ => 2 ^ 58 | .squashed => 2 ^ 59
      let cause := match how with | .stopped c => c.toNat | _ => 0
      let cycles := how.stages elems.isSome cycles
      let strip : Word := BitVec.ofNat 64 (h.vec.ord.toNat * 2 ^ 32 + h.vl)
      let first : Vector Word 8 :=
        #v[BitVec.ofNat 64 (2 ^ 60 + flag + reports.length), h.pc, h.obs.strip, strip, BitVec.ofNat 64 cycles, word,
           BitVec.ofNat 64 cause, 0]
      let h := { h with obs := { h.obs with tagged := none, untag := how.untag h } }.addSample first
      let s := s.setHart s.cur h
      reports.foldl (fun s lc =>
        let (c4, s) := s.draw
        let (c5, s) := s.draw
        let (c6, s) := s.draw
        let n := (elems.getD fun _ => 0) lc
        s.onCur fun h => h.addSample
          #v[BitVec.ofNat 64 (2 * 2 ^ 60 + lc), h.pc, h.obs.strip, strip, BitVec.ofNat 64 c4,
             BitVec.ofNat 64 (n % 2 ^ 32 * 2 ^ 32 + c5 % 2 ^ 32), BitVec.ofNat 64 (c6 % 2 ^ 32 * 2 ^ 32), 0]) s

/-! ### The logs of the management controller -/

/-- Which log (Table 3.12). -/
inductive LogKind where
  | error | launch | range | engine
  deriving DecidableEq, Repr

/-- Appends an entry; the newest 4,096 are held (R98). -/
def Log.add (l : Log) (e : LogEntry) : Log :=
  let es := l.entries ++ [{ e with seq := l.next }]
  { entries := es.drop (es.length - 4096), next := l.next + 1 }

/-- An entry without a hart or launch (Table 3.11). -/
def blankEntry (kind code : Nat) (addr : Word) : LogEntry :=
  { seq := 0, kind := BitVec.ofNat 8 kind, code := BitVec.ofNat 8 code, time := 0, addr := addr, tag := 0, who := 0,
    wid := 0, pc := 0, val := 0 }

/-- The entry with the address space it arises in (WHO of Table 3.11). -/
def LogEntry.under (e : LogEntry) (asid : BitVec 16) : LogEntry := { e with who := BitVec.ofNat 64 (asid.toNat * 2 ^ 48) }

/-- The entry with the hart at seat `k` that it concerns: WHO, TAG, WID and PC (Table 3.11). -/
def LogEntry.of (e : LogEntry) (k : Nat) (h : Hart) : LogEntry :=
  { e with tag := h.tag, who := BitVec.ofNat 64 (h.asid.toNat * 2 ^ 48 + k), wid := h.wid, pc := h.pc }

/-- The entry with the launch and WID it concerns, under the seated hart of that WID when there is one (Table 3.11). -/
def LogEntry.ofWid (e : LogEntry) (harts : Assoc Hart) (tag wid : Word) (asid : BitVec 16) : LogEntry :=
  match harts.find? fun p => p.2.tag == tag && p.2.wid == wid with
  | some p => { e.of p.1 p.2 with who := BitVec.ofNat 64 (asid.toNat * 2 ^ 48 + p.1) }
  | none => { e.under asid with tag := tag, wid := wid }

/-- Enters an entry in a log; TIME is a free value (log 8, DESIGN CHOICE). (Log 65, DEDUCED.) -/
def State.log (s : State) (k : LogKind) (e : LogEntry) : State :=
  let (t, s) := s.draw
  let e := { e with time := BitVec.ofNat 64 t }
  let hub := match k with
    | .error => { s.hub with errorLog := s.hub.errorLog.add e }
    | .launch => { s.hub with launchLog := s.hub.launchLog.add e }
    | .range => { s.hub with rangeLog := s.hub.rangeLog.add e }
    | .engine => { s.hub with engineLog := s.hub.engineLog.add e }
  { s with hub := hub }

/-! ### Traps -/

/-- The TCAUSE code of a cause (Table 24.3). -/
def Cause.code : Cause → BitVec 8
  | .illop => 0x01 | .priv => 0x02 | .misalign => 0x03 | .rmiss => 0x04 | .rperm => 0x05 | .rpartial => 0x06
  | .rcross => 0x07 | .sealed => 0x08 | .watch => 0x09 | .group => 0x0A | .sparsemeta => 0x0B | .xorder => 0x0C
  | .xstate => 0x0D | .remote => 0x0E | .peer => 0x0F | .trapi => 0x11 | .preempt => 0x12 | .stripstop => 0x13
  | .dataerr => 0x14 | .queue => 0x15 | .tile => 0x16

/-- A hart that takes a trap at program level (R440): TCAUSE, TVAL, TPC, TVSTART, PRV and PC; nothing else changes. TPC is
the stopping instruction's address, or that address + 8 for TRAPI. -/
def Hart.enterTrap (h : Hart) (c : Cause) (tval : Word) : Hart :=
  { h with
    trp := { h.trp with cause := c.code, tval := tval, tpc := if c = .trapi then h.pc + 8 else h.pc,
                        tvstart := h.vec.vstart, prv := true, stripAt := if c = .stripstop then some h.pc else none },
    pc := h.trp.tvec }

/-- A hart that takes a trap at system level: it halts at the faulting instruction, and its trap registers keep their values
(R441). -/
def Hart.doubleTrap (h : Hart) : Hart := { h with halted := true }

/-- The entry of a double trap in the error log (Table 3.12, kind 3). -/
def doubleTrapEntry (k : Nat) (h : Hart) (c : Cause) (tval : Word) : LogEntry :=
  { (blankEntry 3 c.code.toNat 0).of k h with val := tval }

/-- The executing hart takes a trap (R440, R441), every older instruction having issued and completed (R136); it is counted
(Table 26.10, code 0x0D). -/
def State.takeTrap (s : State) (c : Cause) (tval : Word) : State :=
  match s.hart? s.cur with
  | none => s
  | some h =>
    let h := h.issueAll.countEvent 0x0D 1
    if h.trp.prv then (s.setHart s.cur h.doubleTrap).log .error (doubleTrapEntry s.cur h c tval)
    else s.setHart s.cur (h.enterTrap c tval)

/-- Return from a trap (R454): PC := TPC and PRV := 0. A return to the instruction of a STRIPSTOP lets it begin (R449), and a
source that is pending is taken before it (R441). -/
def Hart.leaveTrap (h : Hart) : Hart :=
  { h with pc := h.trp.tpc,
           trp := { h.trp with prv := false, due := h.trp.irq != 0, stripDone := h.trp.stripAt == some h.trp.tpc } }

/-! ### What an instruction comes to -/

/-- The outcome of an instruction's effect on `σ`: it completes and control falls through or jumps, it stops with a trap, or
it holds, to go on at a later step (R444). -/
inductive Eff (σ : Type) where
  | seq (s : σ)
  | jump (s : σ) (pc : Word)
  | stop (s : σ) (c : Cause) (tval : Word)
  | hold (s : σ)

/-- Applies a function to the state of an outcome. -/
def Eff.map {σ τ : Type} (f : σ → τ) : Eff σ → Eff τ
  | .seq s => .seq (f s)
  | .jump s pc => .jump (f s) pc
  | .stop s c t => .stop (f s) c t
  | .hold s => .hold (f s)

/-- Runs an effect on the executing hart alone. -/
def State.lift (s : State) (e : Eff Hart) : Eff State := e.map fun h => s.setHart s.cur h

/-- The loop-back step (R139) from the address `e` just past the completed instruction: the loop stack it leaves, the address
control passes to, and the pipelined counts of a level that goes on. -/
def loopBack (e : Word) : List LoopLevel → List LoopLevel × Word × Option (BitVec 32)
  | [] => ([], e, none)
  | l :: r =>
    if l.stop = e then
      if l.count ≤ 1 then loopBack e r
      else
        let n := l.pipe.map fun p => if p.1 = 0 then 0 else p.1 - 1
        ({ l with count := l.count - 1, pipe := l.pipe.map fun p => (if p.1 = 0 then 0 else p.1 - 1, p.2) } :: r, l.start, n)
    else (l :: r, e, none)

/-- The guard shift and rotation of a pipelined loop-back step (R145). -/
def Hart.rotate (h : Hart) (nn : BitVec 32) : Hart :=
  let size := h.vec.rotSize.toNat
  let base := if size = 0 then h.vec.rotBase else BitVec.ofNat 6 ((h.vec.rotBase.toNat + size - 1) % size)
  { h with ctl := { h.ctl with greg := (h.ctl.greg <<< 1) ||| (if nn = 0 then 0 else 1) },
           vec := { h.vec with rotBase := base } }

/-- Control falls through: PC + 8, or the loop-back step at program level (R139, R441). -/
def Hart.fallThrough (h : Hart) : Hart :=
  if h.trp.prv then { h with pc := h.pc + 8 }
  else
    match loopBack (h.pc + 8) h.ctl.loops with
    | (ls, pc, nn) =>
      let h := { h with ctl := { h.ctl with loops := ls }, pc := pc }
      match nn with
      | none => h
      | some n => h.rotate n

/-- The levels a taken branch to `target` leaves on the stack (R140). -/
def popLevels (target : Word) : List LoopLevel → List LoopLevel
  | [] => []
  | l :: r => if l.start.toNat ≤ target.toNat && target.toNat < l.stop.toNat then l :: r else popLevels target r

/-- Pops the levels that a taken branch leaves; at system level none (R140, R441). -/
def Hart.leaveLoops (h : Hart) (target : Word) : Hart :=
  if h.trp.prv then h else { h with ctl := { h.ctl with loops := popLevels target h.ctl.loops } }

/-- Nothing waits. -/
def idleWait : Waiting :=
  { word := none, request := none, answer := none, left := [], got := [], probed := none, first := none, value := none, short := none,
    wfe := none, limit := 0, wfeDone := false }

/-- Clears what the model keeps between two steps of one instruction. -/
def Hart.settle (h : Hart) : Hart :=
  { h with wait := idleWait, obs := { h.obs with bands := 0 } }

/-- Completion of the executing hart's instruction (R481, code 0x02); `counted` when its effect has counted the events of its
cycle (R482). -/
def State.retire (s : State) (i : Instr) (counted : Bool) (elems : Option (Nat → Nat)) : State :=
  let s := if counted then s else s.countTiming
  let s := s.onCur fun h => (if counted then h else h.countEvent 0x02 1).settle
  s.sample (encodeWord i) .completed elems

/-- The next state after an instruction's effect. A trap clears a request's leftovers with the rest (R136); an instruction
that holds is not fetched again. -/
def State.finish (i : Instr) (counted : Bool) (elems : Option (Nat → Nat)) : Eff State → State
  | .seq s => (s.retire i counted elems).onCur Hart.fallThrough
  | .jump s pc => (s.retire i counted elems).onCur fun h => { h with pc := pc }
  | .stop s c tval =>
    ((s.countTiming.onCur Hart.settle).sample (encodeWord i) (.stopped c.code) elems).takeTrap c tval
  | .hold s => s.onCur fun h => { h with wait := { h.wait with word := some (encodeWord i) } }

end Sys2Proof.Machine
end

