-- ==== Sys2Proof/Machine/Flags.lean ====
section
/-! DEFINITION. The sticky flags: AFLAGS (Table 7.4) and GFLAGS (Table 7.5), the saturating helpers of Table 0.3 with the
flag they set, and the stochastic generator (R181). -/

namespace Sys2Proof.Machine

/-- The bits of AFLAGS (Table 7.4). -/
inductive Flag where
  | nv | dz | ovf | uf | nx | qsat | qufl
  deriving DecidableEq, Repr

/-- A flag's bit in AFLAGS (Table 7.4). -/
def Flag.bit : Flag → Nat
  | .nv => 1 | .dz => 2 | .ovf => 4 | .uf => 8 | .nx => 16 | .qsat => 32 | .qufl => 64

/-- A set of flags as the bits of AFLAGS. -/
abbrev FlagSet := Nat

/-- The flags of a list. -/
def flagsOf : List Flag → FlagSet
  | [] => 0
  | f :: r => f.bit ||| flagsOf r

/-- A flag set when the condition holds. -/
def flagIf (c : Bool) (f : Flag) : FlagSet := if c then f.bit else 0

/-- ORs flags into AFLAGS (R186). -/
def Hart.raise (h : Hart) (fs : FlagSet) : Hart :=
  { h with ar := { h.ar with aflags := h.ar.aflags ||| BitVec.ofNat 64 fs } }

/-- Sets GNAN (Table 7.5). -/
def Hart.raiseGnan (h : Hart) : Hart := { h with ar := { h.ar with gflags := h.ar.gflags ||| 1 } }

/-- FTZ (Table 7.3). -/
def Hart.ftz (h : Hart) : Bool := h.ar.acfg.getLsbD 3

/-- `Wrap(x, w)` (Table 0.3). -/
def wrapI (x : Int) (w : Nat) : Nat := (x % 2 ^ w).toNat

/-- `SignExt(x, w)` (Table 0.3). -/
def signExt (x w : Nat) : Int := if x % 2 ^ w < 2 ^ (w - 1) then ((x % 2 ^ w : Nat) : Int) else ((x % 2 ^ w : Nat) : Int) - 2 ^ w

/-- `SatI(x, w)` as a bit string, with OF when clamping changes x (Table 0.3). -/
def satI (x : Int) (w : Nat) : Nat × FlagSet :=
  if x < -(2 ^ (w - 1)) then (2 ^ (w - 1), Flag.ovf.bit)
  else if 2 ^ (w - 1) ≤ x then (2 ^ (w - 1) - 1, Flag.ovf.bit)
  else (wrapI x w, 0)

/-- `SatN(x, w)` as a bit string, with OF when clamping changes x (Table 0.3). -/
def satN (x : Int) (w : Nat) : Nat × FlagSet :=
  if x < 0 then (0, Flag.ovf.bit) else if 2 ^ w ≤ x then (2 ^ w - 1, Flag.ovf.bit) else (x.toNat, 0)

/-- The xorshift32 step (R181). -/
def seedNext (x : BitVec 32) : BitVec 32 :=
  let x := x ^^^ (x <<< 13)
  let x := x ^^^ (x >>> 17)
  x ^^^ (x <<< 5)

/-- A write of SEED that would leave STATE zero stores 1 (R181). -/
def seedStore (x : BitVec 32) : Word := if x = 0 then 1 else x.setWidth 64

/-- One draw of the stochastic generator: r := Next(STATE), and STATE := r (R182). -/
def Hart.drawSeed (h : Hart) : BitVec 32 × Hart :=
  let r := seedNext (h.ar.seed.setWidth 32)
  (r, { h with ar := { h.ar with seed := r.setWidth 64 } })

end Sys2Proof.Machine
end

