-- ==== Sys2Proof/Machine/Operands.lean ====
section
/-! DEFINITION. How an instruction reaches its operands: privilege and groups (Table 4.12, orders 3 and 4), guards (R111),
masks and `Active` (Table 0.3), the rotating block (R143), elements of register groups (R198), and the frame every
instruction of a hart runs in. -/

namespace Sys2Proof.Machine

/-! ### Vector registers -/

/-- The physical position of a vector register's name under the rotation in force (R143). -/
def Hart.mapReg (h : Hart) (r : Nat) : Nat :=
  let size := h.vec.rotSize.toNat
  let lo := h.nv - size
  if size ≠ 0 && lo ≤ r then lo + (r - lo + h.vec.rotBase.toNat) % size else r

/-- Bits per vector register (R197). -/
def Hart.regBits (h : Hart) : Nat := h.vlmax * h.sew

/-- The image of a physical register. -/
def Hart.vreg (h : Hart) (p : Nat) : Bits := if q : p < 64 then h.vec.v[p] else 0

/-- Replaces the image of a physical register. -/
def Hart.setVreg (h : Hart) (p : Nat) (x : Bits) : Hart := { h with vec := { h.vec with v := h.vec.v.setIfInBounds p x } }

/-- ReadElem: element `i` of width `w` of the group that begins at `first` (R198, Table 0.3). -/
def Hart.readElem (h : Hart) (first : RegIdx) (w i : Nat) : Nat :=
  bitsOf (h.vreg (h.mapReg (first.toNat + i * w / h.regBits))) (i * w % h.regBits) w

/-- WriteElem: the other elements are unchanged (R198, Table 0.3). -/
def Hart.writeElem (h : Hart) (first : RegIdx) (w i x : Nat) : Hart :=
  let p := h.mapReg (first.toNat + i * w / h.regBits)
  h.setVreg p (setBits (h.vreg p) (i * w % h.regBits) w x)

/-- The image of a mask register. -/
def Hart.mask (h : Hart) (r : Nat) : Bits := if q : r < 8 then h.vec.m[r] else 0

/-- Bit `i` of a mask register (R205). -/
def Hart.maskBit (h : Hart) (r i : Nat) : Bool := bitOf (h.mask r) i

/-- Replaces the image of a mask register. -/
def Hart.setMask (h : Hart) (r : Nat) (x : Bits) : Hart := { h with vec := { h.vec with m := h.vec.m.setIfInBounds r x } }

/-- Writes bit `i` of a mask register: that of an element below VL, and so below VLMAX (R201, R205). -/
def Hart.setMaskBit (h : Hart) (r i : Nat) (b : Bool) : Hart := h.setMask r (setBits (h.mask r) i 1 (bit01 b))

/-- The header of a scale register (R190, Table 15.1). -/
def Hart.header (h : Hart) (r j : Nat) : Nat := if q : r < 8 then bitsOf h.mat.e[r].toNat (16 * j) 16 else 0

/-- Writes the header `j` of a scale register. -/
def Hart.setHeader (h : Hart) (r j x : Nat) : Hart :=
  if q : r < 8 then
    { h with mat := { h.mat with e := h.mat.e.set r (BitVec.ofNat 1024 (setBits h.mat.e[r].toNat (16 * j) 16 x)) } }
  else h

/-! ### Masks and guards -/

/-- The governing mask of an instruction: none, or a mask register read straight or inverted (R106). -/
structure Governing where
  masked : Bool
  reg : Nat
  inverted : Bool
  deriving DecidableEq, Repr

/-- No mask. -/
def Governing.off : Governing := { masked := false, reg := 0, inverted := false }

/-- The mask of an R-format word (R106). -/
def govR (f : RFields) : Governing := { masked := f.masked, reg := f.mr.toNat, inverted := f.aux4 }

/-- The mask of an M-format word, never inverted (R106). -/
def govM (f : MFields) : Governing := { masked := f.masked, reg := f.mr.toNat, inverted := false }

/-- The mask of an X-format word: m0 (R106). -/
def govX (f : XFields) : Governing := { masked := f.masked, reg := 0, inverted := false }

/-- The mask of a vector slot: m0 (Table 4.10). -/
def slotGov (masked : Bool) : Governing := { masked := masked, reg := 0, inverted := false }

/-- `Active(i)` (Table 0.3). -/
def Hart.active (h : Hart) (g : Governing) (i : Nat) : Bool :=
  h.vstart ≤ i && i < h.vl && (!g.masked || (h.maskBit g.reg i != g.inverted))

/-- A guard bit of 0 suppresses the effect (R111). -/
def Hart.guardedOff (h : Hart) (gd : Bool) (gs : BitVec 3) : Bool := gd && !h.ctl.greg.getLsbD gs.toNat

/-! ### Groups -/

/-- A vector operand: its first register, its group size and its element width. -/
structure Group where
  first : RegIdx
  size : Nat
  width : Nat
  deriving DecidableEq, Repr

/-- Registers per group (Table 4.8). -/
def groupSize (gm : BitVec 2) : Nat := 2 ^ gm.toNat

/-- The operand breaks R110, R199 or the rotating block's rule of R143. -/
def Hart.badGroup (h : Hart) (g : Group) : Bool :=
  let lo := h.nv - h.vec.rotSize.toNat
  g.first.toNat % g.size != 0 || h.nv < g.first.toNat + g.size || g.size * h.sew < g.width ||
  (h.vec.rotSize.toNat != 0 && g.first.toNat < lo && lo < g.first.toNat + g.size)

/-- A span of `bytes` bytes from register `x` leaves the registers (R337), or lies both inside and outside the rotating block (R143). -/
def Hart.badSpan (h : Hart) (x : RegIdx) (bytes : Nat) : Bool :=
  let rb := h.regBits / 8
  let n := (bytes + rb - 1) / rb
  let lo := h.nv - h.vec.rotSize.toNat
  n != 0 && (h.nv < x.toNat + n || (h.vec.rotSize != 0 && x.toNat < lo && lo < x.toNat + n))

/-- Two groups share a register. -/
def Group.overlaps (a b : Group) : Bool :=
  a.first.toNat < b.first.toNat + b.size && b.first.toNat < a.first.toNat + a.size

/-- Some two of the groups overlap (R241). -/
def anyOverlap : List Group → Bool
  | [] => false
  | g :: r => r.any g.overlaps || anyOverlap r

/-! ### The frame of an instruction -/

/-- The element an instruction reached: VL, where it stopped, or where a load that stops short ended (R286). -/
def Eff.reached (h : Hart) : Eff State → Nat
  | .stop s _ _ => match s.hart? s.cur with | none => h.vl | some r => r.vstart
  | .seq s | .jump s _ | .hold s => match s.hart? s.cur with | none => h.vl | some r => r.wait.short.getD h.vl

/-- The instruction has made micro-operations in this step: one that a trap stops has made those of the stopping element's band. -/
def Eff.issued (h : Hart) : Eff State → Bool
  | .stop s _ _ | .seq s | .jump s _ | .hold s => (s.hart? s.cur).any fun r => h.obs.ops < r.obs.ops

/-- The hart with the VSTART at which its instruction was tagged. -/
def Hart.atTag (h : Hart) : Hart := match h.obs.tagged with | none => h | some n => h.setVstart n

/-- The elements that a tagged instruction has completed on each lane cluster, by `elems`; none when it made no
micro-operation (R208, R480). -/
def Eff.reports (h : Hart) (elems : Option (Nat → Nat → Nat)) (e : Eff State) : Option (Nat → Nat) :=
  if h.atTag.vstart < e.reached h || e.issued h then elems.map fun n => n (e.reached h) else none

/-- Runs the effect of an instruction on the executing hart and makes its outcome the next state. Without a hart that can
execute there is nothing to run. -/
def performWith (i : Instr) (s : State) (counted : Bool) (elems : Hart → Option (Nat → Nat → Nat))
    (effect : State → Hart → Eff State) : Host.Outcome State Fault Refusal :=
  match s.running with
  | none => .fault .noHart
  | some h =>
    let h' := { h with trp := { h.trp with due := false, stripDone := false } }
    let e := effect (s.setHart s.cur h') h'
    .next (State.finish i counted (e.reports h (elems h.atTag)) e)

/-- `performWith` for an instruction that issues no micro-operations. -/
def perform (i : Instr) (s : State) (effect : State → Hart → Eff State) : Host.Outcome State Fault Refusal :=
  performWith i s false (fun _ => none) effect

/-- `perform` for an instruction that changes its hart by `after` once it has completed. -/
def performThen (i : Instr) (s : State) (after : Hart → Hart) (effect : State → Hart → Eff State) :
    Host.Outcome State Fault Refusal :=
  match s.running with
  | none => .fault .noHart
  | some h =>
    let h' := { h with trp := { h.trp with due := false, stripDone := false } }
    let e := effect (s.setHart s.cur h') h'
    let t := State.finish i false none e
    .next (match e with
      | .seq _ | .jump _ _ => t.onCur after
      | _ => t)

/-- An instruction whose effect is on its hart alone. -/
def performHart (i : Instr) (s : State) (effect : Hart → Eff Hart) : Host.Outcome State Fault Refusal :=
  perform i s fun s h => s.lift (effect h)

/-- A system-level instruction traps PRIV at program level (Table 4.12, order 3). -/
def Hart.orPriv {σ : Type} (h : Hart) (i : Instr) (s : σ) (k : Unit → Eff σ) : Eff σ :=
  if h.trp.prv then k () else .stop s .priv (encodeWord i)

/-- Runs `f` on the elements `lo` to `lo + n - 1` in increasing order. -/
def forElems {σ : Type} (f : Nat → σ → σ) : Nat → Nat → σ → σ
  | 0, _, x => x
  | n + 1, lo, x => forElems f n (lo + 1) (f lo x)

/-- How many elements from `lo` to `lo + n - 1` satisfy a condition. -/
def countElems (p : Nat → Bool) : Nat → Nat → Nat
  | 0, _ => 0
  | n + 1, lo => bit01 (p lo) + countElems p n (lo + 1)

/-- The band past the last one that holds an element below `hi` (R208). -/
def Hart.bandEnd (h : Hart) (hi : Nat) : Nat := (hi + h.lanes - 1) / h.lanes

/-- The micro-operations of an element loop from `lo` up to `hi`: one per band and granted lane cluster (R208), but for the bands
below `done`, which an earlier step of the same instruction has made. -/
def Hart.microOps (h : Hart) (lo hi done : Nat) : Nat :=
  if hi ≤ lo then 0 else (h.bandEnd hi - Nat.max done (lo / h.lanes)) * h.clusters.length

/-- Counts the elements below `hi` of an instruction that has made micro-operations for those below `made` (Table 26.10, codes 0x03
and, once issued, 0x04; R209). -/
def Hart.countBands (h : Hart) (before : Hart) (g : Governing) (hi made : Nat) : Hart :=
  let n := countElems (before.active g) (hi - before.vstart) before.vstart
  let h := h.countEvent 0x03 n
  { h with
    obs := { h.obs with ops := h.obs.ops + before.microOps before.vstart made before.obs.bands,
                        bands := Nat.max before.obs.bands (before.bandEnd made) } }

/-- Counts the elements and micro-operations of an instruction on the elements `lo` to `hi - 1`. -/
def Hart.countVector (h : Hart) (before : Hart) (g : Governing) (hi : Nat) : Hart := h.countBands before g hi hi

/-- Active elements from `lo` below `hi` that lane cluster `lc` computes: lane i mod G (R200). -/
def Hart.elemsOn (h : Hart) (g : Governing) (hi lc : Nat) : Nat :=
  let mine (i : Nat) : Bool := h.active g i && h.clusters[i % h.lanes / 16]? == some lc
  countElems mine (hi - h.vstart) h.vstart

/-- Where an element loop ends that may stop at element boundaries: at VL, or at the boundary the step is cut at (R444). -/
def Hart.loopEnd (h : Hart) (stopAt : Option Nat) : Nat :=
  match stopAt with
  | none => h.vl
  | some n => if h.vstart < n && n < h.vl then n else h.vl

/-- The element loop of R216: `f` on each active element from VSTART up to VL, or up to the cut; VSTART is 0 when the
instruction completes. -/
def elementLoop (g : Governing) (h : Hart) (stopAt : Option Nat) (f : Nat → Hart → Hart) : Eff Hart :=
  let hi := h.loopEnd stopAt
  let r := (forElems (fun i r => if h.active g i then f i r else r) (hi - h.vstart) h.vstart h).countVector h g hi
  if hi < h.vl then .hold (r.setVstart hi) else .seq (r.setVstart 0)

/-- A vector instruction on registers: the group rules, then the guard (R111, R120), then its effect. -/
def performVector (i : Instr) (s : State) (f : RFields) (groups : List Group) (overlap : Bool)
    (effect : Hart → Option Nat → Eff Hart) : Host.Outcome State Fault Refusal :=
  performWith i s false (fun h => if h.guardedOff f.gd f.gs then none else some (h.elemsOn (govR f))) fun s h =>
    if groups.any h.badGroup || overlap then .stop s .group (encodeWord i)
    else if h.guardedOff f.gd f.gs then .seq (s.onCur fun h => h.setVstart 0)
    else s.lift (effect h s.stopAt)

end Sys2Proof.Machine
end

