-- ==== Sys2Proof/Machine/Scalar.lean ====
section
/-! DEFINITION. Scalar arithmetic and immediates: MAJ 0x00 (Table 6.1), 0x01 (R154) and 0x02 (Table 6.2). -/

namespace Sys2Proof.Machine

/-- A scalar operation of MAJ 0x00 or 0x01: guarded off it does nothing (R149); else it writes sD and raises flags. -/
def scalarOp (f : RFields) (h : Hart) (op : Word × FlagSet) : Eff Hart :=
  if h.guardedOff f.gd f.gs then .seq h else .seq ((h.setS f.d op.1).raise op.2)

/-- A saturating result (R153): AUX bit 0 selects unsigned reading and clamping. -/
def saturated (unsigned : Bool) (a b : Word) (op : Int → Int → Int) : Word × FlagSet :=
  let r := if unsigned then satN (op a.toNat b.toNat) 64 else satI (op a.toInt b.toInt) 64
  (BitVec.ofNat 64 r.1, r.2)

/-- ADD (R152, R153). -/
def addValue (f : RFields) (a b : Word) : Word × FlagSet :=
  if f.sat then saturated (f.aux.getLsbD 0) a b (· + ·) else (a + b, 0)

/-- SUB (R152, R153). -/
def subValue (f : RFields) (a b : Word) : Word × FlagSet :=
  if f.sat then saturated (f.aux.getLsbD 0) a b (· - ·) else (a - b, 0)

/-- SLL (R152, R153): the saturating form multiplies by 2^sh exactly. -/
def sllValue (f : RFields) (a b : Word) : Word × FlagSet :=
  let sh := b.toNat % 64
  if f.sat then saturated (f.aux.getLsbD 0) a b (fun x _ => x * 2 ^ sh) else (a <<< sh, 0)

/-- MUL (R152, R153). -/
def mulValue (f : RFields) (a b : Word) : Word × FlagSet :=
  if f.sat then saturated (f.aux.getLsbD 0) a b (· * ·) else (a * b, 0)

/-- 1 when the condition holds, else 0. -/
def truthWord (c : Bool) : Word := if c then 1 else 0

/-- Counts the zero bits above the highest 1 of the low `n` bits of a number; `n` for zero. -/
def leadingZeros (x : Nat) : Nat → Nat
  | 0 => 0
  | n + 1 => if x.testBit n then 0 else leadingZeros x n + 1

/-- Counts the zero bits below the lowest 1, from bit `i` on, of `n` bits. -/
def trailingZeros (x : Nat) : Nat → Nat → Nat
  | 0, _ => 0
  | n + 1, i => if x.testBit i then 0 else trailingZeros x n (i + 1) + 1

/-- Counts the 1 bits among the low `n` bits. -/
def popCount (x : Nat) : Nat → Nat
  | 0 => 0
  | n + 1 => bit01 (x.testBit n) + popCount x n

/-- The binary operations of Table 6.1 that have no saturating form. -/
def andValue (a b : Word) : Word := a &&& b
def orValue (a b : Word) : Word := a ||| b
def xorValue (a b : Word) : Word := a ^^^ b
def srlValue (a b : Word) : Word := a >>> (b.toNat % 64)
def sraValue (a b : Word) : Word := a.sshiftRight (b.toNat % 64)
def sltValue (a b : Word) : Word := truthWord (decide (a.toInt < b.toInt))
def sltnValue (a b : Word) : Word := truthWord (decide (a.toNat < b.toNat))
def minValue (a b : Word) : Word := if a.toInt ≤ b.toInt then a else b
def maxValue (a b : Word) : Word := if a.toInt ≤ b.toInt then b else a
def minnValue (a b : Word) : Word := if a.toNat ≤ b.toNat then a else b
def maxnValue (a b : Word) : Word := if a.toNat ≤ b.toNat then b else a
def mulhValue (a b : Word) : Word := BitVec.ofInt 64 (a.toInt * b.toInt / 2 ^ 64)
def mulhnValue (a b : Word) : Word := BitVec.ofNat 64 (a.toNat * b.toNat / 2 ^ 64)
def clzValue (a : Word) : Word := BitVec.ofNat 64 (leadingZeros a.toNat 64)
def ctzValue (a : Word) : Word := BitVec.ofNat 64 (trailingZeros a.toNat 64 0)
def popcValue (a : Word) : Word := BitVec.ofNat 64 (popCount a.toNat 64)
def brevValue (a : Word) : Word := a.reverse

/-- A binary operation on sA and sB. -/
def scalarBinary (f : RFields) (h : Hart) (op : Word → Word → Word) : Eff Hart :=
  scalarOp f h (op (h.sreg f.a) (h.sreg f.b), 0)

/-- ADD (R152). -/
def execAdd (f : RFields) (s : State) : Host.Outcome State Fault Refusal :=
  performHart (.add f) s fun h => scalarOp f h (addValue f (h.sreg f.a) (h.sreg f.b))
/-- SUB (R152). -/
def execSub (f : RFields) (s : State) : Host.Outcome State Fault Refusal :=
  performHart (.sub f) s fun h => scalarOp f h (subValue f (h.sreg f.a) (h.sreg f.b))
/-- AND (R152). -/
def execAnd (f : RFields) (s : State) : Host.Outcome State Fault Refusal :=
  performHart (.and f) s fun h => scalarBinary f h andValue
/-- OR (R152). -/
def execOr (f : RFields) (s : State) : Host.Outcome State Fault Refusal :=
  performHart (.or f) s fun h => scalarBinary f h orValue
/-- XOR (R152). -/
def execXor (f : RFields) (s : State) : Host.Outcome State Fault Refusal :=
  performHart (.xor f) s fun h => scalarBinary f h xorValue
/-- SLL (R152). -/
def execSll (f : RFields) (s : State) : Host.Outcome State Fault Refusal :=
  performHart (.sll f) s fun h => scalarOp f h (sllValue f (h.sreg f.a) (h.sreg f.b))
/-- SRL (R152). -/
def execSrl (f : RFields) (s : State) : Host.Outcome State Fault Refusal :=
  performHart (.srl f) s fun h => scalarBinary f h srlValue
/-- SRA (R152). -/
def execSra (f : RFields) (s : State) : Host.Outcome State Fault Refusal :=
  performHart (.sra f) s fun h => scalarBinary f h sraValue
/-- SLT (R152). -/
def execSlt (f : RFields) (s : State) : Host.Outcome State Fault Refusal :=
  performHart (.slt f) s fun h => scalarBinary f h sltValue
/-- SLTN (R152). -/
def execSltn (f : RFields) (s : State) : Host.Outcome State Fault Refusal :=
  performHart (.sltn f) s fun h => scalarBinary f h sltnValue
/-- MIN (R152). -/
def execMin (f : RFields) (s : State) : Host.Outcome State Fault Refusal :=
  performHart (.min f) s fun h => scalarBinary f h minValue
/-- MAX (R152). -/
def execMax (f : RFields) (s : State) : Host.Outcome State Fault Refusal :=
  performHart (.max f) s fun h => scalarBinary f h maxValue
/-- MINN (R152). -/
def execMinn (f : RFields) (s : State) : Host.Outcome State Fault Refusal :=
  performHart (.minn f) s fun h => scalarBinary f h minnValue
/-- MAXN (R152). -/
def execMaxn (f : RFields) (s : State) : Host.Outcome State Fault Refusal :=
  performHart (.maxn f) s fun h => scalarBinary f h maxnValue
/-- MUL (R152). -/
def execMul (f : RFields) (s : State) : Host.Outcome State Fault Refusal :=
  performHart (.mul f) s fun h => scalarOp f h (mulValue f (h.sreg f.a) (h.sreg f.b))
/-- MULH (R152). -/
def execMulh (f : RFields) (s : State) : Host.Outcome State Fault Refusal :=
  performHart (.mulh f) s fun h => scalarBinary f h mulhValue
/-- MULHN (R152). -/
def execMulhn (f : RFields) (s : State) : Host.Outcome State Fault Refusal :=
  performHart (.mulhn f) s fun h => scalarBinary f h mulhnValue
/-- CLZ (R152). -/
def execClz (f : RFields) (s : State) : Host.Outcome State Fault Refusal :=
  performHart (.clz f) s fun h => scalarOp f h (clzValue (h.sreg f.a), 0)
/-- CTZ (R152). -/
def execCtz (f : RFields) (s : State) : Host.Outcome State Fault Refusal :=
  performHart (.ctz f) s fun h => scalarOp f h (ctzValue (h.sreg f.a), 0)
/-- POPC (R152). -/
def execPopc (f : RFields) (s : State) : Host.Outcome State Fault Refusal :=
  performHart (.popc f) s fun h => scalarOp f h (popcValue (h.sreg f.a), 0)
/-- BREV (R152). -/
def execBrev (f : RFields) (s : State) : Host.Outcome State Fault Refusal :=
  performHart (.brev f) s fun h => scalarOp f h (brevValue (h.sreg f.a), 0)
/-- SEL (R152). -/
def execSel (f : RFields) (s : State) : Host.Outcome State Fault Refusal :=
  performHart (.sel f) s fun h => scalarOp f h (if h.sreg f.c ≠ 0 then h.sreg f.a else h.sreg f.b, 0)

/-! ### Division -/

/-- Quotient, remainder and flags of R154; `signed` for DIV and REM. -/
def divide (signed : Bool) (a b : Word) : Word × Word × FlagSet :=
  if b = 0 then (BitVec.allOnes 64, a, Flag.dz.bit)
  else if signed then
    if a.toInt = -(2 ^ 63) && b.toInt = -1 then (a, 0, Flag.ovf.bit)
    else (BitVec.ofInt 64 (a.toInt.tdiv b.toInt), BitVec.ofInt 64 (a.toInt.tmod b.toInt), 0)
  else (a / b, a % b, 0)

/-- DIV (R154). -/
def execDiv (f : RFields) (s : State) : Host.Outcome State Fault Refusal :=
  performHart (.div f) s fun h => let q := divide true (h.sreg f.a) (h.sreg f.b); scalarOp f h (q.1, q.2.2)
/-- REM (R154). -/
def execRem (f : RFields) (s : State) : Host.Outcome State Fault Refusal :=
  performHart (.rem f) s fun h => let q := divide true (h.sreg f.a) (h.sreg f.b); scalarOp f h (q.2.1, q.2.2)
/-- DIVN (R154). -/
def execDivn (f : RFields) (s : State) : Host.Outcome State Fault Refusal :=
  performHart (.divn f) s fun h => let q := divide false (h.sreg f.a) (h.sreg f.b); scalarOp f h (q.1, q.2.2)
/-- REMN (R154). -/
def execRemn (f : RFields) (s : State) : Host.Outcome State Fault Refusal :=
  performHart (.remn f) s fun h => let q := divide false (h.sreg f.a) (h.sreg f.b); scalarOp f h (q.2.1, q.2.2)

/-! ### Immediates -/

/-- The sign-extended immediate as a word (R155). -/
def immWord (f : IFields) : Word := f.imm.signExtend 64

/-- An immediate operation: sD from sA (R155). -/
def immediateOp (f : IFields) (h : Hart) (op : Word → Word) : Eff Hart := .seq (h.setS f.d (op (h.sreg f.a)))

/-- ADDI (R155). -/
def execAddi (f : IFields) (s : State) : Host.Outcome State Fault Refusal :=
  performHart (.addi f) s fun h => immediateOp f h fun a => a + immWord f
/-- ANDI (R155). -/
def execAndi (f : IFields) (s : State) : Host.Outcome State Fault Refusal :=
  performHart (.andi f) s fun h => immediateOp f h fun a => a &&& immWord f
/-- ORI (R155). -/
def execOri (f : IFields) (s : State) : Host.Outcome State Fault Refusal :=
  performHart (.ori f) s fun h => immediateOp f h fun a => a ||| immWord f
/-- XORI (R155). -/
def execXori (f : IFields) (s : State) : Host.Outcome State Fault Refusal :=
  performHart (.xori f) s fun h => immediateOp f h fun a => a ^^^ immWord f
/-- SLLI (R155). -/
def execSlli (f : IFields) (s : State) : Host.Outcome State Fault Refusal :=
  performHart (.slli f) s fun h => immediateOp f h fun a => a <<< f.imm.toNat
/-- SRLI (R155). -/
def execSrli (f : IFields) (s : State) : Host.Outcome State Fault Refusal :=
  performHart (.srli f) s fun h => immediateOp f h fun a => a >>> f.imm.toNat
/-- SRAI (R155). -/
def execSrai (f : IFields) (s : State) : Host.Outcome State Fault Refusal :=
  performHart (.srai f) s fun h => immediateOp f h fun a => a.sshiftRight f.imm.toNat
/-- SLTI (R155). -/
def execSlti (f : IFields) (s : State) : Host.Outcome State Fault Refusal :=
  performHart (.slti f) s fun h => immediateOp f h fun a => sltValue a (immWord f)
/-- LI (R155). -/
def execLi (f : IFields) (s : State) : Host.Outcome State Fault Refusal :=
  performHart (.li f) s fun h => immediateOp f h fun _ => immWord f
/-- LIH (R155). -/
def execLih (f : IFields) (s : State) : Host.Outcome State Fault Refusal :=
  performHart (.lih f) s fun h => immediateOp f h fun a => f.imm ++ a.extractLsb' 0 32

/-! ### Hints -/

/-- NOP and every hint (R118): only the PC advances. -/
def execNop (hint : BitVec 2) (bits : BitVec 56) (s : State) : Host.Outcome State Fault Refusal :=
  performHart (.nop hint bits) s fun h => .seq h

end Sys2Proof.Machine
end

