-- ==== Sys2Proof/Machine/Control.lean ====
section
/-! DEFINITION. Branches (MAJ 0x03), jumps, loops and BCQ (MAJ 0x04), and the vector configuration and queue pops
(MAJ 0x05). -/

namespace Sys2Proof.Machine

/-- The target of a J-format word (R157, R159). -/
def jumpTarget (h : Hart) (off : BitVec 32) : Word := h.pc + 8 * off.signExtend 64

/-- A jump that leaves the loop levels its target lies outside (R140). -/
def leaveTo (h : Hart) (t : Word) : Eff Hart := .jump (h.leaveLoops t) t

/-- A compare and branch (R157). -/
def branchOp (f : JFields) (h : Hart) (cond : Word → Word → Bool) : Eff Hart :=
  if cond (h.sreg f.a) (h.sreg f.b) then leaveTo h (jumpTarget h f.off) else .seq h

/-- BEQ (R157). -/
def execBeq (f : JFields) (s : State) : Host.Outcome State Fault Refusal :=
  performHart (.beq f) s fun h => branchOp f h fun a b => a == b
/-- BNE (R157). -/
def execBne (f : JFields) (s : State) : Host.Outcome State Fault Refusal :=
  performHart (.bne f) s fun h => branchOp f h fun a b => a != b
/-- BLT (R157). -/
def execBlt (f : JFields) (s : State) : Host.Outcome State Fault Refusal :=
  performHart (.blt f) s fun h => branchOp f h fun a b => decide (a.toInt < b.toInt)
/-- BGE (R157). -/
def execBge (f : JFields) (s : State) : Host.Outcome State Fault Refusal :=
  performHart (.bge f) s fun h => branchOp f h fun a b => decide (b.toInt ≤ a.toInt)
/-- BLTN (R157). -/
def execBltn (f : JFields) (s : State) : Host.Outcome State Fault Refusal :=
  performHart (.bltn f) s fun h => branchOp f h fun a b => decide (a.toNat < b.toNat)
/-- BGEN (R157). -/
def execBgen (f : JFields) (s : State) : Host.Outcome State Fault Refusal :=
  performHart (.bgen f) s fun h => branchOp f h fun a b => decide (b.toNat ≤ a.toNat)

/-- JMP (R159). -/
def execJmp (f : JFields) (s : State) : Host.Outcome State Fault Refusal :=
  performHart (.jmp f) s fun h => leaveTo h (jumpTarget h f.off)

/-- JAL (R159): no level is popped. -/
def execJal (f : JFields) (s : State) : Host.Outcome State Fault Refusal :=
  performHart (.jal f) s fun h => .jump (h.setS f.d (h.pc + 8)) (jumpTarget h f.off)

/-- A register jump to `t` (R159): MISALIGN for a target that is not a multiple of 8 (R100). -/
def registerJump (h : Hart) (d : RegIdx) (t : Word) (pops : Bool) : Eff Hart :=
  if t.extractLsb' 0 3 ≠ 0 then .stop h .misalign t
  else
    let h := h.setS d (h.pc + 8)
    if pops then leaveTo h t else .jump h t

/-- JR (R159). -/
def execJr (f : JFields) (s : State) : Host.Outcome State Fault Refusal :=
  performHart (.jr f) s fun h => registerJump h f.d (h.sreg f.a + 8 * f.off.signExtend 64) true

/-- RET (R159): JR through s1 with no link, and no level is popped. -/
def execRet (f : JFields) (s : State) : Host.Outcome State Fault Refusal :=
  performHart (.ret f) s fun h => registerJump h 0 (h.sreg 1) false

/-- The end of a loop body (R138). -/
def loopStop (h : Hart) (f : JFields) : Word := h.pc + 8 * f.off.signExtend 64

/-- Pushes a loop level and goes on at the first word of the body (R138). -/
def pushLoop (h : Hart) (l : LoopLevel) : Eff Hart :=
  .jump { h with ctl := { h.ctl with loops := l :: h.ctl.loops } } (h.pc + 8)

/-- LOOP (R138); ILLOP at system level (R441). -/
def loopOp (f : JFields) (h : Hart) : Eff Hart :=
  if h.trp.prv || f.off.toInt < 2 then .stop h .illop (encodeWord (.loop f))
  else if 4 ≤ h.ctl.loops.length then .stop h .queue 5
  else
    let n := (h.sreg f.a).extractLsb' 0 32
    if n = 0 then leaveTo h (loopStop h f)
    else pushLoop h { start := h.pc + 8, stop := loopStop h f, count := n.setWidth 64, pipe := none }

/-- LOOP (R138). -/
def execLoop (f : JFields) (s : State) : Host.Outcome State Fault Refusal :=
  performHart (.loop f) s fun h => loopOp f h

/-- The rotating-block size of LOOPP (R160). -/
def looppBlock (f : JFields) : Nat := 64 * bit01 (f.d.getLsbD 3) + f.b.toNat

/-- LOOPP (R142, R160): its checks in order, then the level, GREG and ROTB. -/
def looppOp (f : JFields) (h : Hart) : Eff Hart :=
  let word := encodeWord (.loopp f)
  if h.trp.prv || f.off.toInt < 2 then .stop h .illop word
  else if 4 ≤ h.ctl.loops.length then .stop h .queue 5
  else if h.ctl.loops.any (fun l => l.pipe.isSome) then .stop h .queue 6
  else if h.nv < looppBlock f then .stop h .group word
  else
    let n := (h.sreg f.a).extractLsb' 0 32
    let st := f.d.toNat % 8 + 1
    if n = 0 then leaveTo h (loopStop h f)
    else
      let h := { h with ctl := { h.ctl with greg := 1 },
                        vec := { h.vec with rotBase := 0, rotSize := BitVec.ofNat 7 (looppBlock f) } }
      pushLoop h { start := h.pc + 8, stop := loopStop h f, count := n.setWidth 64 + BitVec.ofNat 64 (st - 1),
                   pipe := some (n, BitVec.ofNat 4 st) }

/-- LOOPP (R142). -/
def execLoopp (f : JFields) (s : State) : Host.Outcome State Fault Refusal :=
  performHart (.loopp f) s fun h => looppOp f h

/-- LCNT (R141). -/
def execLcnt (f : JFields) (s : State) : Host.Outcome State Fault Refusal :=
  performHart (.lcnt f) s fun h =>
    .seq (h.setS f.d (match h.ctl.loops with | [] => 0 | l :: _ => l.count))

/-! ### The queues -/

/-- Pops the condition queue (R131): an underflow traps QUEUE with TVAL 3, or gives 0 and sets UNDER. -/
def popCondition (h : Hart) (k : Hart → Bool → Eff Hart) : Eff Hart :=
  match h.ctl.cq with
  | b :: r => k { h with ctl := { h.ctl with cq := r } } b
  | [] => if h.ctl.cqChk then .stop h .queue 3 else k { h with ctl := { h.ctl with cqUnder := true } } false

/-- Pops the length queue (R131): an underflow traps QUEUE with TVAL 1 from the state `under`, or gives 0 and sets UNDER. -/
def popLength (h under : Hart) (k : Hart → BitVec 32 → Eff Hart) : Eff Hart :=
  match h.ctl.lq with
  | n :: r => k { h with ctl := { h.ctl with lq := r, lqAt := h.ctl.lqAt + 1 } } n
  | [] => if h.ctl.lqChk then .stop under .queue 1 else k { h with ctl := { h.ctl with lqUnder := true } } 0

/-- Pushes a length; a full queue traps QUEUE with TVAL 2 before anything else happens (R132). -/
def pushLength (h : Hart) (n : Nat) : Hart :=
  { h with ctl := { h.ctl with lq := h.ctl.lq ++ [BitVec.ofNat 32 n] } }

/-- Pushes a condition bit (R130). -/
def pushCondition (h : Hart) (b : Bool) : Hart := { h with ctl := { h.ctl with cq := h.ctl.cq ++ [b] } }

/-- BCQ (R162). -/
def execBcq (f : JFields) (s : State) : Host.Outcome State Fault Refusal :=
  performHart (.bcq f) s fun h =>
    popCondition h fun h b => if b == (f.a == 0) then leaveTo h (jumpTarget h f.off) else .seq h

/-- LQPOP (R172). -/
def execLqpop (f : RFields) (s : State) : Host.Outcome State Fault Refusal :=
  performHart (.lqpop f) s fun h => popLength h h fun h n => .seq (h.setS f.d (n.setWidth 64))

/-- CQPOP (R172). -/
def execCqpop (f : RFields) (s : State) : Host.Outcome State Fault Refusal :=
  performHart (.cqpop f) s fun h => popCondition h fun h b => .seq (h.setS f.d (truthWord b))

/-! ### The vector configuration -/

/-- VDECL (R166). -/
def declare (h : Hart) (aux : BitVec 4) : Hart :=
  { h with vec := { h.vec with
      nvc := aux.extractLsb' 0 2, sewc := aux.extractLsb' 2 2, v := Vector.replicate 64 0, m := Vector.replicate 8 0,
      len := 0, vstart := 0, rotBase := 0, rotSize := 0 } }

/-- VDECL (R166); it serialises (R127). -/
def execVdecl (f : RFields) (s : State) : Host.Outcome State Fault Refusal :=
  performHart (.vdecl f) s fun h => .seq (declare h.issueAll f.aux)

/-- Opens a strip of length `n` (R167, R168). -/
def openStrip (h : Hart) (n : Nat) : Hart :=
  { h with vec := { h.vec with len := BitVec.ofNat 16 (Nat.min n h.vlmax), vstart := 0, ord := h.vec.ord + 1 },
           obs := { h.obs with strip := h.pc } }

/-- The STRIPSTOP conditions before a VSETL, VSETLQ or HEXIT (R449); `before` is the hart as the instruction finds it. -/
def Hart.stripStops (before : Hart) : Bool :=
  !before.trp.prv && (before.trp.dreq || before.trp.sstop) && !before.trp.stripDone

/-- Taking a STRIPSTOP (R449): TVAL = ORD, VSTART = 0, and DREQ is cleared. -/
def stripStop (h : Hart) : Eff Hart :=
  .stop { h.setVstart 0 with trp := { h.trp with dreq := false } } .stripstop (h.vec.ord.setWidth 64)

/-- Runs an instruction before which STRIPSTOP may be taken (R449). -/
def performStrip (i : Instr) (s : State) (effect : State → Hart → Eff State) : Host.Outcome State Fault Refusal :=
  let stops := match s.running with | none => false | some h => h.stripStops
  perform i s fun s h => if stops then s.lift (stripStop h) else effect s h

/-- VSETL (R167). -/
def execVsetl (f : RFields) (s : State) : Host.Outcome State Fault Refusal :=
  performStrip (.vsetl f) s fun s h =>
    let h := openStrip h (h.sreg f.a).toNat
    s.lift (.seq (h.setS f.d (h.vec.len.setWidth 64)))

/-- VSETLQ (R169): an underflow trap leaves VSTART = 0 and changes nothing else. -/
def execVsetlq (f : RFields) (s : State) : Host.Outcome State Fault Refusal :=
  performStrip (.vsetlq f) s fun s h =>
    s.lift (popLength h (h.setVstart 0) fun h n => .seq (openStrip h n.toNat))

/-- VGETMAX (R171). -/
def execVgetmax (f : RFields) (s : State) : Host.Outcome State Fault Refusal :=
  performHart (.vgetmax f) s fun h => .seq (h.setS f.d (BitVec.ofNat 64 h.vlmax))

end Sys2Proof.Machine
end

