-- ==== Sys2Proof/Machine/Record.lean ====
section
/-! DEFINITION. The fields of a launch record (R20, Tables 1.3 to 1.6), its work identifiers' shape (R24) and its checks
(R26), and the launches that are live. -/

namespace Sys2Proof.Machine

/-- A launch record's dwords by number. -/
abbrev Record := Vector Word 16

/-! ### Fields (Tables 1.3 to 1.6) -/

def recEntry (r : Record) : Word := BitVec.ofNat 64 (fieldOf r[0] 3 51 * 8)
def recVersion (r : Record) : Nat := fieldOf r[0] 56 8
def recRoot (r : Record) : Nat := fieldOf r[1] 12 40 * 4096
def recGroup (r : Record) : Nat := fieldOf r[1] 0 12
def recAsid (r : Record) : BitVec 16 := BitVec.ofNat 16 (fieldOf r[2] 48 16)
def recPreemptible (r : Record) : Bool := bitOf r[2].toNat 47
def recHashtrack (r : Record) : Bool := bitOf r[2].toNat 46
def recReplay (r : Record) : Bool := bitOf r[2].toNat 45
def recClass (r : Record) : Nat := fieldOf r[2] 42 2
def recPrio (r : Record) : Nat := fieldOf r[2] 38 4
def recVlclass (r : Record) : BitVec 2 := BitVec.ofNat 2 (fieldOf r[2] 36 2)
def recNvc (r : Record) : BitVec 2 := BitVec.ofNat 2 (fieldOf r[2] 34 2)
def recSewc (r : Record) : BitVec 2 := BitVec.ofNat 2 (fieldOf r[2] 32 2)
def recHpc (r : Record) : Nat := fieldOf r[2] 27 4
def recCmin (r : Record) : Nat := fieldOf r[2] 11 16
def recTqf (r : Record) : Nat := fieldOf r[2] 7 4
def recTqsel (r : Record) : Nat := fieldOf r[2] 2 5
def recTqen (r : Record) : Bool := bitOf r[2].toNat 1
def recSchedlen (r : Record) : Nat := fieldOf r[3] 48 13
def recWidcount (r : Record) : Nat := fieldOf r[3] 0 48
def recSchedptr (r : Record) : Nat := fieldOf r[5] 3 51 * 8
def recMsien (r : Record) : Bool := bitOf r[6].toNat 63
def recMsivec (r : Record) : Nat := fieldOf r[6] 56 6
def recCaddr (r : Record) : Nat := fieldOf r[6] 3 51 * 8
def recSucc (r : Record) : Nat := fieldOf r[7] 7 47 * 128

/-- A bulk launch (Table 1.4). -/
def recBulk (r : Record) : Bool := recClass r == 1

/-- Width and domain code of field `i` of WIDSHAPE (Table 1.5). -/
def recWidth (r : Record) (i : Nat) : Nat := fieldOf r[4] (9 * i) 6
def recDomain (r : Record) (i : Nat) : Nat := fieldOf r[4] (9 * i + 6) 3

/-- Where field `i` of a WID begins: each field lies directly above the one before. -/
def recFieldLo (r : Record) : Nat → Nat
  | 0 => 0
  | i + 1 => recFieldLo r i + recWidth r i

/-- W, the sum of the widths. -/
def recWidthSum (r : Record) : Nat := recFieldLo r 6

/-- The value of field `i` of a WID; a field of width 0 reads as zero (R91). -/
def recFieldValue (r : Record) (i wid : Nat) : Nat := bitsOf wid (recFieldLo r i) (recWidth r i)

/-- The used fields. -/
def recUsed (r : Record) : List Nat := (List.range 6).filter fun i => recWidth r i != 0

/-- Bits of a WID below the hart groups: the fields of domain hart (R83). -/
def recHartBits (r : Record) : Nat := ((recUsed r).filter fun i => recDomain r i == 0).foldl (fun n i => n + recWidth r i) 0

/-- Wc of R85: the widths of the used fields of domain hart or core. -/
def recCoreBits (r : Record) : Nat := ((recUsed r).filter fun i => recDomain r i ≤ 1).foldl (fun n i => n + recWidth r i) 0

/-- The hart group of a WID (R83), by the WID's bits above the fields of domain hart. -/
def recHartGroup (r : Record) (wid : Nat) : Nat := wid / 2 ^ recHartBits r

/-- WIDs per hart group. -/
def recGroupSize (r : Record) : Nat := 2 ^ recHartBits r

/-! ### Checks (Table 1.7) -/

/-- The reserved fields of a record are zero (Tables 1.3 to 1.6). -/
def recReservedOk (r : Record) : Bool :=
  fieldOf r[0] 54 2 == 0 && fieldOf r[0] 0 3 == 0 && fieldOf r[1] 52 12 == 0 && fieldOf r[2] 44 1 == 0 &&
  fieldOf r[2] 31 1 == 0 && fieldOf r[2] 0 1 == 0 && fieldOf r[3] 61 3 == 0 && fieldOf r[4] 54 10 == 0 &&
  fieldOf r[5] 54 10 == 0 && fieldOf r[5] 0 3 == 0 && fieldOf r[6] 62 1 == 0 && fieldOf r[6] 54 2 == 0 &&
  fieldOf r[6] 0 3 == 0 && fieldOf r[7] 54 10 == 0 && fieldOf r[7] 0 7 == 0

/-- Domain codes do not decrease (R24). -/
def risingDomains : List Nat → Bool
  | [] => true
  | [_] => true
  | a :: b :: l => a ≤ b && risingDomains (b :: l)

/-- The most harts of one launch on a core, by class (Table 3.3). -/
def classHarts (c : BitVec 2) : Nat := match c.toNat with | 0 => 16 | 1 => 4 | 2 => 2 | _ => 1

/-- The first check of Table 1.7 from 0x02 to 0x09 that fails, by its reason. -/
def recFault (r : Record) : Option Nat :=
  let used := recUsed r
  let unused := (List.range 6).filter fun i => recWidth r i == 0
  if recVersion r ≠ 1 then some 0x02
  else if !recReservedOk r || (!recTqen r && (recCmin r ≠ 0 || recTqf r ≠ 0 || recTqsel r ≠ 0)) then some 0x03
  else if 2 ≤ recClass r || (List.range 6).any (fun i => 6 ≤ recDomain r i) || unused.any (fun i => recDomain r i ≠ 0) ||
      (recTqen r && recCmin r = 0) then some 0x04
  else if 64 < recWidthSum r then some 0x05
  else if !risingDomains (used.map (recDomain r)) then some 0x06
  else if recWidthSum r < 48 && 2 ^ recWidthSum r < recWidcount r then some 0x07
  else if 4096 < recSchedlen r || ((recSchedlen r = 0) != (recSchedptr r = 0)) then some 0x08
  else if classHarts (recVlclass r) < recHpc r + 1 then some 0x09
  else none

/-! ### Live launches -/

/-- The launch of a hart. -/
def State.launchOf (s : State) (h : Hart) : Option Launch := s.launch? h.tag

/-- The earlier of two launches by the order in which they were taken. -/
def earlier (a : Option (Nat × Launch)) (b : Nat × Launch) : Option (Nat × Launch) :=
  match a with
  | none => some b
  | some x => if b.2.order < x.2.order then some b else some x

/-- The root that the range instructions and peers use for an ASID: that of the earliest-accepted live launch (R46). -/
def State.rootOf (s : State) (asid : BitVec 16) : Option Nat :=
  ((s.launches.filter fun p => recAsid p.2.dwords == asid).foldl earlier none).map fun p => recRoot p.2.dwords

/-- The root a hart's translations use (R46, R47). -/
def State.hartRoot (s : State) (h : Hart) : Option Nat :=
  match s.launchOf h with
  | some l => if recAsid l.dwords = h.asid then some (recRoot l.dwords) else s.rootOf h.asid
  | none => s.rootOf h.asid

end Sys2Proof.Machine
end

