-- ==== Sys2Proof/Machine/Memory.lean ====
section
/-! DEFINITION. Translation (R38 to R48, R262, R263), the values of memory in its two disciplines (R355 to R365), writes and
what follows from them, and watchpoints (R276 to R278). -/

namespace Sys2Proof.Machine

/-! ### Range descriptors -/

def Descriptor.base (d : Descriptor) : Nat := fieldOf d.d0 8 46 * 256
def Descriptor.limit (d : Descriptor) : Nat := fieldOf d.d1 8 46 * 256
def Descriptor.size (d : Descriptor) : Nat := d.limit - d.base
def Descriptor.valid (d : Descriptor) : Bool := bitOf d.d0.toNat 7
def Descriptor.read (d : Descriptor) : Bool := bitOf d.d0.toNat 6
def Descriptor.write (d : Descriptor) : Bool := bitOf d.d0.toNat 5
def Descriptor.exec (d : Descriptor) : Bool := bitOf d.d0.toNat 4
def Descriptor.remote (d : Descriptor) : Bool := bitOf d.d0.toNat 3
def Descriptor.prow (d : Descriptor) : Nat := fieldOf d.d0 60 4
def Descriptor.pcol (d : Descriptor) : Nat := fieldOf d.d0 56 4
def Descriptor.coh (d : Descriptor) : Bool := bitOf d.d1.toNat 7
def Descriptor.nc (d : Descriptor) : Bool := bitOf d.d1.toNat 6
def Descriptor.ht (d : Descriptor) : Bool := bitOf d.d1.toNat 5
def Descriptor.marked (d : Descriptor) : Bool := bitOf d.d1.toNat 4
def Descriptor.tgt (d : Descriptor) : Nat := fieldOf d.d1 2 2
def Descriptor.cmpx (d : Descriptor) : Bool := bitOf d.d1.toNat 1
def Descriptor.inc (d : Descriptor) : Nat := fieldOf d.d2 48 16
/-- Resident bytes from the base. -/
def Descriptor.resident (d : Descriptor) : Nat := fieldOf d.d2 0 46 * 256
/-- The offset modulo 2^56 (Table 2.1). -/
def Descriptor.offset (d : Descriptor) : Nat := wrapI (signExt (fieldOf d.d3 16 48) 48 * 256) 56
def Descriptor.asid (d : Descriptor) : BitVec 16 := BitVec.ofNat 16 (fieldOf d.d3 0 16)

/-- The translated address of a virtual address (R40). -/
def Descriptor.move (d : Descriptor) (va : Nat) : Nat := (va + d.offset) % 2 ^ 56

/-- The physical extent of a range (R39). -/
def Descriptor.extent (d : Descriptor) : Nat × Nat := (d.move d.base, d.size)

/-- The attributes that two ranges share for an element to lie in both (R48), the sealed state apart. -/
def Descriptor.attributes (d : Descriptor) : List Nat :=
  [bit01 d.read, bit01 d.write, bit01 d.exec, bit01 d.remote, bit01 d.coh, bit01 d.nc, bit01 d.ht, d.tgt, d.prow, d.pcol,
   d.inc]

/-- Two stretches of memory overlap. -/
def overlapping (a n b m : Nat) : Bool := a < b + m && b < a + n

/-- The range's extent overlaps a sealed one (R47). -/
def State.sealedRange (s : State) (d : Descriptor) : Bool :=
  d.tgt == 0 && s.seals.any fun e => overlapping d.extent.1 d.extent.2 e.base e.size

/-- The lowest address of no range (R39), and the first address past local HBM (R265). -/
def rangeTop : Nat := 0x003FFF0000000000
def hbmTop : Nat := 0x8000000000

/-- R39. SEALED = 1 is held by the seal table when the extent lies inside one seal entry (log 104, DESIGN CHOICE). -/
def State.wellFormedRange (s : State) (asid : BitVec 16) (d : Descriptor) : Bool :=
  d.base < d.limit && d.limit ≤ rangeTop && d.resident ≤ d.size && d.tgt != 3 &&
  fieldOf d.d0 54 2 == 0 && fieldOf d.d0 0 3 == 0 && fieldOf d.d1 54 10 == 0 && fieldOf d.d1 0 1 == 0 &&
  fieldOf d.d2 46 2 == 0 && (d.tgt == 2 || (d.prow == 0 && d.pcol == 0 && d.inc == 0)) &&
  (!d.marked || (d.tgt == 0 && s.seals.any fun e => e.base ≤ d.extent.1 && d.extent.1 + d.extent.2 ≤ e.base + e.size)) &&
  (d.tgt != 0 || d.extent.1 + d.size ≤ 2 ^ 52) && d.asid == asid

/-! ### The walker -/

/-- The descriptor whose four dwords begin at a physical address. -/
def State.descriptorAt (s : State) (a : Nat) : Descriptor :=
  { d0 := s.mem.dword a, d1 := s.mem.dword (a + 8), d2 := s.mem.dword (a + 16), d3 := s.mem.dword (a + 24) }

/-- Sealed extents keep their bytes (R50). -/
def State.keepSealed (s : State) (m : Mem) : Mem :=
  s.seals.foldl (fun m e => (s.mem.cells e.base e.size).foldl (fun m c => m.write c.1 c.2) (m.clear e.base e.size)) m

/-- What a walk comes to: the chosen descriptor with its address and its leaf, nothing, or nothing with an address to be
logged. `path` lists the interior nodes crossed, the last one first. -/
inductive Walk where
  | found (leaf slot : Nat) (path : List Nat)
  | absent
  | bad (addr : Nat)
  deriving DecidableEq, Repr

/-- A node's KIND and COUNT are in bounds and its reserved fields are zero (R42, R43). -/
def State.nodeOk (s : State) (a : Nat) : Bool :=
  let head := s.mem.dword a
  let kind := fieldOf head 56 8
  let count := fieldOf head 0 16
  fieldOf head 16 40 == 0 &&
  if kind = 1 then count ≤ 127 && s.mem.dword (a + 8) == 0 && s.mem.dword (a + 16) == 0 && s.mem.dword (a + 24) == 0
  else kind = 2 && 1 ≤ count && count ≤ 255 && s.mem.dword (a + 8) == 0 &&
    (List.range count).all fun i =>
      let key := s.mem.dword (a + 16 + 16 * i)
      let child := s.mem.dword (a + 24 + 16 * i)
      fieldOf key 54 10 == 0 && fieldOf key 0 8 == 0 && fieldOf child 52 12 == 0 && fieldOf child 0 12 == 0

/-- The last of the `n` first indices that satisfies a condition. -/
def lastIndex (p : Nat → Bool) : Nat → Option Nat
  | 0 => none
  | n + 1 => if p n then some n else lastIndex p n

/-- The walk of R43 to the leaf's descriptor with the greatest base not above `va`; `fuel` counts the levels left. Of a pointer that
leads outside local HBM or to no page boundary the address it holds is logged, not that of the dword that holds it: "the pointer's
address" can be either (log 117, DESIGN CHOICE). -/
def State.walkNode (s : State) (va : Nat) : Nat → Nat → List Nat → Walk
  | 0, a, _ => .bad a
  | fuel + 1, a, path =>
    if hbmTop ≤ a || !s.nodeOk a then .bad a
    else
      let head := s.mem.dword a
      let count := fieldOf head 0 16
      if fieldOf head 56 8 = 1 then
        match lastIndex (fun i => (s.descriptorAt (a + 32 + 32 * i)).base ≤ va) count with
        | none => .absent
        | some i => .found a i path
      else
        match lastIndex (fun i => (s.mem.dword (a + 16 + 16 * i)).toNat ≤ va) count with
        | none => .absent
        | some i => s.walkNode va fuel (s.mem.dword (a + 24 + 16 * i)).toNat (a :: path)

/-- Where a leaf's descriptor lies. -/
def slotAddr (leaf slot : Nat) : Nat := leaf + 32 + 32 * slot

/-- The range, valid or not, in which `va` lies (R43, R46). -/
def State.findRange (s : State) (asid : BitVec 16) (root va : Nat) : Walk :=
  match s.walkNode va 4 root [] with
  | .found leaf slot path =>
    let d := s.descriptorAt (slotAddr leaf slot)
    if !s.wellFormedRange asid d then .bad (slotAddr leaf slot)
    else if va < d.limit then .found leaf slot path
    else .absent
  | w => w

/-! ### Agents and lookups -/

/-- Who translates: the holder of its cached entries, its address space and root, the core whose windows it reaches and the
bytes of the lane slice it sees (R44, R47, R262, R263), the ranges that its access has looked up already (R273), and the hart it
is or acts for, by launch and WID (Table 3.11). -/
structure Agent where
  holder : Nat
  asid : BitVec 16
  root : Option Nat
  core : Option Nat
  slice : Option (Nat × Nat)
  known : List Descriptor := []
  hart : Option (Word × Word) := none
  deriving DecidableEq, Repr

/-- A log entry with what an agent knows of WHO, TAG, WID and PC (Table 3.11). -/
def State.signed (s : State) (g : Agent) (e : LogEntry) : LogEntry :=
  match g.hart with
  | some (tag, wid) => e.ofWid s.harts tag wid g.asid
  | none => e.under g.asid

/-- Enters a malformed descriptor or node in the range error log (R39, R43). -/
def State.logWalk (s : State) (g : Agent) (w : Walk) : State :=
  match w with
  | .bad a => s.log .range (s.signed g (blankEntry 1 0 (BitVec.ofNat 64 a)))
  | _ => s

/-- The first byte's number of lane `lane` of a core's slices. -/
def sliceBase (core lane : Nat) : Nat := 2 ^ 52 + (core * 64 + lane) * 4096

/-- The physical lane of lane `i` of the grant (R200). -/
def Hart.physicalLane (h : Hart) (i : Nat) : Nat := 16 * (h.clusters[i / 16]?.getD 0) + i % 16

/-- The slice of lane `i` of the grant: a class S hart sees the quarter QTR (R263). -/
def Hart.slice (h : Hart) (k i : Nat) : Nat × Nat :=
  let base := sliceBase (coreIndex k) (h.physicalLane i)
  if h.vec.vlclass = 0 then (base + 1024 * h.vec.qtr.toNat, 1024) else (base, 4096)

/-- The hart at seat `k` as an agent, for the element on lane `lane` of its grant. -/
def State.hartAgent (s : State) (k : Nat) (h : Hart) (lane : Nat) : Agent :=
  { holder := coreIndex k, asid := h.asid, root := s.hartRoot h, core := some (coreIndex k),
    slice := some (h.slice k lane), hart := some (h.tag, h.wid) }

/-- An entry holder drops every entry that satisfies a condition (R55). -/
def State.dropEntries (s : State) (p : Cached → Bool) : State := { s with rlt := s.rlt.filter fun e => !p e }

/-- A dword that begins a node of a tree (R42). -/
def nodeHead (x : Word) : Bool := fieldOf x 56 8 == 1 || fieldOf x 56 8 == 2

/-- A dword lies in a page that begins as a node does, in memory or before a store to its first dword that is under way. -/
def State.inTree (s : State) (dword : Nat) : Bool :=
  let first := dword / 512 * 512
  nodeHead (s.mem.dword (8 * first)) || s.treeStores.any fun t => t.dword == first && nodeHead t.old

/-- Tree memory as a walk finds it: of each dword that a plain store under way writes, the old value or the new one (R45). (Log 103,
DESIGN CHOICE.) -/
def State.walkView (s : State) : Mem × State :=
  (s.treeStores.filter fun t => s.inTree t.dword).foldl (fun (acc : Mem × State) t =>
    let (n, s) := acc.2.choose 2
    (if n = 0 then acc.1 else acc.1.writeBytes (8 * t.dword) (toBytesLE 8 t.old.toNat), s)) (s.mem, s)

/-- A plain store of `n` bytes from `a` on is under way until whoever made it makes it visible (R45): any byte of local HBM may come to
lie in a tree. -/
def State.noteTreeStore (s : State) (who : Storer) (a n : Nat) (before : Mem) : State :=
  { s with treeStores := s.treeStores ++ (List.range ((a + n + 7) / 8 - a / 8)).map fun i =>
      { who := who, dword := a / 8 + i, old := before.dword (8 * (a / 8 + i)) } }

/-- Every store that `who` has made is visible to walks that start from now on (R45). -/
def State.settleTree (s : State) (who : Storer) : State :=
  { s with treeStores := s.treeStores.filter fun t => t.who != who }

/-- Lookup (R43, R44): a fresh walk, or an entry still held when it says otherwise; which one is the device's choice. (Log 89,
DEDUCED.) -/
def State.lookupAfresh (s : State) (g : Agent) (va : Nat) : State × Option Descriptor :=
  match g.root with
  | none => (s, none)
  | some root =>
    let (view, s) := s.walkView
    let seen := { s with mem := view }
    let w := seen.findRange g.asid root va
    let fresh := match w with
      | .found leaf slot _ => let d := seen.descriptorAt (slotAddr leaf slot); if d.valid then some d else none
      | _ => none
    let held := (s.rlt.filter fun e => e.holder == g.holder && e.asid == g.asid && e.root == root &&
      e.desc.base ≤ va && va < e.desc.limit && some e.desc != fresh).map fun e => e.desc
    let s := s.logWalk g w
    let (pick, s) := s.choose (held.length + 1)
    match held[pick]? with
    | some d => (s, some d)
    | none =>
      match fresh with
      | none => (s, none)
      | some d =>
        let e : Cached := { holder := g.holder, asid := g.asid, root := root, desc := d }
        (if s.rlt.contains e then s else { s with rlt := e :: s.rlt }, some d)

/-- Lookup (R43, R44); a range that the access has looked up already is not looked up again (R273). -/
def State.lookup (s : State) (g : Agent) (va : Nat) : State × Option Descriptor :=
  match g.known.find? fun d => d.base ≤ va && va < d.limit with
  | some d => (s, some d)
  | none => s.lookupAfresh g va

/-! ### Translation -/

/-- The kinds of access (R47). -/
inductive Access where
  | read | write | execute | atomic
  deriving DecidableEq, Repr

/-- Permits (R47). -/
def Descriptor.permits (d : Descriptor) : Access → Bool
  | .read => d.read
  | .write => d.write
  | .execute => d.exec
  | .atomic => d.read && d.write

/-- A storage byte in a fixed local window, under the COHERENT rules (R264, R356). (Log 10, DESIGN CHOICE.) -/
def windowPlace (key : Nat) : Place :=
  { target := .memory, addr := key, row := 0, col := 0, inc := 0, asid := 0, phased := false, nc := false,
    track := none }

/-- The storage a window address names (Table 11.1); none in a gap, or past the slice a class S hart sees. -/
def windowOf (g : Agent) (va : Nat) : Option Nat :=
  match g.core with
  | none => none
  | some core =>
    if 0x003FFFFFFFF00000 ≤ va && va < 0x003FFFFFFFF01000 then
      match g.slice with
      | none => none
      | some (base, size) => if va - 0x003FFFFFFFF00000 < size then some (base + (va - 0x003FFFFFFFF00000)) else none
    else if 0x003FFFFF00000000 ≤ va && va < 0x003FFFFF00100000 then
      some (2 ^ 53 + core * 2 ^ 20 + (va - 0x003FFFFF00000000))
    else if 0x003FFFFE00000000 ≤ va && va < 0x003FFFFE00400000 then
      some (2 ^ 54 + core / 8 * 2 ^ 22 + (va - 0x003FFFFE00000000))
    else if 0x003FFFF000000000 ≤ va && va < 0x003FFFF003000000 then
      some (2 ^ 55 + core / 128 * 2 ^ 26 + (va - 0x003FFFF000000000))
    else none

/-- The HASHTRACK block of an address in a range, with its end (R472). -/
def Descriptor.block (d : Descriptor) (va : Nat) : Nat × Nat :=
  let span := va / 65536 * 65536
  (Nat.max span d.base, Nat.min (span + 65536) d.limit)

/-- The place that an address translates to (R40). -/
def Descriptor.place (d : Descriptor) (va : Nat) : Place :=
  { target := if d.tgt = 0 then .memory else if d.tgt = 1 then .host else .peer,
    addr := if d.tgt = 1 then d.move va % 2 ^ 54 else d.move va,
    row := BitVec.ofNat 4 d.prow, col := BitVec.ofNat 4 d.pcol, inc := BitVec.ofNat 16 d.inc, asid := d.asid,
    phased := d.tgt == 0 && !d.coh, nc := d.nc, track := if d.ht then some (d.asid, va, if d.tgt = 1 then d.move va % 2 ^ 54 else d.move va) else none }

/-- The checks of R47 after Lookup, in their order. -/
def State.checkRange (s : State) (d : Descriptor) (va : Nat) (k : Access) : Except Cause Place :=
  if (k = .write || k = .atomic) && s.sealedRange d then .error .sealed
  else if !d.permits k then .error .rperm
  else if d.base + d.resident ≤ va then .error .rpartial
  else if d.tgt = 0 && hbmTop ≤ d.move va then .error .rmiss
  else .ok (d.place va)

/-- `Translate(va, kind)` (R47), with the descriptor used. -/
def State.translateFull (s : State) (g : Agent) (va : Nat) (k : Access) :
    State × Except Cause (Place × Option Descriptor) :=
  if 2 ^ 54 ≤ va then (s, .error .rmiss)
  else if rangeTop ≤ va then
    match windowOf g va with
    | some key => (s, .ok (windowPlace key, none))
    | none => (s, .error .rmiss)
  else
    match s.lookup g va with
    | (s, none) => (s, .error .rmiss)
    | (s, some d) =>
      match s.checkRange d va k with
      | .error c => (s, .error c)
      | .ok p => (s, .ok (p, some d))

/-- `Translate(va, kind)` (R47). -/
def State.translate (s : State) (g : Agent) (va : Nat) (k : Access) : State × Except Cause Place :=
  match s.translateFull g va k with
  | (s, .error c) => (s, .error c)
  | (s, .ok p) => (s, .ok p.1)

/-- Translation of the upper bytes of an element whose lower bytes lie in the range `d` (R48), with the range found: upper bytes in the
same range are not looked up again (R273). Lower
bytes that fail R47 have failed before; of the upper bytes' failures a difference of attributes comes first (log 97, DESIGN
CHOICE). -/
def State.translateUpperFull (s : State) (g : Agent) (d : Option Descriptor) (va : Nat) (k : Access) :
    State × Except Cause (Place × Option Descriptor) :=
  match d with
  | none => s.translateFull g va k
  | some d =>
    if rangeTop ≤ va then (s, .error .rmiss)
    else
      match s.lookup { g with known := d :: g.known } va with
      | (s, none) => (s, .error .rmiss)
      | (s, some e) =>
        if e.attributes != d.attributes || s.sealedRange e != s.sealedRange d then (s, .error .rcross)
        else (s, (s.checkRange e va k).map fun p => (p, some e))

/-- Translation of the upper bytes of an element (R48). -/
def State.translateUpper (s : State) (g : Agent) (d : Option Descriptor) (va : Nat) (k : Access) :
    State × Except Cause Place :=
  match s.translateUpperFull g d va k with
  | (s, .error c) => (s, .error c)
  | (s, .ok p) => (s, .ok p.1)

/-- The pieces of an element, by virtual address (R48). Range bounds, resident marks and window bounds are multiples of 256,
so that bytes of one 256-byte granule translate alike. A piece past the device that follows on is joined to the first. With them
the ranges found. -/
def State.routeNoting (s : State) (g : Agent) (va size : Nat) (k : Access) :
    State × List Descriptor × Except (Cause × Nat) (List Piece) :=
  let n := Nat.min size (256 - va % 256)
  match s.translateFull g va k with
  | (s, .error c) => (s, [], .error (c, va))
  | (s, .ok (p, d)) =>
    if n = size then (s, d.toList, .ok [{ place := p, size := size }])
    else
      match s.translateUpperFull g d (va + n) k with
      | (s, .error c) => (s, [], .error (c, va + n))
      | (s, .ok (q, e)) =>
        if p.target ≠ .memory && q.addr = p.addr + n then (s, d.toList ++ e.toList, .ok [{ place := p, size := size }])
        else (s, d.toList ++ e.toList, .ok [{ place := p, size := n }, { place := q, size := size - n }])

/-- The pieces of an element (R48). -/
def State.route (s : State) (g : Agent) (va size : Nat) (k : Access) : State × Except (Cause × Nat) (List Piece) :=
  let r := s.routeNoting g va size k
  (r.1, r.2.2)

/-! ### Phase order -/

/-- The number of a member's epochs that a clock covers (R359). -/
def clockAt (c : Assoc Nat) (who : Nat) : Nat := (Assoc.find c who).getD 0

/-- Joins two clocks. -/
def joinClock (a b : Assoc Nat) : Assoc Nat := b.foldl (fun c p => Assoc.put c p.1 (Nat.max (clockAt c p.1) p.2)) a

/-- The write `a` precedes the write `b` in phase order (R359), or in the single order of writes at the home when both have a
place there (R362, R364). -/
def WriteRec.before (a b : WriteRec) : Bool :=
  (a.who == b.who && a.seq < b.seq) || a.epoch < clockAt b.clock a.who || (a.home && b.home && a.seq < b.seq)

/-- The write covers nibble `n` (0 low, 1 high) of the byte `a`. -/
def WriteRec.covers (w : WriteRec) (a n : Nat) : Bool :=
  w.addr ≤ a && a < w.addr + w.bytes.length && (w.nibble == 0 || w.nibble == n + 1)

/-- Who reads, for phase order: a member, its clock, and the last of its own writes that it sees (R360, R370). -/
structure Reader where
  who : Nat
  clock : Assoc Nat
  upTo : Option Nat
  deriving DecidableEq, Repr

/-- A member of a launch as a reader. -/
def Launch.reader (l : Launch) (wid : Nat) : Reader :=
  { who := wid, clock := match Assoc.find l.members wid with | none => [] | some m => m.clock, upTo := none }

/-- The write precedes the read (R360). -/
def Reader.sees (r : Reader) (w : WriteRec) : Bool :=
  if w.who = r.who then
    match r.upTo with
    | none => true
    | some n => w.seq < n
  else w.epoch < clockAt r.clock w.who

/-- The writes that no other of them follows (R360). -/
def latestWrites (ws : List WriteRec) : List WriteRec := ws.filter fun w => !ws.any fun x => w.before x

/-- The bits of unit `u` of `n` bytes are all written by the write. -/
def WriteRec.coversUnit (w : WriteRec) (u n : Nat) : Bool :=
  w.nibble == 0 && w.addr ≤ u && u + n ≤ w.addr + w.bytes.length

/-- The survivor among conflicting latest writes of a nibble (R360): units have the width of the narrowest of them. -/
def survivor (ws : List WriteRec) (a n : Nat) : Option WriteRec :=
  let width := ws.foldl (fun m w => Nat.min m (if w.nibble = 0 then w.width else 4)) 64
  let pick (unit : Nat) (cover : List WriteRec) : Option WriteRec :=
    let cover := if cover.isEmpty then ws else cover
    cover[Config.conflictChoice (unit :: width :: cover.map fun w => w.seq) % cover.length]?
  if width = 4 then pick (2 * a + n) ws
  else
    let b := if width = 16 || width = 32 || width = 64 then width / 8 else 1
    let u := a / b * b
    let whole := ws.filter fun w => w.coversUnit u b
    if whole.isEmpty then pick (2 * a) [] else pick (2 * u) whole

/-- A nibble of the byte `a` as the writes `ws` leave it over the start value (R360). -/
def nibbleOf (ws : List WriteRec) (start : Byte) (a n : Nat) : Nat :=
  let half (b : Byte) : Nat := b.toNat / 16 ^ n % 16
  match latestWrites (ws.filter fun w => w.covers a n) with
  | [] => half start
  | [w] => half (w.bytes[a - w.addr]?.getD 0)
  | ws =>
    match survivor ws a n with
    | none => half start
    | some w => half (w.bytes[a - w.addr]?.getD 0)

/-- A byte as the writes `ws` leave it (R360). -/
def byteOf (ws : List WriteRec) (start : Byte) (a : Nat) : Byte :=
  BitVec.ofNat 8 (nibbleOf ws start a 0 + 16 * nibbleOf ws start a 1)

/-- Some byte of the stretch is written by the record. -/
def WriteRec.touches (w : WriteRec) (a n : Nat) : Bool := overlapping w.addr w.bytes.length a n

/-- A byte with one nibble replaced; 0 replaces both. -/
def mergeNibble (old new : Byte) (nibble : Nat) : Byte :=
  match nibble with
  | 0 => new
  | 1 => BitVec.ofNat 8 (old.toNat / 16 * 16 + new.toNat % 16)
  | _ => BitVec.ofNat 8 (new.toNat / 16 * 16 + old.toNat % 16)

/-- Bytes from `a` upward with a foreign write laid over them (R361). -/
def overlay (bytes : List Byte) (a : Nat) (f : ForeignRec) : List Byte :=
  bytes.zipIdx.map fun p =>
    if f.addr ≤ a + p.2 && a + p.2 < f.addr + f.bytes.length then
      mergeNibble p.1 (f.bytes[a + p.2 - f.addr]?.getD 0) f.nibble
    else p.1

/-- Bytes from `a` on as the writes `ws` leave them over a launch's start (R360). -/
def Launch.bytesOf (l : Launch) (ws : List WriteRec) (a n : Nat) : List Byte :=
  (List.range n).map fun i => byteOf ws (l.base.read (a + i)) (a + i)

/-- The bytes of a PHASED stretch for a reader that the writes `ws` of the launch precede: what they leave over the launch's start, and
each foreign write taken or not (R360, R361). -/
def State.viewBytes (s : State) (l : Launch) (ws : List WriteRec) (a n : Nat) : List Byte × State :=
  let bytes := l.bytesOf ws a n
  (l.foreign.filter fun f => overlapping f.addr f.bytes.length a n).foldl (fun acc f =>
    let (take, s) := acc.2.choose 2
    (if take = 0 then acc.1 else overlay acc.1 a f, s)) (bytes, s)

/-- The bytes of a PHASED stretch for a member (R360, R361). -/
def State.phasedBytes (s : State) (l : Launch) (r : Reader) (a n : Nat) : List Byte × State :=
  s.viewBytes l (l.writes.filter fun w => w.touches a n && r.sees w) a n

/-- The bytes a plain read of a member of a launch returns (R356, R360, R364). -/
def State.readBytes (s : State) (l : Option Launch) (r : Reader) (p : Place) (n : Nat) : List Byte × State :=
  match l with
  | some l => if p.phased then s.phasedBytes l r p.addr n else (s.mem.readBytes p.addr n, s)
  | none => (s.mem.readBytes p.addr n, s)

/-- A deferred plain write that has reached the home and has no place in phase order yet touches the stretch (R370, R371). -/
def Launch.unplaced (l : Launch) (a n : Nat) : Bool :=
  l.deferred.any fun d => !d.2.placed && d.2.writes.any fun w => !w.home && w.touches a n

/-- The writes of a launch in the single order of each location or in phase order (R362, R364): a deferred atomic has its place in the
first as soon as it is made. -/
def Launch.homeWrites (l : Launch) : List WriteRec :=
  l.writes ++ (l.deferred.filter fun p => !p.2.placed).flatMap fun p =>
    (p.2.writes.filter fun w => w.home).map fun w =>
      match Assoc.find l.members p.2.who with
      | none => w
      | some m => { w with who := p.2.who, epoch := m.epoch, clock := m.clock }

/-- The bytes at the home, which atomics read and write in one order for every agent (R362, R364): where the writes of one launch alone
lie there, the value that R360 gives of them all; else what the last write to arrive has left. -/
def State.homeBytes (s : State) (p : Place) (n : Nat) : List Byte :=
  let arrived := s.mem.readBytes p.addr n
  if !p.phased then arrived
  else
    match s.launches.filter fun q => q.2.homeWrites.any (fun w => w.touches p.addr n) || q.2.unplaced p.addr n with
    | [q] =>
      if q.2.unplaced p.addr n || q.2.foreign.any fun f => overlapping f.addr f.bytes.length p.addr n then arrived
      else q.2.bytesOf (q.2.homeWrites.filter fun w => w.touches p.addr n) p.addr n
    | _ => arrived

/-- The bytes that an agent outside every launch reads: of a PHASED stretch with writes not yet published, the value at the
home or the value before any of them (log 12, DESIGN CHOICE). -/
def State.outsideBytes (s : State) (p : Place) (n : Nat) : List Byte × State :=
  let views := s.launches.filter fun q => q.2.writes.any fun w => w.touches p.addr n
  if !p.phased || views.isEmpty then (s.mem.readBytes p.addr n, s)
  else
    let (pick, s) := s.choose (views.length + 1)
    match views[pick]? with
    | none => (s.homeBytes p n, s)
    | some q => (q.2.base.readBytes p.addr n, s)

/-! ### Writes -/

/-- Writes bytes, or one nibble of one byte, at the home (R288). -/
def Mem.store (m : Mem) (a : Nat) (bytes : List Byte) (nibble : Nat) : Mem :=
  if nibble = 0 then m.writeBytes a bytes
  else match bytes with
    | [] => m
    | b :: _ => m.write a (mergeNibble (m.read a) b nibble)

/-- Where the compaction that is copying a byte's extent applies its write once more (R56); in no sealed extent (R50). -/
def State.mirror (s : State) (a : Nat) : Option Nat :=
  let sealedAt (b : Nat) : Bool := s.seals.any fun e => e.base ≤ b && b < e.base + e.size
  (s.compactions.toList.findSome? fun c => match c with
    | some c => if !c.swung && c.source ≤ a && a < c.source + c.size then some (a - c.source + c.target) else none
    | none => none).filter fun b => !sealedAt b

/-- The byte number at offset `o` of a stretch of storage. -/
def pieceAddr : List Piece → Nat → Option Nat
  | [], _ => none
  | p :: ps, o => if o < p.size then some (p.place.addr + o) else pieceAddr ps (o - p.size)

/-- The published batches of an ingress context whose RELEASE dword a write touches (R429), by their numbers, with the dword's
byte number. -/
def Ingress.releaseHits (u : Ingress) (a n : Nat) : List (Nat × Nat) :=
  u.published.filterMap fun p =>
    match pieceAddr u.ring (64 + p.1 * u.ringEntry + 0x18) with
    | none => none
    | some b => if overlapping b 8 a n then some (p.2.seq, b) else none

/-- Writes to RELEASE reach the ingress units, each in its order (R429). -/
def noteReleases (mem : Mem) (xs : Assoc Exchange) (a n : Nat) : Assoc Exchange :=
  xs.map fun p => (p.1, { p.2 with
    ingress := p.2.ingress.map fun u => (u.1, { u.2 with
      releases := u.2.releases ++ (u.2.releaseHits a n).map fun h => (h.1, (mem.dword h.2).toNat) }) })

/-- The values of a record's dwords that memory now holds, where they have changed (R25). -/
def RecordCopy.follow (m : Mem) (c : RecordCopy) : RecordCopy :=
  { c with values := c.values.zipIdx.map fun p =>
      let x := m.dword (c.base + 8 * p.2)
      if p.1.getLast? == some x then p.1 else p.1 ++ [x] }

/-- The copies of a launch queue's records follow memory (R25). -/
def LaunchQueue.follow (m : Mem) (q : LaunchQueue) : LaunchQueue :=
  { q with copies := q.copies.map fun p => (p.1, p.2.follow m) }

/-- The copy of a launch's successor follows memory (R25). -/
def Launch.follow (m : Mem) (l : Launch) : Launch :=
  { l with closing := l.closing.map fun c => { c with copy := c.copy.map (RecordCopy.follow m) } }

/-- The records being copied follow memory (R25). -/
def State.followCopies (s : State) : State :=
  { s with
    queues := s.queues.map (LaunchQueue.follow s.mem),
    launches := s.launches.map fun (p : Nat × Launch) => (p.1, p.2.follow s.mem) }

/-- A write reaches the home (R365): the bytes, the mirror of a compaction (R56), the records that are being copied (R25), the errors
it clears (R450), and the WFE waits that it ends (R457), the writer's own excepted, and the ingress units (R429). -/
def State.storeHome (s : State) (writer : Option Nat) (a : Nat) (bytes : List Byte) (nibble : Nat) : State :=
  let mem := s.mem.store a bytes nibble
  let mem := match s.mirror a with
    | none => mem
    | some b => mem.store b bytes nibble
  let cleared (w : Nat) : Bool := nibble == 0 && a ≤ 8 * w && 8 * w + 8 ≤ a + bytes.length
  let wakes (k : Nat) (h : Hart) : Bool :=
    some k != writer && (match h.wait.wfe with
      | some (some line) => overlapping (128 * line) 128 a bytes.length
      | _ => false)
  let s : State := { s with
    mem := mem,
    exchanges := noteReleases mem s.exchanges a bytes.length,
    badWords := s.badWords.filter fun w => !cleared w,
    harts := s.harts.map fun p =>
      (p.1, if wakes p.1 p.2 then { p.2 with wait := { p.2.wait with wfeDone := true } } else p.2) }
  s.followCopies

/-- The first virtual address of bytes at a place of a tracked range, with the range's address space (R472). -/
def Place.tracked (p : Place) : Option (BitVec 16 × Nat) := p.track.map fun t => (t.1, t.2.1 + p.addr - t.2.2)

/-- Marks the 256-byte granules of a stretch of an address space dirty in every live launch that tracks it (R472). -/
def State.markGranules (s : State) (asid : BitVec 16) (va n : Nat) : State :=
  let first := va / 256
  { s with launches := s.launches.map fun (p : Nat × Launch) =>
      (p.1, if recHashtrack p.2.dwords && recAsid p.2.dwords == asid then
          { p.2 with dirty :=
              forElems (fun g m => Assoc.put m (256 * g) (256 * g + 256)) ((va + n + 255) / 256 - first) first p.2.dirty }
        else p.2) }

/-- A write or atomic of `n` bytes has been performed at a place (R472). -/
def State.markDirty (s : State) (p : Place) (n : Nat) : State :=
  match p.tracked with
  | none => s
  | some (asid, va) => s.markGranules asid va n

/-- Records a write to HBM in the launch that makes it, with its place in phase order, and as foreign in the others (R360,
R361). -/
def State.recordWrite (s : State) (tag : Option Nat) (final : Bool) (w : WriteRec) : State :=
  let f : ForeignRec :=
    { source := tag.getD 0, addr := w.addr, bytes := w.bytes, nibble := w.nibble, final := final, seq := s.writeSeq }
  { s with
    writeSeq := s.writeSeq + 1,
    launches := s.launches.map fun p =>
      (p.1, if some p.1 = tag then { p.2 with writes := p.2.writes ++ [{ w with seq := s.writeSeq }] }
            else { p.2 with foreign := p.2.foreign ++ [f] }) }

/-- Who writes: a hart by its seat, launch and WID, a device that takes part in a launch, or an agent outside every launch.
`final`: a range instruction edits a tree (R58); `storer`: whose plain stores these are, as far as a walk may miss them (R45); and
`unit`: an ingress unit writes (R430). -/
structure Writer where
  seat : Option Nat
  launch : Option Nat
  who : Nat
  final : Bool := false
  storer : Option Storer := none
  unit : Bool := false
  deriving DecidableEq, Repr

/-- A device that takes part in a launch, in phase order: WIDs have 48 bits (R24). -/
def remoteWho (row col : Nat) : Nat := 2 ^ 48 + 16 * row + col

/-- The device itself as a writer. -/
def Writer.device : Writer := { seat := none, launch := none, who := 0 }

/-- The host, or a peer that takes part in no launch here, as a writer. -/
def Writer.outside : Writer := { seat := none, launch := none, who := 0, storer := some .outside }

/-- The hart at a seat as a writer. -/
def Hart.writer (h : Hart) (k : Nat) : Writer :=
  { seat := some k, launch := some h.tag.toNat, who := h.wid.toNat, storer := some (.hart k) }

/-- The boundaries of a launch's scope-5 group (R357, R358). -/
def Launch.systemBoundary (l : Launch) : Boundary := (Assoc.find l.boundaries 5).getD { complete := 0, clock := [] }

/-- The epoch and clock of a writer now. Of another device that takes part, the boundary at which it has last arrived is not this
device's to see: its write comes before its arrival at the boundary that is open, or after (R76, R359). (Log 46, DESIGN CHOICE.) -/
def State.writerClock (s : State) (w : Writer) : Nat × Assoc Nat :=
  match w.launch.bind fun t => Assoc.find s.launches t with
  | none => (0, [])
  | some l =>
    if 2 ^ 48 ≤ w.who then
      (l.systemBoundary.complete + Config.conflictChoice [s.writeSeq] % 2, l.systemBoundary.clock)
    else
      match Assoc.find l.members w.who with
      | none => (0, [])
      | some m => (m.epoch, m.clock)

/-- Where bytes of storage from `a` on, `n` in all, stand in a stretch: offset and length of each part; `o` is the offset of the
stretch's first piece. -/
def stretchOffsets (a n : Nat) : List Piece → Nat → List (Nat × Nat)
  | [], _ => []
  | p :: ps, o =>
    let lo := Nat.max a p.place.addr
    let hi := Nat.min (a + n) (p.place.addr + p.size)
    (if lo < hi then [(o + (lo - p.place.addr), hi - lo)] else []) ++ stretchOffsets a n ps (o + p.size)

/-- Some bytes of a stretch lie in a pool block that the unit holds, one that no published batch has out, or in a ring entry that is
still to be published (R430). -/
def Ingress.holds (u : Ingress) (a n : Nat) : Bool :=
  let out := u.published.flatMap fun p => p.2.blocks.drop p.2.freed
  let open' (q : Nat) : Bool := (Assoc.find u.published q).any fun b => b.freed < b.blocks.length
  let parts (size first : Nat) (x : Nat × Nat) : List Nat :=
    (List.range ((x.1 + x.2 - 1 - first) / size + 1)).drop ((x.1 - first) / size)
  (stretchOffsets a n u.pool 0).any (fun x => (parts 4096 0 x).any fun b => !out.contains b) ||
  (stretchOffsets a n u.ring 0).any fun x => 64 < x.1 + x.2 && (parts u.ringEntry 64 x).any fun q => !open' q

/-- Some ingress unit is still to write bytes of a stretch (R430). -/
def State.contested (s : State) (a n : Nat) : Bool :=
  s.exchanges.any fun e => e.2.ingress.any fun u => u.2.holds a n

/-- The ingress units note a write of another agent to bytes that they are still to write (R430). -/
def State.noteContest (s : State) (a : Nat) (bytes : List Byte) : State :=
  { s with exchanges := s.exchanges.map fun e => (e.1, { e.2 with ingress := e.2.ingress.map fun u =>
      (u.1, if u.2.holds a bytes.length then { u.2 with contests := u.2.contests ++ [{ addr := a, bytes := bytes }] } else u.2) }) }

/-- A write of storage takes place: bytes or one nibble of an element of `width` bits, in the location's single order when `home`. -/
def State.performWrite (s : State) (by' : Writer) (p : Place) (bytes : List Byte) (nibble width : Nat) (home : Bool) : State :=
  let before := s.mem
  let s := s.storeHome by'.seat p.addr bytes nibble
  if p.addr < hbmTop then
    let s := match by'.storer with
      | some x => if home then s else s.noteTreeStore x p.addr bytes.length before
      | none => s
    let c := s.writerClock by'
    s.recordWrite by'.launch by'.final
      { seq := 0, who := by'.who, epoch := c.1, clock := c.2, addr := p.addr, bytes := bytes, nibble := nibble,
        width := width, home := home || !p.phased }
  else s

/-- A write of storage. Of one to bytes that an ingress unit is still to write, made by another agent, the unit's bytes or its own
stand (R430). -/
def State.writePlace (s : State) (by' : Writer) (p : Place) (bytes : List Byte) (nibble width : Nat) (home : Bool) : State :=
  let s := s.markDirty p bytes.length
  if !by'.unit && s.contested p.addr bytes.length then
    let (pick, s) := s.choose 2
    if pick = 0 then s
    else
      let s := s.performWrite by' p bytes nibble width home
      s.noteContest p.addr (s.mem.readBytes p.addr bytes.length)
  else s.performWrite by' p bytes nibble width home

/-! ### Uncorrectable errors -/

/-- The first failing word that bytes from `a` meet (R267). -/
def State.badWord (s : State) (a n : Nat) : Option Nat := s.badWords.find? fun w => overlapping (8 * w) 8 a n

/-- Counts an uncorrectable error and enters it in the error log (Table 3.12, kind 2). The number of a window's byte is no
physical address: its entry's ADDR is a free value (log 8, DESIGN CHOICE). (Log 78, DEDUCED.) `sign` puts in whom the entry
concerns. -/
def State.logBad (s : State) (sign : LogEntry → LogEntry) (w : Nat) : State :=
  let s := { s with hub := { s.hub with uncorrectable := s.hub.uncorrectable + 1 } }
  if 8 * w < 2 ^ 52 then s.log .error (sign (blankEntry 2 0 (BitVec.ofNat 64 (8 * w))))
  else
    let (x, s) := s.draw
    s.log .error (sign (blankEntry 2 0 (BitVec.ofNat 64 x)))

/-! ### Watchpoints -/

/-- The control bits of watchpoint `n` (Table 11.5). -/
def Hart.watchControl (h : Hart) (n : Fin 4) (bit : Nat) : Bool := bitOf h.wp.cfg.toNat (4 * n.val + bit)

/-- Some armed watchpoint covers a byte of the stretch for an access of the kind (R277). -/
def Hart.watched (h : Hart) (va size : Nat) (k : Access) : Bool :=
  (List.finRange 4).any fun n =>
    h.watchControl n 0 && overlapping va size h.wp.lo[n].toNat (h.wp.hi[n].toNat - h.wp.lo[n].toNat) &&
    h.wp.lo[n].toNat < h.wp.hi[n].toNat &&
    match k with
    | .read => h.watchControl n 1
    | .write => h.watchControl n 2
    | .atomic => h.watchControl n 1 || h.watchControl n 2
    | .execute => h.watchControl n 3

/-- WSKIP (Table 11.5). -/
def Hart.wskip (h : Hart) : Bool := bitOf h.wp.cfg.toNat 16

/-- An element hits a watchpoint: checked at program level, and not the element that WSKIP exempts (R276, R277, R441). -/
def Hart.watchHit (h : Hart) (va size : Nat) (k : Access) : Bool := !h.trp.prv && !h.wskip && h.watched va size k

/-- After an element performed at program level, WSKIP is clear (Table 11.5). -/
def Hart.spendSkip (h : Hart) : Hart :=
  if h.trp.prv then h else { h with wp := { h.wp with cfg := setField h.wp.cfg 16 1 0 } }

end Sys2Proof.Machine
end

