-- ==== Sys2Proof/Machine/WindowA.lean ====
section
/-! DEFINITION. Window A: its registers as the host and device programs read and write them (R71 to R73, R94 to R96, R327,
R329), and MSI-X messages (R468). -/

namespace Sys2Proof.Machine

/-- Changes the hub. -/
def State.onHub (s : State) (f : Hub → Hub) : State := { s with hub := f s.hub }

/-- Adds to what the device has sent out. -/
def State.emit (s : State) (o : Output) : State := { s with outputs := o :: s.outputs }

/-! ### MSI-X -/

/-- A vector sends no message: MSI-X is not enabled, or the function or the vector is masked (R468). -/
def Hub.msiMasked (b : Hub) (v : Fin 64) : Bool := !b.msix.enabled || b.msix.masked || bitOf b.msix.control[v].toNat 0

/-- A vector's message goes out with its entry's address and data (R468). -/
def State.sendMsi (s : State) (v : Fin 64) : State := s.emit (.message v.val s.hub.msix.addr[v] s.hub.msix.data[v])

/-- Raises a vector: a masked one sets its pending bit (R468). -/
def State.raiseMsi (s : State) (v : Nat) : State :=
  let i : Fin 64 := Fin.ofNat 64 v
  if s.hub.msiMasked i then
    s.onHub fun b => { b with msix := { b.msix with pending := b.msix.pending ||| BitVec.ofNat 64 (2 ^ i.val) } }
  else s.sendMsi i

/-- Sends the message of a pending vector that is no longer masked (R468). -/
def State.sendPending (s : State) (v : Nat) : State :=
  let i : Fin 64 := Fin.ofNat 64 v
  if bitOf s.hub.msix.pending.toNat i.val && !s.hub.msiMasked i then
    (s.onHub fun b => { b with msix := { b.msix with pending := setField b.msix.pending i.val 1 0 } }).sendMsi i
  else s

/-- The host writes MSI-X Enable and Function Mask: messages that nothing masks any longer are sent (R93, R468). -/
def State.setMsix (s : State) (enabled masked : Bool) : State :=
  (List.range 64).foldl State.sendPending
    (s.onHub fun b => { b with msix := { b.msix with enabled := enabled, masked := masked } })

/-! ### Launch queues -/

/-- Changes a launch queue. -/
def State.onQueue (s : State) (i : Nat) (f : LaunchQueue → LaunchQueue) : State :=
  if h : i < 64 then { s with queues := s.queues.set i (f s.queues[i]) } else s

/-- A launch queue by its number. -/
def State.queue (s : State) (i : Nat) : LaunchQueue :=
  if h : i < 64 then s.queues[i] else { tail := 0, head := 0, enable := false, slots := [], appends := [], copies := [], late := [] }

/-- The number of a queue's block (R71). -/
def queueNumber (q : QueueId) : Nat := 16 * q.die.toNat + 8 * bit01 q.bulk + q.q.toNat

/-- A slot's value. -/
def LaunchQueue.slot (q : LaunchQueue) (i : Nat) : Word := (Assoc.find q.slots i).getD 0

/-- Writes a slot; a zero slot is not listed. -/
def LaunchQueue.setSlot (q : LaunchQueue) (i : Nat) (x : Word) : LaunchQueue :=
  { q with slots := if x = 0 then Assoc.drop q.slots i else Assoc.put q.slots i x }

/-- The physical address of the record that a slot names (Table 3.2). -/
def slotRecord (x : Word) : Nat := fieldOf x 7 45 * 128

/-- The copy of a record from now on (R25). -/
def Mem.recordCopy (m : Mem) (pa : Nat) : RecordCopy :=
  { base := pa, values := (List.range 16).map fun d => [m.dword (pa + 8 * d)] }

/-- The copies of a queue once a slot's value `x` can be taken from now on, kept under `key` (R25). -/
def LaunchQueue.copyFrom (q : LaunchQueue) (m : Mem) (key : Nat) (x : Word) : Assoc RecordCopy :=
  let pa := slotRecord x
  if bitOf x.toNat 0 && pa < hbmTop then Assoc.put q.copies key (m.recordCopy pa) else Assoc.drop q.copies key

/-- A slot is written: with VALID its record may be taken from now on, and so each dword of the copy may be one that stands in memory
from now on (R25). -/
def State.putSlot (s : State) (i j : Nat) (x : Word) : State :=
  s.onQueue i fun q => { q.setSlot j x with copies := q.copyFrom s.mem j x }

/-- A value is kept beside its slot, for the position 256 later, with the copy of its record (R25, R74). -/
def LaunchQueue.keepLate (q : LaunchQueue) (j : Nat) (x : Word) (copies : Assoc RecordCopy) : LaunchQueue :=
  { q with late := Assoc.put q.late j x, copies := copies }

/-- The value kept beside a slot comes into it (R74). -/
def LaunchQueue.takeLate (q : LaunchQueue) (j : Nat) : LaunchQueue :=
  match Assoc.find q.late j with
  | none => q
  | some x =>
    { q.setSlot j x with
      late := Assoc.drop q.late j,
      copies := match Assoc.find q.copies (256 + j) with
        | none => q.copies
        | some c => Assoc.put (Assoc.drop q.copies (256 + j)) j c }

/-- A host write of a slot (R73). One that already holds a record is not the host's: the queue takes the record written or the one
overwritten, at this position or at the position 256 later (R74). (Log 112, DESIGN CHOICE.) -/
def State.hostSlot (s : State) (i j : Nat) (x : Word) : State :=
  if !bitOf ((s.queue i).slot j).toNat 0 then s.putSlot i j x
  else
    let (n, s) := s.choose 4
    if n = 0 then s.putSlot i j x
    else if n = 1 then s
    else if n = 2 then s.onQueue i fun q => q.keepLate j x (q.copyFrom s.mem (256 + j) x)
    else
      (s.onQueue i fun q => q.keepLate j (q.slot j) (match Assoc.find q.copies j with
        | none => Assoc.drop q.copies (256 + j)
        | some c => Assoc.put q.copies (256 + j) c)).putSlot i j x

/-- A write of QCTL: ENABLE alone is written, and in recovery it stays 0 (Table 3.2, R69). (Log 84, DEDUCED.) -/
def State.writeQctl (s : State) (i : Nat) (x : Word) : State :=
  s.onQueue i fun q => { q with enable := bitOf x.toNat 0 && !s.hub.recovery }

/-- A FetchAdd on TAIL: the old value, or none for a Completer Abort (R73). -/
def State.fetchAddTail (s : State) (i : Nat) (op : HostAtomic) (wide : Bool) (n : Word) : State × Option Word :=
  let q := s.queue i
  if op = .fetchAdd && wide && q.enable && n.toNat ≤ 256 then (s.onQueue i fun q => { q with tail := q.tail + n }, some q.tail)
  else (s, none)

/-! ### Die configuration -/

/-- Changes a die configuration block. -/
def State.onDie (s : State) (d : Nat) (f : DieConfig → DieConfig) : State :=
  if h : d < 4 then { s with dies := s.dies.set d (f s.dies[d]) } else s

/-- A die configuration block. -/
def State.die (s : State) (d : Nat) : DieConfig := s.dies[d]?.getD { latLo := 0, latHi := 0, pendingLo := none, tvecd := 0 }

/-- A write of LATLO stores the pending low half (R72). -/
def State.writeLatlo (s : State) (d : Nat) (x : Word) : State := s.onDie d fun c => { c with pendingLo := some x }

/-- The conditions on a commit of LATMASK (R72). -/
def State.latmaskOk (s : State) (d : Nat) (lo hi : Word) : Bool :=
  fieldOf hi 32 32 == 0 && popCount lo.toNat 64 + popCount hi.toNat 64 == 8 &&
  (List.range 16).all fun i => !(s.queue (16 * d + i)).enable

/-- A write of LATHI commits LATMASK or is ignored, and discards the pending half (R72). -/
def State.writeLathi (s : State) (d : Nat) (x : Word) : State :=
  let c := s.die d
  let lo := c.pendingLo.getD c.latLo
  s.onDie d fun c =>
    if s.latmaskOk d lo x then { c with latLo := lo, latHi := x, pendingLo := none } else { c with pendingLo := none }

/-- A write of TVECD: bits 53:3 (R72). -/
def State.writeTvecd (s : State) (d : Nat) (x : Word) : State :=
  s.onDie d fun c => { c with tvecd := BitVec.ofNat 64 (fieldOf x 3 51 * 8) }

/-! ### The mailbox -/

/-- BUSY (R96). -/
def Mailbox.busy (b : Mailbox) : Bool := b.stage != .idle

/-- MBSTAT (Table 3.9). -/
def Mailbox.status (b : Mailbox) : Word :=
  BitVec.ofNat 64 (bit01 b.busy * 2 ^ 63 + bit01 b.isDone * 2 ^ 62 + b.doneTag.toNat * 2 ^ 32 + b.result.toNat)

/-- Changes the mailbox. -/
def State.onBox (s : State) (f : Mailbox → Mailbox) : State := s.onHub fun b => { b with box := f b.box }

/-- A mailbox write dropped while BUSY is counted (R96, Table 3.12). -/
def State.dropBoxWrite (s : State) (off : Nat) : State :=
  (s.onHub fun b => { b with boxDrops := b.boxDrops + 1 }).log .error (blankEntry 5 0 (BitVec.ofNat 64 off))

/-- A write of MBCMD starts the command (R96); its Reserved bits read as zero (R7, Table 3.9). -/
def State.writeMbcmd (s : State) (x : Word) : State :=
  if s.hub.box.busy then s.dropBoxWrite 0
  else
    let cmd := BitVec.ofNat 64 (fieldOf x 16 16 * 2 ^ 16 + fieldOf x 0 8)
    s.onBox fun b => { b with cmd := cmd, isDone := false, stage := .started }

/-! ### The fault log -/

/-- A write of FLHEAD between FLHEAD and FLTAIL releases the entries below it (R329). -/
def State.writeFlhead (s : State) (x : BitVec 32) : State :=
  let b := s.hub
  if (x - b.flHead).toNat ≤ (b.flTail - b.flHead).toNat then
    s.onHub fun b =>
      { b with flHead := x, faults := b.faults.filter fun e => (e.seq - x).toNat < (b.flTail - x).toNat }
  else s

/-! ### The registers -/

/-- A register of Window A by its offset, a multiple of 8; none at a Reserved offset (Table 3.7). -/
def State.register (s : State) (off : Nat) : Option Word :=
  let b := s.hub
  if off < 0x10000 then
    if off = 0 then some b.box.cmd else if off = 8 then some b.box.status else if off = 16 then some b.box.msi else none
  else if 0x100000 ≤ off && off < 0x140000 then
    let q := s.queue ((off - 0x100000) / 4096)
    let o := off % 4096
    if o = 0 then some q.tail
    else if o = 8 then some q.head
    else if o = 16 then some (BitVec.ofNat 64 (2 * bit01 (q.head == q.tail) + bit01 q.enable))
    else if 0x800 ≤ o then some (q.slot ((o - 0x800) / 8))
    else none
  else if 0x140000 ≤ off && off < 0x144000 then
    let c := s.die ((off - 0x140000) / 4096)
    let o := off % 4096
    if o = 0 then some c.latLo else if o = 8 then some c.latHi else if o = 16 then some c.tvecd else none
  else if off = 0x144000 then some b.wbctl
  else if off = 0x144008 then some b.wbbase
  else if off = 0x144010 then some b.wbroot
  else if 0x145000 ≤ off && off < 0x145400 then
    let i : Fin 64 := Fin.ofNat 64 ((off - 0x145000) / 16)
    if off % 16 = 0 then some b.msix.addr[i] else some (b.msix.control[i] ++ b.msix.data[i])
  else if off = 0x146000 then some b.msix.pending
  else if off = 0x1FF000 then some (b.flHead.setWidth 64)
  else if off = 0x1FF008 then some (b.flTail.setWidth 64)
  else if off = 0x1FF010 then some b.flCtl
  else none

/-- What a register's other half is when four bytes of it are written: of LATLO the pending half when there is one (R72). -/
def State.mergeBase (s : State) (off : Nat) (old : Word) : Word :=
  if 0x140000 ≤ off && off < 0x144000 && off % 4096 = 0 then (s.die ((off - 0x140000) / 4096)).pendingLo.getD old else old

/-- A write of a whole register; a Reserved or read-only one is unchanged. A log entry of a write to TAIL or HEAD names the register's
offset, and one of a write to MBCMD while BUSY offset 0, also when the write is of the register's upper half alone (log 118, DESIGN
CHOICE). -/
def State.writeRegister (s : State) (off : Nat) (x : Word) : State :=
  if off < 0x10000 then
    if off = 0 then s.writeMbcmd x
    else if off = 16 then s.onBox fun b => { b with msi := BitVec.ofNat 64 (fieldOf x 0 7) }
    else s
  else if 0x100000 ≤ off && off < 0x140000 then
    let i := (off - 0x100000) / 4096
    let o := off % 4096
    if o < 16 then s.log .launch (blankEntry 2 0 (BitVec.ofNat 64 off))
    else if o = 16 then s.writeQctl i x
    else if 0x800 ≤ o then s.hostSlot i ((o - 0x800) / 8) x
    else s
  else if 0x140000 ≤ off && off < 0x144000 then
    let d := (off - 0x140000) / 4096
    let o := off % 4096
    if o = 0 then s.writeLatlo d x else if o = 8 then s.writeLathi d x else if o = 16 then s.writeTvecd d x else s
  else if off = 0x144000 then
    s.onHub fun b => { b with wbctl := BitVec.ofNat 64 (fieldOf x 48 16 * 2 ^ 48 + fieldOf x 0 1) }
  else if off = 0x144008 then s.onHub fun b => { b with wbbase := BitVec.ofNat 64 (fieldOf x 0 54) }
  else if off = 0x144010 then s.onHub fun b => { b with wbroot := BitVec.ofNat 64 (fieldOf x 12 40 * 4096) }
  else if 0x145000 ≤ off && off < 0x145400 then
    let v := (off - 0x145000) / 16
    let i : Fin 64 := Fin.ofNat 64 v
    if off % 16 = 0 then s.onHub fun b => { b with msix := { b.msix with addr := b.msix.addr.set i (x &&& (~~~3)) } }
    else
      (s.onHub fun b => { b with msix := { b.msix with
        data := b.msix.data.set i (x.extractLsb' 0 32),
        control := b.msix.control.set i (BitVec.ofNat 32 (fieldOf x 32 1)) } }).sendPending v
  else if off = 0x1FF000 then s.writeFlhead (x.extractLsb' 0 32)
  else if off = 0x1FF010 then s.onHub fun b => { b with flCtl := BitVec.ofNat 64 (fieldOf x 0 7) }
  else s

/-- The data areas (R94). -/
inductive DataArea where
  | args | data | faults
  deriving DecidableEq, Repr

/-- The data area in which an access lies wholly. One that runs over an area's end lies in none: it is an access of the register at its
offset, where there is one, and else of a Reserved offset (log 107, DESIGN CHOICE). -/
def dataArea (off n : Nat) : Option DataArea :=
  if 0x100 ≤ off && off + n ≤ 0x200 then some .args
  else if 0x1000 ≤ off && off + n ≤ 0x10000 then some .data
  else if 0x200000 ≤ off && off + n ≤ 0x280000 then some .faults
  else none

/-- MBARG as bytes. -/
def Mailbox.argBytes (b : Mailbox) : List Byte := b.args.toList.flatMap fun x => toBytesLE 8 x.toNat

/-- Replaces bytes of a list from position `i` on. -/
def spliceBytes (xs : List Byte) (i : Nat) (bytes : List Byte) : List Byte :=
  xs.take i ++ bytes ++ xs.drop (i + bytes.length)

/-- MBARG from bytes. -/
def argsOf (xs : List Byte) : Vector Word 32 :=
  Vector.ofFn fun i => BitVec.ofNat 64 (ofBytesLE ((xs.drop (8 * i.val)).take 8))

/-- A register access has an accepted size and alignment (R94). -/
def registerSized (off n : Nat) : Bool := (n == 4 && off % 4 == 0) || (n == 8 && off % 8 == 0)

/-- In recovery only the mailbox answers (R69). -/
def State.answers (s : State) (off : Nat) : Bool := !s.hub.recovery || off < 0x10000

/-- What a read of Window A comes to. -/
inductive WindowRead where
  | data (bytes : List Byte)
  | abort
  | unsupported
  deriving DecidableEq, Repr

/-- A read of `n` bytes at a Window A offset (R94). In recovery one outside the mailbox is not answered (R69): the host gets an
Unsupported Request completion, as for its AtomicOps (log 108, DESIGN CHOICE). -/
def State.readWindowA (s : State) (off n : Nat) : WindowRead :=
  if !s.answers off then .unsupported
  else
    match dataArea off n with
    | some .args => .data ((s.hub.box.argBytes.drop (off - 0x100)).take n)
    | some .data => .data (s.hub.box.data.readBytes (off - 0x1000) n)
    | some .faults => .data (s.hub.flData.readBytes (off - 0x200000) n)
    | none =>
      match s.register (off / 8 * 8) with
      | none => .data (List.replicate n 0)
      | some x =>
        if registerSized off n then .data (((toBytesLE 8 x.toNat).drop (off % 8)).take n) else .abort

/-- A write that is dropped for its size or alignment (R94, Table 3.12). -/
def State.dropWindowWrite (s : State) (off : Nat) : State := s.log .error (blankEntry 7 0 (BitVec.ofNat 64 off))

/-- A write of bytes at a Window A offset (R94). -/
def State.writeWindowA (s : State) (off : Nat) (bytes : List Byte) : State :=
  let n := bytes.length
  if !s.answers off then s
  else
    match dataArea off n with
    | some .args =>
      if s.hub.box.busy then s.dropBoxWrite off
      else s.onBox fun b => { b with args := argsOf (spliceBytes b.argBytes (off - 0x100) bytes) }
    | some .data =>
      if s.hub.box.busy then s.dropBoxWrite off
      else s.onBox fun b => { b with data := b.data.writeBytes (off - 0x1000) bytes }
    | some .faults => s.onHub fun b => { b with flData := b.flData.writeBytes (off - 0x200000) bytes }
    | none =>
      match s.register (off / 8 * 8) with
      | none => s
      | some old =>
        if n = 16 && 0x140000 ≤ off && off < 0x144000 && off % 4096 = 0 then
          (s.writeRegister off (BitVec.ofNat 64 (ofBytesLE (bytes.take 8)))).writeRegister (off + 8)
            (BitVec.ofNat 64 (ofBytesLE (bytes.drop 8)))
        else if registerSized off n then
          let base := s.mergeBase (off / 8 * 8) old
          s.writeRegister (off / 8 * 8)
            (BitVec.ofNat 64 (ofBytesLE (spliceBytes (toBytesLE 8 base.toNat) (off % 8) bytes)))
        else s.dropWindowWrite off

/-- An AtomicOp on Window A: the old value, or none for a Completer Abort (R73, R94). -/
def State.atomicWindowA (s : State) (off : Nat) (op : HostAtomic) (n : Nat) (operand : Word) : State × Option Word :=
  if s.answers off && 0x100000 ≤ off && off < 0x140000 && off % 4096 = 0 then
    s.fetchAddTail ((off - 0x100000) / 4096) op (n == 8) operand
  else (s, none)

/-- The Window A offset of a host-link address, when it lies in the device's own Window A (R94). -/
def State.ownWindowA (s : State) (addr : Nat) : Option Nat :=
  match s.hub.barA with
  | none => none
  | some a => if a ≤ addr && addr < a + 0x400000 then some (addr - a) else none

end Sys2Proof.Machine
end

