-- ==== Sys2Proof/Machine/Fabric.lean ====
section
/-! DEFINITION. Requests to the host and to peers (R299, R322, R323), their answers (R323, R325), and the routes of flits
(R315 to R321). -/

namespace Sys2Proof.Machine

/-! ### Ports and routes -/

/-- The grid (R315). -/
def Hub.rows (b : Hub) : Nat := b.nr.toNat + 1
def Hub.cols (b : Hub) : Nat := b.nc.toNat + 1

/-- The port to another device of the row or column (R315); ports to the row's other columns come first, then those to the
column's other rows, each in increasing order (log 14, DESIGN CHOICE). -/
def Hub.portTo (b : Hub) (row col : Nat) : Option Nat :=
  if row = b.row.toNat && col ≠ b.col.toNat then some (if col < b.col.toNat then col else col - 1)
  else if col = b.col.toNat && row ≠ b.row.toNat then
    some (b.nc.toNat + if row < b.row.toNat then row else row - 1)
  else none

/-- The next device of the minimal route to a destination (R319). (Log 72, DEDUCED.) -/
def Hub.nextHop (b : Hub) (row col : Nat) : Nat × Nat := if col ≠ b.col.toNat then (b.row.toNat, col) else (row, col)

/-- The port to a device of the grid is up. -/
def Hub.portUp (b : Hub) (row col : Nat) : Bool :=
  match b.portTo row col with
  | none => false
  | some p => row < b.rows && col < b.cols && !b.down.contains p

/-- The detour hops to a destination whose port is up (R319): off the minimal route, and not such that the route would return to
this device or take its column hop first. (Log 72, DEDUCED.) -/
def Hub.detours (b : Hub) (row col : Nat) : List (Nat × Nat) :=
  let inRow := if col = b.col.toNat then [] else ((List.range b.cols).map fun c => (b.row.toNat, c)).filter fun p =>
    p.2 != b.col.toNat && p.2 != col
  let inCol := ((List.range b.rows).map fun r => (r, b.col.toNat)).filter fun p => p.1 != b.row.toNat && p.1 != row
  (inRow ++ inCol).filter fun p => b.portUp p.1 p.2

/-- A flit header (Table 14.2). -/
structure FlitHead where
  vc : Nat
  kind : Nat
  drow : Nat
  dcol : Nat
  srow : Nat
  scol : Nat
  det : Bool
  expinc : BitVec 16
  tag : BitVec 16
  deriving DecidableEq, Repr

/-- A header's bits (Table 14.2). -/
def FlitHead.word (x : FlitHead) : BitVec 64 :=
  BitVec.ofNat 64 (x.vc * 2 ^ 61 + x.kind * 2 ^ 58 + x.drow * 2 ^ 54 + x.dcol * 2 ^ 50 + x.srow * 2 ^ 46 + x.scol * 2 ^ 42 +
    bit01 x.det * 2 ^ 41 + x.expinc.toNat * 2 ^ 25 + x.tag.toNat * 2 ^ 9)

/-- A header read back. -/
def flitHead (w : BitVec 64) : FlitHead :=
  { vc := fieldOf w 61 3, kind := fieldOf w 58 3, drow := fieldOf w 54 4, dcol := fieldOf w 50 4, srow := fieldOf w 46 4,
    scol := fieldOf w 42 4, det := bitOf w.toNat 41, expinc := BitVec.ofNat 16 (fieldOf w 25 16),
    tag := BitVec.ofNat 16 (fieldOf w 9 16) }

/-- The class of a virtual channel (Table 14.3): exchange, request, response, fault log, management. -/
def vcClass (vc : Nat) : Nat := if vc < 6 then vc / 2 else vc - 3

/-- The port to a device has its credits of a class exhausted beyond the threshold (R319). -/
def Hub.spent (b : Hub) (row col cls : Nat) : Bool :=
  match b.portTo row col with
  | none => false
  | some p => b.starved.contains (8 * p + cls)

/-- A flow of this device (R320): its destination and class. -/
def flowKey (row col cls : Nat) : Nat := 4 * (16 * row + col) + cls

/-- The next hop of the route that a flow follows until it has no packet in flight (R320). -/
def Hub.routeOf (b : Hub) (row col cls : Nat) : Option (Nat × Nat) :=
  (Assoc.find b.routes (flowKey row col cls)).map fun n => (n / 16, n % 16)

/-- The next hop of a packet of this device: its flow's route, also when its port is down, so that the packet is not sent (R320, R321);
else the minimal one, or a detour, which is the device's choice, when the minimal port is down or its credits are exhausted; none when
there is no route (R319, R321). -/
def State.chooseHop (s : State) (row col cls : Nat) : State × Option (Nat × Nat) :=
  let b := s.hub
  let keep (s : State) (hop : Nat × Nat) : State × Option (Nat × Nat) :=
    (s.onHub fun b => { b with routes := Assoc.put b.routes (flowKey row col cls) (16 * hop.1 + hop.2) }, some hop)
  match b.routeOf row col cls with
  | some hop => (s, if b.portUp hop.1 hop.2 then some hop else none)
  | none =>
    let hop := b.nextHop row col
    let up := b.portUp hop.1 hop.2
    let ds := if up && !b.spent hop.1 hop.2 cls then [] else b.detours row col
    let hops := if up then hop :: ds else ds
    let (n, s) := s.choose hops.length
    match hops[n]? with
    | none => (s, none)
    | some hop => keep s hop

/-- A packet of this device leaves on the port of its hop: the port, and the virtual channel, the upper one once it takes a
detour hop (R318). (Log 72, DEDUCED.) -/
def State.leave (s : State) (row col vc : Nat) : State × Option (Nat × Nat) :=
  match s.chooseHop row col (vcClass vc) with
  | (s, none) => (s, none)
  | (s, some hop) => (s, (s.hub.portTo hop.1 hop.2).map fun p => (p, vc))

/-- Sends a packet's flits on one port (R317); without a route it is not sent (R321). -/
def State.sendPacket (s : State) (flits : List (FlitHead × List Byte)) : State :=
  match flits with
  | [] => s
  | (x, _) :: _ =>
    match s.leave x.drow x.dcol x.vc with
    | (s, none) => s
    | (s, some (p, _)) => flits.foldl (fun s f => s.emit (.flit p { header := f.1.word, payload := f.2 })) s

/-- No packet of a flow is in flight: its route may change (R320). While a request of the flow waits for its response one may be. -/
def State.drainFlow (s : State) (flow : Nat) : State :=
  if flow % 4 = 1 && s.pending.any fun p => p.2.peer && p.2.waiter != .gone && p.2.dest == flow / 4 then s
  else s.onHub fun b => { b with routes := Assoc.drop b.routes flow }

/-- A port's credits of a class (R318, R319). -/
def State.setCredit (s : State) (port cls : Nat) (spent : Bool) : State :=
  s.onHub fun b =>
    { b with starved := if spent then (if b.starved.contains (8 * port + cls) then b.starved else (8 * port + cls) :: b.starved)
                        else b.starved.filter (· != 8 * port + cls) }

/-- The atomics of Table 12.5 in the order of their FN, then the binary32 forms of Table 14.6. -/
inductive AtomicOp where
  | add | and | or | xor | min | max | minn | maxn | xchg | cas | fadd | fmin | fmax
  deriving DecidableEq, Repr

/-- The AOP code (Table 14.6). -/
def AtomicOp.code : AtomicOp → Nat
  | .add => 0 | .and => 1 | .or => 2 | .xor => 3 | .min => 4 | .max => 5 | .minn => 6 | .maxn => 7 | .xchg => 8 | .cas => 9
  | .fadd => 10 | .fmin => 11 | .fmax => 12

/-- The PCI Express AtomicOp for an atomic, when there is one (R40). -/
def AtomicOp.host : AtomicOp → Option HostAtomic
  | .add => some .fetchAdd
  | .xchg => some .swap
  | .cas => some .cas
  | .and | .or | .xor | .min | .max | .minn | .maxn | .fadd | .fmin | .fmax => none

/-- The atomic of an AOP code (Table 14.6). -/
def AtomicOp.ofCode (n : Nat) : Option AtomicOp :=
  [AtomicOp.add, .and, .or, .xor, .min, .max, .minn, .maxn, .xchg, .cas, .fadd, .fmin, .fmax][n]?

/-- OP, SIZE and AOP lie in Table 14.6, and BMASK names bytes that the store carries (R323); the binary32 forms have four
bytes. (Log 73, DEDUCED.) -/
def PeerRequest.valid (q : PeerRequest) : Bool :=
  let word := q.size == 1 || q.size == 2 || q.size == 4 || q.size == 8
  if q.op = 1 then
    q.size < 64 && q.aop == 0 && q.opb == 0 && (List.range 64).all fun i =>
      !bitOf q.bmask.toNat i || (q.size.toNat ≤ i && i < q.size.toNat + 56)
  else if q.op = 0 then word && q.aop == 0
  else q.op == 2 && word && q.aop ≤ 12 && (q.aop < 10 || q.size == 4)

/-- Fifty-six bytes of payload. -/
def payload (bytes : List Byte) : List Byte := (bytes ++ List.replicate 56 0).take 56

/-- A request's prologue (Table 14.6). -/
def PeerRequest.prologue (q : PeerRequest) : List Byte :=
  toBytesLE 2 q.srcinc.toNat ++ toBytesLE 2 q.asid.toNat ++ [q.op, q.size, q.aop, 0] ++ toBytesLE 8 q.va.toNat ++
    toBytesLE 8 q.bmask.toNat ++ toBytesLE 8 q.opb.toNat ++ toBytesLE 8 q.opc.toNat

/-- The flits of a request to a device (R323): a store's block follows in a tail flit, from byte SIZE on. -/
def PeerRequest.flits (q : PeerRequest) (drow dcol : Nat) : List (FlitHead × List Byte) :=
  let head : FlitHead :=
    { vc := 2, kind := if q.op = 1 then 0 else 3, drow := drow, dcol := dcol, srow := q.row.toNat, scol := q.col.toNat,
      det := false, expinc := q.expinc, tag := q.tag }
  (head, payload q.prologue) ::
    if q.op = 1 then [({ head with kind := 2 }, payload ((q.block.drop q.size.toNat).take 56))] else []

/-- The holder of the entries with which a waiter's access was translated (R44, R54). -/
def Waiter.holder : Waiter → Nat
  | .hart k => coreIndex k
  | .node key => key / 1024
  | .area _ core => core
  | _ => 512

/-- The lowest tag that no request in flight has, nor one that has timed out (R325). (Log 91, DESIGN CHOICE.) -/
def freeTag : Assoc Pending → Nat → Nat
  | [], n => n
  | (k, _) :: r, n => if n < k then n else freeTag r (k + 1)

/-- Every tag is taken: no request can be sent (R325). (Log 91, DESIGN CHOICE.) -/
def State.tagless (s : State) : Bool := decide (65536 ≤ freeTag s.pending 0)

/-- Reserves a tag for a request of a waiter to a place, of a write or atomic with its stretch in a tracked range (R472). -/
def State.newRequest (s : State) (w : Waiter) (p : Place) (size : Nat) (writes : Bool) : BitVec 16 × State :=
  let n := freeTag s.pending 0
  let x : Pending :=
    { waiter := w, peer := p.target == .peer, size := size, asid := p.asid, holder := w.holder,
      dest := 16 * p.row.toNat + p.col.toNat,
      track := if writes then p.tracked.map fun t => (t.1, t.2, t.2 + size) else none }
  (BitVec.ofNat 16 n, { s with pending := Assoc.put s.pending (n % 65536) x })

/-- Counts a packet dropped for its incarnation or form (R323, R325). -/
def State.countStale (s : State) : State := s.onHub fun b => { b with stale := b.stale + 1 }

/-- A request reaches its target device, this one: dropped when it expects another incarnation (R325) or is none of Table 14.6
(R323). -/
def State.arriveRequest (s : State) (q : PeerRequest) : State :=
  if q.expinc ≠ s.hub.incarnation || !q.valid then s.countStale else { s with peerIn := s.peerIn ++ [q] }

/-- Sends a request to the device at a position inside the grid; to its own it loops back (R322). -/
def State.sendRequest (s : State) (row col : Nat) (q : PeerRequest) : State :=
  if row = s.hub.row.toNat && col = s.hub.col.toNat then s.arriveRequest q else s.sendPacket (q.flits row col)

/-- An entry that names a launch of an address space. -/
def launchEntry (kind code addr : Nat) (asid : BitVec 16) (tag val : Word) : LogEntry :=
  { blankEntry kind code (BitVec.ofNat 64 addr) with tag := tag, who := BitVec.ofNat 64 (asid.toNat * 2 ^ 48), val := val }

/-- An answer goes to whoever still waits for the request with this tag. -/
def State.giveAnswer (s : State) (w : Waiter) (tag : BitVec 16) (asid : BitVec 16) (a : Answer) : State :=
  match w with
  | .hart k => s.onHart k fun h =>
      if h.wait.request = some tag then { h with wait := { h.wait with answer := some a } } else h
  | .node n =>
    { s with nodes := Assoc.change s.nodes n fun x => if x.request = some tag then { x with answer := some a } else x }
  | .peer => { s with peerIn := s.peerIn.map fun q => if q.request = some tag then { q with answer := some a } else q }
  | .completion t =>
    let take (x : Closing) : Closing := if x.request = some tag then { x with answer := some a } else x
    s.onLaunch t fun l => { l with closing := l.closing.map take }
  | .window =>
    let take (q : WindowRequest) : WindowRequest := if q.request = some tag then { q with answer := some a } else q
    s.onHub fun b => { b with windowIn := b.windowIn.map take }
  | .reject record reason =>
    match a with
    | .failed _ => s.log .launch (launchEntry 1 reason record asid 0 0)
    | .data _ => s
  | .device | .area _ _ | .gone => s

/-- What a request was to write has been written (R472). -/
def State.performed (s : State) (track : Option (BitVec 16 × Nat × Nat)) : State :=
  match track with
  | none => s
  | some (asid, lo, hi) => s.markGranules asid lo (hi - lo)

/-- Takes the answer of the request with a tag, when such a request is in flight: a write or atomic that succeeded has been performed
(R472). An answer to one that has timed out frees its tag, and is counted (R325). -/
def State.answerTag (s : State) (tag : BitVec 16) (peer : Bool) (a : Answer) : Option State :=
  match Assoc.find s.pending tag.toNat with
  | none => none
  | some p =>
    if p.peer = peer then
      let s := { s with pending := Assoc.drop s.pending tag.toNat }
      let s := match a with | .data _ => s.performed p.track | .failed _ => s
      some (if p.waiter = .gone then s.countStale else s.giveAnswer p.waiter tag p.asid a)
    else none

/-- The time of a request runs out (R326): its tag stays taken until its late response comes (R325). Whether its target has performed it
is not known. -/
def State.timeOut (s : State) (tag : BitVec 16) : State :=
  match Assoc.find s.pending tag.toNat with
  | none => s
  | some p =>
    if p.peer && p.waiter != .gone then
      let (n, s) := s.choose (if p.track.isSome then 2 else 1)
      let s := if n = 0 then s else s.performed p.track
      { s with pending := Assoc.put s.pending tag.toNat { p with waiter := .gone } }.giveAnswer p.waiter tag p.asid (.failed .peer)
    else s

/-- What a response says (Table 14.7, Table 14.4). -/
def PeerResponse.answer (r : PeerResponse) : Answer :=
  if r.rsp = 2 then .failed .remote else if r.rsp = 3 then .failed .dataerr else .data r.data.toNat

/-- A response reaches this device: one that names another incarnation, or a request no longer in flight, is dropped and
counted (R325). -/
def State.takeResponse (s : State) (r : PeerResponse) : State :=
  if r.expinc ≠ s.hub.incarnation then s.countStale
  else (s.answerTag r.tag true (PeerResponse.answer r)).getD s.countStale

/-- Sends a response to the source of a request (R323). -/
def State.respond (s : State) (q : PeerRequest) (rsp : BitVec 8) (data : Word) : State :=
  let r : PeerResponse := { expinc := q.srcinc, tag := q.tag, rsp := rsp, data := data }
  if q.row = s.hub.row && q.col = s.hub.col then s.takeResponse r
  else
    s.sendPacket [({ vc := 4, kind := 3, drow := q.row.toNat, dcol := q.col.toNat, srow := s.hub.row.toNat,
                     scol := s.hub.col.toNat, det := false, expinc := q.srcinc, tag := q.tag },
                   payload (rsp :: List.replicate 7 0 ++ toBytesLE 8 data.toNat))]

/-! ### Requests for one piece of an element -/

/-- The prologue fields shared by every request of this device. -/
def State.blankRequest (s : State) (p : Place) (tag : BitVec 16) : PeerRequest :=
  { row := s.hub.row, col := s.hub.col, expinc := p.inc, tag := tag, srcinc := s.hub.incarnation, asid := p.asid,
    op := 0, size := 0, aop := 0, va := BitVec.ofNat 64 p.addr, bmask := 0, opb := 0, opc := 0, block := [] }

/-- The peer lies in the grid (R322). (Log 94, DEDUCED.) -/
def State.inGrid (s : State) (p : Place) : Bool := p.row.toNat < s.hub.rows && p.col.toNat < s.hub.cols

/-- What issuing a request for a piece comes to: an answer there and then, a request in flight under a tag, or nothing, every tag
being taken: it is issued later (log 91, DESIGN CHOICE). -/
inductive Issued where
  | answered (a : Answer)
  | sent (tag : BitVec 16)
  | full
  deriving DecidableEq, Repr

/-- What a read of the device's own Window A answers a program (R94, Table 12.6). -/
def WindowRead.answer : WindowRead → Answer
  | .data bytes => .data (ofBytesLE bytes)
  | .abort | .unsupported => .failed .dataerr

/-- A request of `n` bytes leaves under a tag of its own, as `send` sends it. -/
def State.sendTagged (s : State) (w : Waiter) (p : Place) (n : Nat) (writes : Bool) (send : BitVec 16 → State → State) :
    State × Issued :=
  if s.tagless then (s, .full)
  else
    let (tag, s) := s.newRequest w p n writes
    (send tag s, .sent tag)

/-- Issues a read of `n` bytes at the host or a peer. -/
def State.issueRead (s : State) (w : Waiter) (p : Place) (n : Nat) : State × Issued :=
  if p.target = .host then
    match s.ownWindowA p.addr with
    | some off => (s, .answered (s.readWindowA off n).answer)
    | none => s.sendTagged w p n false fun tag s => s.emit (.hostRead tag p.addr n)
  else if !s.inGrid p then (s, .answered (.failed .peer))
  else
    s.sendTagged w p n false fun tag s =>
      s.sendRequest p.row.toNat p.col.toNat { s.blankRequest p tag with size := BitVec.ofNat 8 n }

/-- Issues a write of bytes at the host or a peer, or of a nibble alone (R288). A host write is posted (Table 12.6), and its stretch of a
tracked range is dirty at once (R472). -/
def State.issueStore (s : State) (w : Waiter) (p : Place) (bytes : List Byte) (nibble : Nat) : State × Issued :=
  if p.target = .host then
    let s := s.markDirty p bytes.length
    match s.ownWindowA p.addr with
    | some off =>
      let old := match s.readWindowA off 1 with | .data xs => xs | _ => []
      (s.writeWindowA off (if nibble = 0 then bytes else [mergeNibble (old.headD 0) (bytes.headD 0) nibble]), .answered (.data 0))
    | none => (s.emit (.hostWrite p.addr bytes nibble), .answered (.data 0))
  else if !s.inGrid p then (s, .answered (.failed .peer))
  else
    let o := p.addr % 64
    s.sendTagged w p bytes.length true fun tag s =>
      s.sendRequest p.row.toNat p.col.toNat
        { s.blankRequest p tag with
          op := 1, size := BitVec.ofNat 8 o, va := BitVec.ofNat 64 (p.addr - o),
          bmask := BitVec.ofNat 64 ((2 ^ bytes.length - 1) * 2 ^ o), nibble := nibble,
          block := (spliceBytes (List.replicate 64 0) o bytes).take 64 }

/-- Issues a write of whole bytes. -/
def State.issueWrite (s : State) (w : Waiter) (p : Place) (bytes : List Byte) : State × Issued := s.issueStore w p bytes 0

/-- A piece in parts that one store writes each: at most 56 bytes of one 64-byte block (R322). -/
def splitBlock (p : Piece) : Nat → List Piece
  | 0 => []
  | k + 1 =>
    let n := Nat.min 56 (64 - p.place.addr % 64)
    if p.size ≤ n then [p]
    else { p with size := n } :: splitBlock { place := { p.place with addr := p.place.addr + n }, size := p.size - n } k

/-- The pieces, with those at a peer in parts that one store writes each (R322). -/
def splitBlocks (ps : List Piece) : List Piece :=
  ps.flatMap fun p => if p.place.target = .peer then splitBlock p (p.size / 28 + 2) else [p]

/-- Issues an atomic of `n` bytes at the host or a peer; the host knows only the AtomicOps of PCI Express (R40). -/
def State.issueAtomic (s : State) (w : Waiter) (p : Place) (n : Nat) (op : AtomicOp) (operand compare : Nat) :
    State × Issued :=
  if p.target = .host then
    match op.host with
    | none => (s, .answered (.failed .rperm))
    | some a =>
      match s.ownWindowA p.addr with
      | some off =>
        match s.atomicWindowA off a n (BitVec.ofNat 64 operand) with
        | (s, some old) => (s.markDirty p n, .answered (.data old.toNat))
        | (s, none) => (s, .answered (.failed .dataerr))
      | none =>
        s.sendTagged w p n true fun tag s => s.emit (.hostAtomic tag a p.addr n (BitVec.ofNat 64 operand) (BitVec.ofNat 64 compare))
  else if !s.inGrid p then (s, .answered (.failed .peer))
  else
    s.sendTagged w p n true fun tag s =>
      s.sendRequest p.row.toNat p.col.toNat
        { s.blankRequest p tag with
          op := 2, size := BitVec.ofNat 8 n, aop := BitVec.ofNat 8 op.code, opb := BitVec.ofNat 64 operand,
          opc := if op = .cas then BitVec.ofNat 64 compare else 0 }

end Sys2Proof.Machine
end

