-- ==== Sys2Proof/Machine/Replay.lean ====
section
/-! DEFINITION. Recording and replay of the events that timing decides (R475, R476). -/

namespace Sys2Proof.Machine

/-- The device as an agent in a launch's address space: for its logs and blocks. Accesses that no core makes use the entry
holder 512. -/
def Launch.agent (l : Launch) : Agent :=
  { holder := 512, asid := recAsid l.dwords, root := some (recRoot l.dwords), core := none, slice := none }

/-- One kind of recorded event (Table 26.5). -/
inductive EventType where
  | placement | task | atomic | external
  deriving DecidableEq, Repr

/-- The TYPE byte (Table 26.4). -/
def EventType.code : EventType → Byte
  | .placement => 1 | .task => 2 | .atomic => 3 | .external => 4

/-- A recording log entry (Table 26.4); `rejected`: one that was read has a nonzero Reserved byte, and nothing acts on it (R7). -/
structure LogRow where
  type : Byte
  bmask : Byte
  who : Word
  what : Word
  data : Word
  rejected : Bool := false
  deriving DecidableEq, Repr

/-- An entry's bytes (Table 26.4). -/
def LogRow.bytes (e : LogRow) : List Byte :=
  [e.type, e.bmask, 0, 0, 0, 0, 0, 0] ++ toBytesLE 8 e.who.toNat ++ toBytesLE 8 e.what.toNat ++ toBytesLE 8 e.data.toNat

/-- An entry from its bytes. -/
def LogRow.ofBytes (xs : List Byte) : LogRow :=
  let dword (i : Nat) : Word := BitVec.ofNat 64 (ofBytesLE ((xs.drop i).take 8))
  { type := xs[0]?.getD 0, bmask := xs[1]?.getD 0, who := dword 8, what := dword 16, data := dword 24,
    rejected := ((xs.drop 2).take 6).any (· != 0) }

/-- Writes bytes to a place as the device, beyond it by requests whose answers `w` gets. -/
def State.devicePieces (s : State) (w : Waiter) : List Piece → List Byte → State
  | [], _ => s
  | p :: ps, bytes =>
    let s := if p.place.target = .memory then s.writePlace Writer.device p.place (bytes.take p.size) 0 64 false
      else (s.issueWrite w p.place (bytes.take p.size)).1
    s.devicePieces w ps (bytes.drop p.size)

/-- Writes bytes from a virtual address on, granule by granule, as the device; a byte that does not translate stops it with
the cause and address (none: all written). -/
def State.deviceWrite (s : State) (w : Waiter) (g : Agent) : Nat → Nat → List Byte → State × Option (Cause × Nat)
  | 0, _, _ => (s, none)
  | fuel + 1, va, bytes =>
    if bytes.isEmpty then (s, none)
    else
      let n := Nat.min bytes.length (256 - va % 256)
      match s.translate g va .write with
      | (s, .error c) => (s, some (c, va))
      | (s, .ok p) =>
        (s.devicePieces w (splitBlocks [{ place := p, size := n }]) bytes).deviceWrite w g fuel (va + n) (bytes.drop n)

/-- Reads bytes at the host or a peer as the device does: what stands there is a free value, and the access may fail as a load's
(Table 12.6; log 30, DESIGN CHOICE). -/
def State.deviceFar (s : State) (p : Place) (n : Nat) : State × Except Cause (List Byte) :=
  if p.target = .peer && !s.inGrid p then (s, .error .peer)
  else
    let causes : List Cause := if p.target = .peer then [.remote, .peer, .dataerr] else [.dataerr]
    let (i, s) := s.choose (causes.length + 1)
    match causes[i]? with
    | some c => (s, .error c)
    | none =>
      let (x, s) := s.draw
      (s, .ok (toBytesLE n x))

/-- Reads bytes at a place as the device does, in the device by what stands at the home; a failure comes with its offset. -/
def State.devicePart (s : State) (g : Agent) (p : Place) (n : Nat) : State × Except (Cause × Nat) (List Byte) :=
  if p.target = .memory then
    match s.badWord p.addr n with
    | some w => (s.logBad (s.signed g) w, .error (.dataerr, 8 * w - p.addr))
    | none => (s, .ok (s.mem.readBytes p.addr n))
  else
    match s.deviceFar p n with
    | (s, .error c) => (s, .error (c, 0))
    | (s, .ok xs) => (s, .ok xs)

/-- Reads bytes from a virtual address on as the device does, a schedule table or a control block (R85, R471). Of a host or peer range,
of which the spec says nothing, the read is one of `deviceFar` (log 30, DESIGN CHOICE). -/
def State.deviceRead (s : State) (g : Agent) : Nat → Nat → Nat → State × Except (Cause × Nat) (List Byte)
  | 0, _, _ => (s, .ok [])
  | fuel + 1, va, n =>
    if n = 0 then (s, .ok [])
    else
      let m := Nat.min n (256 - va % 256)
      match s.translate g va .read with
      | (s, .error c) => (s, .error (c, va))
      | (s, .ok p) =>
        match s.devicePart g p m with
        | (s, .error (c, o)) => (s, .error (c, va + o))
        | (s, .ok xs) =>
          match s.deviceRead g fuel (va + m) (n - m) with
          | (s, .error e) => (s, .error e)
          | (s, .ok ys) => (s, .ok (xs ++ ys))

/-- The granules that a stretch can take. -/
def granules (n : Nat) : Nat := n / 256 + 2

/-- Changes the replay state of a launch. -/
def State.onReplay (s : State) (tag : Word) (f : Replay → Replay) : State :=
  s.onLaunch tag fun l => { l with replay := l.replay.map f }

/-- Appends an entry to a recording launch's log; the entry that fills it ends the recording (R475). -/
def State.record (s : State) (tag : Word) (e : LogRow) : State :=
  match s.launch? tag with
  | none => s
  | some l =>
    match l.replay with
    | none => s
    | some r =>
      if !r.on || !r.blockOk || r.rmode || r.rovf then s
      else
        let (s, _) := s.deviceWrite .device l.agent (granules 32) (r.rlog.toNat + r.rlen) e.bytes
        s.onReplay tag fun r =>
          { r with rlen := r.rlen + 32, rovf := r.rcap.toNat < r.rlen + 64 }

/-- A replaying launch still constrained by its log (R476, R477). -/
def Replay.constrains (r : Replay) : Bool := r.on && r.blockOk && r.rmode && !r.rdiv && r.rpos < r.rlen

/-- The next log entry of a replaying launch; none when nothing constrains it or the log cannot be read. -/
def State.nextRow (s : State) (l : Launch) : State × Option LogRow :=
  match l.replay with
  | none => (s, none)
  | some r =>
    if !r.constrains then (s, none)
    else
      match s.deviceRead l.agent (granules 32) (r.rlog.toNat + r.rpos) 32 with
      | (s, .error _) => (s, none)
      | (s, .ok xs) => (s, some (LogRow.ofBytes xs))

/-- The bytes of an external entry, each at its place in the order (R476). -/
def applyExternal (s : State) (l : Launch) (e : LogRow) : State :=
  forElems (fun i s =>
    if bitOf e.bmask.toNat i then
      (s.deviceWrite .device l.agent 2 (e.what.toNat + i) [BitVec.ofNat 8 (bitsOf e.data.toNat (8 * i) 8)]).1
    else s) 8 0 s

/-- Applies the external entries at the head of a replaying launch's log (R476). An entry with a nonzero Reserved byte is passed over:
R7 rejects it, and no rule says what comes of the replay then (log 119, DESIGN CHOICE). -/
def State.applyExternals (s : State) (tag : Word) : Nat → State
  | 0 => s
  | fuel + 1 =>
    match s.launch? tag with
    | none => s
    | some l =>
      match s.nextRow l with
      | (s, some e) =>
        if e.rejected then (s.onReplay tag fun r => { r with rpos := r.rpos + 32 }).applyExternals tag fuel
        else if e.type = EventType.external.code then
          ((applyExternal s l e).onReplay tag fun r => { r with rpos := r.rpos + 32 }).applyExternals tag fuel
        else s
      | (s, none) => s

/-- Whether an event of a launch may happen now (R476): outside replay always, and in it when the log's next entry is this
event, told by its type, its WID and `own`. -/
def State.replayTurn (s : State) (tag : Word) (t : EventType) (who : Word) (own : LogRow → Bool) : State × Bool :=
  match s.launch? tag with
  | none => (s, true)
  | some l =>
    match l.replay with
    | none => (s, true)
    | some r =>
      if !r.constrains then (s, true)
      else
        let s := s.applyExternals tag ((r.rlen - r.rpos) / 32 + 1)
        match s.launch? tag with
        | none => (s, true)
        | some l =>
          match s.nextRow l with
          | (s, none) => (s, true)
          | (s, some e) => (s, !e.rejected && e.type == t.code && e.who == who && own e)

/-- The event has taken effect: a replaying launch goes on to its next entry, with the external ones before it applied at once
(R476), and a recording one appends it. -/
def State.eventDone (s : State) (tag : Word) (e : LogRow) : State :=
  match s.launch? tag with
  | none => s
  | some l =>
    match l.replay with
    | none => s
    | some r =>
      if r.constrains then (s.onReplay tag fun r => { r with rpos := r.rpos + 32 }).applyExternals tag ((r.rlen - r.rpos) / 32)
      else s.record tag e

/-- The devices that take part in a launch, by row and column: the members of its system group, or this device (R76). -/
def State.takesPart (s : State) (l : Launch) (row col : Nat) : Bool :=
  (row == s.hub.row.toNat && col == s.hub.col.toNat) ||
  match Assoc.find s.hub.groups (recGroup l.dwords) with
  | none => false
  | some m => bitOf m.toNat (16 * row + col)

/-- An agent outside the device: the host, or a peer at a position. -/
inductive External where
  | host
  | peer (row col : Nat)
  deriving DecidableEq, Repr

/-- An outside agent as a writer: a peer that takes part in a system launch of the address space here is an agent of that launch
(R76, R357), every other one is foreign (R361). -/
def State.outsideWriter (s : State) (x : External) (asid : BitVec 16) : Writer :=
  match x with
  | .host => Writer.outside
  | .peer row col =>
    match s.launches.find? fun p => recAsid p.2.dwords == asid && recGroup p.2.dwords != 0 && s.takesPart p.2 row col with
    | none => Writer.outside
    | some p => { Writer.outside with launch := some p.1, who := remoteWho row col }

/-- The agent takes no part in the launch (Table 26.5, type 4). -/
def State.external (s : State) (x : External) (l : Launch) : Bool :=
  match x with
  | .host => true
  | .peer row col => !s.takesPart l row col

/-- Some byte of a stretch lies in a range of the launch's tree (R46). Bytes of one 256-byte granule lie in the same range. -/
def State.inRanges (s : State) (l : Launch) (va n : Nat) : Bool :=
  (List.range ((va + n + 255) / 256 - va / 256)).any fun i =>
    match s.findRange (recAsid l.dwords) (recRoot l.dwords) (va / 256 * 256 + 256 * i) with
    | .found leaf slot _ => (s.descriptorAt (slotAddr leaf slot)).valid
    | _ => false

/-- An access of an outside agent to `n` bytes of an address space is dropped: it is to a range of a launch in replay mode (R476). -/
def State.replaying (s : State) (x : External) (asid : BitVec 16) (va n : Nat) : Bool :=
  s.launches.any fun p => recAsid p.2.dwords == asid && s.external x p.2 && s.inRanges p.2 va n && match p.2.replay with
    | some r => r.on && r.blockOk && r.rmode && !r.rdiv
    | none => false

/-- Records bytes written by an outside agent in the recording launches of an address space, in aligned 8-byte pieces (Table
26.5, type 4). -/
def State.recordExternal (s : State) (x : External) (asid : BitVec 16) (cells : List (Nat × Byte)) : State :=
  let piece (s : State) (tag base : Nat) : State :=
    let inside := cells.filter fun c => c.1 / 8 == base
    s.record (BitVec.ofNat 64 tag)
      { type := EventType.external.code, bmask := BitVec.ofNat 8 (inside.map fun c => 2 ^ (c.1 % 8)).sum,
        who := BitVec.allOnes 64, what := BitVec.ofNat 64 (8 * base),
        data := BitVec.ofNat 64 (inside.map fun c => c.2.toNat * 256 ^ (c.1 % 8)).sum }
  let bases := (cells.map fun c => c.1 / 8).eraseDups
  (s.launches.filter fun p => recAsid p.2.dwords == asid && s.external x p.2).foldl (fun s p =>
    bases.foldl (fun s b => piece s p.1 b) s) s

/-- An access of an outside agent dropped in replay, in the error log (Table 3.12, kind 6). -/
def State.logReplayDrop (s : State) (asid : BitVec 16) (va : Nat) : State :=
  s.log .error ((blankEntry 6 0 (BitVec.ofNat 64 va)).under asid)

end Sys2Proof.Machine
end

