-- ==== Sys2Proof/Machine/Formats.lean ====
section
/-! DEFINITION. Floating-point formats and exact arithmetic: decoding (R176 to R178), RoundF (R179, R180, R182), the IEEE
operations on exact values, the K4 block (R187 to R191) and gate ranking keys (R196). -/

namespace Sys2Proof.Machine

/-! ### Formats -/

/-- A floating-point format (Table 7.1): field widths, bias, the largest finite value as a significand and its exponent, and
whether it has infinities. -/
structure Fmt where
  bits : Nat
  frac : Nat
  bias : Nat
  maxSig : Nat
  maxExp : Int
  infs : Bool
  deriving DecidableEq, Repr

def fmtF16 : Fmt := { bits := 16, frac := 10, bias := 15, maxSig := 2047, maxExp := 5, infs := true }
def fmtBf16 : Fmt := { bits := 16, frac := 7, bias := 127, maxSig := 255, maxExp := 120, infs := true }
def fmtF32 : Fmt := { bits := 32, frac := 23, bias := 127, maxSig := 16777215, maxExp := 104, infs := true }
def fmtF64 : Fmt := { bits := 64, frac := 52, bias := 1023, maxSig := 2 ^ 53 - 1, maxExp := 971, infs := true }
def fmtE4m3 : Fmt := { bits := 8, frac := 3, bias := 7, maxSig := 14, maxExp := 5, infs := false }
def fmtE5m2 : Fmt := { bits := 8, frac := 2, bias := 15, maxSig := 7, maxExp := 13, infs := true }

/-- The format of a floating element type; binary32 for the others, which are never asked. -/
def fmtOf : ElemType → Fmt
  | .f16 => fmtF16 | .bf16 => fmtBf16 | .f64 => fmtF64 | .e4m3 => fmtE4m3 | .e5m2 => fmtE5m2
  | .f32 | .i8 | .i16 | .i32 | .i64 | .n8 | .n16 | .n32 | .n64 | .k4 | .q4 => fmtF32

/-- The exponent field of all ones. -/
def Fmt.expOnes (t : Fmt) : Nat := 2 ^ (t.bits - 1 - t.frac) - 1

/-- The exponent of the smallest normal value, and of the subnormal grid. -/
def Fmt.emin (t : Fmt) : Int := 1 - (t.bias : Int)
def Fmt.grid (t : Fmt) : Int := t.emin - t.frac

/-- The canonical NaN (Table 7.1). -/
def Fmt.nan (t : Fmt) : Nat :=
  if t.infs then t.expOnes * 2 ^ t.frac + 2 ^ (t.frac - 1) else t.expOnes * 2 ^ t.frac + (2 ^ t.frac - 1)

/-- A sign bit in place. -/
def Fmt.sign (t : Fmt) (neg : Bool) : Nat := if neg then 2 ^ (t.bits - 1) else 0

/-- An infinity. -/
def Fmt.inf (t : Fmt) (neg : Bool) : Nat := t.sign neg + t.expOnes * 2 ^ t.frac

/-- A value of a format: a NaN, an infinity, or (−1)^neg × m × 2^e exactly; a zero keeps its sign. -/
inductive Fp where
  | nan
  | inf (neg : Bool)
  | fin (neg : Bool) (m : Nat) (e : Int)
  deriving DecidableEq, Repr

/-- The value that a bit pattern encodes (R176). -/
def Fmt.decode (t : Fmt) (x : Nat) : Fp :=
  let neg := bitOf x (t.bits - 1)
  let e := bitsOf x t.frac (t.bits - 1 - t.frac)
  let f := bitsOf x 0 t.frac
  if e = t.expOnes && (t.infs || f = 2 ^ t.frac - 1) then
    if t.infs && f = 0 then .inf neg else .nan
  else if e = 0 then .fin neg f t.grid
  else .fin neg (2 ^ t.frac + f) (t.grid + (e - 1 : Nat))

/-- An operand of vector floating arithmetic: under FTZ a binary32 subnormal reads as a zero of its sign (R178). -/
def Fmt.operand (t : Fmt) (ftz : Bool) (x : Nat) : Fp :=
  match t.decode x with
  | .fin neg m e => if ftz && t.bits = 32 && m < 2 ^ t.frac then .fin neg 0 e else .fin neg m e
  | v => v

/-! ### Rounding -/

/-- A rounding mode in force, with the draw of the stochastic one (Table 4.2, R182). -/
inductive Mode where
  | rne | rtz | rdn | rup | rna
  | rsr (r : BitVec 32)
  deriving DecidableEq, Repr

/-- An exact nonnegative real as far as rounding sees it: m × 2^e, plus something below 2^e when `sticky`. A sticky value
carries at least 40 bits below the precision it is rounded to. -/
structure Mag where
  m : Nat
  e : Int
  sticky : Bool
  deriving DecidableEq, Repr

/-- The bits of a number. -/
def bitLength (m : Nat) : Nat := if m = 0 then 0 else m.log2 + 1

/-- m × 2^k, rounded down when k is negative. -/
def shiftInt (m : Nat) (k : Int) : Nat := if 0 ≤ k then m * 2 ^ k.toNat else m / 2 ^ (-k).toNat

/-- The significand of a magnitude on the grid of exponent `q`, and whether the magnitude lies off the grid (R179, R182). -/
def Mag.roundAt (x : Mag) (mode : Mode) (neg : Bool) (q : Int) : Nat × Bool :=
  if q ≤ x.e then (shiftInt x.m (x.e - q), x.sticky)
  else
    let k := (q - x.e).toNat
    let t := x.m / 2 ^ k
    let rest := x.m % 2 ^ k
    let inexact := rest != 0 || x.sticky
    let half := 2 ^ (k - 1)
    let up := match mode with
      | .rne => half < rest || (rest = half && (x.sticky || t % 2 = 1))
      | .rtz => false
      | .rdn => neg && inexact
      | .rup => !neg && inexact
      | .rna => half ≤ rest
      | .rsr r => 2 ^ 32 ≤ rest * 2 ^ 32 / 2 ^ k + r.toNat
    (if up then t + 1 else t, inexact)

/-- The bits of the finite value (−1)^neg × n × 2^q of the format, on its grid. -/
def Fmt.encode (t : Fmt) (neg : Bool) (n : Nat) (q : Int) : Nat :=
  let (n, q) := if n = 2 ^ (t.frac + 1) then (2 ^ t.frac, q + 1) else (n, q)
  if n < 2 ^ t.frac then t.sign neg + n
  else t.sign neg + (q - t.grid + 1).toNat * 2 ^ t.frac + (n - 2 ^ t.frac)

/-- The largest finite value. -/
def Fmt.largest (t : Fmt) (neg : Bool) : Nat := t.encode neg t.maxSig t.maxExp

/-- n × 2^q exceeds the largest finite value. -/
def Fmt.exceeds (t : Fmt) (n : Nat) (q : Int) : Bool :=
  let lo := if q ≤ t.maxExp then q else t.maxExp
  t.maxSig * 2 ^ (t.maxExp - lo).toNat < n * 2 ^ (q - lo).toNat

/-- n × 2^q lies below the smallest normal value. -/
def Fmt.tiny (t : Fmt) (n : Nat) (q : Int) : Bool := (bitLength n : Int) + q - 1 < t.emin

/-- What overflow gives (R180). -/
def Fmt.overflow (t : Fmt) (mode : Mode) (neg : Bool) : Nat × FlagSet :=
  if t.bits = 8 then (t.largest neg, flagsOf [.qsat, .nx])
  else
    let toInf := match mode with
      | .rtz => false
      | .rdn => neg
      | .rup => !neg
      | .rne | .rna | .rsr _ => true
    (if toInf then t.inf neg else t.largest neg, flagsOf [.ovf, .nx])

/-- RoundF of a magnitude with a sign (R179, R180, R182); FTZ flushes tiny binary32 results when asked (R178). -/
def Fmt.round (t : Fmt) (mode : Mode) (ftz : Bool) (neg : Bool) (x : Mag) : Nat × FlagSet :=
  if x.m = 0 && !x.sticky then (t.sign neg, 0)
  else
    let free := x.e + bitLength x.m - (t.frac + 1 : Nat)
    let q := if free < t.grid then t.grid else free
    let (n, inexact) := x.roundAt mode neg q
    let (nf, _) := x.roundAt mode neg free
    let tiny := t.tiny nf free
    if t.exceeds n q then t.overflow mode neg
    else if ftz && t.bits = 32 && tiny then (t.sign neg, flagsOf [.uf, .nx])
    else (t.encode neg n q, flagIf inexact .nx ||| flagIf (tiny && inexact) .uf)

/-- The canonical NaN with flags. -/
def Fmt.nanWith (t : Fmt) (fs : FlagSet) : Nat × FlagSet := (t.nan, fs)

/-- Rounds the exact signed value v × 2^e; a zero takes the sign given. -/
def Fmt.roundInt (t : Fmt) (mode : Mode) (ftz zeroNeg : Bool) (v : Int) (e : Int) : Nat × FlagSet :=
  if v = 0 then (t.sign zeroNeg, 0)
  else t.round mode ftz (v < 0) { m := v.natAbs, e := e, sticky := false }

/-! ### Exact operations -/

/-- Negation. -/
def Fp.neg : Fp → Fp
  | .nan => .nan
  | .inf s => .inf (!s)
  | .fin s m e => .fin (!s) m e

/-- A finite value's signed significand. -/
def signedSig (neg : Bool) (m : Nat) : Int := if neg then -(m : Int) else m

/-- The exact sum of two dyadic values, on the lower exponent. -/
def addDyadic (a : Int) (ea : Int) (b : Int) (eb : Int) : Int × Int :=
  let e := if ea ≤ eb then ea else eb
  (a * 2 ^ (ea - e).toNat + b * 2 ^ (eb - e).toNat, e)

/-- Whether the mode is toward minus infinity. -/
def Mode.down : Mode → Bool
  | .rdn => true
  | .rne | .rtz | .rup | .rna | .rsr _ => false

/-- a + b rounded once (R225): ∞ − ∞ is invalid; an exact zero takes IEEE 754's sign (R179). -/
def Fmt.add (t : Fmt) (mode : Mode) (ftz : Bool) (a b : Fp) : Nat × FlagSet :=
  match a, b with
  | .nan, _ | _, .nan => t.nanWith 0
  | .inf s, .inf u => if s = u then (t.inf s, 0) else t.nanWith Flag.nv.bit
  | .inf s, .fin _ _ _ | .fin _ _ _, .inf s => (t.inf s, 0)
  | .fin s m e, .fin u n g =>
    let (v, q) := addDyadic (signedSig s m) e (signedSig u n) g
    t.roundInt mode ftz (if s = u then s else mode.down) v q

/-- The exact product: a NaN with NV for 0 × ∞. -/
def Fp.mulExact : Fp → Fp → Fp × FlagSet
  | .nan, _ | _, .nan => (.nan, 0)
  | .inf s, .inf u => (.inf (s != u), 0)
  | .inf s, .fin u m _ | .fin u m _, .inf s => if m = 0 then (.nan, Flag.nv.bit) else (.inf (s != u), 0)
  | .fin s m e, .fin u n g => (.fin (s != u) (m * n) (e + g), 0)

/-- Rounds an exact value. -/
def Fmt.ofFp (t : Fmt) (mode : Mode) (ftz : Bool) : Fp → Nat × FlagSet
  | .nan => t.nanWith 0
  | .inf s => (t.inf s, 0)
  | .fin s m e => t.round mode ftz s { m := m, e := e, sticky := false }

/-- a × b rounded once. -/
def Fmt.mul (t : Fmt) (mode : Mode) (ftz : Bool) (a b : Fp) : Nat × FlagSet :=
  let p := a.mulExact b
  let r := t.ofFp mode ftz p.1
  (r.1, r.2 ||| p.2)

/-- a × b + c rounded once (R225); with a NaN for c, a product 0 × ∞ sets no flag (R224). -/
def Fmt.fma (t : Fmt) (mode : Mode) (ftz : Bool) (a b c : Fp) : Nat × FlagSet :=
  let p := a.mulExact b
  let r := t.add mode ftz p.1 c
  (r.1, if c = .nan then r.2 else r.2 ||| p.2)

/-- The integer square root, by bits from `n` down. -/
def sqrtBits (x : Nat) : Nat → Nat → Nat
  | 0, r => r
  | n + 1, r => let c := r + 2 ^ n; sqrtBits x n (if c * c ≤ x then c else r)

/-- m / n as a magnitude with `k` bits or more (n nonzero). -/
def divMag (m : Nat) (e : Int) (n : Nat) (g : Int) (k : Nat) : Mag :=
  let sh := k + bitLength n
  { m := m * 2 ^ sh / n, e := e - g - sh, sticky := m * 2 ^ sh % n != 0 }

/-- The square root of m × 2^e as a magnitude with `k` bits or more. -/
def sqrtMag (m : Nat) (e : Int) (k : Nat) : Mag :=
  let sh := 2 * k + (if (e - (2 * k : Nat)) % 2 = 0 then 0 else 1)
  let x := m * 2 ^ sh
  let r := sqrtBits x ((bitLength x + 1) / 2 + 1) 0
  { m := r, e := (e - sh) / 2, sticky := r * r != x }

/-- a / b rounded once: x / 0 sets DZ for a finite nonzero x; 0 / 0 and ∞ / ∞ are invalid (R229). -/
def Fmt.div (t : Fmt) (mode : Mode) (ftz : Bool) (a b : Fp) : Nat × FlagSet :=
  match a, b with
  | .nan, _ | _, .nan => t.nanWith 0
  | .inf _, .inf _ => t.nanWith Flag.nv.bit
  | .inf s, .fin u _ _ => (t.inf (s != u), 0)
  | .fin s _ _, .inf u => (t.sign (s != u), 0)
  | .fin s m e, .fin u n g =>
    if n = 0 then if m = 0 then t.nanWith Flag.nv.bit else (t.inf (s != u), Flag.dz.bit)
    else if m = 0 then (t.sign (s != u), 0)
    else t.round mode ftz (s != u) (divMag m e n g (t.frac + 50))

/-- The square root rounded once: of −0 it is −0, of a negative value it is invalid. -/
def Fmt.sqrt (t : Fmt) (mode : Mode) (ftz : Bool) : Fp → Nat × FlagSet
  | .nan => t.nanWith 0
  | .inf s => if s then t.nanWith Flag.nv.bit else (t.inf false, 0)
  | .fin s m e =>
    if m = 0 then (t.sign s, 0)
    else if s then t.nanWith Flag.nv.bit
    else t.round mode ftz false (sqrtMag m e (t.frac + 50))

/-- The order of two finite values: −1, 0 or 1. Zeros are equal. -/
def cmpDyadic (s : Bool) (m : Nat) (e : Int) (u : Bool) (n : Nat) (g : Int) : Int :=
  let d := (addDyadic (signedSig s m) e (-(signedSig u n)) g).1
  if d < 0 then -1 else if d = 0 then 0 else 1

/-- The order of two numbers; none when either is a NaN. -/
def Fp.cmp : Fp → Fp → Option Int
  | .nan, _ | _, .nan => none
  | .inf s, .inf u => some (if s = u then 0 else if s then -1 else 1)
  | .inf s, .fin _ _ _ => some (if s then -1 else 1)
  | .fin _ _ _, .inf s => some (if s then 1 else -1)
  | .fin s m e, .fin u n g => some (cmpDyadic s m e u n g)

/-- The sign of a number; of a NaN, none. -/
def Fp.isNeg : Fp → Bool
  | .nan => false
  | .inf s => s
  | .fin s _ _ => s

/-! ### The rounding mode of an instruction -/

/-- The mode in force: mode 110 uses ACFG.DRM (R179), and mode 101 takes one draw of the stochastic generator for the element
(R182). -/
def Hart.roundMode (h : Hart) (rm : RoundMode) : Mode × Hart :=
  let rm := match rm with
    | .dyn => (RoundMode.ofCode (fieldOf h.ar.acfg 0 3)).getD .rne
    | m => m
  match rm with
  | .rne | .dyn => (.rne, h)
  | .rtz => (.rtz, h)
  | .rdn => (.rdn, h)
  | .rup => (.rup, h)
  | .rna => (.rna, h)
  | .rsr => let (r, h) := h.drawSeed; (.rsr r, h)

/-! ### The K4 block -/

/-- Four times the magnitude of a K4 code (Table 7.6), and four times that of a spare (Table 7.8). -/
def k4Mag4 (c : Nat) : Nat := match c with | 0 => 0 | 1 => 2 | 2 => 4 | 3 => 6 | 4 => 8 | 5 => 12 | 6 => 16 | _ => 24
def spareMag4 (c : Nat) : Nat := match c with | 0 => 1 | 1 => 3 | 2 => 5 | 3 => 7 | 4 => 10 | 5 => 20 | 6 => 32 | _ => 48

/-- Four times the spare value named by SP (R189). -/
def spare4 (sp : Nat) : Int := signedSig (bitOf sp 3) (spareMag4 (sp % 8))

/-- Four times the code value of a K4 element under a header (R187). -/
def k4Value4 (header code : Nat) : Int :=
  if code = 8 then spare4 (header % 16) else signedSig (bitOf code 3) (k4Mag4 (code % 8))

/-- The scale code of a header, and the scale's significand and exponent (R188). -/
def scaleCode (header : Nat) : Nat := bitsOf header 4 12
def scaleSig (s : Nat) : Nat := 16 + s % 16
def scaleExp (s : Nat) : Int := (s / 16 : Nat) - 131

/-- The value of a K4 element (R187, R188). -/
def k4Decode (header code : Nat) : Fp :=
  let s := scaleCode header
  if s = 0 then .fin false 0 0
  else if s = 0xFFF then .nan
  else
    let v := k4Value4 header code
    .fin (v < 0) (v.natAbs * scaleSig s) (scaleExp s - 2)

/-- An exponent below every exponent the encoder meets, so that its values are integers times 2^`k4Grid`. -/
def k4Grid : Int := -160

/-- A finite input of the encoder, and a scale, on the grid. -/
def onK4Grid (neg : Bool) (m : Nat) (e : Int) : Int := signedSig neg m * 2 ^ (e - k4Grid).toNat
def scaleOnGrid (s : Nat) : Int := (scaleSig s : Int) * 2 ^ (scaleExp s - k4Grid).toNat

/-- The least code from `lo` to `lo + 2^n − 1` or so that satisfies a rising condition, by halving. -/
def leastCode (p : Nat → Bool) : Nat → Nat → Nat → Nat
  | 0, lo, _ => lo
  | n + 1, lo, hi => let mid := (lo + hi) / 2; if lo < hi then if p mid then leastCode p n lo mid else leastCode p n (mid + 1) hi else lo

/-- The code of E2M1(y) for |x| = |y| × scale: nearest, ties to the code with bit 0 clear, above 6 to 6 (R191). -/
def e2m1 (x scale : Int) : Nat :=
  let a : Int := x.natAbs
  -- midpoints between 0, 0.5, 1, 1.5, 2, 3, 4, 6 in quarters: 1, 3, 5, 7, 10, 14, 20
  let above (c : Int) : Bool := c * scale < 4 * a
  let atLeast (c : Int) : Bool := c * scale ≤ 4 * a
  let k := if above 20 then 7 else if atLeast 14 then 6 else if above 10 then 5 else if atLeast 7 then 4
    else if above 5 then 3 else if atLeast 3 then 2 else if above 1 then 1 else 0
  if k = 0 then 0 else if x < 0 then 8 + k else k

/-- Sixteen times the square of the error of representing x by a value of v / 4 scales. -/
def squareError (x scale v : Int) : Int := (4 * x - v * scale) * (4 * x - v * scale)

/-- The first index below `n` whose error is least. -/
def leastIndex (err : Nat → Int) : Nat → Nat
  | 0 => 0
  | n + 1 => let b := leastIndex err n; if n = 0 then 0 else if err n < err b then n else b

/-- A list's sum. -/
def sumInt (l : List Int) : Int := l.foldl (· + ·) 0

/-- The greatest magnitude among integers. -/
def maxAbs (l : List Int) : Nat := l.foldl (fun m x => Nat.max m x.natAbs) 0

/-- The codes and header of a block, and the flags it raises (R191). The inputs are binary32 values. -/
def k4Encode (xs : List Fp) : List Nat × Nat × FlagSet :=
  if xs.any (· == .nan) then (xs.map fun _ => 0, 0xFFF0, Flag.nv.bit)
  else
    let fin : List Int := xs.filterMap fun x => match x with | .fin s m e => some (onK4Grid s m e) | _ => none
    let infinite := fin.length != xs.length
    let amax := maxAbs fin
    if amax = 0 && !infinite then (xs.map fun _ => 0, 0, 0)
    else
      let amax := if amax = 0 then ((2 ^ 24 - 1) * 2 ^ (104 - k4Grid).toNat : Nat) else amax
      let reaches (s : Nat) : Bool := (amax : Int) ≤ 6 * scaleOnGrid s
      let clamped := !reaches 0xFFE
      let s := if clamped then 0xFFE else leastCode reaches 12 1 0xFFE
      let low := (amax : Int) < 6 * scaleOnGrid 1
      let scale := scaleOnGrid s
      let own (x : Int) : Int := squareError x scale (k4Value4 0 (e2m1 x scale))
      let err (p : Nat) : Int := sumInt (fin.map fun x => min (own x) (squareError x scale (spare4 p)))
      let sp := leastIndex err 16
      let header := s * 16 + sp
      let codeOf (x : Fp) : Nat := match x with
        | .fin neg m e =>
          let v := onK4Grid neg m e
          if squareError v scale (spare4 sp) < own v then 8 else e2m1 v scale
        | .inf neg => if bitOf sp 3 == neg && 24 < spareMag4 (sp % 8) then 8 else if neg then 15 else 7
        | .nan => 0
      let differs (x : Fp) : Bool := match x with
        | .fin neg m e => 4 * onK4Grid neg m e != k4Value4 header (codeOf x) * scale
        | _ => false
      (xs.map codeOf, header,
        flagIf (clamped || infinite) .qsat ||| flagIf low .qufl ||| flagIf (xs.any differs) .nx)

/-! ### Gate scores -/

/-- The ranking key of a binary32 gate score, on the subnormal grid (R196); a NaN has none and ranks below every number. -/
def gateKey (x : Nat) : Option Int :=
  let onGrid (neg : Bool) (m : Nat) (e : Int) : Int := signedSig neg m * 2 ^ (e - fmtF32.grid).toNat
  match fmtF32.decode x with
  | .nan => none
  | .inf s => some (onGrid s fmtF32.maxSig fmtF32.maxExp)
  | .fin s m e => some (onGrid s m e)

/-- What a ranked score is output as (R196). -/
def gateOutput (x : Nat) : Nat :=
  match fmtF32.decode x with
  | .nan => fmtF32.nan
  | .inf s => fmtF32.largest s
  | .fin _ _ _ => x

/-- The first score ranks before the second: a greater key, and a NaN below every number. -/
def gateBefore (a b : Option Int) : Bool :=
  match a, b with
  | none, _ => false
  | some _, none => true
  | some x, some y => y < x

end Sys2Proof.Machine
end

