-- ==== Sys2Proof/Machine/Special.lean ====
section
/-! DEFINITION. The faithful functions (R195, R229, R231): a 256-bit fixed-point value below the exact one fixes the neighbour
nearer zero, and a free threshold decides between that neighbour and the next (log 3, DESIGN CHOICE). -/

namespace Sys2Proof.Machine

open Sys2Proof.Config (Faithful)

/-- Fraction bits of the fixed-point values. The operands have at most 32 bits, and no value but those that R195 and R229
name as exact lies so near to a representable one (log 95, PRESUMED). -/
abbrev fixBits : Nat := 256

/-- Sum of z^(2k+1) / (2k+1) for k from `k` on, `n` terms, with `p` = z^(2k+1) and `z2` = z². -/
def atanhSum (z2 : Nat) : Nat → Nat → Nat → Nat
  | 0, _, _ => 0
  | n + 1, k, p => p / (2 * k + 1) + atanhSum z2 n (k + 1) (p * z2 / 2 ^ fixBits)

/-- 2 atanh(a / b) in fixed point, for a / b at most 1/3. -/
def twoAtanh (a b : Nat) : Nat :=
  let z := a * 2 ^ fixBits / b
  2 * atanhSum (z * z / 2 ^ fixBits) 90 0 z

/-- ln 2 in fixed point. -/
def lnTwo : Nat := twoAtanh 1 3

/-- The sum of r^k / k! from term `k` on, `n` terms, with `p` the term k. -/
def expSum (r : Nat) : Nat → Nat → Nat → Nat
  | 0, _, _ => 0
  | n + 1, k, p => p + expSum r n (k + 1) (p * r / 2 ^ fixBits / (k + 1))

/-- e^r in fixed point, for r in [0, 1). -/
def expFix (r : Nat) : Nat := expSum r 80 0 (2 ^ fixBits)

/-- m × 2^e as a fixed-point integer, rounded down. -/
def toFix (neg : Bool) (m : Nat) (e : Int) : Int := signedSig neg (shiftInt m (e + 256))

/-- A fixed-point value times 2^k, as a magnitude that stands for something just above it. -/
def ofFix (x : Nat) (k : Int) : Mag := { m := x, e := k - 256, sticky := true }

/-- 2^x for a fixed-point x. -/
def exp2Mag (x : Int) : Mag :=
  let k := x / 2 ^ fixBits
  let f := (x % 2 ^ fixBits).toNat
  ofFix (expFix (f * lnTwo / 2 ^ fixBits)) k

/-- e^x for a fixed-point x. -/
def expMag (x : Int) : Mag :=
  let k := x / lnTwo
  ofFix (expFix (x % lnTwo).toNat) k

/-- ln of m × 2^e (m nonzero) in fixed point, with its sign. -/
def lnFix (m : Nat) (e : Int) : Int :=
  let l := m.log2
  -- with m = 2^l × (1 + f): ln = 2 atanh((m − 2^l) / (m + 2^l)) + (e + l) ln 2
  (twoAtanh (m - 2 ^ l) (m + 2 ^ l) : Int) + (e + l) * lnTwo

/-- A signed fixed-point value as sign and magnitude. -/
def ofSignedFix (x : Int) : Bool × Mag := (x < 0, ofFix (x.natAbs - (if x < 0 then 1 else 0)) 0)

/-- log2 of m × 2^e. -/
def log2Fix (m : Nat) (e : Int) : Int := lnFix m e * 2 ^ fixBits / lnTwo

/-- tanh of the positive value m × 2^e. -/
def tanhMag (m : Nat) (e : Int) : Mag :=
  let top := (bitLength m : Int) + e
  if top < -40 then { m := m * 2 ^ 64 - 1, e := e - 64, sticky := true }
  else if 7 < top then { m := 2 ^ 64 - 1, e := -64, sticky := true }
  else
    let x2 := 2 * toFix false m e
    let k := (-x2) / lnTwo
    let f := shiftInt (expFix ((-x2) % lnTwo).toNat) k
    let one : Nat := 2 ^ fixBits
    { m := Nat.min ((one - f) * one / (one + f)) (one - 1), e := -256, sticky := true }

/-- 1 / √(m × 2^e), m nonzero. -/
def rsqrtMag (m : Nat) (e : Int) : Mag :=
  let sh : Nat := 160 + (if e % 2 = 0 then 0 else 1)
  let n := 2 ^ sh / m
  let r := sqrtBits n ((bitLength n + 1) / 2 + 1) 0
  { m := r, e := -((e + sh) / 2), sticky := r * r * m != 2 ^ sh }

/-- An order-preserving key of a number's bit pattern. -/
def orderKey (t : Fmt) (x : Nat) : Int := signedSig (bitOf x (t.bits - 1)) (x % 2 ^ (t.bits - 1))

/-- The faithful result of magnitude `x` and sign `neg` (R195, R229, R231): the neighbour nearer zero, or the next away from
the free threshold on; an exact value itself. `key` rises with the result's magnitude. -/
def Fmt.faithful (t : Fmt) (fn : Faithful) (code : Nat) (ftz neg : Bool) (x : Mag) (key : Int) : Nat × FlagSet :=
  let free := x.e + bitLength x.m - (t.frac + 1 : Nat)
  let q := if free < t.grid then t.grid else free
  let (n, inexact) := x.roundAt .rtz neg q
  if t.exceeds n q then (t.inf neg, flagsOf [.ovf, .nx])
  else
    let near := t.encode neg n q
    if !inexact then (near, 0)
    else
      let r := if Config.faithfulThreshold fn code near ≤ key then near + 1 else near
      if r = t.inf neg then (r, flagsOf [.ovf, .nx])
      else if r % 2 ^ (t.bits - 1) < 2 ^ t.frac then
        (if ftz && t.bits = 32 then t.sign neg else r, flagsOf [.uf, .nx])
      else (r, Flag.nx.bit)

/-- m × 2^e as an integer, when it is one. -/
def asInteger (neg : Bool) (m : Nat) (e : Int) : Option Int :=
  if 0 ≤ e then some (signedSig neg (m * 2 ^ e.toNat))
  else if m % 2 ^ (-e).toNat = 0 then some (signedSig neg (m / 2 ^ (-e).toNat)) else none

/-- Exponentials beyond every format: overflow to infinity, or underflow below half the least subnormal. -/
def Fmt.expRange (t : Fmt) (fn : Faithful) (code : Nat) (ftz neg : Bool) (m : Nat) (e : Int) (key : Int)
    (mag : Int → Mag) : Nat × FlagSet :=
  if 10 < (bitLength m : Int) + e then
    if neg then t.faithful fn code ftz false { m := 1, e := -1024, sticky := true } key else (t.inf false, flagsOf [.ovf, .nx])
  else t.faithful fn code ftz false (mag (toFix neg m e)) key

/-- VEXP2 and VEXP of an operand (R195, Table 7.9). -/
def Fmt.expOp (t : Fmt) (fn : Faithful) (code : Nat) (ftz : Bool) (bits : Nat) : Nat × FlagSet :=
  match t.operand ftz bits with
  | .nan => t.nanWith 0
  | .inf s => (if s then 0 else t.inf false, 0)
  | .fin s m e =>
    let key := orderKey t bits
    if m = 0 then (t.encode false (2 ^ t.frac) (-(t.frac : Int)), 0)
    else if fn = .exp2 then
      match asInteger s m e with
      | some k =>
        if t.grid ≤ k && k < 1024 then t.round .rne ftz false { m := 1, e := k, sticky := false }
        else t.expRange fn code ftz s m e key exp2Mag
      | none => t.expRange fn code ftz s m e key exp2Mag
    else t.expRange fn code ftz s m e key expMag

/-- VLOG2 and VLOG of an operand (R195, Table 7.9). -/
def Fmt.logOp (t : Fmt) (fn : Faithful) (code : Nat) (ftz : Bool) (bits : Nat) : Nat × FlagSet :=
  match t.operand ftz bits with
  | .nan => t.nanWith 0
  | .inf s => if s then t.nanWith Flag.nv.bit else (t.inf false, 0)
  | .fin s m e =>
    if m = 0 then (t.inf true, Flag.dz.bit)
    else if s then t.nanWith Flag.nv.bit
    else
      let k : Int := e + m.log2
      if m = 2 ^ m.log2 && (fn = .log2 || k = 0) then
        t.roundInt .rne ftz false (if fn = .log2 then k else 0) 0
      else
        let (neg, x) := ofSignedFix (if fn = .log2 then log2Fix m e else lnFix m e)
        t.faithful fn code ftz neg x (signedSig neg (bits % 2 ^ (t.bits - 1)))

/-- VTANH of an operand (R231). -/
def Fmt.tanhOp (t : Fmt) (code : Nat) (ftz : Bool) (bits : Nat) : Nat × FlagSet :=
  match t.operand ftz bits with
  | .nan => t.nanWith 0
  | .inf s => (t.encode s (2 ^ t.frac) (-(t.frac : Int)), 0)
  | .fin s m e =>
    if m = 0 then (t.sign s, 0)
    else
      -- the threshold is that of the magnitude, so the function is odd
      let r := t.faithful .tanh code ftz false (tanhMag m e) (bits % 2 ^ (t.bits - 1) : Nat)
      (t.sign s + r.1, r.2)

/-- VFRSQ of an operand (R229, Table 9.5). -/
def Fmt.rsqrtOp (t : Fmt) (code : Nat) (ftz : Bool) (bits : Nat) : Nat × FlagSet :=
  match t.operand ftz bits with
  | .nan => t.nanWith 0
  | .inf s => if s then t.nanWith Flag.nv.bit else (t.sign false, 0)
  | .fin s m e =>
    if m = 0 then (t.inf s, Flag.dz.bit)
    else if s then t.nanWith Flag.nv.bit
    else t.faithful .rsqrt code ftz false (rsqrtMag m e) (-(bits % 2 ^ (t.bits - 1) : Nat))

end Sys2Proof.Machine
end

