-- ==== Sys2Proof/Machine/VectorInt.lean ====
section
/-! DEFINITION. Integer vector arithmetic and moves: MAJ 0x10 (Table 9.1) and 0x11 (R223). -/

namespace Sys2Proof.Machine

/-- `Rd(v, i)` of an integer type (R216): element bits with the signedness of ET. -/
def readInt (t : ElemType) (x : Nat) : Int := if t.isSigned then signExt x t.bits else (x % 2 ^ t.bits : Nat)

/-- An exact result at width `w`: wrapped, or saturated with the signedness of ET (R218). -/
def writeInt (signed sat : Bool) (w : Nat) (x : Int) : Nat × FlagSet :=
  if sat then if signed then satI x w else satN x w else (wrapI x w, 0)

/-- The group an operand of the instruction's own size forms (R109). -/
def groupR (f : RFields) (r : RegIdx) (w : Nat) : Group := { first := r, size := groupSize f.gm, width := w }

/-- The groups of D, A and B at the instruction's width. -/
def groupsD (f : RFields) : List Group := [groupR f f.d f.et.bits]
def groupsDA (f : RFields) : List Group := [groupR f f.d f.et.bits, groupR f f.a f.et.bits]
def groupsDAB (f : RFields) : List Group := [groupR f f.d f.et.bits, groupR f f.a f.et.bits, groupR f f.b f.et.bits]
def groupsAB (f : RFields) : List Group := [groupR f f.a f.et.bits, groupR f f.b f.et.bits]

/-- Element-wise writing of bits and flags (R216, R186). -/
def elementWrite (f : RFields) (h : Hart) (stopAt : Option Nat) (op : Nat → Nat × FlagSet) : Eff Hart :=
  elementLoop (govR f) h stopAt fun i r =>
    let x := op i
    (r.writeElem f.d f.et.bits i x.1).raise x.2

/-- An integer operation on the values of A and B (Table 9.1). -/
def intBinary (f : RFields) (op : Int → Int → Int) (h : Hart) (stopAt : Option Nat) : Eff Hart :=
  elementWrite f h stopAt fun i =>
    writeInt f.et.isSigned f.sat f.et.bits
      (op (readInt f.et (h.readElem f.a f.et.bits i)) (readInt f.et (h.readElem f.b f.et.bits i)))

/-- An integer operation on the values of A and the scalar sB. -/
def intScalar (f : RFields) (op : Int → Int → Int) (h : Hart) (stopAt : Option Nat) : Eff Hart :=
  elementWrite f h stopAt fun i =>
    writeInt f.et.isSigned f.sat f.et.bits
      (op (readInt f.et (h.readElem f.a f.et.bits i)) (readInt f.et ((h.sreg f.b).toNat % 2 ^ f.et.bits)))

/-- An integer operation on the values of A. -/
def intUnary (f : RFields) (op : Int → Int) (h : Hart) (stopAt : Option Nat) : Eff Hart :=
  elementWrite f h stopAt fun i =>
    writeInt f.et.isSigned f.sat f.et.bits (op (readInt f.et (h.readElem f.a f.et.bits i)))

/-- An operation on the bits of the elements of A and B at the width of ET. -/
def bitsBinary (f : RFields) (op : Nat → Nat → Nat) (h : Hart) (stopAt : Option Nat) : Eff Hart :=
  elementWrite f h stopAt fun i => (op (h.readElem f.a f.et.bits i) (h.readElem f.b f.et.bits i) % 2 ^ f.et.bits, 0)

/-- The same on the elements of A alone. -/
def bitsUnary (f : RFields) (op : Nat → Nat) (h : Hart) (stopAt : Option Nat) : Eff Hart :=
  elementWrite f h stopAt fun i => (op (h.readElem f.a f.et.bits i) % 2 ^ f.et.bits, 0)

/-- The shift count: the low log2(w) bits of b (R218). -/
def shiftCount (w b : Nat) : Nat := b % w

/-- VADD (R218). -/
def execVadd (f : RFields) (s : State) : Host.Outcome State Fault Refusal :=
  performVector (.vadd f) s f (groupsDAB f) false (intBinary f (· + ·))
/-- VSUB (R218). -/
def execVsub (f : RFields) (s : State) : Host.Outcome State Fault Refusal :=
  performVector (.vsub f) s f (groupsDAB f) false (intBinary f (· - ·))
/-- VMUL (R218). -/
def execVmul (f : RFields) (s : State) : Host.Outcome State Fault Refusal :=
  performVector (.vmul f) s f (groupsDAB f) false (intBinary f (· * ·))
/-- VMULH (R218): the product shifted right by w. -/
def execVmulh (f : RFields) (s : State) : Host.Outcome State Fault Refusal :=
  performVector (.vmulh f) s f (groupsDAB f) false (intBinary f fun a b => a * b / 2 ^ f.et.bits)

/-- VMAC reads D as its third source (R218). -/
def macElements (f : RFields) (h : Hart) (stopAt : Option Nat) : Eff Hart :=
  elementWrite f h stopAt fun i =>
    writeInt f.et.isSigned f.sat f.et.bits
      (readInt f.et (h.readElem f.d f.et.bits i) +
        readInt f.et (h.readElem f.a f.et.bits i) * readInt f.et (h.readElem f.b f.et.bits i))
/-- VMAC (R218). -/
def execVmac (f : RFields) (s : State) : Host.Outcome State Fault Refusal :=
  performVector (.vmac f) s f (groupsDAB f) false (macElements f)

/-- The destination group of a widening instruction: twice the size at twice the width (R219). -/
def wideGroup (f : RFields) : Group := { first := f.d, size := 2 * groupSize f.gm, width := 2 * f.et.bits }

/-- GM = 11, or the destination overlaps a source (R219). -/
def wideConflict (f : RFields) : Bool :=
  f.gm == 3 || (wideGroup f).overlaps (groupR f f.a f.et.bits) || (wideGroup f).overlaps (groupR f f.b f.et.bits)

/-- Element i of a widening operation: a × b, plus element i of D at 2w when accumulating (R219). -/
def wideElements (f : RFields) (accumulate : Bool) (h : Hart) (stopAt : Option Nat) : Eff Hart :=
  let w2 := 2 * f.et.bits
  elementLoop (govR f) h stopAt fun i r =>
    let p := readInt f.et (h.readElem f.a f.et.bits i) * readInt f.et (h.readElem f.b f.et.bits i)
    let d := h.readElem f.d w2 i
    let d : Int := if f.et.isSigned then signExt d w2 else d
    let x := writeInt f.et.isSigned f.sat w2 (if accumulate then d + p else p)
    (r.writeElem f.d w2 i x.1).raise x.2

/-- VWMAC (R219). -/
def execVwmac (f : RFields) (s : State) : Host.Outcome State Fault Refusal :=
  performVector (.vwmac f) s f (wideGroup f :: groupsAB f) (wideConflict f) (wideElements f true)
/-- VWMUL (R219). -/
def execVwmul (f : RFields) (s : State) : Host.Outcome State Fault Refusal :=
  performVector (.vwmul f) s f (wideGroup f :: groupsAB f) (wideConflict f) (wideElements f false)
/-- VADDS (R218). -/
def execVadds (f : RFields) (s : State) : Host.Outcome State Fault Refusal :=
  performVector (.vadds f) s f (groupsDA f) false (intScalar f (· + ·))
/-- VSUBS (R218). -/
def execVsubs (f : RFields) (s : State) : Host.Outcome State Fault Refusal :=
  performVector (.vsubs f) s f (groupsDA f) false (intScalar f (· - ·))
/-- VMIN (R218). -/
def execVmin (f : RFields) (s : State) : Host.Outcome State Fault Refusal :=
  performVector (.vmin f) s f (groupsDAB f) false (intBinary f fun a b => if a ≤ b then a else b)
/-- VMAX (R218). -/
def execVmax (f : RFields) (s : State) : Host.Outcome State Fault Refusal :=
  performVector (.vmax f) s f (groupsDAB f) false (intBinary f fun a b => if a ≤ b then b else a)
/-- VABS (R218). -/
def execVabs (f : RFields) (s : State) : Host.Outcome State Fault Refusal :=
  performVector (.vabs f) s f (groupsDA f) false (intUnary f fun a => a.natAbs)
/-- VNEG (R218). -/
def execVneg (f : RFields) (s : State) : Host.Outcome State Fault Refusal :=
  performVector (.vneg f) s f (groupsDA f) false (intUnary f fun a => -a)
/-- VAND (R218). -/
def execVand (f : RFields) (s : State) : Host.Outcome State Fault Refusal :=
  performVector (.vand f) s f (groupsDAB f) false (bitsBinary f fun a b => a &&& b)
/-- VOR (R218). -/
def execVor (f : RFields) (s : State) : Host.Outcome State Fault Refusal :=
  performVector (.vor f) s f (groupsDAB f) false (bitsBinary f fun a b => a ||| b)
/-- VXOR (R218). -/
def execVxor (f : RFields) (s : State) : Host.Outcome State Fault Refusal :=
  performVector (.vxor f) s f (groupsDAB f) false (bitsBinary f fun a b => a ^^^ b)
/-- VSLL (R218). -/
def execVsll (f : RFields) (s : State) : Host.Outcome State Fault Refusal :=
  performVector (.vsll f) s f (groupsDAB f) false (bitsBinary f fun a b => a * 2 ^ shiftCount f.et.bits b)
/-- VSRL (R218). -/
def execVsrl (f : RFields) (s : State) : Host.Outcome State Fault Refusal :=
  performVector (.vsrl f) s f (groupsDAB f) false (bitsBinary f fun a b => a / 2 ^ shiftCount f.et.bits b)
/-- VSRA (R218): the element read as signed whatever ET. -/
def execVsra (f : RFields) (s : State) : Host.Outcome State Fault Refusal :=
  performVector (.vsra f) s f (groupsDAB f) false
    (bitsBinary f fun a b => wrapI (signExt a f.et.bits / 2 ^ shiftCount f.et.bits b) f.et.bits)
/-- VCLZ (R218). -/
def execVclz (f : RFields) (s : State) : Host.Outcome State Fault Refusal :=
  performVector (.vclz f) s f (groupsDA f) false (bitsUnary f fun a => leadingZeros a f.et.bits)
/-- VPOPC (R218). -/
def execVpopc (f : RFields) (s : State) : Host.Outcome State Fault Refusal :=
  performVector (.vpopc f) s f (groupsDA f) false (bitsUnary f fun a => popCount a f.et.bits)

/-- VSEL writes every element from VSTART below VL, choosing by the mask bit (R220). -/
def selectElements (f : RFields) (h : Hart) (stopAt : Option Nat) : Eff Hart :=
  elementLoop Governing.off h stopAt fun i r =>
    let pick := if h.maskBit f.mr.toNat i != f.aux4 then f.a else f.b
    r.writeElem f.d f.et.bits i (h.readElem pick f.et.bits i)
/-- VSEL (R220). -/
def execVsel (f : RFields) (s : State) : Host.Outcome State Fault Refusal :=
  performVector (.vsel f) s f (groupsDAB f) false (selectElements f)
/-- VMV (R221). -/
def execVmv (f : RFields) (s : State) : Host.Outcome State Fault Refusal :=
  performVector (.vmv f) s f (groupsDA f) false (bitsUnary f fun a => a)
/-- VBCAST (R221). -/
def execVbcast (f : RFields) (s : State) : Host.Outcome State Fault Refusal :=
  performVector (.vbcast f) s f (groupsD f) false fun h stopAt =>
    elementWrite f h stopAt fun _ => ((h.sreg f.a).toNat % 2 ^ f.et.bits, 0)
/-- VID (R221). -/
def execVid (f : RFields) (s : State) : Host.Outcome State Fault Refusal :=
  performVector (.vid f) s f (groupsD f) false fun h stopAt =>
    elementWrite f h stopAt fun i => (i % 2 ^ f.et.bits, 0)

/-- The condition of AUX for an order −1, 0 or 1 (R222). -/
def orderHolds (aux : Nat) (o : Int) : Bool :=
  match aux with
  | 0 => o = 0 | 1 => o ≠ 0 | 2 => o < 0 | 3 => o ≤ 0 | 4 => 0 < o | _ => 0 ≤ o

/-- The order of two integers. -/
def orderInt (a b : Int) : Int := if a < b then -1 else if a = b then 0 else 1

/-- A compare writes bit i of a mask register for each active i (R222). -/
def compareElements (f : RFields) (cond : Hart → Nat → Bool) (h : Hart) (stopAt : Option Nat) : Eff Hart :=
  elementLoop (govR f) h stopAt fun i r => r.setMaskBit f.d.toNat i (cond h i)

/-- VCMP (R222). -/
def execVcmp (f : RFields) (s : State) : Host.Outcome State Fault Refusal :=
  performVector (.vcmp f) s f (groupsAB f) false (compareElements f fun h i =>
    orderHolds f.aux.toNat
      (orderInt (readInt f.et (h.readElem f.a f.et.bits i)) (readInt f.et (h.readElem f.b f.et.bits i))))

/-- Quotient, remainder and flags of one element (R223). -/
def divideElement (t : ElemType) (a b : Nat) : Nat × Nat × FlagSet :=
  let x := readInt t a
  let y := readInt t b
  if y = 0 then (2 ^ t.bits - 1, a, Flag.dz.bit)
  else if t.isSigned && x = -(2 ^ (t.bits - 1)) && y = -1 then (a, 0, Flag.ovf.bit)
  else (wrapI (x.tdiv y) t.bits, wrapI (x.tmod y) t.bits, 0)

/-- VDIV (R223). -/
def execVdiv (f : RFields) (s : State) : Host.Outcome State Fault Refusal :=
  performVector (.vdiv f) s f (groupsDAB f) false fun h stopAt =>
    elementWrite f h stopAt fun i =>
      let q := divideElement f.et (h.readElem f.a f.et.bits i) (h.readElem f.b f.et.bits i)
      (q.1, q.2.2)
/-- VREM (R223). -/
def execVrem (f : RFields) (s : State) : Host.Outcome State Fault Refusal :=
  performVector (.vrem f) s f (groupsDAB f) false fun h stopAt =>
    elementWrite f h stopAt fun i =>
      let q := divideElement f.et (h.readElem f.a f.et.bits i) (h.readElem f.b f.et.bits i)
      (q.2.1, q.2.2)

end Sys2Proof.Machine
end

