-- ==== Sys2Proof/Machine/VectorFloat.lean ====
section
/-! DEFINITION. Floating vector arithmetic, special functions and conversions: MAJ 0x12 (Table 9.2), 0x13 (Table 9.4) and
0x14 (R232 to R236). -/

namespace Sys2Proof.Machine

/-- An operand of floating arithmetic at the instruction's type (R178). -/
def readFloat (f : RFields) (h : Hart) (r : RegIdx) (i : Nat) : Fp :=
  (fmtOf f.et).operand h.ftz (h.readElem r f.et.bits i)

/-- Element-wise rounding: each active element takes its mode, with its draw (R182), then its result and flags. -/
def floatElements (f : RFields) (op : Hart → Mode → Nat → Nat × FlagSet) (h : Hart) (stopAt : Option Nat) : Eff Hart :=
  elementLoop (govR f) h stopAt fun i r =>
    let (mode, r) := r.roundMode f.rm
    let x := op h mode i
    (r.writeElem f.d f.et.bits i x.1).raise x.2

/-- A rounded operation on the values of A and B. -/
def floatBinary (f : RFields) (op : Fmt → Mode → Bool → Fp → Fp → Nat × FlagSet) (h : Hart) (stopAt : Option Nat) :
    Eff Hart :=
  floatElements f (fun h mode i => op (fmtOf f.et) mode h.ftz (readFloat f h f.a i) (readFloat f h f.b i)) h stopAt

/-- A rounded operation on the values of A. -/
def floatUnary (f : RFields) (op : Fmt → Mode → Bool → Fp → Nat × FlagSet) (h : Hart) (stopAt : Option Nat) : Eff Hart :=
  floatElements f (fun h mode i => op (fmtOf f.et) mode h.ftz (readFloat f h f.a i)) h stopAt

/-- A fused operation on the values of A, B and C. -/
def floatFused (f : RFields) (op : Fmt → Mode → Bool → Fp → Fp → Fp → Nat × FlagSet) (h : Hart) (stopAt : Option Nat) :
    Eff Hart :=
  floatElements f (fun h mode i =>
    op (fmtOf f.et) mode h.ftz (readFloat f h f.a i) (readFloat f h f.b i) (readFloat f h f.c i)) h stopAt

/-- The groups of D, A, B and C. -/
def groupsDABC (f : RFields) : List Group := groupsDAB f ++ [groupR f f.c f.et.bits]

/-- VFADD (R225). -/
def execVfadd (f : RFields) (s : State) : Host.Outcome State Fault Refusal :=
  performVector (.vfadd f) s f (groupsDAB f) false (floatBinary f Fmt.add)
/-- VFSUB (R225). -/
def execVfsub (f : RFields) (s : State) : Host.Outcome State Fault Refusal :=
  performVector (.vfsub f) s f (groupsDAB f) false (floatBinary f fun t m z a b => t.add m z a b.neg)
/-- VFMUL (R225). -/
def execVfmul (f : RFields) (s : State) : Host.Outcome State Fault Refusal :=
  performVector (.vfmul f) s f (groupsDAB f) false (floatBinary f Fmt.mul)
/-- VFMA (R225). -/
def execVfma (f : RFields) (s : State) : Host.Outcome State Fault Refusal :=
  performVector (.vfma f) s f (groupsDABC f) false (floatFused f Fmt.fma)
/-- VFMS (R225): a × b − c. -/
def execVfms (f : RFields) (s : State) : Host.Outcome State Fault Refusal :=
  performVector (.vfms f) s f (groupsDABC f) false (floatFused f fun t m z a b c => t.fma m z a b c.neg)
/-- VFNMA (R225): c − a × b. -/
def execVfnma (f : RFields) (s : State) : Host.Outcome State Fault Refusal :=
  performVector (.vfnma f) s f (groupsDABC f) false (floatFused f fun t m z a b c => t.fma m z a.neg b c)

/-- The value's own bits in a format that holds it; a NaN is canonical. -/
def Fmt.exact (t : Fmt) (x : Fp) : Nat := (t.ofFp .rne false x).1

/-- The lesser or greater of two numbers, with −0 below +0; a single NaN is passed over (R226). -/
def Fmt.minMax (t : Fmt) (greater : Bool) (a b : Fp) : Nat :=
  match a, b with
  | .nan, .nan => t.nan
  | .nan, y => t.exact y
  | x, .nan => t.exact x
  | x, y =>
    match x.cmp y with
    | some o =>
      let xLess := o < 0 || (o = 0 && x.isNeg && !y.isNeg)
      t.exact (if xLess != greater then x else y)
    | none => t.nan

/-- VFMIN and VFMAX round nothing and set no flag (R226). -/
def minMaxElements (f : RFields) (greater : Bool) (h : Hart) (stopAt : Option Nat) : Eff Hart :=
  elementWrite f h stopAt fun i => ((fmtOf f.et).minMax greater (readFloat f h f.a i) (readFloat f h f.b i), 0)

/-- VFMIN (R226). -/
def execVfmin (f : RFields) (s : State) : Host.Outcome State Fault Refusal :=
  performVector (.vfmin f) s f (groupsDAB f) false (minMaxElements f false)
/-- VFMAX (R226). -/
def execVfmax (f : RFields) (s : State) : Host.Outcome State Fault Refusal :=
  performVector (.vfmax f) s f (groupsDAB f) false (minMaxElements f true)

/-- The conditions of Table 9.3 on an order; none when either operand is a NaN. -/
def floatHolds (aux : Nat) (o : Option Int) : Bool :=
  match o with
  | none => aux = 1 || aux = 6
  | some x => if aux < 6 then orderHolds aux x else aux = 7

/-- VFCMP (R227). -/
def execVfcmp (f : RFields) (s : State) : Host.Outcome State Fault Refusal :=
  performVector (.vfcmp f) s f (groupsAB f) false (compareElements f fun h i =>
    floatHolds f.aux.toNat ((readFloat f h f.a i).cmp (readFloat f h f.b i)))

/-- The class bit of a number as stored (R228). -/
def Fmt.classOf (t : Fmt) (x : Nat) : Nat :=
  match t.decode x with
  | .nan => 256
  | .inf s => if s then 1 else 128
  | .fin s m _ =>
    if m = 0 then if s then 8 else 16
    else if m < 2 ^ t.frac then if s then 4 else 32
    else if s then 2 else 64

/-- VFCLASS (R228). -/
def execVfclass (f : RFields) (s : State) : Host.Outcome State Fault Refusal :=
  performVector (.vfclass f) s f (groupsDA f) false (bitsUnary f (fmtOf f.et).classOf)

/-- VFABS and VFNEG change the sign bit of what is no NaN (R225). -/
def Fmt.withSign (t : Fmt) (x : Nat) (sign : Bool) : Nat :=
  if t.decode x = .nan then t.nan else x % 2 ^ (t.bits - 1) + t.sign sign

/-- VFABS (R225). -/
def execVfabs (f : RFields) (s : State) : Host.Outcome State Fault Refusal :=
  performVector (.vfabs f) s f (groupsDA f) false (bitsUnary f fun x => (fmtOf f.et).withSign x false)
/-- VFNEG (R225). -/
def execVfneg (f : RFields) (s : State) : Host.Outcome State Fault Refusal :=
  performVector (.vfneg f) s f (groupsDA f) false
    (bitsUnary f fun x => (fmtOf f.et).withSign x (!bitOf x (f.et.bits - 1)))

/-! ### Special functions -/

/-- VFDIV (R229, R230). -/
def execVfdiv (f : RFields) (s : State) : Host.Outcome State Fault Refusal :=
  performVector (.vfdiv f) s f (groupsDAB f) false (floatBinary f Fmt.div)
/-- VFSQRT (R229, R230). -/
def execVfsqrt (f : RFields) (s : State) : Host.Outcome State Fault Refusal :=
  performVector (.vfsqrt f) s f (groupsDA f) false (floatUnary f Fmt.sqrt)
/-- VFRCP (R229, R230): 1 / a. -/
def execVfrcp (f : RFields) (s : State) : Host.Outcome State Fault Refusal :=
  performVector (.vfrcp f) s f (groupsDA f) false (floatUnary f fun t m z a => t.div m z (.fin false 1 0) a)

/-- A faithful function of the elements of A (Table 9.4). -/
def faithfulElements (f : RFields) (op : Fmt → Nat → Bool → Nat → Nat × FlagSet) (h : Hart) (stopAt : Option Nat) :
    Eff Hart :=
  elementWrite f h stopAt fun i => op (fmtOf f.et) f.et.code h.ftz (h.readElem f.a f.et.bits i)

/-- VFRSQ (R229, R230). -/
def execVfrsq (f : RFields) (s : State) : Host.Outcome State Fault Refusal :=
  performVector (.vfrsq f) s f (groupsDA f) false (faithfulElements f Fmt.rsqrtOp)
/-- VEXP2 (R229, R195). -/
def execVexp2 (f : RFields) (s : State) : Host.Outcome State Fault Refusal :=
  performVector (.vexp2 f) s f (groupsDA f) false (faithfulElements f fun t => t.expOp .exp2)
/-- VLOG2 (R229, R195). -/
def execVlog2 (f : RFields) (s : State) : Host.Outcome State Fault Refusal :=
  performVector (.vlog2 f) s f (groupsDA f) false (faithfulElements f fun t => t.logOp .log2)
/-- VEXP (R229, R195). -/
def execVexp (f : RFields) (s : State) : Host.Outcome State Fault Refusal :=
  performVector (.vexp f) s f (groupsDA f) false (faithfulElements f fun t => t.expOp .exp)
/-- VLOG (R229, R195). -/
def execVlog (f : RFields) (s : State) : Host.Outcome State Fault Refusal :=
  performVector (.vlog f) s f (groupsDA f) false (faithfulElements f fun t => t.logOp .ln)
/-- VTANH (R231). -/
def execVtanh (f : RFields) (s : State) : Host.Outcome State Fault Refusal :=
  performVector (.vtanh f) s f (groupsDA f) false (faithfulElements f Fmt.tanhOp)

/-! ### Conversion -/

/-- Significant bits of the values of an integer type. -/
def intBits (t : ElemType) : Nat := if t.isSigned then t.bits - 1 else t.bits

/-- Whether the destination holds every value of the source, so that a conversion does not round (R232). -/
def holdsAll (src dst : ElemType) : Bool :=
  if dst.isInteger then src.isInteger
  else
    let t := fmtOf dst
    if src.isInteger then intBits src ≤ t.frac + 1 && !t.exceeds 1 (intBits src)
    else
      let u := fmtOf src
      u.frac ≤ t.frac && t.grid ≤ u.grid && !t.exceeds u.maxSig u.maxExp && (!u.infs || t.infs)

/-- A floating value rounded to an integer type (R233): a NaN gives 0 with NV, an integer out of range its bound with NV. -/
def floatToInt (dst : ElemType) (mode : Mode) : Fp → Nat × FlagSet
  | .nan => (0, Flag.nv.bit)
  | .inf s => ((writeInt dst.isSigned true dst.bits (if s then -(2 ^ 64) else 2 ^ 64)).1, Flag.nv.bit)
  | .fin s m e =>
    let (n, inexact) := Mag.roundAt { m := m, e := e, sticky := false } mode s 0
    let r := writeInt dst.isSigned true dst.bits (signedSig s n)
    if r.2 ≠ 0 then (r.1, Flag.nv.bit) else (r.1, flagIf inexact .nx)

/-- An infinity converted to FP8 (R180): kept in E5M2, ±448 with QSAT and NX in E4M3. -/
def Fmt.ofSource (t : Fmt) (mode : Mode) (ftz : Bool) : Fp → Nat × FlagSet
  | .inf s => if t.infs then (t.inf s, 0) else (t.largest s, flagsOf [.qsat, .nx])
  | x => t.ofFp mode ftz x

/-- One element of VCVT (R232, R233). -/
def convert (src dst : ElemType) (sat ftz : Bool) (mode : Mode) (x : Nat) : Nat × FlagSet :=
  if src.isInteger then
    let v := readInt src x
    if dst.isInteger then writeInt dst.isSigned sat dst.bits v
    else (fmtOf dst).roundInt mode ftz false v 0
  else
    let t := fmtOf src
    let v := t.operand ftz x
    if dst.isInteger then floatToInt dst mode v
    else if src = dst then
      match v with
      | .nan => (t.nan, 0)
      | .fin s m _ => (if m = 0 then t.sign s else x, 0)
      | .inf _ => (x, 0)
    else (fmtOf dst).ofSource mode ftz v

/-- VCVT's source type (R232). -/
def cvtSource (f : RFields) : ElemType := ElemType.ofCode f.aux.toNat

/-- The elements of VCVT; a conversion that cannot round takes no draw (R232). -/
def convertElements (f : RFields) (h : Hart) (stopAt : Option Nat) : Eff Hart :=
  let src := cvtSource f
  elementLoop (govR f) h stopAt fun i r =>
    let (mode, r) := if holdsAll src f.et then (.rne, r) else r.roundMode f.rm
    let x := convert src f.et f.sat h.ftz mode (h.readElem f.a src.bits i)
    (r.writeElem f.d f.et.bits i x.1).raise x.2

/-- VCVT (R232). -/
def execVcvt (f : RFields) (s : State) : Host.Outcome State Fault Refusal :=
  let a := groupR f f.a (cvtSource f).bits
  let d := groupR f f.d f.et.bits
  performVector (.vcvt f) s f [d, a] (d.width != a.width && d.overlaps a) (convertElements f)

/-! ### Quantisation -/

/-- The scale register and header of block `b` counted from e(C) (R234). -/
def headerOf (h : Hart) (c b : Nat) : Nat := h.header (c + b / 64) (b % 64)

/-- The last scale register a strip of VL elements needs lies above e7 (R234). -/
def scaleRange (h : Hart) (c : Nat) : Bool := h.vstart < h.vl && 7 < c + ((h.vl + 31) / 32 - 1) / 64

/-- The power-of-two scale of a header's S: bits 11:4 less 127 (R193, R235). -/
def blockScaleExp (s : Nat) : Int := (s / 16 : Nat) - 127

/-- A finite value times 2^k. -/
def Fp.scaleBy (k : Int) : Fp → Fp
  | .fin s m e => .fin s m (e + k)
  | x => x

/-- Whether 2^(c − 127) × M is at least amax = m × 2^e, for the largest FP8 value M (R235). -/
def fp8Reaches (t : Fmt) (m : Nat) (e : Int) (c : Nat) : Bool := cmpDyadic false m e false t.maxSig (t.maxExp + c - 127) ≤ 0

/-- The greatest finite magnitude among values, as significand and exponent on the subnormal grid of binary32. -/
def maxFinite (xs : List Fp) : Nat :=
  xs.foldl (fun m x => match x with | .fin _ k e => Nat.max m (k * 2 ^ (e - fmtF32.grid).toNat) | _ => m) 0

/-- The codes and header of an FP8 block and the flags it raises, each input with its rounding mode (R235). A block with infinities and
no finite magnitude but zero has the largest binary32 as amax, as R191 gives for a K4 block (log 130, DESIGN CHOICE). -/
def fp8Encode (t : Fmt) (xs : List (Fp × Mode)) : List Nat × Nat × FlagSet :=
  let vals := xs.map Prod.fst
  if vals.any (· == .nan) then (xs.map fun _ => t.nan, 0xFFF0, Flag.nv.bit)
  else
    let infinite := vals.any fun x => match x with | .inf _ => true | _ => false
    let amax := maxFinite vals
    if amax = 0 && !infinite then (xs.map fun _ => 0, 0, 0)
    else
      let (m, e) := if amax = 0 then (fmtF32.maxSig, fmtF32.maxExp) else (amax, fmtF32.grid)
      let high := !fp8Reaches t m e 255
      let c := if high then 255 else leastCode (fp8Reaches t m e) 8 0 255
      let low := c = 0
      let c := if low then 1 else c
      let code (x : Fp × Mode) : Nat × FlagSet := match x.1 with
        | .inf s => (t.largest s, Flag.qsat.bit)
        | v => t.ofFp x.2 false (v.scaleBy (127 - c))
      let rs := xs.map code
      (rs.map Prod.fst, c * 256, rs.foldl (fun a r => a ||| r.2) (flagIf high .qsat ||| flagIf low .qufl))

/-- The members of block `b`: elements of the strip that the mask lets in, VSTART apart (R234). -/
def blockMembers (h : Hart) (g : Governing) (b : Nat) : List Nat :=
  (List.range 32).map (32 * b + ·) |>.filter fun i => i < h.vl && (!g.masked || (h.maskBit g.reg i != g.inverted))

/-- The modes of a block's inputs, each with its draw in increasing index (R234). -/
def takeModes (rm : RoundMode) : List Nat → Hart → List Mode × Hart
  | [], r => ([], r)
  | _ :: is, r =>
    let (m, r) := r.roundMode rm
    let (ms, r) := takeModes rm is r
    (m :: ms, r)

/-- Encodes block `b`: its header, and the codes of its members from VSTART on (R234). -/
def quantBlock (f : RFields) (h : Hart) (b : Nat) (r : Hart) : Hart :=
  let members := blockMembers h (govR f) b
  if members.isEmpty then r
  else
    let vals := members.map fun i => fmtF32.decode (h.readElem f.a 32 i)
    let (out, r) : (List Nat × Nat × FlagSet) × Hart :=
      if f.et = .k4 then (k4Encode vals, r)
      else
        let (ms, r) := takeModes f.rm members r
        (fp8Encode (fmtOf f.et) (vals.zip ms), r)
    let r := (r.setHeader (f.c.toNat + b / 64) (b % 64) out.2.1).raise out.2.2
    (members.zip out.1).foldl (fun r p => if h.vstart ≤ p.1 then r.writeElem f.d f.et.bits p.1 p.2 else r) r

/-- VQUANT's effect (R234): it stops only at multiples of 32. -/
def quantElements (f : RFields) (h : Hart) (stopAt : Option Nat) : Eff Hart :=
  if scaleRange h f.c.toNat then .stop h .group (encodeWord (.vquant f))
  else
    let cut := h.loopEnd (stopAt.map fun n => n / 32 * 32)
    let hi := if cut < h.vl then cut / 32 else (h.vl + 31) / 32
    let lo := h.vstart / 32
    let r := if h.vl ≤ h.vstart then h else forElems (quantBlock f h) (hi - lo) lo h
    let r := r.countVector h (govR f) cut
    if cut < h.vl then .hold (r.setVstart cut) else .seq (r.setVstart 0)

/-- The value of element `i` of a block-scaled source (R236): zero blocks, NaN blocks, and codes times the scale. -/
def blockValue (t : ElemType) (header code : Nat) : Fp :=
  if t = .k4 then k4Decode header code
  else
    let s := scaleCode header
    if s = 0 then .fin false 0 0
    else if s = 0xFFF then .nan
    else ((fmtOf t).decode code).scaleBy (blockScaleExp s)

/-- VDEQ's effect (R236). -/
def dequantElements (f : RFields) (h : Hart) (stopAt : Option Nat) : Eff Hart :=
  let src := cvtSource f
  if scaleRange h f.c.toNat then .stop h .group (encodeWord (.vdeq f))
  else
    elementLoop (govR f) h stopAt fun i r =>
      let (mode, r) := r.roundMode f.rm
      let v := blockValue src (headerOf h f.c.toNat (i / 32)) (h.readElem f.a src.bits i)
      let x := (fmtOf f.et).ofFp mode h.ftz v
      (r.writeElem f.d f.et.bits i x.1).raise x.2

end Sys2Proof.Machine
end

