-- ==== Sys2Proof/Machine/Access.lean ====
section
/-! DEFINITION. One element of a hart's access to memory: its checks in the order of R272, the access at its target (Table
12.6), and the loop over a vector access's elements (R282). -/

namespace Sys2Proof.Machine

/-- What an element comes to: performed with a value, failed with its trap, or waiting for an answer. -/
inductive Got (α : Type) where
  | ok (s : State) (x : α)
  | fail (s : State) (c : Cause) (tval : Nat)
  | wait (s : State)

/-- Goes on with an element's value. -/
def Got.bind {α β : Type} (g : Got α) (f : State → α → Got β) : Got β :=
  match g with
  | .ok s x => f s x
  | .fail s c t => .fail s c t
  | .wait s => .wait s

/-- An element of an access: its first byte's address, its size, the lane of the grant that makes it, whether it must be
aligned, the cache hint, whether an atomic acquires, and what its translation came to when it was made ahead (R268, R272,
R273, R296). -/
structure Element where
  va : Nat
  size : Nat
  lane : Nat
  aligned : Bool
  hint : Nat
  acquire : Bool := false
  probe : Option Probe := none
  deriving DecidableEq, Repr

/-- Changes the waiting state of the executing hart. -/
def State.onWait (s : State) (f : Waiting → Waiting) : State := s.onCur fun h => { h with wait := f h.wait }

/-- An element has been performed, or has failed: nothing waits but what the access keeps for its other elements. -/
def Waiting.nextElement (w : Waiting) : Waiting :=
  { idleWait with probed := w.probed, first := w.first, value := w.value, short := w.short }

/-- An element has been performed: WSKIP is spent (R276) and nothing waits. -/
def State.elementDone (s : State) : State := (s.onCur Hart.spendSkip).onWait Waiting.nextElement

/-- The L2 slice of a line: its die, and a slice there (R266; log 98, DESIGN CHOICE). -/
def sliceOf (line : Nat) : Nat × Nat := (line * 128 / 2 ^ 37, Config.l2Slice line % 48)

/-- The lines pinned in the slice of `line`, other than it (R269). -/
def State.pinsBeside (s : State) (line : Nat) : List Nat :=
  ((s.launches.flatMap fun p => p.2.pins).filter fun x => x != line && sliceOf x == sliceOf line).eraseDups

/-- A line under hint class 3 is pinned for the launch, unless its slice already pins 1 MiB (R269); a line of a range with NC = 1
has no place in the L2 (R266). -/
def State.pin (s : State) (tag : Word) (p : Place) (hint : Nat) : State :=
  let line := p.addr / 128
  if hint % 4 = 3 && p.addr < hbmTop && p.target == .memory && !p.nc && (s.pinsBeside line).length < 8192 then
    s.onLaunch tag fun l => { l with pins := if l.pins.contains line then l.pins else line :: l.pins }
  else s

/-- The lines of pieces under a hint. -/
def State.pinPieces (s : State) (tag : Word) (ps : List Piece) (hint : Nat) : State :=
  ps.foldl (fun s p =>
    let lines := (p.place.addr + p.size + 127) / 128 - p.place.addr / 128
    forElems (fun j s => s.pin tag { p.place with addr := if j = 0 then p.place.addr else (p.place.addr / 128 + j) * 128 } hint)
      lines 0 s) s

/-- The first checks of R272: watchpoints, then alignment. -/
def Hart.firstChecks (h : Hart) (e : Element) (k : Access) : Option Cause :=
  if h.watchHit e.va e.size k then some .watch
  else if e.aligned && e.va % e.size ≠ 0 then some .misalign
  else none

/-- The pieces of an element after all its checks but the data's (R272). -/
def State.openElement (s : State) (h : Hart) (e : Element) (k : Access) : Got (List Piece) :=
  match h.firstChecks e k with
  | some c => .fail s c e.va
  | none =>
    match e.probe with
    | some (.pieces ps) => .ok s ps
    | some (.failed c va) => .fail s c va
    | none =>
      match s.route (s.hartAgent s.cur h e.lane) e.va e.size k with
      | (s, .error (c, va)) => .fail s c va
      | (s, .ok ps) => .ok s ps

/-- Translates the active elements of the `n` from `i` on ahead of the access, up to the lowest that fails its translation or
the checks before it (R272, R273): with `share` each range is looked up once. -/
def State.probePass (s : State) (h : Hart) (active : Nat → Bool) (elem : Nat → Element) (k : Access) (share : Bool)
    (known : List Descriptor) : Nat → Nat → State × Assoc Probe
  | 0, _ => (s, [])
  | n + 1, i =>
    if !active i then s.probePass h active elem k share known n (i + 1)
    else
      let e := elem i
      if (h.firstChecks e k).isSome then (s, [])
      else
        match s.routeNoting { s.hartAgent s.cur h e.lane with known := known } e.va e.size k with
        | (s, _, .error (c, va)) => (s, [(i, .failed c va)])
        | (s, ds, .ok ps) =>
          let r := s.probePass h.spendSkip active elem k share (if share then ds ++ known else []) n (i + 1)
          (r.1, (i, .pieces ps) :: r.2)

/-- How an access translates (R273): element by element, all of its elements ahead, or each range of its span once. -/
inductive Probing where
  | none | indexed | shared
  deriving DecidableEq, Repr

/-- The translations that a vector access makes ahead of its elements, kept until the instruction ends (R273). -/
def State.probes (s : State) (h : Hart) (g : Governing) (elem : Nat → Element) (k : Access) (m : Probing) :
    State × Assoc Probe :=
  match m, h.wait.probed with
  | .none, _ => (s, [])
  | _, some ps => (s, ps)
  | m, none =>
    let r := s.probePass h (h.active g) elem k (m == .shared) [] (h.vl - h.vstart) h.vstart
    (r.1.onWait fun w => { w with probed := some r.2 }, r.2)

/-- An element with the translation made ahead of it. -/
def Element.under (e : Element) (ps : Assoc Probe) (i : Nat) : Element := { e with probe := Assoc.find ps i }

/-- The first failing word that the pieces in the device's storage meet (R267). -/
def State.badPieces (s : State) (ps : List Piece) : Option Nat :=
  (ps.filter fun p => p.place.target == .memory).findSome? fun p => s.badWord p.place.addr p.size

/-- The pieces lie outside the device. -/
def farPieces (ps : List Piece) : Bool := ps.any fun p => p.place.target != .memory

/-- Turns an issued request into the element's outcome: an answer goes to `k`, a request in flight, or one for which no tag is free,
makes the hart wait. -/
def Got.issued {α : Type} (i : State × Issued) (left : List Piece) (got : List Byte) (k : State → Answer → Got α) : Got α :=
  match i with
  | (s, .answered a) => k s a
  | (s, .sent tag) => .wait (s.onWait fun w => { w with request := some tag, answer := none, left := left, got := got })
  | (s, .full) => .wait (s.onWait fun w => { w with request := none, answer := none, left := left, got := got })

/-! ### Observing the end of a node or a receive (R370, R371) -/

/-- An instruction of the member `wid` observes the end of the deferred writes `key`: they take their place in phase order
here, as the member's own. An atomic among them keeps its place in the single order of its location (R364). -/
def State.observe (s : State) (tag wid : Word) (key : Nat) : State :=
  match (s.launch? tag).bind fun l => (Assoc.find l.deferred key).bind fun d =>
      (Assoc.find l.members wid.toNat).map fun m => (d, m) with
  | none => s
  | some (d, m) =>
    if d.who = wid.toNat && d.rel && d.finished && !d.placed then
      let ws := d.writes.zipIdx.map fun p =>
        { p.1 with seq := if p.1.home then p.1.seq else s.writeSeq + p.2, who := wid.toNat, epoch := m.epoch, clock := m.clock }
      { s.onLaunch tag fun l =>
          { l with writes := l.writes ++ ws, deferred := Assoc.put l.deferred key { d with placed := true } } with
        writeSeq := s.writeSeq + ws.length }
    else s

/-- The nodes of which the harts' status reads are kept are observed (R366, R370). -/
def State.observePolled (s : State) (h : Hart) : State :=
  (h.polled.foldl (fun s k => s.observe h.tag h.wid k) s).onCur fun h => { h with polled := [] }

/-- The stretch of `n` bytes at a place takes in a byte of the status word. -/
def StatusAt.lies (x : StatusAt) (p : Place) (n : Nat) : Bool :=
  x.target == p.target && x.row == p.row && x.col == p.col && overlapping x.addr 8 p.addr n

/-- A read of bytes at a place beyond the device has returned the status word: what has come of it is what the node wrote. -/
def StatusAt.returned (x : StatusAt) (p : Place) (bytes : List Byte) : Bool :=
  x.lies p bytes.length && (bytes.zipIdx.all fun b =>
    p.addr + b.2 < x.addr || x.addr + 8 ≤ p.addr + b.2 || x.bytes[p.addr + b.2 - x.addr]? == some b.1)

/-- The member's deferred writes whose status word satisfies a condition. -/
def State.statusKeys (s : State) (tag wid : Word) (is : StatusAt → Bool) : List Nat :=
  match s.launch? tag with
  | none => []
  | some l => (l.deferred.filter fun p => p.2.who == wid.toNat && p.2.status.any is).map Prod.fst

/-- An acquire read of a place in the device observes the nodes whose status word it reads (R370). -/
def State.observePlace (s : State) (h : Hart) (p : Place) (n : Nat) : State :=
  if p.target = .memory then (s.statusKeys h.tag h.wid fun x => x.lies p n).foldl (fun s k => s.observe h.tag h.wid k) s else s

/-- An acquire read beyond the device observes the nodes whose status word it has returned (R370). -/
def State.observeFar (s : State) (h : Hart) (p : Place) (bytes : List Byte) : State :=
  (s.statusKeys h.tag h.wid fun x => x.returned p bytes).foldl (fun s k => s.observe h.tag h.wid k) s

/-- A FENCE with ACQ that follows will observe these nodes (R366, R370). -/
def State.keepPolled (s : State) (keys : List Nat) : State :=
  if keys.isEmpty then s else s.onCur fun h => { h with polled := h.polled ++ keys.filter fun k => !h.polled.contains k }

/-- An atomic read of pieces in the device notes the nodes whose status word it reads. -/
def State.notePolled (s : State) (h : Hart) (ps : List Piece) : State :=
  s.keepPolled (ps.flatMap fun p =>
    if p.place.target = .memory then s.statusKeys h.tag h.wid fun x => x.lies p.place p.size else [])

/-- A plain read notes the nodes whose status word it reads: of a PHASED word it returns the launch's snapshot, which is no read of
what the node wrote (R360, R370). -/
def State.noteRead (s : State) (h : Hart) (ps : List Piece) : State := s.notePolled h (ps.filter fun p => !p.place.phased)

/-- A read of a place beyond the device notes the nodes whose status word it has returned. -/
def State.noteFar (s : State) (h : Hart) (p : Place) (bytes : List Byte) : State :=
  s.keepPolled (s.statusKeys h.tag h.wid fun x => x.returned p bytes)

/-! ### Reads -/

/-- The largest size of a load request up to `n` bytes (Table 14.6). -/
def requestSize (n : Nat) : Nat := if 8 ≤ n then 8 else if 4 ≤ n then 4 else if 2 ≤ n then 2 else 1

/-- A piece in parts that one request reads each (Table 14.6). -/
def splitWord (p : Piece) : Nat → List Piece
  | 0 => []
  | n + 1 =>
    if p.size = 0 then []
    else
      let m := requestSize p.size
      { p with size := m } :: splitWord { place := { p.place with addr := p.place.addr + m }, size := p.size - m } n

/-- The pieces that lie outside the device, in parts that one request reads. -/
def splitWords (ps : List Piece) : List Piece :=
  ps.flatMap fun p => if p.place.target = .memory then [p] else splitWord p (p.size / 8 + 3)

/-- Reads the remaining pieces of an element beyond the device, one request after another. -/
def State.readFar (s : State) (h : Hart) (va : Nat) (got : List Byte) : List Piece → Got (List Byte)
  | [] => .ok s.elementDone got
  | p :: ps =>
    Got.issued (s.issueRead (.hart s.cur) p.place p.size) (p :: ps) got fun s a =>
      match a with
      | .failed c => .fail (s.onWait Waiting.nextElement) c va
      | .data v => (s.noteFar h p.place (toBytesLE p.size v)).readFar h va (got ++ toBytesLE p.size v) ps

/-- Goes on with a read whose answer has come. -/
def State.readAnswered (s : State) (h : Hart) (va : Nat) (a : Answer) : Got (List Byte) :=
  match a, h.wait.left with
  | .failed c, _ => .fail (s.onWait Waiting.nextElement) c va
  | .data _, [] => .ok s.elementDone h.wait.got
  | .data v, p :: ps => (s.noteFar h p.place (toBytesLE p.size v)).readFar h va (h.wait.got ++ toBytesLE p.size v) ps

/-- Reads the pieces of an element in the device's storage by the discipline of each (R356). -/
def State.readNear (s : State) (h : Hart) : List Piece → List Byte × State
  | [] => ([], s)
  | p :: ps =>
    let l := s.launchOf h
    let r := match l with | some l => l.reader h.wid.toNat | none => { who := h.wid.toNat, clock := [], upTo := none }
    let (xs, s) := s.readBytes l r p.place p.size
    let (ys, s) := s.readNear h ps
    (xs ++ ys, s)

/-- A plain read of one element (R285, R284). -/
def State.loadElement (s : State) (e : Element) : Got Nat :=
  match s.hart? s.cur with
  | none => .wait s
  | some h =>
    let num (g : Got (List Byte)) : Got Nat := g.bind fun s xs => .ok s (ofBytesLE xs)
    match h.wait.answer, h.wait.request, h.wait.left with
    | some a, _, _ => num (s.readAnswered h e.va a)
    | none, some _, _ => .wait s
    | none, none, p :: ps => num (s.readFar h e.va h.wait.got (p :: ps))
    | none, none, [] =>
      (s.openElement h e .read).bind fun s ps =>
        if farPieces ps then num (s.readFar h e.va [] (splitWords ps))
        else
          match s.badPieces ps with
          | some w => .fail (s.logBad (·.of s.cur h) w) .dataerr e.va
          | none =>
            let (xs, s) := s.readNear h ps
            let s := s.pinPieces h.tag ps e.hint
            .ok (s.noteRead h ps).elementDone (ofBytesLE xs)

/-! ### Writes -/

/-- Writes the remaining pieces of an element beyond the device; `got` holds the bytes already written. -/
def State.writeFar (s : State) (va : Nat) (bytes : List Byte) (nibble : Nat) (got : List Byte) : List Piece → Got Unit
  | [] => .ok s.elementDone ()
  | p :: ps =>
    let here := (bytes.drop got.length).take p.size
    Got.issued (s.issueStore (.hart s.cur) p.place here nibble) (p :: ps) got fun s a =>
      match a with
      | .failed c => .fail (s.onWait Waiting.nextElement) c va
      | .data _ => s.writeFar va bytes nibble (got ++ here) ps

/-- Goes on with a write whose answer has come. -/
def State.writeAnswered (s : State) (va : Nat) (bytes : List Byte) (nibble : Nat) (w : Waiting) (a : Answer) : Got Unit :=
  match a, w.left with
  | .failed c, _ => .fail (s.onWait Waiting.nextElement) c va
  | .data _, [] => .ok s.elementDone ()
  | .data _, p :: ps => s.writeFar va bytes nibble (w.got ++ (bytes.drop w.got.length).take p.size) ps

/-- Writes the pieces of an element in the device's storage (R365). -/
def State.writeNear (s : State) (w : Writer) (width nibble : Nat) : List Piece → List Byte → State
  | [], _ => s
  | p :: ps, bytes =>
    (s.writePlace w p.place (bytes.take p.size) nibble width false).writeNear w width nibble ps (bytes.drop p.size)

/-- A plain write of one element: its bytes, or one nibble of its one byte (R284, R287, R288); of a nibble beyond the device see log 15
(DESIGN CHOICE). -/
def State.storeWith (s : State) (e : Element) (bytes : List Byte) (width nibble : Nat) : Got Unit :=
  match s.hart? s.cur with
  | none => .wait s
  | some h =>
    match h.wait.answer, h.wait.request, h.wait.left with
    | some a, _, _ => s.writeAnswered e.va bytes nibble h.wait a
    | none, some _, _ => .wait s
    | none, none, p :: ps => s.writeFar e.va bytes nibble h.wait.got (p :: ps)
    | none, none, [] =>
      (s.openElement h e .write).bind fun s ps =>
        if farPieces ps then s.writeFar e.va bytes nibble [] (splitBlocks ps)
        else
          let s := s.pinPieces h.tag ps e.hint
          .ok (s.writeNear (h.writer s.cur) width nibble ps bytes).elementDone ()

/-- A plain write of one element (R287, R284). -/
def State.storeElement (s : State) (e : Element) (bytes : List Byte) : Got Unit := s.storeWith e bytes (8 * e.size) 0

/-- A plain write of a 4-bit element: its nibble alone, beyond the device too (R288). (Log 15, DESIGN CHOICE.) -/
def State.storeNibble (s : State) (e : Element) (value nibble : Nat) : Got Unit :=
  s.storeWith e [BitVec.ofNat 8 (value % 16 * 17)] 4 nibble

/-! ### Atomics -/

/-- The value an atomic writes (Table 12.5, R297) over the old one at `n` bytes; none for a compare that fails. -/
def AtomicOp.apply (op : AtomicOp) (n old operand compare : Nat) : Option Nat :=
  let w := 8 * n
  let a := signExt old w
  let b := signExt operand w
  let f := fmtF32
  match op with
  | .add => some ((old + operand) % 2 ^ w)
  | .and => some (old &&& operand)
  | .or => some (old ||| operand)
  | .xor => some (old ^^^ operand)
  | .min => some (if a ≤ b then old else operand)
  | .max => some (if a ≤ b then operand else old)
  | .minn => some (Nat.min old operand)
  | .maxn => some (Nat.max old operand)
  | .xchg => some operand
  | .cas => if old = compare then some operand else none
  | .fadd => some (f.add .rne false (f.decode old) (f.decode operand)).1
  | .fmin => some (f.minMax false (f.decode old) (f.decode operand))
  | .fmax => some (f.minMax true (f.decode old) (f.decode operand))

/-- The WHAT of an atomic's log entry: a device physical address (Table 26.4); of other storage a free value (log 8, DESIGN CHOICE). -/
def State.atomicWhat (s : State) (p : Place) : Word × State :=
  if p.target = .memory && p.addr < hbmTop then (BitVec.ofNat 64 p.addr, s)
  else
    let (x, s) := s.draw
    (BitVec.ofNat 64 x, s)

/-- An atomic of a hart has been performed: its ordinal advances and the log notes it (R475). -/
def State.atomicDone (s : State) (h : Hart) (p : Place) : State :=
  let (what, s) := s.atomicWhat p
  (s.eventDone h.tag
    { type := EventType.atomic.code, bmask := 0, who := h.wid, what := what, data := BitVec.ofNat 64 h.atomics }).onCur
    fun h => { h with atomics := h.atomics + 1 }

/-- Whether a hart's atomic, which nothing traps, has its turn (R476). -/
def State.atomicTurn (s : State) (h : Hart) : State × Bool :=
  s.replayTurn h.tag .atomic h.wid fun row => row.data == BitVec.ofNat 64 h.atomics

/-- Reads the home, applies the operation `new` there and writes its result, indivisibly (R295, R362). -/
def State.atomicNear (s : State) (h : Hart) (p : Place) (n : Nat) (new : Nat → Option Nat) : Nat × State :=
  let old := ofBytesLE (s.homeBytes p n)
  match new old with
  | none => (old, s.markDirty p n)
  | some new => (old, s.writePlace (h.writer s.cur) p (toBytesLE n new) 0 (8 * n) true)

/-- The trap of an atomic before it is issued at its place, its data's errors apart: the host knows only the AtomicOps of PCI
Express (R40), and a peer lies in the grid (R322). -/
def State.atomicTrap (s : State) (p : Place) (op : AtomicOp) (reduce : Bool) : Option Cause :=
  match p.target with
  | .memory => none
  | .host => if reduce || op.host.isNone then some .rperm else none
  | .peer => if s.inGrid p then none else some .peer

/-- An atomic at the host or a peer has been answered with the old value (R299): it is noted, and with acquire, or by a FENCE with ACQ
that follows, the nodes whose status word it has returned are observed (R370). -/
def State.farAtomicDone (s : State) (h : Hart) (e : Element) (p : Place) (v : Nat) : State :=
  let bytes := toBytesLE e.size v
  ((if e.acquire then s.observeFar h p bytes else s.noteFar h p bytes).atomicDone h p).elementDone

/-- Issues an atomic at the host or a peer (Table 12.6). -/
def State.atomicFar (s : State) (h : Hart) (e : Element) (p : Piece) (op : AtomicOp) (operand compare : Nat) : Got Nat :=
  Got.issued (s.issueAtomic (.hart s.cur) p.place e.size op operand compare) [p] [] fun s a =>
    match a with
    | .failed c => .fail (s.onWait Waiting.nextElement) c e.va
    | .data v => .ok (s.farAtomicDone h e p.place v) v

/-- An atomic of one element: the old value (R295, R297); `new` is its effect in the device's storage. Atomics beyond the
device are those of Table 12.6. -/
def State.atomicWith (s : State) (e : Element) (op : AtomicOp) (operand compare : Nat) (reduce : Bool)
    (new : Nat → Option Nat) : Got Nat :=
  match s.hart? s.cur with
  | none => .wait s
  | some h =>
    match h.wait.answer, h.wait.request, h.wait.left with
    | some (.failed c), _, _ => .fail (s.onWait Waiting.nextElement) c e.va
    | some (.data v), _, p :: _ => .ok (s.farAtomicDone h e p.place v) v
    | some (.data v), _, [] => .ok s.elementDone v
    | none, some _, _ => .wait s
    | none, none, p :: _ => s.atomicFar h e p op operand compare
    | none, none, [] =>
      (s.openElement h { e with aligned := true } .atomic).bind fun s ps =>
        match ps with
        | [] => .wait s
        | p :: _ =>
          match s.badPieces ps, s.atomicTrap p.place op reduce with
          | some w, _ => .fail (s.logBad (·.of s.cur h) w) .dataerr e.va
          | none, some c => .fail s c e.va
          | none, none =>
            match s.atomicTurn h with
            | (s, false) => .wait s
            | (s, true) =>
              if p.place.target = .memory then
                let (old, s) := (s.pinPieces h.tag ps e.hint).atomicNear h p.place e.size new
                let s := if e.acquire then s.observePlace h p.place e.size else s.notePolled h ps
                .ok (s.atomicDone h p.place).elementDone old
              else s.atomicFar h e p op operand compare

/-- An atomic of one element by its operation (Table 12.5, R297). -/
def State.atomicElement (s : State) (e : Element) (op : AtomicOp) (operand compare : Nat) : Got Nat :=
  s.atomicWith e op operand compare false fun old => op.apply e.size old operand compare

/-! ### Vector accesses -/

/-- Where a loop over elements ended. -/
inductive LoopEnd where
  | done (s : State)
  | stopped (s : State) (i : Nat) (c : Cause) (tval : Nat)
  | held (s : State) (i : Nat)

/-- `step` on each active element of the `n` from `i` on, in rising order, until one fails or waits (R282). -/
def memLoop (active : Nat → Bool) (step : Nat → State → Got Unit) : Nat → Nat → State → LoopEnd
  | 0, _, s => .done s
  | n + 1, i, s =>
    if active i then
      match step i s with
      | .ok s _ => memLoop active step n (i + 1) s
      | .fail s c t => .stopped s i c t
      | .wait s => .held s i
    else memLoop active step n (i + 1) s

/-- Commits the elements below `i`: they are counted, and VSTART holds `i` (R203). Their micro-operations are those of the bands up to
element `made` (R208). -/
def State.commitTo (s : State) (before : Hart) (g : Governing) (i made : Nat) : State :=
  s.onCur fun h => (h.countBands before g i made).setVstart i

/-- Commits the elements below the one at which an access traps. The spec does not say how many micro-operations it has made: those of
the bands up to that element's (log 120, DESIGN CHOICE). -/
def State.commitStop (s : State) (before : Hart) (g : Governing) (i : Nat) : State := s.commitTo before g i (i + 1)

/-- What a vector access comes to (R282): VSTART is 0 when every element is performed. -/
def LoopEnd.outcome (e : LoopEnd) (before : Hart) (g : Governing) (hi : Nat) : Eff State :=
  match e with
  | .stopped s i c t => .stop (s.commitStop before g i) c (BitVec.ofNat 64 t)
  | .held s i => .hold (s.commitTo before g i i)
  | .done s =>
    if hi < before.vl then .hold (s.commitTo before g hi hi)
    else .seq ((s.commitTo before g before.vl before.vl).onCur fun h => h.setVstart 0)

/-- The elements of a vector access from VSTART up to VL, or up to the cut (R282, R444), each translated as `m` says (R273). -/
def probedAccess (h : Hart) (g : Governing) (s : State) (elem : Nat → Element) (k : Access) (m : Probing)
    (step : Assoc Probe → Nat → State → Got Unit) : Eff State :=
  let r := s.probes h g elem k m
  let hi := h.loopEnd s.stopAt
  (memLoop (h.active g) (step r.2) (hi - h.vstart) h.vstart r.1).outcome h g hi

/-- The elements of a vector access that translates them one by one. -/
def vectorAccess (h : Hart) (g : Governing) (s : State) (step : Nat → State → Got Unit) : Eff State :=
  let hi := h.loopEnd s.stopAt
  (memLoop (h.active g) step (hi - h.vstart) h.vstart s).outcome h g hi

/-- A memory instruction: its group checks, its guard, then its effect; a guard bit of 0 leaves VSTART to the scalar forms
and clears it in the vector forms (R111). -/
def performMemory (i : Instr) (s : State) (f : MFields) (vector : Bool) (groups : List Group) (overlap : Bool)
    (effect : State → Hart → Eff State) : Host.Outcome State Fault Refusal :=
  performWith i s false (fun h => if vector && !h.guardedOff f.gd f.gs then some (h.elemsOn (govM f)) else none) fun s h =>
    if groups.any h.badGroup || overlap then .stop s .group (encodeWord i)
    else if h.guardedOff f.gd f.gs then .seq (if vector then s.onCur fun h => h.setVstart 0 else s)
    else effect s h

end Sys2Proof.Machine
end

