-- ==== Sys2Proof/Machine/VectorPermute.lean ====
section
/-! DEFINITION. Masks, permutes, the recurrence, reductions and scans: MAJ 0x15 (Table 10.2), 0x16 (Table 10.3) and 0x17
(Table 10.4). -/

namespace Sys2Proof.Machine

/-- An instruction that never stops inside (Table 10.1): `k` acts on the hart when some element takes part (R202, R240), and
VSTART is 0 after it. R208 leaves its micro-operations to its entry, and no entry gives them: they are counted as those of the others,
one per band and lane cluster (log 121, DESIGN CHOICE). -/
def indivisible (g : Governing) (h : Hart) (k : Hart → Hart) : Eff Hart :=
  if h.vl ≤ h.vstart then .seq (h.setVstart 0) else .seq (((k h).countVector h g h.vl).setVstart 0)

/-- The active positions in rising order. -/
def Hart.activeList (h : Hart) (g : Governing) : List Nat := (List.range h.vl).filter (h.active g)

/-! ### Masks -/

/-- An indivisible write of the active bits of mD (R244): every operand is read before. -/
def maskWrite (f : RFields) (bit : Nat → Bool) (h : Hart) : Eff Hart :=
  indivisible (govR f) h fun r =>
    (h.activeList (govR f)).foldl (fun r i => r.setMaskBit f.d.toNat i (bit i)) r

/-- A mask operation on the bits of mA and mB. -/
def maskBinary (f : RFields) (op : Bool → Bool → Bool) (h : Hart) (_ : Option Nat) : Eff Hart :=
  maskWrite f (fun i => op (h.maskBit f.a.toNat i) (h.maskBit f.b.toNat i)) h

/-- VMAND (R244). -/
def execVmand (f : RFields) (s : State) : Host.Outcome State Fault Refusal :=
  performVector (.vmand f) s f [] false (maskBinary f fun a b => a && b)
/-- VMOR (R244). -/
def execVmor (f : RFields) (s : State) : Host.Outcome State Fault Refusal :=
  performVector (.vmor f) s f [] false (maskBinary f fun a b => a || b)
/-- VMXOR (R244). -/
def execVmxor (f : RFields) (s : State) : Host.Outcome State Fault Refusal :=
  performVector (.vmxor f) s f [] false (maskBinary f fun a b => a != b)
/-- VMNOT (R244). -/
def execVmnot (f : RFields) (s : State) : Host.Outcome State Fault Refusal :=
  performVector (.vmnot f) s f [] false (maskBinary f fun a _ => !a)
/-- VMSET (R244). -/
def execVmset (f : RFields) (s : State) : Host.Outcome State Fault Refusal :=
  performVector (.vmset f) s f [] false fun h _ => maskWrite f (fun _ => true) h
/-- VMCLR (R244). -/
def execVmclr (f : RFields) (s : State) : Host.Outcome State Fault Refusal :=
  performVector (.vmclr f) s f [] false fun h _ => maskWrite f (fun _ => false) h

/-- The active positions whose bit of mA is set, in rising order (R244). -/
def hits (f : RFields) (h : Hart) : List Nat := (h.activeList (govR f)).filter (h.maskBit f.a.toNat)

/-- The reference of VMPRE, VMINC and VMONE: the lowest hit, or with AUX bit 0 the highest (R245). -/
def reference (f : RFields) (h : Hart) : Option Nat :=
  if f.aux.getLsbD 0 then (hits f h).getLast? else (hits f h).head?

/-- Marks by position against the reference (Table 10.2a): `before` on the near side, `at` at the reference. -/
def markBit (high before same : Bool) (ref : Option Nat) (i : Nat) : Bool :=
  match ref with
  | none => before
  | some r => (before && (if high then r < i else i < r)) || (same && i = r)

/-- The marking instructions (R245). -/
def maskMark (f : RFields) (before same : Bool) (h : Hart) (_ : Option Nat) : Eff Hart :=
  maskWrite f (markBit (f.aux.getLsbD 0) before same (reference f h)) h

/-- VMPRE (R245). -/
def execVmpre (f : RFields) (s : State) : Host.Outcome State Fault Refusal :=
  performVector (.vmpre f) s f [] false (maskMark f true false)
/-- VMINC (R245). -/
def execVminc (f : RFields) (s : State) : Host.Outcome State Fault Refusal :=
  performVector (.vminc f) s f [] false (maskMark f true true)
/-- VMONE (R245). -/
def execVmone (f : RFields) (s : State) : Host.Outcome State Fault Refusal :=
  performVector (.vmone f) s f [] false (maskMark f false true)

/-- A push to the length queue before which a full queue traps (R132, R243). -/
def pushingLength (h : Hart) (k : Hart → Eff Hart) : Eff Hart := if 16 ≤ h.ctl.lq.length then .stop h .queue 2 else k h

/-- A push to the condition queue before which a full queue traps (R132, R243). -/
def pushingCondition (h : Hart) (k : Hart → Eff Hart) : Eff Hart := if 16 ≤ h.ctl.cq.length then .stop h .queue 4 else k h

/-- VMPOP and VMFIRST (R246): the value goes to element 0 of vD, or with AUX bit 0 to the length queue. -/
def maskValue (f : RFields) (value : Nat) (h : Hart) (_ : Option Nat) : Eff Hart :=
  if f.aux.getLsbD 0 then
    pushingLength h fun h => .seq (((pushLength h value).countVector h (govR f) h.vl).setVstart 0)
  else indivisible (govR f) h fun r => r.writeElem f.d f.et.bits 0 (value % 2 ^ f.et.bits)

/-- The vector group that VMPOP and VMFIRST write, if any (R246). -/
def maskValueGroups (f : RFields) : List Group := if f.aux.getLsbD 0 then [] else groupsD f

/-- VMPOP (R246). -/
def execVmpop (f : RFields) (s : State) : Host.Outcome State Fault Refusal :=
  performVector (.vmpop f) s f (maskValueGroups f) false fun h => maskValue f (hits f h).length h
/-- VMFIRST (R246). -/
def execVmfirst (f : RFields) (s : State) : Host.Outcome State Fault Refusal :=
  performVector (.vmfirst f) s f (maskValueGroups f) false fun h => maskValue f ((hits f h).head?.getD h.vl) h

/-- VANYQ and VALLQ push a condition (R243, R246). -/
def maskCondition (f : RFields) (value : Hart → Bool) (h : Hart) (_ : Option Nat) : Eff Hart :=
  pushingCondition h fun h => .seq (((pushCondition h (value h)).countVector h (govR f) h.vl).setVstart 0)

/-- VANYQ (R246). -/
def execVanyq (f : RFields) (s : State) : Host.Outcome State Fault Refusal :=
  performVector (.vanyq f) s f [] false (maskCondition f fun h => !(hits f h).isEmpty)
/-- VALLQ (R246). -/
def execVallq (f : RFields) (s : State) : Host.Outcome State Fault Refusal :=
  performVector (.vallq f) s f [] false (maskCondition f fun h => (h.activeList (govR f)).all (h.maskBit f.a.toNat))

/-! ### Permutes -/

/-- A permute that may stop at any element (Table 10.1): element i takes the bits given, or keeps its own. -/
def permuteElements (f : RFields) (h : Hart) (stopAt : Option Nat) (value : Nat → Option Nat) : Eff Hart :=
  elementLoop (govR f) h stopAt fun i r =>
    match value i with
    | none => r
    | some x => r.writeElem f.d f.et.bits i x

/-- VSLIDEUP (R248). -/
def execVslideup (f : RFields) (s : State) : Host.Outcome State Fault Refusal :=
  performVector (.vslideup f) s f (groupsDA f) (anyOverlap (groupsDA f)) fun h stopAt =>
    let off := (h.sreg f.b).toNat
    permuteElements f h stopAt fun i => if off ≤ i then some (h.readElem f.a f.et.bits (i - off)) else none
/-- VSLIDEDN (R248). -/
def execVslidedn (f : RFields) (s : State) : Host.Outcome State Fault Refusal :=
  performVector (.vslidedn f) s f (groupsDA f) (anyOverlap (groupsDA f)) fun h stopAt =>
    let off := (h.sreg f.b).toNat
    permuteElements f h stopAt fun i => some (if i + off < h.vl then h.readElem f.a f.et.bits (i + off) else 0)
/-- VPERM (R248). -/
def execVperm (f : RFields) (s : State) : Host.Outcome State Fault Refusal :=
  performVector (.vperm f) s f (groupsDAB f) (anyOverlap (groupsDAB f)) fun h stopAt =>
    permuteElements f h stopAt fun i =>
      let j := h.readElem f.b f.et.bits i
      some (if j < h.vl then h.readElem f.a f.et.bits j else 0)

/-- The destinations that the active sources of VPUSHL name below VL, in source order (R249). -/
def pushTargets (f : RFields) (h : Hart) : List (Nat × Nat) :=
  ((h.activeList (govR f)).map fun i => (i, h.readElem f.b f.et.bits i)).filter fun p => p.2 < h.vl

/-- VPUSHL (R249). -/
def pushElements (f : RFields) (h : Hart) (_ : Option Nat) : Eff Hart :=
  indivisible (govR f) h fun r =>
    let ts := pushTargets f h
    let r := ts.foldl (fun r p => r.writeElem f.d f.et.bits p.2 (h.readElem f.a f.et.bits p.1)) r
    if f.aux.getLsbD 0 then
      forElems (fun j r => r.setMaskBit f.c.toNat j (2 ≤ (ts.filter fun p => p.2 == j).length)) h.vl 0 r
    else r
/-- VPUSHL (R249). -/
def execVpushl (f : RFields) (s : State) : Host.Outcome State Fault Refusal :=
  performVector (.vpushl f) s f (groupsDAB f) (anyOverlap (groupsDAB f)) (pushElements f)

/-- VCOMPR (R250). -/
def compressElements (f : RFields) (h : Hart) (_ : Option Nat) : Eff Hart :=
  indivisible (govR f) h fun r =>
    ((h.activeList (govR f)).zipIdx).foldl
      (fun r p => r.writeElem f.d f.et.bits p.2 (h.readElem f.a f.et.bits p.1)) r
/-- VCOMPR (R250). -/
def execVcompr (f : RFields) (s : State) : Host.Outcome State Fault Refusal :=
  performVector (.vcompr f) s f (groupsDA f) (anyOverlap (groupsDA f)) (compressElements f)
/-- VEXPND (R250): the source position counts the governing bits below, VSTART apart. -/
def execVexpnd (f : RFields) (s : State) : Host.Outcome State Fault Refusal :=
  performVector (.vexpnd f) s f (groupsDA f) (anyOverlap (groupsDA f)) fun h stopAt =>
    let g := govR f
    permuteElements f h stopAt fun i =>
      some (h.readElem f.a f.et.bits (countElems (fun j => !g.masked || (h.maskBit g.reg j != g.inverted)) i 0))

/-- One element of VREC (R251): y := a × y + b in the instruction's type, from the element's bits `y`. -/
def recurElement (f : RFields) (h : Hart) (i y : Nat) (r : Hart) : Nat × FlagSet × Hart :=
  let a := h.readElem f.a f.et.bits i
  let b := h.readElem f.b f.et.bits i
  if f.et.isInt then
    let x := writeInt f.et.isSigned f.sat f.et.bits (readInt f.et a * readInt f.et y + readInt f.et b)
    (x.1, x.2, r)
  else
    let t := fmtOf f.et
    let (mode, r) := r.roundMode f.rm
    let x := t.fma mode h.ftz (t.operand h.ftz a) (t.operand h.ftz y) (t.operand h.ftz b)
    (x.1, x.2, r)

/-- VREC (R251): element i takes y from element i − 1 of D, and 0 before element 0. -/
def recurElements (f : RFields) (h : Hart) (stopAt : Option Nat) : Eff Hart :=
  elementLoop Governing.off h stopAt fun i r =>
    let y := if i = 0 then 0 else r.readElem f.d f.et.bits (i - 1)
    let x := recurElement f h i y r
    (x.2.2.writeElem f.d f.et.bits i x.1).raise x.2.1
/-- VREC (R251). -/
def execVrec (f : RFields) (s : State) : Host.Outcome State Fault Refusal :=
  performVector (.vrec f) s f (groupsDAB f) (anyOverlap (groupsDAB f)) (recurElements f)

/-! ### Reductions and scans -/

/-- The operation at the nodes of a tree (Table 10.4). -/
inductive Fold where
  | sum | max | min | and | or
  deriving DecidableEq, Repr

/-- One level of the tree of R194: positions i and i + 1 of a list combine; where one is absent the other passes. -/
def treeLevel (node : Nat → Nat → Nat × FlagSet) : List (Option Nat) → List (Option Nat) × FlagSet
  | [] => ([], 0)
  | [x] => ([x], 0)
  | x :: y :: r =>
    let (zs, fs) := treeLevel node r
    match x, y with
    | some a, some b => let c := node a b; (some c.1 :: zs, c.2 ||| fs)
    | some a, none => (some a :: zs, fs)
    | none, y => (y :: zs, fs)

/-- The tree of R194 over `n` levels: the value at position 0 and the flags of every node. -/
def tree (node : Nat → Nat → Nat × FlagSet) : Nat → List (Option Nat) → Option Nat × FlagSet
  | 0, xs => (xs.head?.getD none, 0)
  | n + 1, xs =>
    let (ys, fs) := treeLevel node xs
    let (z, gs) := tree node n ys
    (z, fs ||| gs)

/-- The format in which the nodes of a floating sum round (R194). -/
def nodeFmt (t : ElemType) : Fmt := if t = .f64 then fmtF64 else fmtF32

/-- The rounding mode of a tree: RM 110 with the stochastic DRM rounds to nearest-even (R253); no draw is taken. -/
def treeMode (h : Hart) (rm : RoundMode) : Mode :=
  match h.roundMode rm with
  | (.rsr _, _) => .rne
  | (m, _) => m

/-- A leaf of the tree: the element's bits, or for a floating sum the element's value in the node format. (Log 25, DEDUCED.)
-/
def treeLeaf (f : RFields) (o : Fold) (h : Hart) (x : Nat) : Nat :=
  if f.et.isFloat then
    let v := (fmtOf f.et).operand h.ftz x
    if o = .sum then (nodeFmt f.et).exact v else (fmtOf f.et).exact v
  else x

/-- A node of the tree (R253). FTZ has read binary32 elements at the leaves; a bfloat16 element keeps its value (R178). -/
def treeNode (f : RFields) (o : Fold) (h : Hart) (a b : Nat) : Nat × FlagSet :=
  let t := fmtOf f.et
  let x := readInt f.et a
  let y := readInt f.et b
  match o with
  | .sum =>
    if f.et.isFloat then
      let n := nodeFmt f.et
      n.add (treeMode h f.rm) h.ftz (n.decode a) (n.decode b)
    else writeInt f.et.isSigned f.sat f.et.bits (x + y)
  | .max => if f.et.isFloat then (t.minMax true (t.decode a) (t.decode b), 0) else (if x ≤ y then b else a, 0)
  | .min => if f.et.isFloat then (t.minMax false (t.decode a) (t.decode b), 0) else (if x ≤ y then a else b, 0)
  | .and => (a &&& b, 0)
  | .or => (a ||| b, 0)

/-- The value at position 0 in the element format: a floating sum is rounded once (R253). -/
def treeResult (f : RFields) (o : Fold) (h : Hart) (x : Nat) : Nat × FlagSet :=
  if f.et.isFloat && o == .sum then
    (fmtOf f.et).ofFp (treeMode h f.rm) h.ftz ((nodeFmt f.et).decode x)
  else (x, 0)

/-- The empty result of Table 10.4. -/
def treeEmpty (f : RFields) (o : Fold) : Nat :=
  let w := f.et.bits
  let least := if f.et.isFloat then (fmtOf f.et).inf true else if f.et.isSigned then 2 ^ (w - 1) else 0
  let most := if f.et.isFloat then (fmtOf f.et).inf false else if f.et.isSigned then 2 ^ (w - 1) - 1 else 2 ^ w - 1
  match o with
  | .sum | .or => 0
  | .max => least
  | .min => most
  | .and => 2 ^ w - 1

/-- The levels of the tree for VL positions (R194): the least n with VL ≤ 2^n. -/
def treeLevels (vl : Nat) : Nat := bitLength (vl - 1)

/-- The reduction over positions 0 to `last` of the active elements (R194). -/
def reduceTo (f : RFields) (o : Fold) (h : Hart) (last : Nat) : Option (Nat × FlagSet) :=
  let leaf (i : Nat) : Option Nat :=
    if i ≤ last && h.active (govR f) i then some (treeLeaf f o h (h.readElem f.a f.et.bits i)) else none
  match tree (treeNode f o h) (treeLevels h.vl) ((List.range h.vl).map leaf) with
  | (none, _) => none
  | (some x, fs) => let r := treeResult f o h x; some (r.1, fs ||| r.2)

/-- A reduction writes element 0 of vD (R253). -/
def reduceElements (f : RFields) (o : Fold) (h : Hart) (_ : Option Nat) : Eff Hart :=
  indivisible (govR f) h fun r =>
    let x := (reduceTo f o h h.vl).getD (treeEmpty f o, 0)
    (r.writeElem f.d f.et.bits 0 x.1).raise x.2

/-- VREDSUM (R253). -/
def execVredsum (f : RFields) (s : State) : Host.Outcome State Fault Refusal :=
  performVector (.vredsum f) s f (groupsDA f) (anyOverlap (groupsDA f)) (reduceElements f .sum)
/-- VREDMAX (R253). -/
def execVredmax (f : RFields) (s : State) : Host.Outcome State Fault Refusal :=
  performVector (.vredmax f) s f (groupsDA f) (anyOverlap (groupsDA f)) (reduceElements f .max)
/-- VREDMIN (R253). -/
def execVredmin (f : RFields) (s : State) : Host.Outcome State Fault Refusal :=
  performVector (.vredmin f) s f (groupsDA f) (anyOverlap (groupsDA f)) (reduceElements f .min)
/-- VREDAND (R253). -/
def execVredand (f : RFields) (s : State) : Host.Outcome State Fault Refusal :=
  performVector (.vredand f) s f (groupsDA f) (anyOverlap (groupsDA f)) (reduceElements f .and)
/-- VREDOR (R253). -/
def execVredor (f : RFields) (s : State) : Host.Outcome State Fault Refusal :=
  performVector (.vredor f) s f (groupsDA f) (anyOverlap (groupsDA f)) (reduceElements f .or)

/-- The operation AUX names (R254). -/
def scanFold (f : RFields) : Fold :=
  match f.aux.toNat with | 0 => .sum | 1 => .max | 2 => .min | 3 => .and | _ => .or

/-- VSCAN (R254): each active position takes the reduction up to itself. -/
def scanElements (f : RFields) (h : Hart) (_ : Option Nat) : Eff Hart :=
  indivisible (govR f) h fun r =>
    (h.activeList (govR f)).foldl (fun r j =>
      match reduceTo f (scanFold f) h j with
      | none => r
      | some x => (r.writeElem f.d f.et.bits j x.1).raise x.2) r
/-- VSCAN (R254). -/
def execVscan (f : RFields) (s : State) : Host.Outcome State Fault Refusal :=
  performVector (.vscan f) s f (groupsDA f) (anyOverlap (groupsDA f)) (scanElements f)

end Sys2Proof.Machine
end

