-- ==== Sys2Proof/Machine/VectorSort.lean ====
section
/-! DEFINITION. Sorting and selection: MAJ 0x18 (Table 10.5). -/

namespace Sys2Proof.Machine

/-! ### Sorting -/

/-- Inserts an entry after every entry that does not come after it. -/
def insertStable {α : Type} (before : α → α → Bool) (x : α) : List α → List α
  | [] => [x]
  | y :: ys => if before x y then x :: y :: ys else y :: insertStable before x ys

/-- The stable sort: entries that neither come before the other keep their order. -/
def sortStable {α : Type} (before : α → α → Bool) (xs : List α) : List α :=
  xs.foldl (fun acc x => insertStable before x acc) []

/-- Whether key `a` comes before key `b` under R256: NaN keys last in either direction. FTZ (R178) changes no key: the spec does not say
whether a sort is a vector floating-point instruction (log 111, DESIGN CHOICE). -/
def keyBefore (t : ElemType) (descending : Bool) (a b : Nat) : Bool :=
  if t.isInteger then
    if descending then readInt t b < readInt t a else readInt t a < readInt t b
  else
    let x := (fmtOf t).decode a
    let y := (fmtOf t).decode b
    match x.cmp y with
    | some o => if descending then 0 < o else o < 0
    | none => x != .nan

/-- The groups of D, C and A (and B) of a sort, at their widths (R255). -/
def sortGroups (f : RFields) : List Group :=
  let w := f.et.bits
  [groupR f f.d w, groupR f f.c w, groupR f f.a w, groupR f f.b w]

/-- VBSORT and VBMERGE (R257): the active keys in order, each with its value, to the active positions in order. -/
def sortElements (f : RFields) (h : Hart) (_ : Option Nat) : Eff Hart :=
  let w := f.et.bits
  indivisible (govR f) h fun r =>
    let places := h.activeList (govR f)
    let sorted := sortStable (fun p q => keyBefore f.et (f.aux.getLsbD 0) p.1 q.1)
      (places.map fun i => (h.readElem f.a w i, h.readElem f.b w i))
    (places.zip sorted).foldl (fun r p => (r.writeElem f.d w p.1 p.2.1).writeElem f.c w p.1 p.2.2) r

/-- VBSORT (R257). -/
def execVbsort (f : RFields) (s : State) : Host.Outcome State Fault Refusal :=
  performVector (.vbsort f) s f (sortGroups f) (anyOverlap (sortGroups f)) (sortElements f)
/-- VBMERGE (R257): it writes what VBSORT writes. -/
def execVbmerge (f : RFields) (s : State) : Host.Outcome State Fault Refusal :=
  performVector (.vbmerge f) s f (sortGroups f) (anyOverlap (sortGroups f)) (sortElements f)

/-! ### Selection -/

/-- The width of VTOPK's positions (Table 10.5). -/
def positionWidth (f : RFields) : Nat := Nat.max f.et.bits 16

/-- VTOPK's groups (Table 10.5). -/
def topkGroups (f : RFields) : List Group :=
  [groupR f f.d f.et.bits, groupR f f.c (positionWidth f), groupR f f.a f.et.bits]

/-- The ranking of gate scores, as their bits (R196). -/
def scoreBefore (a b : Nat) : Bool := gateBefore (gateKey a) (gateKey b)

/-- Sets GNAN when one of the scores is a NaN (R196). -/
def noteNan (scores : List Nat) (r : Hart) : Hart := if scores.any fun x => (gateKey x).isNone then r.raiseGnan else r

/-- VTOPK (R258). -/
def topkElements (f : RFields) (h : Hart) (_ : Option Nat) : Eff Hart :=
  let gate := f.aux.getLsbD 0
  indivisible (govR f) h fun r =>
    let keys := (h.activeList (govR f)).map fun i => (h.readElem f.a f.et.bits i, i)
    let m := Nat.min (h.sreg f.b).toNat keys.length
    let before (a b : Nat) : Bool := if gate then scoreBefore a b else keyBefore f.et true a b
    let best := (sortStable (fun p q => before p.1 q.1) keys).take m
    let r := best.zipIdx.foldl (fun r p =>
      (r.writeElem f.d f.et.bits p.2 (if gate then gateOutput p.1.1 else p.1.1)).writeElem f.c (positionWidth f) p.2 p.1.2) r
    if gate then noteNan (keys.map Prod.fst) r else r

/-- VTOPK (R258). -/
def execVtopk (f : RFields) (s : State) : Host.Outcome State Fault Refusal :=
  performVector (.vtopk f) s f (topkGroups f) (anyOverlap (topkGroups f)) (topkElements f)

/-- VGTOPK's groups (Table 10.5). -/
def gtopkGroups (f : RFields) : List Group := [groupR f f.d 32, groupR f f.c 32, groupR f f.a 32]

/-- VGTOPK's parameters (R260). -/
structure Gate where
  experts : Nat
  perGroup : Nat
  choose : Nat
  deriving DecidableEq, Repr

/-- The parameters of sB; none when they are not allowed (R260). -/
def gateOf (h : Hart) (b : Word) : Option Gate :=
  let e := fieldOf b 0 16
  let gs := fieldOf b 16 8
  let g := fieldOf b 24 8
  if e = 0 || gs = 0 || g = 0 || e % gs ≠ 0 || h.vlmax < e || fieldOf b 32 32 ≠ 0 then none
  else some { experts := e, perGroup := gs, choose := g }

/-- The first of the best scores, if there is one (R196). -/
def bestScore (xs : List Nat) : Option Nat := (sortStable scoreBefore xs).head?

/-- The present scores of positions `lo` to `lo + n − 1`. -/
def presentScores (f : RFields) (h : Hart) (lo n : Nat) : List Nat :=
  ((List.range n).map (lo + ·)).filter (h.active (govR f)) |>.map (h.readElem f.a 32)

/-- What one token writes (R260): the chosen groups with their maxima, and M. -/
def gateToken (f : RFields) (h : Hart) (p : Gate) (t : Nat) : List (Nat × Nat) × Nat :=
  let m := match bestScore (presentScores f h (t * p.experts) p.experts) with
    | none => fmtF32.nan
    | some x => gateOutput x
  let keys := (List.range (p.experts / p.perGroup)).filterMap fun g =>
    (bestScore (presentScores f h (t * p.experts + g * p.perGroup) p.perGroup)).map fun x => (g, x)
  let ranked := sortStable (fun a b => scoreBefore a.2 b.2) keys
  ((List.range p.choose).map fun r =>
    match ranked[r]? with
    | some (g, x) => (g, gateOutput x)
    | none => (0xFFFFFFFF, fmtF32.nan), m)

/-- Writes one token's results (R260). -/
def writeToken (f : RFields) (p : Gate) (t : Nat) (out : List (Nat × Nat) × Nat) (r : Hart) : Hart :=
  let r := out.1.zipIdx.foldl (fun r x =>
    (r.writeElem f.d 32 (t * (p.choose + 1) + x.2) x.1.1).writeElem f.c 32 (t * p.choose + x.2) x.1.2) r
  r.writeElem f.d 32 (t * (p.choose + 1) + p.choose) out.2

/-- VGTOPK (R260). -/
def gtopkElements (f : RFields) (h : Hart) (_ : Option Nat) : Eff Hart :=
  if h.vl ≤ h.vstart then .seq (h.setVstart 0)
  else
    match gateOf h (h.sreg f.b) with
    | none => indivisible (govR f) h fun r => r.raise Flag.nv.bit
    | some p =>
      let tokens := h.vl / p.experts
      let held := groupSize f.gm * h.vlmax * h.sew / 32
      if 0 < tokens && (held < tokens * (p.choose + 1) || held < tokens * p.choose) then
        .stop h .group (encodeWord (.vgtopk f))
      else
        indivisible (govR f) h fun r =>
          let r := (List.range tokens).foldl (fun r t => writeToken f p t (gateToken f h p t) r) r
          noteNan (presentScores f h 0 (tokens * p.experts)) r

/-- VGTOPK (R260). -/
def execVgtopk (f : RFields) (s : State) : Host.Outcome State Fault Refusal :=
  performVector (.vgtopk f) s f (gtopkGroups f) (anyOverlap (gtopkGroups f)) (gtopkElements f)

/-! ### Sparse compression -/

/-- VSPRS's groups (Table 10.5). -/
def sparseGroups (f : RFields) : List Group := [groupR f f.d f.et.bits, groupR f f.c 16, groupR f f.a f.et.bits]

/-- The rank of an element's magnitude (R261): greater for greater magnitudes, a NaN above every number. The encodings of
a floating format without its sign bit rise with the magnitude. -/
def sparseKey (t : ElemType) (x : Nat) : Nat :=
  if t.isInteger then (readInt t x).natAbs
  else if (fmtOf t).decode x = .nan then 2 ^ t.bits
  else x % 2 ^ (t.bits - 1)

/-- The four positions kept of block `b`, in rising order (R261). -/
def keptPositions (f : RFields) (h : Hart) (b : Nat) : List Nat :=
  let present (j : Nat) : Bool :=
    8 * b + j < h.vl && (!f.masked || (h.maskBit (govR f).reg (8 * b + j) != (govR f).inverted))
  let keys : List (Nat × Option Nat) := (List.range 8).map fun j =>
    (j, if present j then some (sparseKey f.et (h.readElem f.a f.et.bits (8 * b + j))) else none)
  let before (x y : Nat × Option Nat) : Bool :=
    match x.2, y.2 with
    | some k, some l => l < k
    | some _, none => true
    | none, _ => false
  let kept := ((sortStable before keys).take 4).map Prod.fst
  (List.range 8).filter kept.contains

/-- Writes block `b` (R261). -/
def sparseBlock (f : RFields) (h : Hart) (b : Nat) (r : Hart) : Hart :=
  let present (j : Nat) : Bool :=
    8 * b + j < h.vl && (!f.masked || (h.maskBit (govR f).reg (8 * b + j) != (govR f).inverted))
  let ps := keptPositions f h b
  let r := ps.zipIdx.foldl (fun r p =>
    r.writeElem f.d f.et.bits (4 * b + p.2) (if present p.1 then h.readElem f.a f.et.bits (8 * b + p.1) else 0)) r
  r.writeElem f.c 16 b (ps.zipIdx.foldl (fun m p => m + p.1 * 8 ^ p.2) 0)

/-- VSPRS (R261): it stops only at multiples of 8. -/
def sparseElements (f : RFields) (h : Hart) (stopAt : Option Nat) : Eff Hart :=
  if h.vl ≤ h.vstart then .seq (h.setVstart 0)
  else
    let cut := h.loopEnd (stopAt.map fun n => n / 8 * 8)
    let lo := h.vstart / 8
    let r := forElems (sparseBlock f h) ((cut + 7) / 8 - lo) lo h
    let r := r.countVector h (govR f) cut
    if cut < h.vl then .hold (r.setVstart cut) else .seq (r.setVstart 0)

/-- VSPRS (R261). -/
def execVsprs (f : RFields) (s : State) : Host.Outcome State Fault Refusal :=
  performVector (.vsprs f) s f (sparseGroups f) (anyOverlap (sparseGroups f)) (sparseElements f)

end Sys2Proof.Machine
end

