-- ==== Sys2Proof/Machine/MatrixState.lean ====
section
/-! DEFINITION. Whose matrix state a core's engine holds, the spill slots (R332), the context store's place (R445), and
VQUANT and VDEQ (R234, R236), which use scale registers. -/

namespace Sys2Proof.Machine

/-- The reset shape of a tile (Table 15.2): ZF 1, KB 3, FMT 8. -/
def resetShape : BitVec 12 := 0x838

/-- Matrix state of a new hart (Table 3.4, R332). -/
def freshMatrix : Matrix :=
  { t := Vector.replicate 4 { data := 0, headers := 0, shape := resetShape }, acc := Vector.replicate 4 0,
    e := Vector.replicate 8 0 }

/-- The number held by `n` bytes from `a` on, from the listed bytes alone (unlisted ones are zero). -/
def Mem.image (m : Mem) (a n : Nat) : Nat := (m.cells a n).foldl (fun x c => x + c.2.toNat * 256 ^ (c.1 - a)) 0

/-- Writes a number as `n` bytes from `a` on. -/
def Mem.putImage (m : Mem) (a n x : Nat) : Mem := if x = 0 then m.clear a n else m.writeBytes a (toBytesLE n x)

/-- Bytes of a spill slot, and of a die's slots: 16 for each of 96 cores (R332). -/
def slotBytes : Nat := 576 * 1024
def slotArea : Nat := 96 * 16 * slotBytes

/-- The base of a die's spill slots: the top of its share of HBM (R332). -/
def spillBase (die : Nat) : Nat := (die + 1) * 2 ^ 37 - slotArea

/-- Records of a die's context store, their bytes and its base, directly below the spill slots (R445). -/
def storeRecords : Nat := 4608
def recordBytes : Nat := 0xD2000
def storeBase (die : Nat) : Nat := spillBase die - storeRecords * recordBytes

/-- The spill slot of a hart context (R332). -/
def spillSlot (k : Nat) : Nat := spillBase (dieOf k) + k % 2048 * slotBytes

/-- Tiles, accumulators and scale registers as the parts of an image: offset, bytes and value. In a spill slot they stand in
the order of the context record (Table 24.4), with the shape states behind them (log 17, DESIGN CHOICE). -/
def Matrix.parts (x : Matrix) : List (Nat × Nat × Nat) :=
  ((List.finRange 4).flatMap fun i => [(0x12000 * i.val, 0x10000, x.t[i].data), (0x12000 * i.val + 0x10000, 0x2000, x.t[i].headers)]) ++
  ((List.finRange 4).map fun i => (0x48000 + 0x10000 * i.val, 0x10000, x.acc[i])) ++
  ((List.finRange 8).map fun i => (0x88000 + 128 * i.val, 128, x.e[i].toNat))

/-- Writes the parts from `a` on. -/
def Matrix.write (x : Matrix) (a : Nat) (m : Mem) : Mem :=
  x.parts.foldl (fun m p => m.putImage (a + p.1) p.2.1 p.2.2) m

/-- The shape states, eight bytes each. -/
def Matrix.writeShapes (x : Matrix) (a : Nat) (m : Mem) : Mem :=
  (List.finRange 4).foldl (fun m i => m.putImage (a + 8 * i.val) 8 x.t[i].shape.toNat) m

/-- Matrix state from an image at `a` with its shape states at `b`. -/
def readMatrix (m : Mem) (a b : Nat) : Matrix :=
  { t := Vector.ofFn fun i : Fin 4 =>
      { data := m.image (a + 0x12000 * i.val) 0x10000, headers := m.image (a + 0x12000 * i.val + 0x10000) 0x2000,
        shape := BitVec.ofNat 12 (m.image (b + 8 * i.val) 8) },
    acc := Vector.ofFn fun i : Fin 4 => m.image (a + 0x48000 + 0x10000 * i.val) 0x10000,
    e := Vector.ofFn fun i : Fin 8 => BitVec.ofNat 1024 (m.image (a + 0x88000 + 128 * i.val) 128) }

/-- Swaps a hart's matrix state out to its spill slot, sealed bytes apart (R50). -/
def State.spill (s : State) (k : Nat) : State :=
  match s.hart? k with
  | none => s
  | some h =>
    { s with mem := s.keepSealed (h.mat.writeShapes (spillSlot k + 0x88400) (h.mat.write (spillSlot k) s.mem)),
             spilled := k :: s.spilled.filter (· != k) }

/-- Swaps a hart's matrix state in from its spill slot, when it is there. -/
def State.unspill (s : State) (k : Nat) : State :=
  if s.spilled.contains k then
    { s.onHart k fun h => { h with mat := readMatrix s.mem (spillSlot k) (spillSlot k + 0x88400) } with
      spilled := s.spilled.filter (· != k) }
  else s

/-- The engine of a hart's core comes to hold that hart's matrix state (R332). (Log 93, DEDUCED.) -/
def State.claimMatrix (s : State) (k : Nat) : State :=
  let core := coreIndex k
  match Assoc.find s.owners core with
  | some o =>
    if o = k then s else { (s.spill o).unspill k with owners := Assoc.put s.owners core k }
  | none => { s.unspill k with owners := Assoc.put s.owners core k }

/-- A seat is freed: its engine and its spill slot hold nothing of the hart. -/
def State.releaseMatrix (s : State) (k : Nat) : State :=
  { s with owners := s.owners.filter fun p => p.2 != k, spilled := s.spilled.filter (· != k) }

/-- Runs an instruction that uses matrix state: the engine holds the hart's (R332). -/
def withMatrix (s : State) (k : State → Hart → Eff State) : Eff State :=
  let s := s.claimMatrix s.cur
  match s.hart? s.cur with
  | none => .hold s
  | some h => k s h

/-- MATRIX_STATE_SWAP (R332): another hart's matrix instruction reaches the head of its queue. -/
def execMatrixStateSwap (hart : Nat) (s : State) : Host.Outcome State Fault Refusal :=
  match s.hart? hart with
  | none => .next s
  | some _ => .next (s.claimMatrix hart)

/-- A vector instruction that uses scale registers. -/
def performScaled (i : Instr) (s : State) (f : RFields) (groups : List Group) (overlap : Bool)
    (effect : Hart → Option Nat → Eff Hart) : Host.Outcome State Fault Refusal :=
  performWith i s false (fun h => some (h.elemsOn (govR f))) fun s h =>
    if groups.any h.badGroup || overlap then .stop s .group (encodeWord i)
    else if h.guardedOff f.gd f.gs then .seq (s.onCur fun h => h.setVstart 0)
    else withMatrix s fun s h => s.lift (effect h s.stopAt)

/-- The operands of VQUANT: codes in D, binary32 in A, which share no register (R234). -/
def quantGroups (f : RFields) : List Group := [groupR f f.d f.et.bits, groupR f f.a 32]
def quantOverlap (f : RFields) : Bool := (groupR f f.d f.et.bits).overlaps (groupR f f.a 32)

/-- The operands of VDEQ: values in D, codes in A, which share no register (R236). -/
def dequantGroups (f : RFields) : List Group := [groupR f f.d f.et.bits, groupR f f.a (cvtSource f).bits]
def dequantOverlap (f : RFields) : Bool := (groupR f f.d f.et.bits).overlaps (groupR f f.a (cvtSource f).bits)

/-- VQUANT (R234). -/
def execVquant (f : RFields) (s : State) : Host.Outcome State Fault Refusal :=
  performScaled (.vquant f) s f (quantGroups f) (quantOverlap f) (quantElements f)

/-- VDEQ (R236). -/
def execVdeq (f : RFields) (s : State) : Host.Outcome State Fault Refusal :=
  performScaled (.vdeq f) s f (dequantGroups f) (dequantOverlap f) (dequantElements f)

end Sys2Proof.Machine
end

