-- ==== Sys2Proof/Machine/MemoryOps.lean ====
section
/-! DEFINITION. Memory and atomic instructions: MAJ 0x20 to 0x25 (R279 to R299). -/

namespace Sys2Proof.Machine

/-! ### Addresses (R280) -/

/-- The offset of an M-format word, in bytes, for a unit of `unit` bytes. -/
def memOffset (f : MFields) (unit : Nat) : Word := f.off.signExtend 64 * BitVec.ofNat 64 unit

/-- The base of a scalar access of `size` bytes. -/
def scalarBase (f : MFields) (h : Hart) (size : Nat) : Nat := (h.sreg f.a + memOffset f size).toNat

/-- The base of a vector access. -/
def vectorBase (f : MFields) (h : Hart) : Nat := (h.sreg f.a + memOffset f (f.et.unit)).toNat

/-- Index width of an indexed access. -/
def indexWidth (f : MFields) : Nat := if f.et.bits = 64 then 64 else 32

/-- EA(i), the lane mode's slice apart. -/
def elementAddr (f : MFields) (h : Hart) (i : Nat) : Nat :=
  let base := vectorBase f h
  let b := f.et.unit
  (match f.am.toNat with
    | 1 => (BitVec.ofNat 64 base + BitVec.ofNat 64 i * h.sreg f.b).toNat
    | 2 => base + h.readElem f.b (indexWidth f) i
    | 4 => base + i / h.lanes * b
    | 5 => base
    | _ => if f.et.bits = 4 then base + i / 2 else base + i * b) % 2 ^ 64

/-- Element `i` of a vector access: lane i mod G makes it (R263); strided and indexed ones must be aligned (R274). -/
def elementOf (f : MFields) (h : Hart) (i : Nat) : Element :=
  { va := elementAddr f h i, size := f.et.unit, lane := i % h.lanes, aligned := f.am.toNat = 1 || f.am.toNat = 2,
    hint := f.ch.toNat }

/-- The group an operand of an M-format word forms. -/
def groupM (f : MFields) (r : RegIdx) (w : Nat) : Group := { first := r, size := groupSize f.gm, width := w }

/-- The groups of a vector access: data, and the indices of AM 010 (R280). -/
def memGroups (f : MFields) : List Group :=
  if f.am.toNat = 2 then [groupM f f.d f.et.bits, groupM f f.b (indexWidth f)] else [groupM f f.d f.et.bits]

/-- An indexed load's destination overlaps its indices (R280). -/
def loadOverlap (f : MFields) : Bool :=
  f.am.toNat == 2 && (groupM f f.d f.et.bits).overlaps (groupM f f.b (indexWidth f))

/-- In lane-slice mode an element outside the window traps RMISS, its watchpoints checked first (R272, R280). -/
def outsideSlice (f : MFields) (s : State) (e : Element) (k : Access) : Option Cause :=
  if f.am.toNat = 4 && !(0x003FFFFFFFF00000 ≤ e.va && e.va < 0x003FFFFFFFF01000) then
    some (if (s.hart? s.cur).any fun h => h.watchHit e.va e.size k then .watch else .rmiss)
  else none

/-- How the access translates (R273): its indexed form ahead of its elements, a span of bytes range by range. -/
def probing (f : MFields) : Probing :=
  match f.am.toNat with
  | 2 => .indexed
  | 0 | 3 => .shared
  | _ => .none

/-! ### Scalar loads and stores (R283, R284) -/

/-- The element of a scalar access: lane 0 of the grant (R284). -/
def scalarElement (f : MFields) (h : Hart) (size : Nat) (aligned : Bool) : Element :=
  { va := scalarBase f h size, size := size, lane := 0, aligned := aligned, hint := f.ch.toNat }

/-- The effect of an element that ends the instruction. -/
def Got.finish {α : Type} (g : Got α) (k : State → α → State) : Eff State :=
  match g with
  | .ok s x => .seq (k s x)
  | .fail s c t => .stop s c (BitVec.ofNat 64 t)
  | .wait s => .hold s

/-- A scalar load of `size` bytes, sign-extended or not (Table 12.2). -/
def loadScalar (i : Instr) (f : MFields) (size : Nat) (signed : Bool) (s : State) : Host.Outcome State Fault Refusal :=
  performMemory i s f false [] false fun s h =>
    (s.loadElement (scalarElement f h size false)).finish fun s x =>
      s.onCur fun h => h.setS f.d (if signed then BitVec.ofInt 64 (signExt x (8 * size)) else BitVec.ofNat 64 x)

/-- A scalar store of `size` bytes (Table 12.2). -/
def storeScalar (i : Instr) (f : MFields) (size : Nat) (s : State) : Host.Outcome State Fault Refusal :=
  performMemory i s f false [] false fun s h =>
    (s.storeElement (scalarElement f h size false) (toBytesLE size (h.sreg f.d).toNat)).finish fun s _ => s

/-- LDB (R283). -/
def execLdb (f : MFields) (s : State) : Host.Outcome State Fault Refusal := loadScalar (.ldb f) f 1 true s
/-- LDH (R283). -/
def execLdh (f : MFields) (s : State) : Host.Outcome State Fault Refusal := loadScalar (.ldh f) f 2 true s
/-- LDW (R283). -/
def execLdw (f : MFields) (s : State) : Host.Outcome State Fault Refusal := loadScalar (.ldw f) f 4 true s
/-- LDD (R283). -/
def execLdd (f : MFields) (s : State) : Host.Outcome State Fault Refusal := loadScalar (.ldd f) f 8 false s
/-- LDBN (R283). -/
def execLdbn (f : MFields) (s : State) : Host.Outcome State Fault Refusal := loadScalar (.ldbn f) f 1 false s
/-- LDHN (R283). -/
def execLdhn (f : MFields) (s : State) : Host.Outcome State Fault Refusal := loadScalar (.ldhn f) f 2 false s
/-- LDWN (R283). -/
def execLdwn (f : MFields) (s : State) : Host.Outcome State Fault Refusal := loadScalar (.ldwn f) f 4 false s
/-- STB (R283). -/
def execStb (f : MFields) (s : State) : Host.Outcome State Fault Refusal := storeScalar (.stb f) f 1 s
/-- STH (R283). -/
def execSth (f : MFields) (s : State) : Host.Outcome State Fault Refusal := storeScalar (.sth f) f 2 s
/-- STW (R283). -/
def execStw (f : MFields) (s : State) : Host.Outcome State Fault Refusal := storeScalar (.stw f) f 4 s
/-- STD (R283). -/
def execStd (f : MFields) (s : State) : Host.Outcome State Fault Refusal := storeScalar (.std f) f 8 s

/-! ### Vector loads (R285, R286) -/

/-- Loads element `i` as VLD does: its value (R285). -/
def loadAt (f : MFields) (h : Hart) (ps : Assoc Probe) (i : Nat) (s : State) : Got Nat :=
  let e := (elementOf f h i).under ps i
  match outsideSlice f s e .read with
  | some c => .fail s c e.va
  | none =>
    (s.loadElement e).bind fun s x => .ok s (if f.et.bits = 4 then bitsOf x (4 * (i % 2)) 4 else x)

/-- Loads element `i` into the destination. -/
def loadInto (f : MFields) (h : Hart) (ps : Assoc Probe) (i : Nat) (s : State) : Got Unit :=
  (loadAt f h ps i s).bind fun s x => .ok (s.onCur fun r => r.writeElem f.d f.et.bits i x) ()

/-- The lowest active element from VSTART up. -/
def firstActive (h : Hart) (g : Governing) : Option Nat :=
  ((List.range (h.vl - h.vstart)).map (h.vstart + ·)).find? fun i => h.active g i

/-- The elements of a broadcast load take the value read. -/
def broadcastValue (f : MFields) (s : State) (h : Hart) (x : Nat) : Eff State :=
  vectorAccess h (govM f) s fun j s => .ok (s.onCur fun r => r.writeElem f.d f.et.bits j x) ()

/-- The broadcast load: memory is read once, for the lowest active element (R285), also when steps cut the load. -/
def loadBroadcast (f : MFields) (s : State) (h : Hart) : Eff State :=
  let g := govM f
  match h.wait.value, firstActive h g with
  | some x, _ => broadcastValue f s h x
  | none, none => vectorAccess h g s fun _ s => .ok s ()
  | none, some i =>
    match loadAt f h [] i s with
    | .fail s c t => .stop (s.commitStop h g i) c (BitVec.ofNat 64 t)
    | .wait s => .hold s
    | .ok s x => broadcastValue f (s.onWait fun w => { w with value := some x }) h x

/-- VLD (R285). -/
def execVld (f : MFields) (s : State) : Host.Outcome State Fault Refusal :=
  performMemory (.vld f) s f true (memGroups f) (loadOverlap f) fun s h =>
    if f.am.toNat = 5 then loadBroadcast f s h else probedAccess h (govM f) s (elementOf f h) .read (probing f) (loadInto f h)

/-- A load that stops short at this failure past its first active element (R286). -/
def stopsShort (c : Cause) : Bool := c == .rmiss || c == .rperm || c == .rcross

/-- What a fault-only-first load comes to: `n` is pushed (R286). -/
def pushLoaded (h : Hart) (g : Governing) (s : State) (n : Nat) : Eff State :=
  .seq (((s.commitTo h g n n).onWait fun w => { w with short := some n }).onCur fun h => (pushLength h n).setVstart 0)

/-- VLDFF's effect (R286). An element past the first one that fails by its translation ends it; the first one is that with which the
instruction began, also when steps cut it. -/
def faultFirst (f : MFields) (s : State) (h : Hart) : Eff State :=
  let g := govM f
  if 16 ≤ h.ctl.lq.length then .stop s .queue 2
  else
    let first := match h.wait.first with | some i => some i | none => firstActive h g
    let hi := h.loopEnd s.stopAt
    let r := (s.onWait fun w => { w with first := first }).probes h g (elementOf f h) .read (probing f)
    match memLoop (h.active g) (loadInto f h r.2) (hi - h.vstart) h.vstart r.1 with
    | .held s i => .hold (s.commitTo h g i i)
    | .done s => if hi < h.vl then .hold (s.commitTo h g hi hi) else pushLoaded h g s h.vl
    | .stopped s i c t =>
      if stopsShort c && first != some i then pushLoaded h g s i
      else .stop (s.commitStop h g i) c (BitVec.ofNat 64 t)

/-- VLDFF (R286). -/
def execVldff (f : MFields) (s : State) : Host.Outcome State Fault Refusal :=
  performMemory (.vldff f) s f true (memGroups f) false (faultFirst f)

/-! ### Vector stores (R287, R288) -/

/-- Stores element `i` (R287). -/
def storeFrom (f : MFields) (h : Hart) (ps : Assoc Probe) (i : Nat) (s : State) : Got Unit :=
  let e := (elementOf f h i).under ps i
  let x := h.readElem f.d f.et.bits i
  match outsideSlice f s e .write with
  | some c => .fail s c e.va
  | none => if f.et.bits = 4 then s.storeNibble e x (1 + i % 2) else s.storeElement e (toBytesLE e.size x)

/-- VST (R287). -/
def execVst (f : MFields) (s : State) : Host.Outcome State Fault Refusal :=
  performMemory (.vst f) s f true (memGroups f) false fun s h =>
    probedAccess h (govM f) s (elementOf f h) .write (probing f) (storeFrom f h)

/-! ### The remote-reduce store (R289 to R291) -/

/-- Whether VRSTORE's type is block-scaled. -/
def reduceScaled (t : ElemType) : Bool := t == .e4m3 || t == .e5m2 || t == .k4

/-- The source value x(i) of a floating VRSTORE (Table 12.3). -/
def reduceValue (f : MFields) (h : Hart) (i : Nat) : Fp :=
  let code := h.readElem f.d f.et.bits i
  if reduceScaled f.et then blockValue f.et (headerOf h f.b.toNat (i / 32)) code else (fmtOf f.et).decode code

/-- The sum an exact value makes with a binary32 (Table 12.3): the target update, FTZ and ACFG ignored (R291). -/
def reduceAdd (old : Nat) (x : Fp) : Nat := (fmtF32.add .rne false (fmtF32.decode old) x).1

/-- Element `i` of a VRSTORE (R289). -/
def reduceElement (f : MFields) (h : Hart) (i : Nat) : Element :=
  { va := (vectorBase f h + 4 * i) % 2 ^ 64, size := 4, lane := i % h.lanes, aligned := true, hint := f.ch.toNat }

/-- Sends element `i` to its home (R291). A peer takes binary32: the value rounded to it (log 16, DEDUCED). -/
def reduceInto (f : MFields) (h : Hart) (ps : Assoc Probe) (i : Nat) (s : State) : Got Unit :=
  let e := (reduceElement f h i).under ps i
  let g : Got Nat :=
    if f.et = .i32 then
      let x := h.readElem f.d 32 i
      s.atomicWith e .add x 0 true fun old => some ((old + x) % 2 ^ 32)
    else
      let x := reduceValue f h i
      s.atomicWith e .fadd (fmtF32.ofFp .rne false x).1 0 true fun old => some (reduceAdd old x)
  g.bind fun s _ => .ok s ()

/-- VRSTORE's effect (R290, R291). -/
def reduceStore (f : MFields) (s : State) (h : Hart) : Eff State :=
  if reduceScaled f.et && scaleRange h f.b.toNat then .stop s .group (encodeWord (.vrstore f))
  else probedAccess h (govM f) s (reduceElement f h) .atomic .shared (reduceInto f h)

/-- VRSTORE (R289). -/
def execVrstore (f : MFields) (s : State) : Host.Outcome State Fault Refusal :=
  performMemory (.vrstore f) s f true [groupM f f.d f.et.bits] false fun s h =>
    if reduceScaled f.et then withMatrix s (reduceStore f) else reduceStore f s h

/-! ### Prefetches (R292, R293) -/

/-- A line is held under a hint: class 3 pins it for the launch, and CLS 0 with EAF releases its pin. An address that fails
translation or names other storage has no effect (R292). -/
def State.prefetch (s : State) (h : Hart) (va lane hint : Nat) : State :=
  match s.translate (s.hartAgent s.cur h lane) va .read with
  | (s, .error _) => s
  | (s, .ok p) =>
    if p.target != .memory || hbmTop ≤ p.addr then s
    else if hint = 8 then s.onLaunch h.tag fun l => { l with pins := l.pins.filter (· != p.addr / 128) }
    else s.pin h.tag p hint

/-- PREF (R292). -/
def execPref (f : MFields) (s : State) : Host.Outcome State Fault Refusal :=
  performMemory (.pref f) s f false [] false fun s h => .seq (s.prefetch h (scalarBase f h 1) 0 f.ch.toNat)

/-- VPREF (R292). -/
def execVpref (f : MFields) (s : State) : Host.Outcome State Fault Refusal :=
  performMemory (.vpref f) s f true (if f.am.toNat = 2 then [groupM f f.b (indexWidth f)] else []) false fun s h =>
    vectorAccess h (govM f) s fun i s => .ok (s.prefetch h (elementAddr f h i) (i % h.lanes) f.ch.toNat) ()

/-! ### Scalar atomics (R294 to R296) -/

/-- What a scalar atomic's flags order (R296): with acquire, as a FENCE with ACQ after it, the status words read before are acquired
(R366, R370). -/
def State.acquired (s : State) (h : Hart) (acq : Bool) : State := if acq then s.observePolled h else s

/-- With release, as a FENCE with REL before it, the hart's stores to tree memory are visible to walks (R45, R296). -/
def State.released (s : State) (rel : Bool) : State := if rel then s.settleTree (.hart s.cur) else s

/-- A scalar atomic (R295): the old value, sign-extended, goes to D; VSTART is untouched. Its flags order it as a FENCE would
(R296). -/
def scalarAtomic (i : Instr) (f : MFields) (op : AtomicOp) (s : State) : Host.Outcome State Fault Refusal :=
  performMemory i s f false [] false fun s h =>
    let n := f.et.unit
    (s.atomicElement { scalarElement f h n true with acquire := f.gm.getLsbD 1 } op
      ((h.sreg f.b).toNat % 2 ^ (8 * n)) ((h.sreg f.d).toNat % 2 ^ (8 * n))).finish fun s old =>
        ((s.released (f.gm.getLsbD 0)).acquired h (f.gm.getLsbD 1)).onCur fun h => h.setS f.d (BitVec.ofInt 64 (signExt old (8 * n)))

/-- AADD (R295). -/
def execAadd (f : MFields) (s : State) : Host.Outcome State Fault Refusal := scalarAtomic (.aadd f) f .add s
/-- AAND (R295). -/
def execAand (f : MFields) (s : State) : Host.Outcome State Fault Refusal := scalarAtomic (.aand f) f .and s
/-- AOR (R295). -/
def execAor (f : MFields) (s : State) : Host.Outcome State Fault Refusal := scalarAtomic (.aor f) f .or s
/-- AXOR (R295). -/
def execAxor (f : MFields) (s : State) : Host.Outcome State Fault Refusal := scalarAtomic (.axor f) f .xor s
/-- AMIN (R295). -/
def execAmin (f : MFields) (s : State) : Host.Outcome State Fault Refusal := scalarAtomic (.amin f) f .min s
/-- AMAX (R295). -/
def execAmax (f : MFields) (s : State) : Host.Outcome State Fault Refusal := scalarAtomic (.amax f) f .max s
/-- AMINN (R295). -/
def execAminn (f : MFields) (s : State) : Host.Outcome State Fault Refusal := scalarAtomic (.aminn f) f .minn s
/-- AMAXN (R295). -/
def execAmaxn (f : MFields) (s : State) : Host.Outcome State Fault Refusal := scalarAtomic (.amaxn f) f .maxn s
/-- AXCHG (R295). -/
def execAxchg (f : MFields) (s : State) : Host.Outcome State Fault Refusal := scalarAtomic (.axchg f) f .xchg s
/-- ACAS (R295). -/
def execAcas (f : MFields) (s : State) : Host.Outcome State Fault Refusal := scalarAtomic (.acas f) f .cas s

/-! ### Vector atomics (R297, R298) -/

/-- The operation of a vector atomic: integer, signed or unsigned, or binary32 (R297). -/
def vectorAtomicOp (t : ElemType) (signed unsigned float : AtomicOp) : AtomicOp :=
  if t = .f32 then float else if t.isSigned then signed else unsigned

/-- A vector atomic: each active element at its home (R297). -/
def vectorAtomic (i : Instr) (f : MFields) (op : AtomicOp) (s : State) : Host.Outcome State Fault Refusal :=
  performMemory i s f true (memGroups f) false fun s h =>
    let elem (j : Nat) : Element := { elementOf f h j with aligned := true }
    probedAccess h (govM f) s elem .atomic (probing f) fun ps j s =>
      (s.atomicElement ((elem j).under ps j) op (h.readElem f.d f.et.bits j) 0).bind fun s _ => .ok s ()

/-- VAADD (R297). -/
def execVaadd (f : MFields) (s : State) : Host.Outcome State Fault Refusal :=
  vectorAtomic (.vaadd f) f (vectorAtomicOp f.et .add .add .fadd) s
/-- VAMIN (R297). -/
def execVamin (f : MFields) (s : State) : Host.Outcome State Fault Refusal :=
  vectorAtomic (.vamin f) f (vectorAtomicOp f.et .min .minn .fmin) s
/-- VAMAX (R297). -/
def execVamax (f : MFields) (s : State) : Host.Outcome State Fault Refusal :=
  vectorAtomic (.vamax f) f (vectorAtomicOp f.et .max .maxn .fmax) s

end Sys2Proof.Machine
end

