-- ==== Sys2Proof/Machine/Sync.lean ====
section
/-! DEFINITION. Phase groups and boundaries (R357, R358) and the synchronisation instructions: MAJ 0x30 (R372 to R375). -/

namespace Sys2Proof.Machine

/-! ### Phase groups -/

/-- The unit of a seat at a scope from 1 to 5 (R357). -/
def unitOf (scope seat : Nat) : Nat :=
  match scope with
  | 1 => coreIndex seat
  | 2 => coreIndex seat / 8
  | 3 => dieOf seat
  | _ => 0

/-- The phase group of a member at a scope, as the key of its boundaries; at scope 0 the hart alone (R357). -/
def phaseKey (scope wid seat : Nat) : Nat := if scope = 0 then 8 * wid else 8 * unitOf scope seat + scope

/-- The boundaries of a phase group so far. -/
def Launch.boundary (l : Launch) (key : Nat) : Boundary := (Assoc.find l.boundaries key).getD { complete := 0, clock := [] }

/-- The members of a phase group that a launch has on this device. -/
def Launch.phaseGroup (l : Launch) (scope key : Nat) : Assoc Member :=
  l.members.filter fun p => phaseKey scope p.1 p.2.seat == key

/-- A member has arrived at boundary `n` of its group at a scope; an exited one always has (R358). -/
def Member.arrived (m : Member) (scope n : Nat) : Bool :=
  m.exited || match Assoc.find m.arrivals scope with | none => false | some a => a.number == n

/-- The clock with which a member arrives, or with which it exited. -/
def Member.arrivalClock (m : Member) (scope : Nat) : Assoc Nat :=
  if m.exited then m.clock else match Assoc.find m.arrivals scope with | none => [] | some a => a.clock

/-- The devices taking part in a launch besides this one (R76). (Log 46, DESIGN CHOICE.) -/
def State.otherDevices (s : State) (l : Launch) : Bool :=
  let own := 16 * s.hub.row.toNat + s.hub.col.toNat
  match Assoc.find s.hub.groups (recGroup l.dwords) with
  | none => false
  | some map => (List.range 256).any fun i => i != own && map.getLsbD i

/-- The clock of the other devices of a system launch when its boundary `n` completes: what each wrote before its arrival (R359). -/
def State.remoteClock (s : State) (l : Launch) (n : Nat) : Assoc Nat :=
  let own := 16 * s.hub.row.toNat + s.hub.col.toNat
  match Assoc.find s.hub.groups (recGroup l.dwords) with
  | none => []
  | some map => ((List.range 256).filter fun i => i != own && map.getLsbD i).map fun i => (remoteWho (i / 16) (i % 16), n)

/-- The next boundary of a group completes once every live member has arrived (R358), those of the other devices of a system
launch among them: when they have is not this device's to say (R76). -/
def State.completeBoundary (s : State) (tag : Word) (scope key : Nat) : State :=
  match s.launch? tag with
  | none => s
  | some l =>
    let b := l.boundary key
    let group := l.phaseGroup scope key
    let waiting := group.any fun p => !p.2.exited
    if waiting && group.all fun p => p.2.arrived scope (b.complete + 1) then
      let (pick, s) := s.choose (if scope = 5 && s.otherDevices l then 2 else 1)
      if pick = 0 then
        let clock := joinClock (group.foldl (fun c p => joinClock c (p.2.arrivalClock scope)) b.clock)
          (if scope = 5 then s.remoteClock l (b.complete + 1) else [])
        s.onLaunch tag fun l =>
          { l with boundaries := Assoc.put l.boundaries key { complete := b.complete + 1, clock := clock } }
      else s
    else s

/-- A member's event that others may come to follow: its epoch ends (R359). -/
def Member.close (m : Member) (who : Nat) : Member :=
  { m with clock := Assoc.put m.clock who (m.epoch + 1), epoch := m.epoch + 1 }

/-- A member, the executing hart, arrives at the next boundary of its group at a scope (R358): its earlier accesses have been performed
(R373), its stores to tree memory among them (R45). -/
def State.arrive (s : State) (tag wid : Word) (scope : Nat) : State × Nat :=
  match (s.launch? tag).bind fun l => (Assoc.find l.members wid.toNat).map fun m => (l, m) with
  | none => (s, 0)
  | some (l, m) =>
    let key := phaseKey scope wid.toNat m.seat
    let n := (l.boundary key).complete + 1
    let s := (s.settleTree (.hart s.cur)).onMember tag wid fun m =>
      let m := m.close wid.toNat
      { m with arrivals := Assoc.put m.arrivals scope { number := n, clock := m.clock } }
    (s.completeBoundary tag scope key, n)

/-- What the wait for an outstanding boundary comes to. -/
inductive PhaseWait where
  | idle (s : State)
  | passed (s : State)
  | waits (s : State)

/-- Waits for the boundary at which the hart has arrived (R373): its completion publishes the writes of the group's members
(R359) and what a fetch sees (R101). -/
def State.awaitBoundary (s : State) (h : Hart) (scope : Nat) : PhaseWait :=
  let found (s : State) : Option (Launch × Member × Arrival) :=
    (s.launch? h.tag).bind fun l => (Assoc.find l.members h.wid.toNat).bind fun m =>
      (Assoc.find m.arrivals scope).map fun a => (l, m, a)
  match found s with
  | none => .idle s
  | some (l, m, a) =>
    let key := phaseKey scope h.wid.toNat m.seat
    let s := if (l.boundary key).complete < a.number then s.completeBoundary h.tag scope key else s
    match s.launch? h.tag with
    | none => .idle s
    | some l =>
      let b := l.boundary key
      if b.complete < a.number then .waits s
      else
        let s := s.onMember h.tag h.wid fun m =>
          { m with clock := joinClock m.clock b.clock, arrivals := Assoc.drop m.arrivals scope }
        .passed (s.onCur fun h => { h with code := s.mem })

/-! ### PHASE, PHASEA, PHASEW and FENCE -/

/-- A serialising instruction of MAJ 0x30 (R127, R372). -/
def performSync (i : Instr) (s : State) (effect : State → Hart → Eff State) : Host.Outcome State Fault Refusal :=
  perform i s fun s h => effect (s.onCur Hart.issueAll) h

/-- PHASEW's effect (R373). -/
def phaseWait (s : State) (h : Hart) (scope : Nat) : Eff State :=
  match s.awaitBoundary h scope with
  | .idle s => .seq s
  | .passed s => .seq s
  | .waits s => .hold s

/-- The arrival of PHASE or PHASEA, after the wait for an arrival still outstanding (R373). -/
def phaseArrive (s : State) (h : Hart) (scope : Nat) (k : State → Nat → Eff State) : Eff State :=
  match s.awaitBoundary h scope with
  | .waits s => .hold s
  | .idle s | .passed s =>
    let (s, n) := s.arrive h.tag h.wid scope
    k s n

/-- The hart is in the wait of the PHASE at its PC (R373, R444). -/
def State.waitsInPhase (s : State) (h : Hart) (scope : Nat) : Bool :=
  match (s.launch? h.tag).bind fun l => Assoc.find l.members h.wid.toNat with
  | none => false
  | some m => Assoc.find m.inPhase (bit01 h.trp.prv) == some (h.pc, scope)

/-- The wait of a PHASE has begun, or has ended, at the hart's level. -/
def State.markPhase (s : State) (h : Hart) (x : Option (Word × Nat)) : State :=
  s.onMember h.tag h.wid fun m =>
    { m with inPhase := match x with
        | some p => Assoc.put m.inPhase (bit01 h.trp.prv) p
        | none => Assoc.drop m.inPhase (bit01 h.trp.prv) }

/-- The wait of PHASE, whose arrival stands (R373, R444). -/
def endPhase (s : State) (h : Hart) (scope : Nat) : Eff State :=
  match phaseWait s h scope with
  | .seq s => .seq (s.markPhase h none)
  | r => r

/-- PHASE (R373). -/
def execPhase (f : XFields) (s : State) : Host.Outcome State Fault Refusal :=
  performSync (.phase f) s fun s h =>
    let scope := f.sc.toNat
    if s.waitsInPhase h scope then endPhase s h scope
    else phaseArrive s h scope fun s _ => endPhase (s.markPhase h (some (h.pc, scope))) h scope

/-- PHASEA (R373). -/
def execPhasea (f : XFields) (s : State) : Host.Outcome State Fault Refusal :=
  performSync (.phasea f) s fun s h =>
    phaseArrive s h f.sc.toNat fun s n => .seq (s.onCur fun h => h.setS f.d (BitVec.ofNat 64 (n % 2 ^ 32)))

/-- PHASEW (R373). -/
def execPhasew (f : XFields) (s : State) : Host.Outcome State Fault Refusal :=
  performSync (.phasew f) s fun s h => phaseWait s h f.sc.toNat

/-- FENCE (R374): with one order of all COHERENT accesses (log 6, DESIGN CHOICE) there is nothing left to order; with ACQ the status words
read before it are acquired (R366, R370), and with REL the hart's stores to tree memory are visible to walks (R45). -/
def execFence (f : XFields) (s : State) : Host.Outcome State Fault Refusal :=
  performSync (.fence f) s fun s h =>
    .seq ((s.released f.rel).acquired h f.acq)

/-! ### WAITW -/

/-- The condition of a WAITW (R375). -/
def waitHolds (cond : Nat) (v b : Word) : Bool :=
  match cond with
  | 0 => v == b
  | 1 => v != b
  | 2 => decide (b.toInt ≤ v.toInt)
  | _ => decide (b.toNat ≤ v.toNat)

/-- The word of a WAITW at the host or a peer has been read: the read is noted, and is one more atomic of the hart (R475). -/
def State.waitFarDone (s : State) (h : Hart) (p : Place) (v : Nat) : State :=
  ((s.noteFar h p (toBytesLE 8 v)).atomicDone h p).elementDone

/-- Issues a WAITW's read at the host or a peer. -/
def State.waitFar (s : State) (h : Hart) (va : Nat) (p : Piece) : Got (Nat × Option Place) :=
  Got.issued (s.issueRead (.hart s.cur) p.place 8) [p] [] fun s a =>
    match a with
    | .failed c => .fail (s.onWait Waiting.nextElement) c va
    | .data v => .ok (s.waitFarDone h p.place v) (v, some p.place)

/-- One atomic read of the word at its home (R362, R375), translated with kind read: its value, and its place. -/
def State.waitRead (s : State) (e : Element) : Got (Nat × Option Place) :=
  match s.hart? s.cur with
  | none => .wait s
  | some h =>
    match h.wait.answer, h.wait.request, h.wait.left with
    | some (.failed c), _, _ => .fail (s.onWait Waiting.nextElement) c e.va
    | some (.data v), _, p :: _ => .ok (s.waitFarDone h p.place v) (v, some p.place)
    | some (.data v), _, [] => .ok s.elementDone (v, none)
    | none, some _, _ => .wait s
    | none, none, p :: _ => s.waitFar h e.va p
    | none, none, [] =>
      (s.openElement h e .read).bind fun s ps =>
        match ps with
        | [] => .wait s
        | p :: _ =>
          match s.badPieces ps with
          | some w => .fail (s.logBad (·.of s.cur h) w) .dataerr e.va
          | none =>
            if p.place.target = .peer && !s.inGrid p.place then .fail s .peer e.va
            else
              match s.atomicTurn h with
              | (s, false) => .wait s
              | (s, true) =>
                if p.place.target = .memory then
                  .ok ((s.notePolled h ps).atomicDone h p.place).elementDone (ofBytesLE (s.homeBytes p.place 8), some p.place)
                else s.waitFar h e.va p

/-- A WAITW that ends with acquire observes the nodes whose status word it has read (R370, R375). -/
def State.waitAcquired (s : State) (h : Hart) (p : Place) (v : Nat) : State :=
  if p.target = .memory then s.observePlace h p 8 else s.observeFar h p (toBytesLE 8 v)

/-- WAITW (R375): a step makes one read; while its condition fails the hart goes on waiting. -/
def execWaitw (f : XFields) (s : State) : Host.Outcome State Fault Refusal :=
  performSync (.waitw f) s fun s h =>
    match s.waitRead { va := (h.sreg f.a).toNat, size := 8, lane := 0, aligned := true, hint := 1 } with
    | .fail s c t => .stop s c (BitVec.ofNat 64 t)
    | .wait s => .hold s
    | .ok s (x, at') =>
      let v := BitVec.ofNat 64 x
      if waitHolds (f.imm.toNat % 4) v (h.sreg f.b) then
        let s := match at' with
          | some p => if f.acq then s.waitAcquired h p x else s
          | none => s
        .seq (s.onCur fun h => h.setS f.d v)
      else .hold s

end Sys2Proof.Machine
end

