-- ==== Sys2Proof/Machine/Engines.lean ====
section
/-! DEFINITION. The engines' nodes: submission (R300 to R303), running and finishing (R304 to R310), and the engine
instructions: MAJ 0x31 (R311 to R314). -/

namespace Sys2Proof.Machine

/-! ### Command records (Tables 13.1 to 13.4) -/

/-- A command record's dwords. -/
abbrev Command := Vector Word 8

def cmdKind (c : Command) : Nat := fieldOf (c)[0] 60 4
def cmdPred (c : Command) : Nat := fieldOf (c)[0] 52 8
def cmdHint (c : Command) : Nat := fieldOf (c)[0] 48 4
def cmdScope (c : Command) : Nat := fieldOf (c)[0] 45 3
def cmdAcq (c : Command) : Bool := bitOf (c)[0].toNat 44
def cmdRel (c : Command) : Bool := bitOf (c)[0].toNat 43
def cmdNsucc (c : Command) : Nat := fieldOf (c)[0] 40 3
def cmdFlag (c : Command) : Bool := bitOf (c)[0].toNat 32
def cmdStat (c : Command) : Nat := fieldOf (c)[3] 4 50 * 16
def cmdLen (c : Command) : Nat := fieldOf (c)[6] 0 40
def cmdCount (c : Command) : Nat := fieldOf (c)[7] 0 32
def cmdRow (c : Command) : Nat := fieldOf (c)[7] 32 16
def cmdSortCount (c : Command) : Nat := fieldOf (c)[6] 0 17
def cmdSortRecord (c : Command) : Nat := fieldOf (c)[7] 0 13

/-- Successor field `i` (Table 13.3). -/
def cmdSucc (c : Command) (i : Nat) : Nat :=
  if i = 0 then fieldOf (c)[1] 0 32 else if i = 1 then fieldOf (c)[1] 32 32 else if i = 2 then fieldOf (c)[2] 0 32
  else fieldOf (c)[2] 32 32

/-- The operand fields are within the limits of Table 13.4. -/
def cmdOperandsOk (c : Command) : Bool :=
  match cmdKind c with
  | 0 => fieldOf (c)[6] 40 24 == 0 && (c)[7] == 0 && !cmdFlag c
  | 1 | 2 => fieldOf (c)[7] 48 16 == 0 && cmdRow c % 8 == 0 && 8 ≤ cmdRow c && cmdRow c ≤ 32768
  | 3 => fieldOf (c)[6] 17 47 == 0 && cmdSortCount c ≤ 65536 && fieldOf (c)[7] 13 51 == 0 && cmdSortRecord c % 8 == 0 &&
    8 ≤ cmdSortRecord c && cmdSortRecord c ≤ 4104
  | 4 => fieldOf (c)[7] 48 16 == 0 && 1 ≤ cmdRow c && cmdRow c ≤ 4096 && !cmdFlag c
  | _ => (c)[6] == 0 && (c)[7] == 0 && fieldOf (c)[4] 0 3 == 0

/-- No Reserved field is set and every field is within its limits (Table 13.5, reason 0x02). -/
def cmdFieldsOk (c : Command) : Bool :=
  cmdKind c < 6 && cmdScope c < 6 && (cmdAcq c || cmdRel c || cmdScope c == 0) && cmdNsucc c < 5 &&
  fieldOf (c)[0] 33 7 == 0 && fieldOf (c)[0] 0 32 == 0 && fieldOf (c)[3] 54 10 == 0 && fieldOf (c)[3] 0 4 == 0 &&
  (List.range 4).all (fun i =>
    let x := cmdSucc c i
    if i < cmdNsucc c then bitsOf x 26 5 == 0 && (!bitOf x 31 || bitsOf x 16 10 == 0) else x == 0) &&
  cmdOperandsOk c

/-- Source and destination of a copy or compaction step overlap by virtual address, or those of a sort without being equal
(Table 13.5, reason 0x04). (Log 92, DEDUCED.) -/
def cmdOverlaps (c : Command) : Bool :=
  let a := (c)[4].toNat
  let b := (c)[5].toNat
  match cmdKind c with
  | 0 => overlapping a (cmdLen c) b (cmdLen c)
  | 3 => a != b && overlapping a (cmdSortCount c * cmdSortRecord c) b (cmdSortCount c * cmdSortRecord c)
  | 4 => overlapping a (cmdCount c * cmdRow c) b (cmdCount c * cmdRow c)
  | _ => false

/-- A stretch lies in one of the windows a sort may use (Table 13.5, reason 0x05). -/
def sortWindow (a n : Nat) : Bool :=
  let inside (base size : Nat) : Bool := base ≤ a && a < base + size && a + n ≤ base + size
  inside 0x003FFFFF00000000 0x100000 || inside 0x003FFFFE00000000 0x400000 || inside 0x003FFFF000000000 0x3000000

/-- A sort outside those windows. -/
def cmdMisplaced (c : Command) : Bool :=
  cmdKind c == 3 && let n := cmdSortCount c * cmdSortRecord c
    !(sortWindow (c)[4].toNat n && sortWindow (c)[5].toNat n)

/-! ### Handles and submission -/

/-- The key of a slot, and a handle (R302). -/
def nodeKey (core slot : Nat) : Nat := core * 1024 + slot
def nodeHandle (core gen slot : Nat) : Nat := core * 2 ^ 26 + gen * 2 ^ 10 + slot
/-- The key of the slot a handle names. -/
def handleKey (x : Nat) : Nat := nodeKey (x / 2 ^ 26) (x % 1024)

/-- The handle of the node in a slot. -/
def Node.handle (n : Node) (key : Nat) : Nat := nodeHandle (key / 1024) n.gen (key % 1024)

/-- The node a handle names, with its key: its slot holds it with that GEN (R302). -/
def State.nodeOf (s : State) (x : Nat) : Option (Nat × Node) :=
  if 2 ^ 35 ≤ x then none
  else
    match Assoc.find s.nodes (handleKey x) with
    | none => none
    | some n => if n.gen = x / 1024 % 2 ^ 16 then some (handleKey x, n) else none

/-- The slots of a core that hold no unfinished node. -/
def State.freeSlots (s : State) (core : Nat) : List Nat :=
  (List.range 1024).filter fun i => match Assoc.find s.nodes (nodeKey core i) with
    | none => true
    | some n => n.st == .finished

/-- A successor that a command may name: a waiting node of the same launch (Table 13.5, reason 0x03). -/
def State.nameable (s : State) (tag : Word) (x : Nat) : Bool :=
  match s.nodeOf x with
  | none => false
  | some (_, n) => n.tag == tag && n.st == .waiting

/-- The handles that the successor fields name; none when one of them is refused. `batch` holds what the earlier commands of
the same ECMD came to: a handle, or none when rejected or inactive. -/
def State.namedSuccessors (s : State) (tag : Word) (core : Nat) (batch : List (Option Nat)) (c : Command) : Option (List Nat) :=
  (List.range (cmdNsucc c)).foldl (fun acc i =>
    acc.bind fun xs =>
      let x := cmdSucc c i
      let target := if bitOf x 31 then (batch[bitsOf x 0 16]?).join else some (core * 2 ^ 26 + bitsOf x 0 26)
      target.bind fun t => if s.nameable tag t then some (xs ++ [t]) else none) (some [])

/-- The first reason of Table 13.5 for which a command is rejected, or its successors. (Log 13, DEDUCED.) -/
def State.judge (s : State) (h : Hart) (core : Nat) (batch : List (Option Nat)) (c : Command) : Except Nat (List Nat) :=
  if (s.freeSlots core).isEmpty then .error 1
  else if !cmdFieldsOk c then .error 2
  else
    match s.namedSuccessors h.tag core batch c with
    | none => .error 3
    | some xs => if cmdOverlaps c then .error 4 else if cmdMisplaced c then .error 5 else .ok xs

/-- Submits a command of the executing hart: the value for the destination, and the handle when it is accepted (R302, R303).
The free slot taken is the device's choice, and a slot's first node has GEN 1 (log 18, DESIGN CHOICE). -/
def State.submit (s : State) (batch : List (Option Nat)) (c : Command) : State × Word × Option Nat :=
  match s.hart? s.cur with
  | none => (s, 0, none)
  | some h =>
    let core := coreIndex s.cur
    match s.judge h core batch c with
    | .error r => (s, BitVec.ofNat 64 (2 ^ 63 + r), none)
    | .ok succ =>
      let free := s.freeSlots core
      let (pick, s) := s.choose free.length
      let slot := (free[pick]?).getD 0
      let key := nodeKey core slot
      let gen := match Assoc.find s.nodes key with | none => 1 | some n => (n.gen + 1) % 2 ^ 16
      let handle := nodeHandle core gen slot
      let m := (s.launchOf h).bind fun l => Assoc.find l.members h.wid.toNat
      let node : Node :=
        { gen := gen, st := if cmdPred c = 0 then .released else .waiting, tag := h.tag, wid := h.wid, asid := h.asid,
          dwords := c, count := cmdPred c, succ := succ, ancestors := [], cancelled := false, status := 0, fval := 0,
          epoch := match m with | none => 0 | some m => m.epoch, clock := match m with | none => [] | some m => m.clock,
          position := s.writeSeq, ordinal := h.submissions, plan := [], closing := false, request := none, answer := none }
      let d : Deferred :=
        { who := h.wid.toNat, rel := cmdRel c, finished := false, placed := false, status := none, writes := [] }
      let s := { s with nodes := Assoc.put s.nodes key node }
      let s := s.onLaunch h.tag fun l => { l with deferred := Assoc.put l.deferred handle d }
      (s.onCur fun h => { h with submissions := h.submissions + 1 }, BitVec.ofNat 64 handle, some handle)

/-! ### A node's accesses -/

/-- The root that a launch's accesses in an address space use (R46, R47). -/
def State.asidRoot (s : State) (tag : Word) (asid : BitVec 16) : Option Nat :=
  match s.launch? tag with
  | some l => if recAsid l.dwords = asid then some (recRoot l.dwords) else s.rootOf asid
  | none => s.rootOf asid

/-- A node as an agent: no lane, so that it reaches no lane slice (R262, R301; log 19, DEDUCED). -/
def State.nodeAgent (s : State) (key : Nat) (n : Node) : Agent :=
  { holder := key / 1024, asid := n.asid, root := s.asidRoot n.tag n.asid, core := some (key / 1024), slice := none,
    hart := some (n.tag, n.wid) }

/-- Translates `n` bytes from `va` on in granules: as one element when `d` holds the range its lower bytes lie in (R48), else
byte by byte. -/
def State.routeOn (s : State) (g : Agent) (d : Option Descriptor) (k : Access) :
    Nat → Nat → Nat → State × Except (Cause × Nat) (List Piece)
  | 0, _, _ => (s, .ok [])
  | fuel + 1, va, n =>
    if n = 0 then (s, .ok [])
    else
      let m := Nat.min n (256 - va % 256)
      match s.translateUpper g d va k with
      | (s, .error c) => (s, .error (c, va))
      | (s, .ok p) =>
        match s.routeOn g d k fuel ((va + m) % 2 ^ 64) (n - m) with
        | (s, .error e) => (s, .error e)
        | (s, .ok ps) => (s, .ok ({ place := p, size := m } :: ps))

/-- Translates a row or element of any size (R48). -/
def State.routeRow (s : State) (g : Agent) (va n : Nat) (k : Access) : State × Except (Cause × Nat) (List Piece) :=
  let m := Nat.min n (256 - va % 256)
  match s.translateFull g va k with
  | (s, .error c) => (s, .error (c, va))
  | (s, .ok (p, d)) =>
    match s.routeOn g d k (granules n) ((va + m) % 2 ^ 64) (n - m) with
    | (s, .error e) => (s, .error e)
    | (s, .ok ps) => (s, .ok ({ place := p, size := m } :: ps))

/-- A row of a kind other than copy lies in the device (R308). -/
def State.routeNear (s : State) (g : Agent) (va n : Nat) (k : Access) : State × Except (Cause × Nat) (List Piece) :=
  match s.routeRow g va n k with
  | (s, .ok ps) => (s, if farPieces ps then .error (.rperm, va) else .ok ps)
  | r => r

/-- Lays the writes of finished predecessors over bytes read from `a` on (R306). (Log 36, DEDUCED.) -/
def layAncestors (l : Launch) (n : Node) (a : Nat) (bytes : List Byte) : List Byte :=
  n.ancestors.foldl (fun xs k =>
    match Assoc.find l.deferred k with
    | none => xs
    | some d => (d.writes.filter fun w => w.touches a bytes.length).foldl
        (fun xs w => overlay xs a { source := 0, addr := w.addr, bytes := w.bytes, nibble := w.nibble }) xs) bytes

/-- Chooses each byte between two readings (R306). -/
def State.blend (s : State) : List Byte → List Byte → List Byte × State
  | x :: xs, y :: ys =>
    let (pick, s) := s.choose (if x = y then 1 else 2)
    let (zs, s) := s.blend xs ys
    ((if pick = 0 then x else y) :: zs, s)
  | xs, _ => (xs, s)

/-- The bytes a node reads at a place in the device: with ACQ those of a plain read at its submission (R370); without, a byte
the hart wrote before may be old (R306). -/
def State.nodeRead (s : State) (n : Node) (p : Piece) : List Byte × State :=
  match s.launch? n.tag with
  | none => (s.mem.readBytes p.place.addr p.size, s)
  | some l =>
    if !p.place.phased then (s.mem.readBytes p.place.addr p.size, s)
    else
      let view (own : Nat) : Reader := { who := n.wid.toNat, clock := n.clock, upTo := some own }
      let (xs, s) := s.phasedBytes l (view n.position) p.place.addr p.size
      let (xs, s) :=
        if cmdAcq n.dwords then (xs, s)
        else
          let (ys, s) := s.phasedBytes l (view 0) p.place.addr p.size
          s.blend xs ys
      (layAncestors l n p.place.addr xs, s)

/-- The bytes of pieces in the device, or the address of the first failing word met (R267). -/
def State.nodeReadAll (s : State) (n : Node) : List Piece → State × Except Nat (List Byte)
  | [] => (s, .ok [])
  | p :: ps =>
    match s.badWord p.place.addr p.size with
    | some w => (s.logBad (·.ofWid s.harts n.tag n.wid n.asid) w, .error w)
    | none =>
      let (xs, s) := s.nodeRead n p
      match s.nodeReadAll n ps with
      | (s, .error w) => (s, .error w)
      | (s, .ok ys) => (s, .ok (xs ++ ys))

/-- A deferred PHASED write of a launch: foreign to the others, and without REL promised to no one before the launch's end
(R306, R370). (Log 40, DEDUCED.) -/
def State.deferWrite (s : State) (tag : Word) (key : Nat) (addr : Nat) (bytes : List Byte) (width : Nat) (home : Bool) :
    State :=
  let w : WriteRec :=
    { seq := s.writeSeq, who := 0, epoch := 0, clock := [], addr := addr, bytes := bytes, nibble := 0, width := width,
      home := home }
  let f : ForeignRec := { source := tag.toNat, addr := addr, bytes := bytes, nibble := 0 }
  { s with
    writeSeq := s.writeSeq + 1,
    launches := s.launches.map fun p =>
      (p.1,
        if p.1 = tag.toNat then
          let l := { p.2 with deferred := Assoc.change p.2.deferred key fun d => { d with writes := d.writes ++ [w] } }
          match Assoc.find l.deferred key with
          | some d => if d.rel then l else { l with foreign := l.foreign ++ [f] }
          | none => l
        else { p.2 with foreign := p.2.foreign ++ [f] }) }

/-- A node's or Whisk's write of bytes of `width`-bit elements at a place in the device, an atomic one when `home`; a walk may miss a
plain one until the node has finished (R45). -/
def State.deliverAs (s : State) (tag wid : Word) (key : Nat) (p : Place) (bytes : List Byte) (width : Nat) (home : Bool) :
    State :=
  if p.phased then
    let before := s.mem
    let s := (s.storeHome none p.addr bytes 0).markDirty p bytes.length
    (if home then s else s.noteTreeStore (.node key) p.addr bytes.length before).deferWrite tag key p.addr bytes width home
  else
    s.writePlace { seat := none, launch := some tag.toNat, who := wid.toNat, storer := some (.node key) } p bytes 0 width home

/-- A node's or Whisk's plain write of bytes. -/
def State.deliverBytes (s : State) (tag wid : Word) (key : Nat) (p : Place) (bytes : List Byte) : State :=
  s.deliverAs tag wid key p bytes 8 false

/-! ### Plans (R308, R309) -/

/-- Changes a node. -/
def State.onNode (s : State) (key : Nat) (f : Node → Node) : State := { s with nodes := Assoc.change s.nodes key f }

/-- Status dword 0 (Table 13.6), OVERDEC apart. -/
def statusWord (code cause count : Nat) : Word := BitVec.ofNat 64 (code * 2 ^ 56 + cause * 2 ^ 48 + count % 2 ^ 40)

/-- A node fails: nothing more is delivered (R308). -/
def Node.fail (n : Node) (c : Cause) (count fval : Nat) : Node :=
  { n with status := statusWord 1 c.code.toNat count, fval := BitVec.ofNat 64 fval, plan := [], request := none,
           answer := none }

/-- Takes `n` bytes off the front of a list of pieces. -/
def takePieces : Nat → List Piece → List Piece × List Piece
  | _, [] => ([], [])
  | n, p :: ps =>
    if n = 0 then ([], p :: ps)
    else if p.size ≤ n then
      let r := takePieces (n - p.size) ps
      (p :: r.1, r.2)
    else ([{ p with size := n }], { place := { p.place with addr := p.place.addr + n }, size := p.size - n } :: ps)

/-- Cuts source and destination of a copy into lines of 128 bytes from P0 on. -/
def copyLines : Nat → Nat → List Piece → List Piece → List Move
  | 0, _, _, _ => []
  | fuel + 1, pos, srcs, dsts =>
    if srcs.isEmpty then []
    else
      let a := takePieces 128 srcs
      let b := takePieces 128 dsts
      { srcs := splitWords a.1, got := [], dsts := splitBlocks b.1, pos := pos } :: copyLines fuel (pos + 128) a.2 b.2

/-- What planning a node comes to: its moves with the COUNT of success, or its failure. -/
abbrev Planned := Except (Cause × Nat) (List Move × Nat)

/-- A copy: every byte of both extents translates, or the lowest failing address ends it (R308). (Log 37, DEDUCED.) -/
def State.planCopy (s : State) (g : Agent) (c : Command) : State × Planned :=
  let len := cmdLen c
  let (s, rs) := s.routeOn g none .read (granules len) (c)[4].toNat len
  let (s, rd) := s.routeOn g none .write (granules len) (c)[5].toNat len
  match rs, rd with
  | .error a, .error b => (s, .error (if b.2 < a.2 then b else a))
  | .error a, .ok _ => (s, .error a)
  | .ok _, .error b => (s, .error b)
  | .ok srcs, .ok dsts => (s, .ok (copyLines (len / 128 + 1) 0 srcs dsts, len))

/-- Reads an index, or a flag under the command's hint (R269, R301), at `va`: a position whose own entry fails fails with its cause
(R308). -/
def State.readEntry (s : State) (g : Agent) (n : Node) (va size : Nat) : State × Except Cause Nat :=
  match s.routeNear g va size .read with
  | (s, .error e) => (s, .error e.1)
  | (s, .ok ps) =>
    match s.nodeReadAll n ps with
    | (s, .error _) => (s, .error .dataerr)
    | (s, .ok xs) =>
      (if cmdKind n.dwords = 4 then s.pinPieces n.tag ps (cmdHint n.dwords) else s, .ok (ofBytesLE xs))

/-- One row from `src` to `dst` at position `pos`. -/
def State.planRow (s : State) (g : Agent) (src dst size pos : Nat) : State × Except Cause Move :=
  match s.routeNear g src size .read with
  | (s, .error e) => (s, .error e.1)
  | (s, .ok srcs) =>
    match s.routeNear g dst size .write with
    | (s, .error e) => (s, .error e.1)
    | (s, .ok dsts) => (s, .ok { srcs := srcs, got := [], dsts := dsts, pos := pos })

/-- The rows of a gather or scatter from position `j` on (R309): the index, then its row's source, then its destination. -/
def State.planRows (s : State) (g : Agent) (n : Node) (gather : Bool) : Nat → Nat → State × Except (Cause × Nat) (List Move)
  | 0, _ => (s, .ok [])
  | left + 1, j =>
    let c := n.dwords
    let iw := if cmdFlag c then 8 else 4
    match s.readEntry g n (((c)[4].toNat + j * iw) % 2 ^ 64) iw with
    | (s, .error e) => (s, .error (e, j))
    | (s, .ok idx) =>
      let row := ((c)[5].toNat + idx * cmdRow c) % 2 ^ 64
      let flat := ((c)[6].toNat + j * cmdRow c) % 2 ^ 64
      match (if gather then s.planRow g row flat (cmdRow c) j else s.planRow g flat row (cmdRow c) j) with
      | (s, .error e) => (s, .error (e, j))
      | (s, .ok m) =>
        match s.planRows g n gather left (j + 1) with
        | (s, .error e) => (s, .error e)
        | (s, .ok ms) => (s, .ok (m :: ms))

/-- The elements of a compaction step from position `j` on, `k` of them packed already (R309). -/
def State.planPacked (s : State) (g : Agent) (n : Node) : Nat → Nat → Nat → State × Except (Cause × Nat) (List Move)
  | 0, _, _ => (s, .ok [])
  | left + 1, j, k =>
    let c := n.dwords
    match s.readEntry g n (((c)[6].toNat + j) % 2 ^ 64) 1 with
    | (s, .error e) => (s, .error (e, j))
    | (s, .ok flag) =>
      if flag = 0 then s.planPacked g n left (j + 1) k
      else
        match s.planRow g (((c)[4].toNat + j * cmdRow c) % 2 ^ 64) (((c)[5].toNat + k * cmdRow c) % 2 ^ 64) (cmdRow c) j with
        | (s, .error e) => (s, .error (e, j))
        | (s, .ok m) =>
          match s.planPacked g n left (j + 1) (k + 1) with
          | (s, .error e) => (s, .error e)
          | (s, .ok ms) => (s, .ok (m :: ms))

/-- Inserts a record before the first whose key is greater, among records in order. -/
def insertRecord (kw : Nat) (x : List Byte) : List (List Byte) → List (List Byte)
  | [] => [x]
  | y :: ys =>
    if ofBytesLE (x.take kw) < ofBytesLE (y.take kw) then x :: y :: ys else y :: insertRecord kw x ys

/-- Cuts bytes into records. -/
def cutRecords (size : Nat) : Nat → List Byte → List (List Byte)
  | 0, _ => []
  | n + 1, xs => xs.take size :: cutRecords size n (xs.drop size)

/-- A sort (R309): read, ordered by key with equal keys in their source order, and to be written as a whole. A failing word
leaves each destination byte old or some source byte, and COUNT is how many records the device says were written (R308). -/
def State.planSort (s : State) (g : Agent) (key : Nat) (n : Node) : State × Except (Cause × Nat × Nat) (List Move × Nat) :=
  let c := n.dwords
  let count := cmdSortCount c
  let size := count * cmdSortRecord c
  let (s, rs) := s.routeOn g none .read (granules size) (c)[4].toNat size
  let (s, rd) := s.routeOn g none .write (granules size) (c)[5].toNat size
  match rs, rd with
  | .error a, _ => (s, .error (a.1, 0, a.2))
  | _, .error b => (s, .error (b.1, 0, b.2))
  | .ok srcs, .ok dsts =>
    match s.nodeReadAll n srcs with
    | (s, .ok xs) =>
      let s := s.pinPieces n.tag srcs (cmdHint c)
      let kw := if cmdFlag c then 8 else 4
      let out := ((cutRecords (cmdSortRecord c) count xs).foldl (fun r x => insertRecord kw x r) []).flatten
      (s, .ok ([{ srcs := [], got := out, dsts := dsts, pos := 0 }], count))
    | (s, .error w) =>
      let before := (srcs.takeWhile fun p => !overlapping (8 * w) 8 p.place.addr p.size)
      let va := (c)[4].toNat + (before.map fun p => p.size).sum +
        match (srcs.drop before.length).head? with | none => 0 | some p => 8 * w - p.place.addr
      let bytes := srcs.flatMap fun p => s.mem.readBytes p.place.addr p.size
      let scatter (s : State) (p : Piece) : State :=
        forElems (fun i s =>
          let (pick, s) := s.choose (bytes.length + 1)
          match bytes[pick]? with
          | none => s
          | some b => s.deliverBytes n.tag n.wid (n.handle key) { p.place with addr := p.place.addr + i } [b]) p.size 0 s
      let s := dsts.foldl scatter s
      let (written, s) := s.choose (count + 1)
      (s, .error (.dataerr, written, va))

/-- The signal's one access (R309): a store to be delivered, or an addition performed at the home there and then (R362); none
while the addition waits for its turn in a replay (R476). -/
def State.planSignal (s : State) (g : Agent) (key : Nat) (n : Node) : State × Option (Except (Cause × Nat) (List Move)) :=
  let c := n.dwords
  let va := (c)[4].toNat
  if va = 0 then (s, some (.ok []))
  else
    match s.routeNear g va 8 (if cmdFlag c then .atomic else .write) with
    | (s, .error e) => (s, some (.error (e.1, va)))
    | (s, .ok ps) =>
      if !cmdFlag c then (s, some (.ok [{ srcs := [], got := toBytesLE 8 (c)[5].toNat, dsts := ps, pos := 0 }]))
      else
        match ps with
        | [] => (s, some (.ok []))
        | p :: _ =>
          match s.badWord p.place.addr 8 with
          | some w => (s.logBad (·.ofWid s.harts n.tag n.wid n.asid) w, some (.error (.dataerr, va)))
          | none =>
            match s.replayTurn n.tag .atomic n.wid fun row => row.data == BitVec.ofNat 64 (2 ^ 63 + n.ordinal) with
            | (s, false) => (s, none)
            | (s, true) =>
              let new := (ofBytesLE (s.homeBytes p.place 8) + (c)[5].toNat) % 2 ^ 64
              let s := s.pinPieces n.tag ps (cmdHint c)
              let s := s.deliverAs n.tag n.wid (n.handle key) p.place (toBytesLE 8 new) 64 true
              let (what, s) := s.atomicWhat p.place
              (s.eventDone n.tag { type := EventType.atomic.code, bmask := 0, who := n.wid, what := what,
                                   data := BitVec.ofNat 64 (2 ^ 63 + n.ordinal) }, some (.ok []))

/-- The node begins: all its translations and index reads, then its moves (R308); an adding signal of a replayed launch may still have
to wait (R476). -/
def State.planNode (s : State) (key : Nat) (n : Node) : State :=
  let g := s.nodeAgent key n
  let c := n.dwords
  let ready (s : State) (ms : List Move) (count : Nat) : State :=
    s.onNode key fun n => { n with st := .running, plan := ms, status := statusWord 0 0 count }
  let failed (s : State) (cause : Cause) (count fval : Nat) : State :=
    s.onNode key fun n => { n.fail cause count fval with st := .running }
  match cmdKind c with
  | 0 => match s.planCopy g c with
    | (s, .ok (ms, k)) => ready s ms k
    | (s, .error e) => failed s e.1 0 e.2
  | 1 | 2 => match s.planRows g n (cmdKind c == 1) (cmdCount c) 0 with
    | (s, .ok ms) => ready s ms (cmdCount c)
    | (s, .error e) => failed s e.1 0 e.2
  | 3 => match s.planSort g key n with
    | (s, .ok (ms, k)) => ready s ms k
    | (s, .error e) => failed s e.1 e.2.1 e.2.2
  | 4 => match s.planPacked g n (cmdCount c) 0 0 with
    | (s, .ok ms) => ready s ms ms.length
    | (s, .error e) => failed s e.1 0 e.2
  | _ => match s.planSignal g key n with
    | (s, none) => s
    | (s, some (.ok ms)) => ready s ms 0
    | (s, some (.error e)) => failed s e.1 0 e.2

/-! ### Delivery -/

/-- The FVAL of a failure at a position: of a copy its line's address (R308). -/
def Node.failingValue (n : Node) (pos : Nat) : Nat := if cmdKind n.dwords = 0 then n.dwords[4].toNat + pos else pos

/-- Replaces the first move of the plan and clears the exchange with the host or a peer. -/
def State.setMove (s : State) (key : Nat) (m : Move) : State :=
  s.onNode key fun n => { n with plan := m :: n.plan.drop 1, request := none, answer := none }

/-- CODE of a status (Table 13.6). -/
def statusCode (x : Word) : Nat := fieldOf x 56 8

/-- A status write that faults is logged with the node's CODE (R307, Table 3.12). (Log 65, DEDUCED.) -/
def State.logStatus (s : State) (n : Node) : State :=
  s.log .engine ((blankEntry 1 (statusCode n.status) (BitVec.ofNat 64 (cmdStat n.dwords))).ofWid s.harts n.tag n.wid n.asid)

/-- Where the status word of a node stands (R307, R370). -/
def State.onStatus (s : State) (n : Node) (key : Nat) (x : Option StatusAt) : State :=
  s.onLaunch n.tag fun l => { l with deferred := Assoc.change l.deferred (n.handle key) fun d => { d with status := x } }

/-- A delivery that cannot go on: the node fails at its position, or a status write is logged (R307, R308). -/
def State.failMove (s : State) (key : Nat) (n : Node) (pos : Nat) (c : Cause) : State :=
  if n.closing then
    ((s.onNode key fun n => { n with plan := [], request := none, answer := none }).onStatus n key none).logStatus n
  else s.onNode key fun n => n.fail c pos (n.failingValue pos)

/-- Takes up an issued request of a node, or waits for its answer. -/
def State.moveIssued (s : State) (key : Nat) : Issued → State
  | .answered a => s.onNode key fun n => { n with answer := some a }
  | .sent tag => s.onNode key fun n => { n with request := some tag }
  | .full => s

/-- One part of a node's delivery, its lines under the command's hint (R268, R269); none when there is nothing to do, or an answer is awaited. -/
def State.moveNode (s : State) (key : Nat) : Option State :=
  match Assoc.find s.nodes key with
  | none => none
  | some n =>
    match n.plan with
    | [] => none
    | m :: rest =>
      match m.srcs, m.dsts with
      | p :: ps, _ =>
        if p.place.target = .memory then
          match s.badWord p.place.addr p.size with
          | some w => some ((s.logBad (·.ofWid s.harts n.tag n.wid n.asid) w).failMove key n m.pos .dataerr)
          | none =>
            let (xs, s) := (s.pinPieces n.tag [p] (cmdHint n.dwords)).nodeRead n p
            some (s.setMove key { m with srcs := ps, got := m.got ++ xs })
        else
          match n.answer, n.request with
          | some (.failed c), _ => some (s.failMove key n m.pos c)
          | some (.data v), _ => some (s.setMove key { m with srcs := ps, got := m.got ++ toBytesLE p.size v })
          | none, some _ => none
          | none, none =>
            let (s, i) := s.issueRead (.node key) p.place p.size
            some (s.moveIssued key i)
      | [], p :: ps =>
        let here := m.got.take p.size
        let next := { m with got := m.got.drop p.size, dsts := ps }
        if p.place.target = .memory then
          let s := s.deliverAs n.tag n.wid (n.handle key) p.place here (if cmdKind n.dwords = 5 then 64 else 8) false
          some ((s.pinPieces n.tag [p] (cmdHint n.dwords)).setMove key next)
        else
          match n.answer, n.request with
          | some (.failed c), _ => some (s.failMove key n m.pos c)
          | some (.data _), _ => some (s.setMove key next)
          | none, some _ => none
          | none, none =>
            let (s, i) := s.issueWrite (.node key) p.place here
            some (s.moveIssued key i)
      | [], [] => some (s.onNode key fun n => { n with plan := rest })

/-- Up to `k` parts of a node's delivery. -/
def State.moveSome (s : State) (key : Nat) : Nat → State
  | 0 => s
  | k + 1 => match s.moveNode key with
    | none => s
    | some s => s.moveSome key k

/-- An upper bound on the parts a plan takes. -/
def planSteps (ms : List Move) : Nat := (ms.map fun m => 2 * (m.srcs.length + m.dsts.length) + 1).sum

/-! ### Finishing (R304 to R307) -/

/-- The decrements of a successor that nodes whose status is under way are still to make: each is settled with that status (R304, R307;
log 38, DEDUCED). -/
def State.underWayDecrements (s : State) (x : Nat) : Nat :=
  (s.nodes.map fun (p : Nat × Node) =>
    if p.2.st = .running && p.2.closing && statusCode p.2.status = 0 then p.2.succ.count x else 0).sum

/-- A decrement of this successor after `k` others of the same node would be discarded with OVERDEC (R304). -/
def State.overDecrement (s : State) (x k : Nat) : Bool :=
  match s.nodeOf x with
  | none => true
  | some (_, n) => if n.st = .waiting then n.count ≤ k + s.underWayDecrements x else !n.cancelled

/-- The successors with whether the decrement of each, made one after another, would be discarded (R304). -/
def State.decrements (s : State) (xs : List Nat) : List (Nat × Bool) :=
  xs.zipIdx.map fun (p : Nat × Nat) => (p.1, s.overDecrement p.1 ((xs.take p.2).count p.1))

/-- Some decrement of the successors would be (R304). -/
def State.overDecrements (s : State) (xs : List Nat) : Bool := (s.decrements xs).any Prod.snd

/-- One successor's count goes down; at zero it is released (R304). -/
def State.decrement (s : State) (from' : List Nat) (x : Nat) : State :=
  match s.nodeOf x with
  | none => s
  | some (key, n) =>
    if n.st = .waiting then
      s.onNode key fun n =>
        { n with count := n.count - 1, st := if n.count ≤ 1 then .released else .waiting,
                 ancestors := n.ancestors ++ from'.filter fun a => !n.ancestors.contains a }
    else s

/-- One successor is cancelled: it performs nothing, its status will say so, and whatever else names it is discarded with no flag
(R305). (Log 35, DEDUCED.) -/
def State.cancel (s : State) (x : Nat) : State :=
  match s.nodeOf x with
  | none => s
  | some (key, n) =>
    if n.st = .waiting then
      let forget (n : Node) : Node := { n with succ := n.succ.filter (· != x) }
      let s := { s with nodes := s.nodes.map fun (p : Nat × Node) => (p.1, forget p.2) }
      s.onNode key fun n => { n with st := .running, cancelled := true, plan := [], status := statusWord 2 0 0, fval := 0 }
    else s

/-- The node is finished: its status stands, its deferred writes are complete, walks see them (R45), and its successors hear of it (R303
to R305). -/
def State.finishNode (s : State) (key : Nat) : State :=
  match Assoc.find s.nodes key with
  | none => s
  | some n =>
    let handle := n.handle key
    let s := (s.onNode key fun n => { n with st := .finished, plan := [], closing := false }).settleTree (.node handle)
    let s := s.onLaunch n.tag fun l =>
      { l with deferred := Assoc.change l.deferred handle fun d => { d with finished := true } }
    match statusCode n.status with
    | 0 => n.succ.foldl (fun s x => s.decrement (n.ancestors ++ [handle]) x) s
    | 1 | 2 => n.succ.foldl State.cancel s
    | _ => s

/-- The node's deliveries are over: its status is settled, with OVERDEC for the decrements that are discarded, so that those of the others
are made (R304), and written when STAT names a place (R307). (Log 38, DEDUCED.) -/
def State.closeNode (s : State) (key : Nat) (n : Node) : State :=
  let past := statusCode n.status = 0 && s.overDecrements n.succ
  let status := if past then n.status ||| BitVec.ofNat 64 (2 ^ 47) else n.status
  let succ := if past then ((s.decrements n.succ).filter fun p => !p.2).map Prod.fst else n.succ
  let s := s.onNode key fun n => { n with status := status, succ := succ }
  let stat := cmdStat n.dwords
  if stat = 0 then s.finishNode key
  else
    match s.translate (s.nodeAgent key n) stat .write with
    | (s, .error _) => (s.logStatus n).finishNode key
    | (s, .ok p) =>
      let bytes := toBytesLE 8 status.toNat ++ toBytesLE 8 n.fval.toNat
      let s := s.onStatus n key (some { target := p.target, row := p.row, col := p.col, addr := p.addr, bytes := bytes })
      if p.target = .memory then (s.deliverBytes n.tag n.wid (n.handle key) p bytes).finishNode key
      else
        s.onNode key fun n =>
          { n with closing := true, plan := [{ srcs := [], got := bytes, dsts := splitBlocks [{ place := p, size := 16 }], pos := 0 }] }

/-! ### The engine's steps -/

/-- ENGINE_NODE_START (R304, R308): a released node begins; some of its deliveries may be made at once. -/
def execEngineNodeStart (core slot : Nat) (s : State) : Host.Outcome State Fault Refusal :=
  let key := nodeKey core slot
  match Assoc.find s.nodes key with
  | none => .next s
  | some n =>
    if n.st ≠ .released then .next s
    else
      let s := s.planNode key n
      match Assoc.find s.nodes key with
      | none => .next s
      | some n =>
        let (k, s) := s.choose (planSteps n.plan + 1)
        .next (s.moveSome key k)

/-- The nodes that were never released finish in increasing slot order on each core (R310). -/
def State.earlierNeverReleased (s : State) (key : Nat) (n : Node) : Bool :=
  statusCode n.status == 3 && s.nodes.any fun p =>
    p.1 / 1024 == key / 1024 && p.1 < key && p.2.tag == n.tag && p.2.st == .running && statusCode p.2.status == 3

/-- ENGINE_NODE_FINISH (R303, R304): the remaining deliveries, the status and the successors, as far as no answer is awaited. -/
def execEngineNodeFinish (core slot : Nat) (s : State) : Host.Outcome State Fault Refusal :=
  let key := nodeKey core slot
  match Assoc.find s.nodes key with
  | none => .next s
  | some n =>
    if n.st ≠ .running || s.earlierNeverReleased key n then .next s
    else
      let s := s.moveSome key (planSteps n.plan)
      match Assoc.find s.nodes key with
      | none => .next s
      | some n =>
        if !n.plan.isEmpty then .next s
        else if n.closing then .next (s.finishNode key)
        else .next (s.closeNode key n)

/-- The value names a node of the launch that has not finished. -/
def State.unfinished (s : State) (tag x : Word) : Bool :=
  match s.nodeOf x.toNat with
  | none => false
  | some (_, n) => n.tag == tag && n.st != .finished

/-- A hart with this PC and these registers stands at the EWAIT in which the member waits, at either level, on an unfinished
node of the launch (R310). -/
def State.atEwait (s : State) (tag : Word) (m : Member) (pc : Word) (reg : RegIdx → Word) : Bool :=
  m.inEwait.any fun e => e.2.pc == pc && s.unfinished tag (reg e.2.reg)

/-- The register of the EWAIT that stands in the device's memory at an address of an address space, when one does. -/
def State.ewaitAt (s : State) (asid : BitVec 16) (root va : Nat) : Option RegIdx :=
  match s.findRange asid root va with
  | .found leaf slot _ =>
    let d := s.descriptorAt (slotAddr leaf slot)
    if d.valid && d.tgt == 0 then
      match decodeWord (s.mem.dword (d.move va)) with
      | .ok (.ewait f) => some f.a
      | _ => none
    else none
  | _ => none

/-- A hart of a launch that has been stopped stands with its PC at an EWAIT, begun or not, on an unfinished node of the launch (R310). -/
def State.stoppedAtEwait (s : State) (tag : Word) (l : Launch) (m : Member) (pc : Word) (reg : RegIdx → Word) : Bool :=
  m.inEwait.any (fun e => e.2.pc == pc && s.unfinished tag e.2.handle) ||
  match s.ewaitAt (recAsid l.dwords) (recRoot l.dwords) pc.toNat with
  | none => false
  | some r => s.unfinished tag (reg r)

/-- A member's hart waits in EWAIT or stands stopped at one (R310): seated, stopped by a trap that it handles, vacated, or saved by
TSAVE. `pcOf` and `regOf` give the PC to which a vacated hart returns, and its registers. -/
def State.waitsInEwait (s : State) (tag : Word) (l : Launch) (wid : Nat) (m : Member) (pcOf : Nat → Word)
    (regOf : Nat → RegIdx → Word) : Bool :=
  let seated := s.harts.filter fun p => p.2.tag == tag && p.2.wid.toNat == wid
  let away := s.vacated.filter fun p => p.2.tag == tag && p.2.wid.toNat == wid
  seated.any (fun p => !p.2.halted && (s.atEwait tag m p.2.pc p.2.sreg ||
    p.2.trp.prv && s.stoppedAtEwait tag l m p.2.trp.tpc p.2.sreg)) ||
  away.any (fun p => s.atEwait tag m (pcOf p.1) (regOf p.1) || s.stoppedAtEwait tag l m (pcOf p.1) (regOf p.1)) ||
  (seated.isEmpty && away.isEmpty && match Assoc.find m.inEwait 0 with
    | none => false
    | some e => s.unfinished tag e.handle)

/-- Whether the waiting nodes of a launch can no longer be released (R310). (Log 39, DEDUCED.) -/
def State.neverReleased (s : State) (tag : Word) (pcOf : Nat → Word) (regOf : Nat → RegIdx → Word) : Bool :=
  match s.launch? tag with
  | none => false
  | some l =>
    let live := l.members.filter fun p => !p.2.exited
    s.nodes.all (fun p => p.2.tag != tag || (p.2.st != .released && p.2.st != .running)) &&
    live.all (fun p => s.waitsInEwait tag l p.1 p.2 pcOf regOf) &&
    (!live.isEmpty || l.ended || recWidcount l.dwords ≤ l.members.length)

/-- Every waiting node of a launch finishes with CODE 0x03 (R310, R470). -/
def State.endWaiting (s : State) (tag : Word) : State :=
  { s with nodes := s.nodes.map fun p =>
      (p.1, if p.2.tag = tag && p.2.st = .waiting then
          { p.2 with st := .running, plan := [], status := statusWord 3 0 0, fval := 0 }
        else p.2) }

/-! ### The engine instructions -/

/-- ESUB's effect (R312): the record is a plain read of the hart, MISALIGN coming first. (Log 44, DEDUCED.) -/
def submitOne (f : XFields) (s : State) (h : Hart) : Eff State :=
  let va := (h.sreg f.a).toNat
  if va % 64 ≠ 0 then .stop s .misalign (h.sreg f.a)
  else
    (s.loadElement { va := va, size := 64, lane := 0, aligned := false, hint := 1 }).finish fun s x =>
      let c : Command := Vector.ofFn fun i => BitVec.ofNat 64 (bitsOf x (64 * i.val) 64)
      let (s, v, _) := s.submit [] c
      s.onCur fun h => h.setS f.d v

/-- ESUB (R312). -/
def execEsub (f : XFields) (s : State) : Host.Outcome State Fault Refusal :=
  perform (.esub f) s fun s h => submitOne f s h

/-- The spans of ECMD leave the registers or overlap (R313), or lie both inside and outside the rotating block (R143). -/
def commandSpans (f : XFields) (h : Hart) : Bool :=
  let rb := h.regBits / 8
  let a := (64 * h.vl + rb - 1) / rb
  let c := (8 * h.vl + rb - 1) / rb
  h.nv < f.a.toNat + a || h.nv < f.c.toNat + c || h.badSpan f.a (64 * h.vl) || h.badSpan f.c (8 * h.vl) ||
  (f.a.toNat < f.c.toNat + c && f.c.toNat < f.a.toNat + a)

/-- The commands of ECMD from `j` on (R313). -/
def submitBatch (f : XFields) (before : Hart) : Nat → Nat → List (Option Nat) → State → State
  | 0, _, _, s => s
  | n + 1, j, batch, s =>
    if before.active (govX f) j then
      let c : Command := Vector.ofFn fun i => BitVec.ofNat 64 (before.readElem f.a 64 (8 * j + i.val))
      let (s, v, x) := s.submit batch c
      let s := s.onCur fun h => (h.writeElem f.c 64 j v.toNat).setMaskBit f.d.toNat j x.isSome
      submitBatch f before n (j + 1) (batch ++ [x]) s
    else submitBatch f before n (j + 1) (batch ++ [none]) s

/-- ECMD (R313). -/
def execEcmd (f : XFields) (s : State) : Host.Outcome State Fault Refusal :=
  performWith (.ecmd f) s false (fun h => some (h.elemsOn (govX f))) fun s h =>
    if 8 ≤ f.d.toNat || commandSpans f h then .stop s .group (encodeWord (.ecmd f))
    else
      let s := submitBatch f h (h.vl - h.vstart) h.vstart (List.replicate h.vstart none) s
      .seq (s.onCur fun r => (r.countVector h (govX f) h.vl).setVstart 0)

/-- The node of the hart's launch that a value names (R314). -/
def State.ownNode (s : State) (h : Hart) (x : Word) : Option (Nat × Node) :=
  (s.nodeOf x.toNat).filter fun p => p.2.tag == h.tag

/-- The hart sees a node finished (R370): its status goes to D. -/
def State.takeStatus (s : State) (h : Hart) (d : RegIdx) (key : Nat) (n : Node) : State :=
  (s.observe h.tag h.wid (n.handle key)).onCur fun h => h.setS d n.status

/-- EWAIT (R314). -/
def execEwait (f : XFields) (s : State) : Host.Outcome State Fault Refusal :=
  perform (.ewait f) s fun s h =>
    match s.ownNode h (h.sreg f.a) with
    | none => .seq (s.onCur fun h => h.setS f.d 0xFF00000000000000)
    | some (key, n) =>
      if n.st = .finished then
        .seq ((s.takeStatus h f.d key n).onMember h.tag h.wid fun m =>
          { m with inEwait := Assoc.drop m.inEwait (bit01 h.trp.prv) })
      else
        .hold (s.onMember h.tag h.wid fun m => { m with inEwait := Assoc.put m.inEwait (bit01 h.trp.prv) { pc := h.pc, reg := f.a, handle := h.sreg f.a } })

/-- EPOLL (R314). -/
def execEpoll (f : XFields) (s : State) : Host.Outcome State Fault Refusal :=
  perform (.epoll f) s fun s h =>
    match s.ownNode h (h.sreg f.a) with
    | none => .seq (s.onCur fun h => h.setS f.d 0xFF00000000000000)
    | some (key, n) =>
      if n.st = .finished then .seq (s.takeStatus h f.d key n)
      else .seq (s.onCur fun h => h.setS f.d 0xFE00000000000000)

end Sys2Proof.Machine
end

