-- ==== Sys2Proof/Machine/Matrix.lean ====
section
/-! DEFINITION. The matrix engine: tiles, accumulators, spans and the instructions of MAJ 0x32 (R330 to R351), with the
summation orders of R192 and R193. -/

namespace Sys2Proof.Machine

/-! ### Tiles and shapes -/

/-- Tile `i` of a hart, and its replacement. -/
def Hart.tile (h : Hart) (i : Nat) : Tile := (h.mat.t[i]?).getD { data := 0, headers := 0, shape := resetShape }
def Hart.setTile (h : Hart) (i : Nat) (t : Tile) : Hart := { h with mat := { h.mat with t := h.mat.t.setIfInBounds i t } }

/-- Shape state (Table 15.2). -/
def Tile.zf (t : Tile) : Bool := t.shape.getLsbD 11
def Tile.bs (t : Tile) : Bool := t.shape.getLsbD 10
def Tile.sp (t : Tile) : Bool := t.shape.getLsbD 9
def Tile.depth (t : Tile) : Nat := 32 * (t.shape.toNat / 16 % 32 + 1)
def Tile.fmt (t : Tile) : Nat := t.shape.toNat % 16

/-- The shape that the IMM18 of Table 15.6 latches. -/
def shapeOf (imm : BitVec 18) (zf : Bool) : BitVec 12 :=
  BitVec.ofNat 12 (bit01 zf * 2 ^ 11 + bit01 (imm.getLsbD 5) * 2 ^ 10 + bit01 (imm.getLsbD 4) * 2 ^ 9 +
    bitsOf imm.toNat 6 5 * 16 + imm.toNat % 16)

/-- The width of a type code. -/
def codeBits (code : Nat) : Nat := (ElemType.ofCode code).bits

/-- Bytes of a tile row (Table 15.3). -/
def tileRowBytes (fmt : Nat) : Nat := 16 * codeBits fmt

/-- A tile with block headers (R335). -/
def Tile.headed (t : Tile) : Bool := t.fmt == 14 || ((t.fmt == 12 || t.fmt == 13) && t.bs)

/-- The code of the tile element at row `k`, column `n` (R340). -/
def Tile.element (t : Tile) (k n : Nat) : Nat :=
  bitsOf t.data (8 * tileRowBytes t.fmt * k + codeBits t.fmt * n) (codeBits t.fmt)

/-- The header of tile block `b`, column `n` (R335). -/
def Tile.header (t : Tile) (b n : Nat) : Nat := bitsOf t.headers (16 * (128 * b + n)) 16

/-! ### Accumulators -/

/-- A cell of accumulator `i` (R330). -/
def Hart.cell (h : Hart) (i row n : Nat) : Nat := bitsOf ((h.mat.acc[i]?).getD 0) (32 * (128 * row + n)) 32

/-- Replaces `count` cells' bits from (row, n) on. -/
def Hart.setCells (h : Hart) (i row n count x : Nat) : Hart :=
  { h with mat := { h.mat with
      acc := h.mat.acc.setIfInBounds i (setBits ((h.mat.acc[i]?).getD 0) (32 * (128 * row + n)) (32 * count) x) } }

/-! ### Spans (R337) -/

/-- Where a loop of a matrix instruction up to `n` ends: there, or at the point the step is cut at (R338). -/
def Hart.rowEnd (h : Hart) (stopAt : Option Nat) (n : Nat) : Nat :=
  match stopAt with
  | none => n
  | some k => if h.vstart < k && k < n then k else n

/-- A matrix instruction: the engine holds the hart's matrix state (R332). -/
def performMatrix (i : Instr) (s : State) (effect : State → Hart → Eff State) : Host.Outcome State Fault Refusal :=
  perform i s fun s _ => withMatrix s effect

/-! ### TLOAD and TZERO -/

/-- The storage that a TLOAD reads at a byte, or its trap (R340). (Log 11, DEDUCED.) -/
def tileByte (k : Nat) (imm : BitVec 18) (va : Nat) : Except Cause Nat :=
  if 2 ^ 54 ≤ va then .error .rmiss
  else if va < rangeTop then .error .rperm
  else if 0x003FFFFFFFF00000 ≤ va && va < 0x003FFFFFFFF01000 then .error .rperm
  else
    let core := if imm.getLsbD 15 then coreIndex k / 8 * 8 + bitsOf imm.toNat 12 3 else coreIndex k
    let own := if 0x003FFFFF00000000 ≤ va && va < 0x003FFFFF00100000 then core else coreIndex k
    match windowOf { holder := 0, asid := 0, root := none, core := some own, slice := none } va with
    | some key => .ok key
    | none => .error .rmiss

/-- The storage of a row of `n` bytes, or its first failing byte. -/
def tileRow (k : Nat) (imm : BitVec 18) (va n : Nat) : Except (Cause × Nat) (List Nat) :=
  (List.range n).foldr (fun i acc =>
    match tileByte k imm (va + i) with
    | .error c => .error (c, va + i)
    | .ok key => acc.map fun ks => key :: ks) (.ok [])

/-- Loads tile row or header row `k` of TLOAD (R340): its checks in the order of R272, then the write, which at the first row
of the instruction latches the shape. -/
def loadTileRow (f : XFields) (base st depth : Nat) (first : Bool) (k : Nat) (s : State) (h : Hart) : Got Unit :=
  let fmt := f.imm.toNat % 16
  let rby := tileRowBytes fmt
  let (va, n) := if k < depth then (base + k * st, rby) else (base + depth * st + 256 * (k - depth), 256)
  if h.watchHit va n .read then .fail s .watch va
  else
    match tileRow s.cur f.imm va n with
    | .error (c, b) => .fail s c b
    | .ok keys =>
      match keys.findSome? fun a => s.badWord a 1 with
      | some w => .fail (s.logBad (·.of s.cur h) w) .dataerr va
      | none =>
        let x := ofBytesLE (keys.map s.mem.read)
        let write (t : Tile) : Tile :=
          let t := if first then { t with shape := shapeOf f.imm false } else t
          if k < depth then { t with data := setBits t.data (8 * rby * k) (8 * rby) x }
          else { t with headers := setBits t.headers (2048 * (k - depth)) 2048 x }
        let s := s.notePolled h [{ place := windowPlace (keys.headD 0), size := n }]
        .ok (s.onCur fun h => (h.setTile f.d.toNat (write (h.tile f.d.toNat))).spendSkip) ()

/-- TLOAD's rows from VSTART on (R338, R340). -/
def loadTile (f : XFields) (s : State) (h : Hart) : Eff State :=
  let base := h.sreg f.a
  let st := h.sreg f.b
  let fmt := f.imm.toNat % 16
  let depth := 32 * (bitsOf f.imm.toNat 6 5 + 1)
  let rows := depth + if f.imm.getLsbD 5 then depth / 32 else 0
  if base.toNat % 16 ≠ 0 then .stop s .misalign base
  else if st.toNat % 16 ≠ 0 || st.toNat < tileRowBytes fmt then .stop s .misalign st
  else
    let hi := h.rowEnd s.stopAt rows
    let step (k : Nat) (s : State) : Got Unit :=
      match s.hart? s.cur with
      | none => .wait s
      | some now => loadTileRow f base.toNat st.toNat depth (k == h.vstart) k s now
    match memLoop (fun _ => true) step (hi - h.vstart) h.vstart s with
    | .stopped s k c t => .stop (s.onCur fun h => h.setVstart k) c (BitVec.ofNat 64 t)
    | .held s k => .hold (s.onCur fun h => h.setVstart k)
    | .done s => if hi < rows && h.vstart < hi then .hold (s.onCur fun h => h.setVstart hi)
                 else .seq (s.onCur fun h => h.setVstart 0)

/-- TLOAD (R340). -/
def execTload (f : XFields) (s : State) : Host.Outcome State Fault Refusal := performMatrix (.tload f) s (loadTile f)

/-- TZERO (R342). -/
def execTzero (f : XFields) (s : State) : Host.Outcome State Fault Refusal :=
  performMatrix (.tzero f) s fun s _ =>
    .seq (s.onCur fun h => h.setTile f.d.toNat { data := 0, headers := 0, shape := shapeOf f.imm true })

/-! ### Sums (R192, R193, R345) -/

/-- A legal pair of activation and tile types (Table 15.4). -/
def legalPair (aet fmt : Nat) : Bool :=
  match aet with
  | 8 => fmt == 8 || fmt == 14
  | 9 => fmt == 9
  | 12 => fmt == 12 || fmt == 13 || fmt == 14
  | 13 => fmt == 12 || fmt == 13
  | 0 => fmt == 0 || fmt == 15
  | 14 => fmt == 14
  | 15 => fmt == 15
  | _ => false

/-- A pair summed in signed 32-bit integers. -/
def integerPair (aet : Nat) : Bool := aet == 0 || aet == 15

/-- The exact sum of exact terms: any NaN, or infinities of both signs, give a NaN; a sum of zero is +0 (R345, R347). (Log 23,
DEDUCED.) -/
def sumExact (xs : List Fp) : Fp :=
  let up := xs.any fun x => x == .inf false
  let down := xs.any fun x => x == .inf true
  if xs.any (· == .nan) || (up && down) then .nan
  else if up then .inf false
  else if down then .inf true
  else
    let (v, e) := xs.foldl (fun acc x => match x with
      | .fin s m e => addDyadic acc.1 acc.2 (signedSig s m) e
      | _ => acc) ((0 : Int), (0 : Int))
    .fin (v < 0) v.natAbs e

/-- CodeVal (R345): the value of a code without its header; the header gives a K4 spare. -/
def codeValue (type header code : Nat) : Fp :=
  if type = 14 then
    let v := k4Value4 header code
    .fin (v < 0) v.natAbs (-2)
  else (fmtOf (ElemType.ofCode type)).decode code

/-- A block scale: significand and exponent (R188, R193, R235). (Log 24, DEDUCED.) -/
def blockScale (type header : Nat) : Nat × Int :=
  let s := scaleCode header
  if type = 14 then (scaleSig s, scaleExp s) else (1, blockScaleExp s)

/-- A block's sum times one side's scale; without a header the scale is 1. -/
def Fp.scaled (x : Fp) (type : Nat) (header : Option Nat) : Fp :=
  match header with
  | none => x
  | some hd =>
    match x with
    | .fin s m e => .fin s (m * (blockScale type hd).1) (e + (blockScale type hd).2)
    | x => x

/-- A block's contribution (R193): 0xFFF on either side makes it a NaN, then 0x000 makes it +0. -/
def blockSum (aet fmt : Nat) (ha ht : Option Nat) (products : List Fp) : Fp :=
  let codes := ([ha, ht].filterMap id).map scaleCode
  if codes.contains 0xFFF then .nan
  else if codes.contains 0 then .fin false 0 0
  else ((sumExact products).scaled aet ha).scaled fmt ht

/-- c + RoundF(s), each rounding to nearest-even in binary32 (R192). -/
def addRounded (c : Nat) (s : Fp) : Nat :=
  (fmtF32.add .rne false (fmtF32.decode c) (fmtF32.decode (fmtF32.ofFp .rne false s).1)).1

/-- What one row of a multiply sums: for each unit along K the block it lies in, and the activation elements with their tile
rows. -/
structure RowUnit where
  block : Nat
  terms : List (Nat × Nat)

/-- One unit's addition to a cell, with the flags it raises (R345, R348). -/
def addUnit (h : Hart) (t : Tile) (aet : Nat) (a : RegIdx) (byBlocks : Bool) (ha : Nat → Option Nat) (n : Nat)
    (acc : Nat × FlagSet) (u : RowUnit) : Nat × FlagSet :=
  let ew := codeBits aet
  if integerPair aet then
    let sum := u.terms.foldl (fun s p =>
      s + signExt (h.readElem a ew p.1) ew * signExt (t.element p.2 n) (codeBits t.fmt)) (0 : Int)
    let r := satI (signExt acc.1 32 + sum) 32
    (r.1, acc.2 ||| r.2)
  else
    let hx := ha u.block
    let ht := if t.headed then some (t.header u.block n) else none
    let products := u.terms.map fun p =>
      ((codeValue aet (hx.getD 0) (h.readElem a ew p.1)).mulExact (codeValue t.fmt (ht.getD 0) (t.element p.2 n))).1
    let s := if byBlocks then blockSum aet t.fmt hx ht products else sumExact products
    (addRounded acc.1 s, acc.2)

/-- Adds one activation row into an accumulator row (R345). -/
def addRow (h : Hart) (t : Tile) (aet acc row : Nat) (a : RegIdx) (byBlocks : Bool) (ha : Nat → Option Nat)
    (units : List RowUnit) (r : Hart) : Hart :=
  forElems (fun n r =>
    let x := units.foldl (addUnit h t aet a byBlocks ha n) (r.cell acc row n, 0)
    (r.setCells acc row n 1 x.1).raise x.2) 128 0 r

/-- TVAL of a TILE trap (R334). -/
def pairValue (aet : Nat) (t : Tile) (bs : Bool) : Word :=
  BitVec.ofNat 64 (aet + 16 * t.fmt + 2 ^ 8 * bit01 t.sp + 2 ^ 9 * bit01 t.bs + 2 ^ 10 * bit01 bs)

/-- IMM18 of a multiply (Table 15.7). -/
def mulRow (f : XFields) : Nat := bitsOf f.imm.toNat 11 7
def mulRows (f : XFields) : Nat := bitsOf f.imm.toNat 4 7 + 1
def mulType (f : XFields) : Nat := f.imm.toNat % 16
/-- The activation BS of MMUL (R343). -/
def mulScaled (f : XFields) : Bool := f.c.toNat / 8 % 2 == 1

/-- Row `r` takes part (R344). -/
def Hart.rowActive (h : Hart) (f : XFields) (r : Nat) : Bool := !f.masked || h.maskBit 0 r

/-- The rows of a multiply from VSTART on (R338, R345): `units` gives what row `r` sums, or its trap. -/
def mulRowsFrom (f : XFields) (t : Tile) (byBlocks : Bool) (ha : Nat → Nat → Option Nat)
    (units : Nat → Except (Cause × Word) (List RowUnit)) (h : Hart) : Nat → Nat → Hart → Except (Hart × Nat × Cause × Word) Hart
  | 0, _, r => .ok r
  | n + 1, i, r =>
    if h.rowActive f i then
      match units i with
      | .error (c, tval) => .error (r, i, c, tval)
      | .ok us =>
        mulRowsFrom f t byBlocks ha units h n (i + 1)
          ((addRow h t (mulType f) f.d.toNat (mulRow f + i) f.a byBlocks (ha i) us r).countEvent 0x0B 1)
    else mulRowsFrom f t byBlocks ha units h n (i + 1) r

/-- A multiply once its checks have passed: nothing for an all-zero tile (R347), else its rows. (Log 34, DEDUCED.) -/
def multiply (f : XFields) (t : Tile) (byBlocks : Bool) (ha : Nat → Nat → Option Nat)
    (units : Nat → Except (Cause × Word) (List RowUnit)) (stopAt : Option Nat) (h : Hart) : Eff Hart :=
  if t.zf then .seq (h.setVstart 0)
  else
    let hi := h.rowEnd stopAt (mulRows f)
    match mulRowsFrom f t byBlocks ha units h (hi - h.vstart) h.vstart h with
    | .error (r, i, c, tval) => .stop (r.setVstart i) c tval
    | .ok r => if hi < mulRows f && h.vstart < hi then .hold (r.setVstart hi) else .seq (r.setVstart 0)

/-- Whether the pair sums by blocks (R335). -/
def sumsByBlocks (f : XFields) (t : Tile) (bs : Bool) : Bool := !integerPair (mulType f) && (bs || t.headed)

/-- MMUL (R344, R345). -/
def multiplyDense (f : XFields) (stopAt : Option Nat) (h : Hart) : Eff Hart :=
  let t := h.tile f.b.toNat
  let aet := mulType f
  let bs := mulScaled f
  let c := f.c.toNat % 8
  let m := mulRows f
  let depth := t.depth
  let word := encodeWord (.mmul f)
  if !legalPair aet t.fmt || t.sp then .stop h .tile (pairValue aet t bs)
  else if h.badSpan f.a ((m * depth * codeBits aet + 7) / 8) then .stop h .group word
  else if bs && 7 < c + ((m * depth + 2047) / 2048 - 1) then .stop h .group word
  else
    let byBlocks := sumsByBlocks f t bs
    let unit := if byBlocks then 32 else 16
    let ha (r b : Nat) : Option Nat := if bs then some (headerOf h c (r * (depth / 32) + b)) else none
    let units (r : Nat) : Except (Cause × Word) (List RowUnit) :=
      .ok ((List.range (depth / unit)).map fun u =>
        { block := u * unit / 32, terms := (List.range unit).map fun j => (r * depth + u * unit + j, u * unit + j) })
    multiply f t byBlocks ha units stopAt h

/-- A metadata word is well formed: four ascending 3-bit indices (R346). -/
def metadataOk (x : Nat) : Bool :=
  x < 4096 && x % 8 < x / 8 % 8 && x / 8 % 8 < x / 64 % 8 && x / 64 % 8 < x / 512

/-- MMULS (R344, R346). -/
def multiplySparse (f : XFields) (stopAt : Option Nat) (h : Hart) : Eff Hart :=
  let t := h.tile f.b.toNat
  let aet := mulType f
  let m := mulRows f
  let depth := t.depth
  let word := encodeWord (.mmuls f)
  if !legalPair aet t.fmt || !t.sp then .stop h .tile (pairValue aet t false)
  else if h.badSpan f.a ((m * (depth / 2) * codeBits aet + 7) / 8) then .stop h .group word
  else if h.badSpan f.c (m * (depth / 8) * 2) then .stop h .group word
  else
    let meta' (r b : Nat) : Nat := h.readElem f.c 16 (r * (depth / 8) + b)
    let units (r : Nat) : Except (Cause × Word) (List RowUnit) :=
      match (List.range (depth / 8)).find? fun b => !metadataOk (meta' r b) with
      | some b => .error (.sparsemeta, BitVec.ofNat 64 (b * 65536 + meta' r b))
      | none =>
        .ok ((List.range (depth / 32)).map fun u =>
          { block := u,
            terms := (List.range 16).map fun j =>
              let b := 4 * u + j / 4
              (r * (depth / 2) + 4 * b + j % 4, 8 * b + bitsOf (meta' r b) (3 * (j % 4)) 3) })
    multiply f t (sumsByBlocks f t false) (fun _ _ => none) units stopAt h

/-- MMUL (R345). -/
def execMmul (f : XFields) (s : State) : Host.Outcome State Fault Refusal :=
  performMatrix (.mmul f) s fun s h => s.lift (multiplyDense f s.stopAt h)

/-- MMULS (R346). -/
def execMmuls (f : XFields) (s : State) : Host.Outcome State Fault Refusal :=
  performMatrix (.mmuls f) s fun s h => s.lift (multiplySparse f s.stopAt h)

/-! ### MDRAIN and MZERO -/

/-- IMM18 of MDRAIN (Table 15.8). -/
def drainRow (f : XFields) : Nat := bitsOf f.imm.toNat 7 7
def drainType (f : XFields) : ElemType := ElemType.ofCode (f.imm.toNat % 16)
def drainMode (f : XFields) : RoundMode := (RoundMode.ofCode (bitsOf f.imm.toNat 4 3)).getD .rne

/-- The cell that element `i` drains (R349). -/
def drainCell (f : XFields) (h : Hart) (i : Nat) : Nat := h.cell f.a.toNat (drainRow f + i / 128) (i % 128)

/-- Drains one element that stands alone (R349). -/
def drainElement (f : XFields) (h : Hart) (i : Nat) (r : Hart) : Hart :=
  let x := drainCell f h i
  let t := drainType f
  match t with
  | .f32 | .i32 => r.writeElem f.d 32 i x
  | .i8 =>
    let y := satI (signExt x 32) 8
    (r.writeElem f.d 8 i y.1).raise y.2
  | _ =>
    let (mode, r) := r.roundMode (drainMode f)
    let y := (fmtOf t).ofFp mode false (fmtF32.decode x)
    (r.writeElem f.d t.bits i y.1).raise y.2

/-- Drains a block of 32 elements with its header (R349, R234). -/
def drainBlock (f : XFields) (h : Hart) (b : Nat) (r : Hart) : Hart :=
  let members := blockMembers h (govX f) b
  let t := drainType f
  if members.isEmpty then r
  else
    let vals := members.map fun i => fmtF32.decode (drainCell f h i)
    let (out, r) : (List Nat × Nat × FlagSet) × Hart :=
      if t = .k4 then (k4Encode vals, r)
      else
        let (ms, r) := takeModes (drainMode f) members r
        (fp8Encode (fmtOf t) (vals.zip ms), r)
    let r := (r.setHeader (f.c.toNat + b / 64) (b % 64) out.2.1).raise out.2.2
    (members.zip out.1).foldl (fun r p => if h.vstart ≤ p.1 then r.writeElem f.d t.bits p.1 p.2 else r) r

/-- The GROUP traps of MDRAIN (R349). -/
def drainGroups (f : XFields) (h : Hart) : Bool :=
  h.vstart < h.vl && (128 < drainRow f + (h.vl + 127) / 128 || h.badSpan f.d ((h.vl * (drainType f).bits + 7) / 8) ||
    (reduceScaled (drainType f) && scaleRange h f.c.toNat))

/-- MDRAIN's effect (R338, R349). -/
def drain (f : XFields) (stopAt : Option Nat) (h : Hart) : Eff Hart :=
  let g := govX f
  if drainGroups f h then .stop h .group (encodeWord (.mdrain f))
  else
    let scaled := reduceScaled (drainType f)
    let cut := h.loopEnd (if scaled then stopAt.map fun n => n / 32 * 32 else stopAt)
    let r :=
      if h.vl ≤ h.vstart then h
      else if scaled then
        let hi := if cut < h.vl then cut / 32 else (h.vl + 31) / 32
        forElems (drainBlock f h) (hi - h.vstart / 32) (h.vstart / 32) h
      else forElems (fun i r => if h.active g i then drainElement f h i r else r) (cut - h.vstart) h.vstart h
    let r := r.countEvent 0x03 (countElems (h.active g) (cut - h.vstart) h.vstart)
    if cut < h.vl then .hold (r.setVstart cut) else .seq (r.setVstart 0)

/-- MDRAIN (R349). -/
def execMdrain (f : XFields) (s : State) : Host.Outcome State Fault Refusal :=
  performMatrix (.mdrain f) s fun s h => s.lift (drain f s.stopAt h)

/-- MZERO (R350). -/
def execMzero (f : XFields) (s : State) : Host.Outcome State Fault Refusal :=
  performMatrix (.mzero f) s fun s _ =>
    .seq (s.onCur fun h => h.setCells f.d.toNat (f.imm.toNat % 128) 0 (128 * (bitsOf f.imm.toNat 7 7 + 1)) 0)

/-! ### ESETS and ESETV (R351) -/

/-- ESETS (R351). -/
def execEsets (f : XFields) (s : State) : Host.Outcome State Fault Refusal :=
  performMatrix (.esets f) s fun s h =>
    .seq (s.onCur fun r => r.setHeader f.d.toNat (f.imm.toNat % 64) ((h.sreg f.a).toNat % 65536))

/-- ESETV's effect (R351). -/
def setHeaders (f : XFields) (h : Hart) : Eff Hart :=
  let n := Nat.min h.vl 64
  if h.vstart < h.vl && h.badSpan f.a (2 * n) then .stop h .group (encodeWord (.esetv f))
  else
    .seq ((forElems (fun j r => if h.active (govX f) j then r.setHeader f.d.toNat j (h.readElem f.a 16 j) else r)
      (n - h.vstart) h.vstart h).setVstart 0)

/-- ESETV (R351). -/
def execEsetv (f : XFields) (s : State) : Host.Outcome State Fault Refusal :=
  performMatrix (.esetv f) s fun s h => s.lift (setHeaders f h)

end Sys2Proof.Machine
end

