-- ==== Sys2Proof/Machine/Ingress.lean ====
section
/-! DEFINITION. Stretches of memory that a unit of the device writes, and the expert ingress units: descriptors, experts and
weights, buffers, batches and their release (R421 to R430). -/

namespace Sys2Proof.Machine

/-! ### Stretches of memory -/

/-- Where the window that holds an address ends. -/
def windowEnd (va : Nat) : Nat :=
  if 0x003FFFFFFFF00000 ≤ va then va / 256 * 256 + 256
  else if 0x003FFFFF00000000 ≤ va then 0x003FFFFF00100000
  else if 0x003FFFFE00000000 ≤ va then 0x003FFFFE00400000
  else 0x003FFFF003000000

/-- Bytes from `va` on that translate alike and lie in one HASHTRACK block (R472): up to the resident mark of the range, or the
window's end. -/
def reachOf (d : Option Descriptor) (va : Nat) : Nat :=
  match d with
  | none => windowEnd va - va
  | some d =>
    let n := d.base + d.resident - va
    let n := if d.ht then Nat.min n (65536 - va % 65536) else n
    if d.tgt = 0 then Nat.min n (hbmTop - d.move va) else n

/-- Translates a stretch in increasing address (R47): the pieces with their ranges up to the first byte that fails, with its
cause. -/
def State.routeRanges (s : State) (g : Agent) (k : Access) :
    Nat → Nat → Nat → State × List (Piece × Option Descriptor) × Option (Cause × Nat)
  | 0, _, _ => (s, [], none)
  | fuel + 1, va, n =>
    if n = 0 then (s, [], none)
    else
      match s.translateFull g va k with
      | (s, .error c) => (s, [], some (c, va))
      | (s, .ok (p, d)) =>
        let m := Nat.min n (Nat.max 1 (reachOf d va))
        let r := s.routeRanges g k fuel ((va + m) % 2 ^ 64) (n - m)
        (r.1, ({ place := p, size := m }, d) :: r.2.1, r.2.2)

/-- The pieces of a stretch, up to the first byte that fails. -/
def State.routeWide (s : State) (g : Agent) (k : Access) (fuel va n : Nat) : State × List Piece × Option (Cause × Nat) :=
  let r := s.routeRanges g k fuel va n
  (r.1, r.2.1.map Prod.fst, r.2.2)

/-- The places of bytes that begin at offset `o` of a stretch. -/
def stretchParts : List Piece → Nat → List Byte → List (Place × List Byte)
  | [], _, _ => []
  | p :: ps, o, bytes =>
    if bytes.isEmpty then []
    else if p.size ≤ o then stretchParts ps (o - p.size) bytes
    else
      ({ p.place with addr := p.place.addr + o }, bytes.take (p.size - o)) :: stretchParts ps 0 (bytes.drop (p.size - o))

/-! ### The descriptor (R423, R424) -/

/-- The first byte's number of the ingress descriptor for XID `x` on die `d`. -/
def ingressBase (d x : Nat) : Nat := 2 ^ 55 + d * 2 ^ 26 + 0x2FF0000 + 0x1000 * x

/-- The storage of a stretch that an ingress unit of die `d` may use: the die's scratchpad, or COHERENT read-write ranges on
the die's own HBM. -/
def ingressPlace (d : Nat) (p : Piece) : Bool :=
  p.place.target == .memory && !p.place.phased &&
  ((d * 2 ^ 37 ≤ p.place.addr && p.place.addr + p.size ≤ (d + 1) * 2 ^ 37) ||
   (2 ^ 55 + d * 2 ^ 26 ≤ p.place.addr && p.place.addr + p.size ≤ 2 ^ 55 + d * 2 ^ 26 + 0x3000000))

/-- The range is fully resident; a window is. -/
def fullyResident (d : Option Descriptor) : Bool :=
  match d with
  | none => true
  | some d => d.resident == d.size

/-- The storage of `n` bytes from `va` on, when an ingress unit may use all of it (R424). -/
def State.ingressStretch (s : State) (g : Agent) (d va n : Nat) : State × Option (List Piece) :=
  match s.routeRanges g .atomic (granules n) va n with
  | (s, ps, none) =>
    (s, if ps.all fun p => ingressPlace d p.1 && fullyResident p.2 then some (ps.map Prod.fst) else none)
  | (s, _, some _) => (s, none)

/-- `a` rounded up to a multiple of `b`. -/
def roundUp (a b : Nat) : Nat := (a + b - 1) / b * b

/-- The entry stride ES for rows of `rowb` bytes (R424). -/
def entryStride (rowb : Nat) : Nat := roundUp (16 + rowb) 16

/-- Reads and checks the ingress descriptor for XID `x` on die `d` (R424), `g` the opener: the new context, or none when it is
refused. -/
def State.readIngress (s : State) (g : Agent) (d x rowb scoreBytes : Nat) : State × Option Ingress :=
  let a := ingressBase d x
  let w (i : Nat) : Word := s.mem.dword (a + 8 * i)
  let gs := fieldOf (w 0) 50 6 + 1
  let kg := fieldOf (w 0) 44 6 + 1
  let ng := fieldOf (w 0) 32 12
  let nbq := fieldOf (w 1) 32 16
  let thresh := fieldOf (w 1) 0 13
  let nb := fieldOf (w 3) 0 32
  let es := entryStride rowb
  let maxb := (thresh * es + 4095) / 4096 + 1
  let qb := roundUp (64 + 4 * maxb) 64
  let ok := fieldOf (w 0) 56 8 == 1 && kg ≤ gs && 1 ≤ ng && fieldOf (w 1) 48 16 == 0 && fieldOf (w 1) 13 19 == 0 &&
    1 ≤ nbq && nbq ≤ 4096 && 1 ≤ thresh && thresh ≤ 4096 && fieldOf (w 2) 54 10 == 0 && fieldOf (w 2) 0 12 == 0 &&
    fieldOf (w 3) 32 32 == 0 && fieldOf (w 4) 54 10 == 0 && fieldOf (w 4) 0 6 == 0 && w 5 == 0 && w 6 == 0 && w 7 == 0 &&
    ng * gs ≤ 65536 && ng * gs + 1 ≤ nb && scoreBytes == 4 * gs
  match s.badWord a 64 with
  | some b => (s.logBad (s.signed g) b, none)
  | none =>
    if !ok then (s, none)
    else
      let g := { g with core := some (128 * d), slice := none }
      match s.ingressStretch g d (w 2).toNat (4096 * nb) with
      | (s, none) => (s, none)
      | (s, some pool) =>
        match s.ingressStretch g d (w 4).toNat (64 + nbq * qb) with
        | (s, none) => (s, none)
        | (s, some ring) =>
          (s, some { asid := g.asid, gs := gs, kg := kg, ng := ng, glo := fieldOf (w 0) 0 32, nbq := nbq, thresh := thresh, nb := nb,
                     poolVa := (w 2).toNat, ringVa := (w 4).toNat, pool := pool, ring := ring, entrySize := es, ringEntry := qb, pub := 0, dropped := 0, nans := 0,
                     short := 0, nextSeq := 0, seedsOut := [], taken := [], buffers := [], inbox := [], waiting := [],
                     pressed := false, started := [], published := [], releases := [], contests := [] })

/-! ### A unit's state and writes -/

/-- The context of XID `x` on die `d`. -/
def State.ingress? (s : State) (d x : Nat) : Option Ingress := (Assoc.find s.exchanges x).bind fun e => Assoc.find e.ingress d

/-- Changes an exchange. -/
def State.onExchange (s : State) (x : Nat) (f : Exchange → Exchange) : State :=
  { s with exchanges := Assoc.change s.exchanges x f }

/-- Changes an ingress context. -/
def State.onIngress (s : State) (d x : Nat) (f : Ingress → Ingress) : State :=
  s.onExchange x fun e => { e with ingress := Assoc.change e.ingress d f }

/-- Bytes from `a` on with those of a contested write laid over them. -/
def Contest.laidOver (c : Contest) (a : Nat) (bytes : List Byte) : List Byte :=
  overlay bytes a { source := 0, addr := c.addr, bytes := c.bytes, nibble := 0 }

/-- The bytes that a unit's write leaves from `a` on: of each write of another agent there since, its bytes or the unit's stand (R430). -/
def State.settleContests (s : State) (a : Nat) (bytes : List Byte) : List Byte × State :=
  let met := (s.exchanges.flatMap fun e => e.2.ingress.flatMap fun u => u.2.contests).filter fun c =>
    overlapping c.addr c.bytes.length a bytes.length
  met.foldl (fun (acc : List Byte × State) c =>
    let (n, s) := acc.2.choose 2
    (if n = 0 then acc.1 else c.laidOver a acc.1, s)) (bytes, s)

/-- The unit writes bytes at an offset of its pool or ring. -/
def State.unitWrite (s : State) (x : Nat) (ps : List Piece) (o : Nat) (bytes : List Byte) : State :=
  let tag := (Assoc.find s.exchanges x).map fun e => e.tag.toNat
  (stretchParts ps o bytes).foldl (fun s p =>
    let (bytes, s) := s.settleContests p.1.addr p.2
    s.writePlace { seat := none, launch := tag, who := 0, unit := true } p.1 bytes 0 8 true) s

/-- The unit writes a field of the ring header (Table 22.2). -/
def State.writeHeader (s : State) (d x o v : Nat) : State :=
  match s.ingress? d x with
  | none => s
  | some u => s.unitWrite x u.ring o (toBytesLE 8 v)

/-! ### Experts and weights (R425) -/

/-- e^x rounded to nearest in binary32, for the exact x = m × 2^e of sign `neg`; beyond the largest finite it is that. -/
def expRounded (neg : Bool) (m : Nat) (e : Int) : Nat :=
  if m = 0 then fmtF32.encode false (2 ^ fmtF32.frac) (-(fmtF32.frac : Int))
  else if 10 < (bitLength m : Int) + e then (if neg then 0 else fmtF32.largest false)
  else
    let r := (fmtF32.round .rne false false (expMag (toFix neg m e))).1
    if r = fmtF32.inf false then fmtF32.largest false else r

/-- The weight of a score under a maximum, both as R196 outputs them (R425). -/
def weightOf (score top : Nat) : Nat :=
  match fmtF32.decode (gateOutput score), fmtF32.decode (gateOutput top) with
  | .fin s m e, .fin u n g =>
    let (v, q) := addDyadic (signedSig s m) e (signedSig (!u) n) g
    expRounded (v < 0) v.natAbs q
  | _, _ => fmtF32.nan

/-- A score is a NaN. -/
def isNan32 (x : Nat) : Bool := fmtF32.decode x == .nan

/-- The experts of a group chosen by rank, in increasing number: numbers only, the first `kg` (R425). -/
def chooseExperts (scores : List Nat) (kg : Nat) : List Nat :=
  let ranked := sortStable (fun a b : Nat × Nat => gateBefore (gateKey a.1) (gateKey b.1)) scores.zipIdx
  let best := ((ranked.filter fun p => !isNan32 p.1).take kg).map Prod.snd
  (List.range scores.length).filter best.contains

/-- The entries a record yields, for rows of `rowb` bytes, with its NaNs; none when its group lies outside the die (R425,
R426). -/
def Ingress.entriesOf (u : Ingress) (rowb : Nat) (r : XRecord) : Option (List IngressEntry × Nat) :=
  let g := r.key / 2 ^ 32
  if g < u.glo || u.glo + u.ng ≤ g then none
  else
    let row := r.payload.take rowb
    let score (j : Nat) : Nat := ofBytesLE ((r.payload.drop (rowb + 4 * j)).take 4)
    let scores := (List.range u.gs).map score
    let top := score u.gs
    let entry (j : Nat) : IngressEntry :=
      { expert := (g - u.glo) * u.gs + j,
        bytes := (toBytesLE 8 (r.key % 2 ^ 32) ++ toBytesLE 4 (weightOf (score j) top) ++ toBytesLE 2 j ++ [0, 0] ++ row ++
          List.replicate u.entrySize 0).take u.entrySize }
    some ((chooseExperts scores u.kg).map entry, (scores.filter isNan32).length + bit01 (isNan32 top))

/-! ### Buffers and batches (R427, R428) -/

/-- E, the number of local experts (R424). -/
def Ingress.experts (u : Ingress) : Nat := u.ng * u.gs

/-- The block a new part of expert `e`'s chain takes: its own seed, else the lowest free one. -/
def Ingress.freeBlock (u : Ingress) (e : Nat) : Option Nat :=
  if !u.seedsOut.contains e then some e
  else
    ((List.range (u.taken.length + 1)).map (u.experts + ·)).find? fun b => !u.taken.contains b && b < u.nb

/-- A block leaves the pool, or comes back to it. -/
def Ingress.takeBlock (u : Ingress) (b : Nat) : Ingress :=
  if b < u.experts then { u with seedsOut := b :: u.seedsOut } else { u with taken := b :: u.taken }
def Ingress.returnBlock (u : Ingress) (b : Nat) : Ingress :=
  if b < u.experts then { u with seedsOut := u.seedsOut.filter (· != b) } else { u with taken := u.taken.filter (· != b) }

/-- A buffer starts as a batch and becomes empty. -/
def Ingress.start (u : Ingress) (round e : Nat) (short close : Bool) : Ingress :=
  match Assoc.find u.buffers e with
  | none => u
  | some b =>
    { u with
      buffers := Assoc.drop u.buffers e, nextSeq := u.nextSeq + 1,
      started := u.started ++ [{ seq := u.nextSeq, expert := e, round := round, rows := b.rows, blocks := b.blocks,
                                 short := short, close := close, freed := 0 }] }

/-- The fullest buffer, ties to the lower expert. (Log 42, DEDUCED.) -/
def Ingress.fullest (u : Ingress) : Option Nat :=
  (u.buffers.foldl (fun (acc : Option (Nat × Nat)) p =>
    match acc with
    | none => some (p.1, p.2.rows)
    | some a => if a.2 < p.2.rows then some (p.1, p.2.rows) else some a) none).map Prod.fst

/-- Every batch started so far has been published and released in full: an entry that still waits presses once more (R430). (Log
42, DEDUCED.) -/
def Ingress.settled (u : Ingress) : Bool :=
  u.started.isEmpty && u.published.all fun p => p.2.freed == p.2.blocks.length

/-- The bytes of an entry in the blocks of its chain: block and offset of each part. -/
def entryParts (blocks : List Nat) (o : Nat) (bytes : List Byte) : List (Nat × List Byte) :=
  let first := 4096 - o % 4096
  let at' (i : Nat) : Nat := 4096 * (blocks[i]?.getD 0)
  if bytes.length ≤ first then [(at' (o / 4096) + o % 4096, bytes)]
  else [(at' (o / 4096) + o % 4096, bytes.take first), (at' (o / 4096 + 1), bytes.drop first)]

/-- Appends the first waiting entry, or notes what it waits for (R427); `false` when it waits. -/
def State.appendEntry (s : State) (d x : Nat) : State × Bool :=
  match (Assoc.find s.exchanges x).bind fun e => (Assoc.find e.ingress d).map fun u => (e, u) with
  | none => (s, false)
  | some (e, u) =>
    match u.waiting with
    | [] => (s, false)
    | w :: rest =>
      let b := (Assoc.find u.buffers w.expert).getD { blocks := [], rows := 0 }
      let o := b.rows * u.entrySize
      let need := (o + u.entrySize + 4095) / 4096 - b.blocks.length
      let more : Option (List Nat) := if need = 0 then some [] else (u.freeBlock w.expert).map fun x => [x]
      match more with
      | none =>
        if u.pressed && !u.settled then (s, false)
        else
          let u := match u.fullest with
            | none => { u with pressed := true }
            | some f => { u.start e.round f true false with short := u.short + 1, pressed := true }
          ((s.onIngress d x fun _ => u).writeHeader d x 0x20 u.short, false)
      | some bs =>
        let b : Buffer := { blocks := b.blocks ++ bs, rows := b.rows + 1 }
        let s := (entryParts b.blocks o w.bytes).foldl (fun s p => s.unitWrite x u.pool p.1 p.2) s
        let u := { bs.foldl Ingress.takeBlock u with
          buffers := Assoc.put u.buffers w.expert b, waiting := rest, pressed := false }
        let u := if u.thresh ≤ b.rows then u.start e.round w.expert false false else u
        (s.onIngress d x fun v => { u with releases := v.releases }, true)

/-- Appends waiting entries while they find room. -/
def State.appendAll (s : State) (d x : Nat) : Nat → State
  | 0 => s
  | n + 1 => match s.appendEntry d x with
    | (s, true) => s.appendAll d x n
    | (s, false) => s

/-- Segment 0's bytes of a dispatch exchange, ROWB (R421). -/
def Exchange.rowBytes (e : Exchange) : Nat := match e.segs with | [] => 0 | p :: _ => p.2

/-- Takes the next delivered record (R425): it is dropped and counted, or its entries wait to be appended. -/
def State.takeRecord (s : State) (d x : Nat) : State :=
  match (Assoc.find s.exchanges x).bind fun e => (Assoc.find e.ingress d).map fun u => (e, u) with
  | none => s
  | some (e, u) =>
    match u.waiting, u.inbox with
    | [], r :: rest =>
      match u.entriesOf e.rowBytes r with
      | none => (s.onIngress d x fun u => { u with inbox := rest, dropped := u.dropped + 1 }).writeHeader d x 0x10 (u.dropped + 1)
      | some (es, n) =>
        let s := s.onIngress d x fun u => { u with inbox := rest, waiting := es, nans := u.nans + n }
        if n = 0 then s else s.writeHeader d x 0x18 (u.nans + n)
    | _, _ => s

/-- INGRESS_RECORD (R425, R427). -/
def execIngressRecord (die xid : Nat) (s : State) : Host.Outcome State Fault Refusal :=
  let s := s.takeRecord die xid
  match s.ingress? die xid with
  | none => .next s
  | some u => .next (s.appendAll die xid (u.waiting.length + 1))

/-- The round's stream has ended at the unit: every non-empty buffer starts, in increasing expert (R427). -/
def Ingress.closeRound (u : Ingress) (round : Nat) : Ingress :=
  (u.buffers.map Prod.fst).foldl (fun u e => u.start round e false true) u

/-- The bytes of a batch's ring entry (Table 22.3). -/
def Ingress.ringBytes (u : Ingress) (b : Batch) : List Byte :=
  toBytesLE 8 b.seq ++
  toBytesLE 8 ((u.glo * u.gs + b.expert) % 2 ^ 32 * 2 ^ 32 + b.round % 2 ^ 16 * 2 ^ 16 + b.rows) ++
  toBytesLE 8 (b.blocks.length * 2 ^ 32 + 2 * bit01 b.short + bit01 b.close) ++ List.replicate 40 0 ++
  b.blocks.flatMap (toBytesLE 4)

/-- BATCH_PUBLISH (R428): the oldest started batch, once its ring entry's previous batch is released in full. What others wrote to its
blocks and entry is settled then (R430). -/
def execBatchPublish (die xid : Nat) (s : State) : Host.Outcome State Fault Refusal :=
  match s.ingress? die xid with
  | none => .next s
  | some u =>
    match u.started with
    | [] => .next s
    | b :: rest =>
      let q := b.seq % u.nbq
      let free := match Assoc.find u.published q with
        | none => true
        | some old => old.freed == old.blocks.length
      if !free then .next s
      else
        let s := s.unitWrite xid u.ring (64 + q * u.ringEntry) (u.ringBytes b)
        let s := s.writeHeader die xid 0 (u.pub + 1)
        .next (s.onIngress die xid fun u =>
          let u := { u with started := rest, published := Assoc.put u.published q b, pub := u.pub + 1 }
          { u with contests := u.contests.filter fun c => u.holds c.addr c.bytes.length })

/-- RING_RELEASE_WRITE (R429): the oldest write to a RELEASE frees blocks of its batch. -/
def execRingReleaseWrite (die xid : Nat) (s : State) : Host.Outcome State Fault Refusal :=
  .next (s.onIngress die xid fun u =>
    match u.releases with
    | [] => u
    | (seq, v) :: rest =>
      let q := seq % u.nbq
      match Assoc.find u.published q with
      | none => { u with releases := rest }
      | some b =>
        let n := Nat.min v b.blocks.length
        if b.seq ≠ seq || n ≤ b.freed then { u with releases := rest }
        else
          let freed := (b.blocks.drop b.freed).take (n - b.freed)
          { freed.foldl Ingress.returnBlock u with
            releases := rest, published := Assoc.put u.published q { b with freed := n } })

end Sys2Proof.Machine
end

