-- ==== Sys2Proof/Machine/Whisk.lean ====
section
/-! DEFINITION. Whisk: key ranges, merge trees and their points, folds, delivery, Sieve and rounds (R380 to R402, R483, R484),
and the steps of the fabric. -/

namespace Sys2Proof.Machine

/-! ### Records and ranges -/

/-- KW (R380). -/
def Exchange.keyBits (e : Exchange) : Nat := if e.wide then 64 else 32

/-- PB (Table 19.4). -/
def Exchange.payloadBytes (e : Exchange) : Nat := (e.segs.map Prod.snd).sum

/-- Combiner concat (Table 19.6). -/
def Exchange.concat (e : Exchange) : Bool := e.comb == 7

/-- A segment's unit (R381). -/
def segmentUnit (code : Nat) : Nat := if code = 14 then 18 else if code = 15 then 1 else (ElemType.ofCode code).bits / 8

/-- The unit of used lengths (R393). -/
def Exchange.usedUnit (e : Exchange) : Nat := match e.segs with | [] => 1 | p :: _ => segmentUnit p.1

/-- The size of a delivered slot (Table 19.7). -/
def Exchange.slotSize (e : Exchange) : Nat := roundUp (e.keyBits / 8 + (if e.concat then 4 else 0) + e.payloadBytes) 8

/-- The range of a key: each is closed above (R384). -/
def keyRange : List Nat → Nat → Nat
  | [], _ => 0
  | x :: r, k => if k ≤ x then 0 else keyRange r k + 1

/-- The receiver of a key under the splitters in force (R384). -/
def Exchange.target (e : Exchange) (k : Nat) : Nat := e.map[keyRange e.splitters k]?.getD 0

/-! ### Merge points (R385, R386, R483) -/

/-- The entry names this device. -/
def Endpoint.here (x : Endpoint) (b : Hub) : Bool := x.row == b.row.toNat && x.col == b.col.toNat

/-- Some entry of the plan names another device. -/
def Exchange.abroad (e : Exchange) (b : Hub) : Bool := (e.senderList ++ e.receiverList).any fun x => !x.here b

/-- A place's number among a receiver's merge points. -/
def placeCode : MergePt → Nat
  | .cluster d c => 16 * d + c
  | .die d => 64 + d
  | .hub => 68
  | .rowHop => 69
  | .colHop => 70

/-- The key of a merge point of a receiver's tree. -/
def pointKey (recv : Nat) (pt : MergePt) : Nat := 128 * recv + placeCode pt

/-- The receiver's entry. -/
def Exchange.entry (e : Exchange) (recv : Nat) : Endpoint :=
  e.receiverList[recv]?.getD { row := 0, col := 0, kind := 0, die := 0, wid := 0 }

/-- This device holds the merge point in the receiver's tree (R385). -/
def Exchange.holds (e : Exchange) (b : Hub) (recv : Nat) (pt : MergePt) : Bool :=
  decide (recv < e.receiverList.length) &&
  match pt with
  | .cluster d c => decide (d < 4) && decide (c < 16)
  | .die d => decide (d < 4)
  | .hub => decide (1 ≤ e.scope)
  | .rowHop => e.scope == 2 && (e.entry recv).col == b.col.toNat
  | .colHop => e.scope == 2 && (e.entry recv).here b

/-- The leaf of a sender of this device, once it has joined. -/
def Exchange.leafOf (e : Exchange) (rank : Nat) : Option Nat :=
  match Assoc.find e.senders rank with
  | none => none
  | some x => if x.joined then some x.leaf else none

/-- A sender has joined, on this device or another (R483). -/
def Exchange.joinedRank (e : Exchange) (rank : Nat) : Bool :=
  (e.leafOf rank).isSome || match Assoc.find e.far rank with | none => false | some x => x.joined

/-- A rank reaches a place on its way to a receiver, once it has joined. -/
def Exchange.reaches (e : Exchange) (b : Hub) (pt : MergePt) (rank : Nat) (x : Endpoint) : Bool :=
  let joined := e.joinedRank rank
  match pt with
  | .cluster d c => e.leafOf rank == some (16 * d + c)
  | .die d => (e.leafOf rank).map (· / 16) == some d
  | .hub => (e.leafOf rank).isSome
  | .rowHop => joined && x.row == b.row.toNat
  | .colHop => joined

/-- The ranks that satisfy a condition, in increasing order. -/
def Exchange.ranks (e : Exchange) (p : Nat → Endpoint → Bool) : List Nat :=
  (e.senderList.zipIdx.filter fun q => p q.2 q.1).map Prod.snd

/-- The lowest rank that reaches a merge point: the number of the input it feeds (R386). -/
def Exchange.numberOf (e : Exchange) (b : Hub) (pt : MergePt) : Option Nat := (e.ranks (e.reaches b pt)).head?

/-- The inputs of a merge point, by their numbers in increasing order (R386). -/
def Exchange.inputsOf (e : Exchange) (b : Hub) (pt : MergePt) : List Nat :=
  let lowest (p : Endpoint → Bool) : Option Nat := (e.ranks fun r x => e.reaches b .colHop r x && p x).head?
  let xs := match pt with
    | .cluster _ _ => (e.ranks (e.reaches b pt)).map some
    | .die d => (List.range 16).map fun c => e.numberOf b (.cluster d c)
    | .hub => (List.range 4).map fun d => e.numberOf b (.die d)
    | .rowHop => (List.range b.cols).map fun c => lowest fun x => x.row == b.row.toNat && x.col == c
    | .colHop => (List.range b.rows).map fun r => lowest fun x => x.row == r
  sortStable (fun a b => decide (a < b)) (xs.filterMap id)

/-- Where a merge point passes its stream on to. -/
inductive Hop where
  | stream
  | point (pt : MergePt)
  | away (row col : Nat)
  deriving DecidableEq, Repr

/-- The next place on the way to the receiver (R385). -/
def Exchange.nextOf (e : Exchange) (b : Hub) (recv : Nat) (pt : MergePt) : Hop :=
  let x := e.entry recv
  match pt with
  | .cluster d _ => .point (.die d)
  | .die _ => if e.scope = 0 then .stream else .point .hub
  | .hub => if e.scope ≠ 2 then .stream else if x.col = b.col.toNat then .point .rowHop else .away b.row.toNat x.col
  | .rowHop => if x.row = b.row.toNat then .point .colHop else .away x.row x.col
  | .colHop => .stream

/-- Every sender named in the plan has joined or exited (R483). -/
def Exchange.formed (e : Exchange) : Bool :=
  e.senders.all (fun p => p.2.joined || p.2.gone) && e.far.all fun p => p.2.joined || p.2.gone

/-! ### The state of merge points -/

/-- A merge point's state, and an input's. -/
def Exchange.point (e : Exchange) (key : Nat) : MergeState :=
  (Assoc.find e.points key).getD { inputs := [], sentFloor := 0, sentClose := false }
def MergeState.input (p : MergeState) (n : Nat) : MergeInput :=
  (Assoc.find p.inputs n).getD { link := [], held := [], floor := 0, closed := false }

/-- Changes an input of a merge point. -/
def Exchange.onInput (e : Exchange) (key n : Nat) (f : MergeInput → MergeInput) : Exchange :=
  let p := e.point key
  { e with points := Assoc.put e.points key { p with inputs := Assoc.put p.inputs n (f (p.input n)) } }

/-- What has arrived from an input (R388, R390). -/
def MergeInput.take (i : MergeInput) : XItem → MergeInput
  | .record r => { i with held := i.held ++ [r], floor := Nat.max i.floor r.key }
  | .floor f => { i with floor := Nat.max i.floor f }
  | .close => { i with closed := true }

/-! ### Arrivals -/

/-- An item of a sender reaches the cluster switch: a record joins its receiver's tree and is a floor in the others (R388). -/
def Exchange.spread (e : Exchange) (rank leaf : Nat) (x : XItem) : Exchange :=
  let pt := MergePt.cluster (leaf / 16) (leaf % 16)
  (List.range e.receiverList.length).foldl (fun e recv =>
    let y := match x with
      | .record r => if recv = e.target r.key then x else .floor r.key
      | y => y
    e.onInput (pointKey recv pt) rank fun i => i.take y) e

/-- The next item of a sender's run of the round in progress reaches its cluster switch; those of later rounds wait (R389,
R400). A sender that has left has closed every later round (R387). (Log 43, DEDUCED.) -/
def Exchange.leafArrival (e : Exchange) (rank : Nat) : Exchange :=
  match Assoc.find e.senders rank with
  | none => e
  | some x =>
    if !x.joined then e
    else
      match x.queue with
      | [] => if x.gone then e.spread rank x.leaf .close else e
      | (round, y) :: rest =>
        if round = e.round then
          { e with senders := Assoc.put e.senders rank { x with queue := rest } }.spread rank x.leaf y
        else e

/-- `n` free bytes. -/
def State.freeBytes (s : State) (n : Nat) : List Byte × State :=
  let (x, s) := s.draw
  (toBytesLE n x, s)

/-- A sender of another device has closed its run of the round in progress (R387, R389). -/
def FarSender.past (x : FarSender) (round : Nat) : Bool := x.gone || decide (round < x.round)

/-- It can have sent records in a round: it has joined, and has not left before (R387). -/
def FarSender.sends (x : FarSender) (round : Nat) : Bool := x.joined && (!x.gone || decide (round < x.round))

/-- The senders behind an input from another device, by device row and column (R385). -/
def Exchange.behindInput (e : Exchange) (pt : MergePt) (input : Nat) (x : Endpoint) : Bool :=
  match e.senderList[input]?, pt with
  | some y, .rowHop => x.row == y.row && x.col == y.col
  | some y, _ => x.row == y.row
  | none, _ => false

/-- All of them have closed their runs of the round in progress. -/
def Exchange.inputClosed (e : Exchange) (pt : MergePt) (input : Nat) : Bool :=
  e.far.all fun p => match e.senderList[p.1]? with
    | none => true
    | some x => !e.behindInput pt input x || p.2.past e.round

/-- Some sender behind the input can have sent records in the round in progress. -/
def Exchange.inputSends (e : Exchange) (pt : MergePt) (input : Nat) : Bool :=
  e.far.any fun p => match e.senderList[p.1]? with
    | none => false
    | some x => e.behindInput pt input x && p.2.sends e.round

/-- An item from another device's merge point for a receiver: whatever keeps the order of keys (R385, R390); a record, of a sender that
can have sent one (R387), of another receiver's range is a floor here (R388), and a close comes once all senders behind it have closed. -/
def State.foreignItem (s : State) (e : Exchange) (recv : Nat) (closes sends : Bool) (i : MergeInput) : XItem × State :=
  let (kind, s) := s.choose 3
  let (x, s) := s.draw
  let k := i.floor + x % (2 ^ e.keyBits - i.floor)
  if i.closed || (closes && kind = 0) then (.close, s)
  else if kind < 2 || !sends || e.target k ≠ recv then (.floor k, s)
  else
    let (bytes, s) := s.freeBytes e.payloadBytes
    if e.concat then
      let (u, s) := s.choose (e.payloadBytes / e.usedUnit + 1)
      let (t, s) := s.choose 2
      let used := u * e.usedUnit
      (.record { key := k, payload := bytes.take used ++ List.replicate (e.payloadBytes - used) 0, used := used,
                 trunc := t == 1 }, s)
    else (.record { key := k, payload := bytes, used := e.payloadBytes, trunc := false }, s)

/-- The input of a hop point comes from another device. -/
def Exchange.fromAbroad (e : Exchange) (b : Hub) (pt : MergePt) (input : Nat) : Bool :=
  match e.senderList[input]? with
  | none => false
  | some x =>
    match pt with
    | .rowHop => x.col != b.col.toNat
    | .colHop => x.row != b.row.toNat
    | .cluster _ _ | .die _ | .hub => false

/-- The next item on the way to an input arrives there. -/
def Exchange.linkArrival (e : Exchange) (key input : Nat) : Exchange :=
  e.onInput key input fun i =>
    match i.link with
    | [] => i
    | x :: rest => { i with link := rest }.take x

/-- MERGE_INPUT_ARRIVAL (R388, R402). -/
def execMergeInputArrival (xid recv : Nat) (pt : MergePt) (input : Nat) (s : State) : Host.Outcome State Fault Refusal :=
  match Assoc.find s.exchanges xid with
  | none => .next s
  | some e =>
    if !e.holds s.hub recv pt || !(e.inputsOf s.hub pt).contains input then .next s
    else
      let key := pointKey recv pt
      match pt with
      | .cluster _ _ => .next (s.onExchange xid fun e => e.leafArrival input)
      | .die _ | .hub | .rowHop | .colHop =>
        if e.fromAbroad s.hub pt input then
          let (x, s) := s.foreignItem e recv (e.inputClosed pt input) (e.inputSends pt input) ((e.point key).input input)
          .next (s.onExchange xid fun e => e.onInput key input fun i => i.take x)
        else .next (s.onExchange xid fun e => e.linkArrival key input)

/-! ### Combiners (R392, R393) -/

/-- One element of a fold (Table 19.6). -/
def foldElement (comb code a b : Nat) : Nat :=
  let t := ElemType.ofCode code
  let f := fmtOf t
  match comb with
  | 1 => (a + b) % 2 ^ 32
  | 2 => (fmtF32.add .rne false (fmtF32.decode a) (fmtF32.decode b)).1
  | 3 => (fmtBf16.add .rne false (fmtBf16.decode a) (fmtBf16.decode b)).1
  | 4 =>
    if code < 4 then (if signExt a t.bits < signExt b t.bits then b else a)
    else if code < 8 then Nat.max a b
    else f.minMax true (f.decode a) (f.decode b)
  | 5 =>
    if code < 4 then (if signExt b t.bits < signExt a t.bits then b else a)
    else if code < 8 then Nat.min a b
    else f.minMax false (f.decode a) (f.decode b)
  | _ => a

/-- A segment's elements folded one by one. -/
def foldSegment (comb code n : Nat) (a b : List Byte) : List Byte :=
  let w := (ElemType.ofCode code).bits
  let x := ofBytesLE a
  let y := ofBytesLE b
  toBytesLE n (forElems (fun i z => setBits z (w * i) w (foldElement comb code (bitsOf x (w * i) w) (bitsOf y (w * i) w)))
    (8 * n / w) 0 x)

/-- The payloads folded segment by segment. -/
def foldPayload (comb : Nat) : List (Nat × Nat) → List Byte → List Byte → List Byte
  | [], _, _ => []
  | (code, n) :: segs, a, b =>
    foldSegment comb code n (a.take n) (b.take n) ++ foldPayload comb segs (a.drop n) (b.drop n)

/-- fold(a, b), with a ahead of b (R392, R393). -/
def Exchange.fold (e : Exchange) (a b : XRecord) : XRecord :=
  let pb := e.payloadBytes
  if e.comb = 7 then
    let u := a.used + b.used
    let all := a.payload.take a.used ++ b.payload.take b.used
    { key := a.key, payload := (all ++ List.replicate pb 0).take pb, used := Nat.min u pb,
      trunc := decide (pb < u) || a.trunc || b.trunc }
  else if e.comb = 6 || e.comb = 0 then a
  else { a with payload := foldPayload e.comb e.segs a.payload b.payload }

/-! ### Emission (R390, R391, R394) -/

/-- A key bound above every key. -/
def noBound : Nat := 2 ^ 64

/-- Bq (R390). -/
def MergeInput.first (i : MergeInput) : Nat :=
  match i.held with
  | r :: _ => r.key
  | [] => if i.closed then noBound else i.floor

/-- Aq(h) (R390). -/
def MergeInput.after (i : MergeInput) (h : Nat) : Nat :=
  match i.held.find? fun r => h < r.key with
  | some r => r.key
  | none => if i.closed then noBound else i.floor

/-- The least of some bounds. -/
def least (xs : List Nat) : Nat := xs.foldl Nat.min noBound

/-- Under combiner none: the input whose first record passes (R390). -/
def passInput (ins : List (Nat × MergeInput)) (h : Nat) : Option Nat :=
  match ins.findIdx? fun p => (p.2.held.head?.map fun r => r.key) == some h with
  | none => none
  | some k =>
    if (ins.take k).all (fun p => decide (h < p.2.first)) && (ins.drop (k + 1)).all (fun p => decide (h ≤ p.2.first)) then
      (ins[k]?).map Prod.fst
    else none

/-- What a merge point does next: the item it passes on, and its inputs after that; none when it waits. -/
def Exchange.emission (e : Exchange) (p : MergeState) (ins : List (Nat × MergeInput)) :
    Option (XItem × List (Nat × MergeInput)) :=
  let keys := ins.flatMap fun q => q.2.held.map fun r => r.key
  let idle : Option (XItem × List (Nat × MergeInput)) :=
    if ins.all fun q => q.2.held.isEmpty && q.2.closed then (if p.sentClose then none else some (.close, ins))
    else
      let f := least (ins.map fun q => q.2.first)
      if p.sentFloor < f then some (.floor f, ins) else none
  if keys.isEmpty then idle
  else
    let h := least keys
    if e.comb = 0 then
      match passInput ins h with
      | none => idle
      | some n =>
        match (ins.find? fun q => q.1 == n).bind fun q => q.2.held.head? with
        | none => idle
        | some r => some (.record r, ins.map fun q => if q.1 = n then (q.1, { q.2 with held := q.2.held.drop 1 }) else q)
    else if ins.all fun q => decide (h < q.2.after h) then
      match ins.flatMap fun q => q.2.held.filter fun r => r.key == h with
      | [] => idle
      | r :: rs =>
        some (.record (rs.foldl e.fold r),
          ins.map fun q => (q.1, { q.2 with held := q.2.held.filter fun r => r.key != h }))
    else idle

/-- What a merge point has sent bounds what it may still send (R391). -/
def MergeState.sent (p : MergeState) : XItem → MergeState
  | .record r => { p with sentFloor := Nat.max p.sentFloor r.key }
  | .floor f => { p with sentFloor := f }
  | .close => { p with sentClose := true }

/-- An item joins a receiver's stream. -/
def Exchange.pushStream (e : Exchange) (recv : Nat) (x : XItem) : Exchange :=
  { e with receivers := Assoc.change e.receivers recv fun r => { r with stream := r.stream ++ [(e.round, x)] } }

/-- An item leaves a merge point for the next place. -/
def State.passOn (s : State) (xid recv : Nat) (pt : MergePt) (x : XItem) : State :=
  match Assoc.find s.exchanges xid with
  | none => s
  | some e =>
    match e.nextOf s.hub recv pt with
    | .stream => s.onExchange xid fun e => e.pushStream recv x
    | .away row col =>
      match s.leave row col 0 with
      | (s, none) => s
      | (s, some (port, vc)) => s.emit (.exchange port vc row col xid recv x)
    | .point q =>
      match e.numberOf s.hub pt with
      | none => s
      | some n => s.onExchange xid fun e => e.onInput (pointKey recv q) n fun i => { i with link := i.link ++ [x] }

/-- The root of a receiver's tree (R385). -/
def Exchange.isRoot (e : Exchange) (b : Hub) (recv : Nat) (pt : MergePt) : Bool :=
  e.nextOf b recv pt == .stream && match pt with
    | .die d => d == e.die
    | .cluster _ _ | .hub | .rowHop | .colHop => true

/-- A place with no senders behind it has no merge point, unless it is the root (R385). -/
def Exchange.stands (e : Exchange) (b : Hub) (recv : Nat) (pt : MergePt) : Bool :=
  !(e.inputsOf b pt).isEmpty || e.isRoot b recv pt

/-- MERGE_POINT_EMIT (R390, R391, R394): once the trees have formed (R483). -/
def execMergePointEmit (xid recv : Nat) (pt : MergePt) (s : State) : Host.Outcome State Fault Refusal :=
  match Assoc.find s.exchanges xid with
  | none => .next s
  | some e =>
    if !e.formed || !e.holds s.hub recv pt || !e.stands s.hub recv pt then .next s
    else
      let key := pointKey recv pt
      let p := e.point key
      match e.emission p ((e.inputsOf s.hub pt).map fun n => (n, p.input n)) with
      | none => .next s
      | some (x, ins) =>
        let inputs := ins.foldl (fun m q => Assoc.put m q.1 q.2) p.inputs
        let s := s.onExchange xid fun e => { e with points := Assoc.put e.points key { p.sent x with inputs := inputs } }
        .next (s.passOn xid recv pt x)

/-! ### Delivery (R396, R397, R389) -/

/-- The bytes of a delivered slot (Table 19.7). -/
def Exchange.slotBytes (e : Exchange) (r : XRecord) : List Byte :=
  let used := if e.concat then toBytesLE 4 (r.used + bit01 r.trunc * 2 ^ 31) else []
  (toBytesLE (e.keyBits / 8) r.key ++ used ++ r.payload ++ List.replicate 8 0).take e.slotSize

/-- Whisk writes bytes into an area from offset `o` on; those beyond the device go out as requests, whose answers the XRECV that
reports the area awaits (R54). (Log 51, DEDUCED.) -/
def State.areaWrite (s : State) (tag : Word) (wid : Nat) (a : Area) (o : Nat) (bytes : List Byte) : State :=
  (stretchParts a.pieces o bytes).foldl (fun s p =>
    if p.1.target = .memory then s.deliverBytes tag (BitVec.ofNat 64 wid) a.key p.1 p.2
    else
      (splitBlocks [{ place := p.1, size := p.2.length }]).foldl (fun s q =>
        (s.issueWrite (.area a.key a.core) q.place ((p.2.drop (q.place.addr - p.1.addr)).take q.size)).1) s) s

/-- An area ends: Whisk's writes to it are all made (R371, R410), and walks see them (R45). -/
def State.endArea (s : State) (tag : Word) (key : Nat) : State :=
  (s.settleTree (.node key)).onLaunch tag fun l => { l with deferred := Assoc.change l.deferred key fun d => { d with finished := true } }

/-- Changes a receiver of an exchange. -/
def State.onReceiver (s : State) (xid recv : Nat) (f : Receiver → Receiver) : State :=
  s.onExchange xid fun e => { e with receivers := Assoc.change e.receivers recv f }

/-- The next item of a stream is consumed. -/
def State.popStream (s : State) (xid recv : Nat) : State :=
  s.onReceiver xid recv fun r => { r with stream := r.stream.drop 1 }

/-- An item reaches an expert ingress unit: a record waits there; the round's end starts its buffers once all records before
it are appended (R425, R427). -/
def State.deliverIngress (s : State) (xid recv : Nat) (e : Exchange) (round : Nat) (x : XItem) : State :=
  let d := (e.entry recv).die
  match s.ingress? d xid, x with
  | none, _ => s.popStream xid recv
  | some _, .record r => (s.popStream xid recv).onIngress d xid fun u => { u with inbox := u.inbox ++ [r] }
  | some _, .floor _ => s.popStream xid recv
  | some u, .close =>
    if u.inbox.isEmpty && u.waiting.isEmpty then (s.popStream xid recv).onIngress d xid fun u => u.closeRound round else s

/-- An item reaches a hart's receive area (R396, R397, R410). (Log 41, DEDUCED.) -/
def State.deliverArea (s : State) (xid recv : Nat) (e : Exchange) (a : Area) (round : Nat) (x : XItem) : State :=
  let put (s : State) (a : Area) : State := s.onReceiver xid recv fun r => { r with area := some a }
  match x with
  | .floor _ => s.popStream xid recv
  | .close => (put (s.popStream xid recv) { a with ended := some true, round := round }).endArea e.tag a.key
  | .record r =>
    if a.size < a.written + e.slotSize then (put s { a with ended := some false }).endArea e.tag a.key
    else
      let s := s.areaWrite e.tag (e.entry recv).wid a a.written (e.slotBytes r)
      put (s.popStream xid recv) { a with written := a.written + e.slotSize, round := round }

/-- Records discarded are counted up to 2^64 − 1 (R389, R411). -/
def Exchange.discard (e : Exchange) : Exchange := { e with discarded := Nat.min (e.discarded + 1) (2 ^ 64 - 1) }

/-- WHISK_DELIVER (R389, R396, R397). -/
def execWhiskDeliver (xid recv : Nat) (s : State) : Host.Outcome State Fault Refusal :=
  match (Assoc.find s.exchanges xid).bind fun e => (Assoc.find e.receivers recv).map fun r => (e, r) with
  | none => .next s
  | some (e, r) =>
    match r.stream with
    | [] => .next s
    | (round, x) :: _ =>
      if (e.entry recv).kind = 1 then .next (s.deliverIngress xid recv e round x)
      else if r.gone then
        match x with
        | .record _ => .next ((s.popStream xid recv).onExchange xid Exchange.discard)
        | .floor _ | .close => .next (s.popStream xid recv)
      else
        match r.area with
        | none => .next (match x with | .floor _ => s.popStream xid recv | .record _ | .close => s)
        | some a => if a.ended.isSome then .next s else .next (s.deliverArea xid recv e a round x)

/-! ### Sieve (R398, R399) -/

/-- Drops samples until no more than 4,096 remain, the shift rising by one each time. (Log 50, DEDUCED.) -/
def Sample.thin (x : Sample) : Nat → Sample
  | 0 => x
  | n + 1 =>
    if x.keys.length ≤ 4096 then x
    else Sample.thin { shift := x.shift + 1, keys := x.keys.filter fun k => k.1 % 2 ^ (x.shift + 1) == 0 } n

/-- A record with its count in the sender's run is sampled or not (R398). -/
def Sample.add (x : Sample) (count key : Nat) : Sample :=
  if count % 2 ^ x.shift = 0 then Sample.thin { x with keys := x.keys ++ [(count, key)] } 64 else x

/-- Sieve sees a record of a round. -/
def Exchange.sampleRecord (e : Exchange) (round count key : Nat) : Exchange :=
  let x := (Assoc.find e.samples round).getD { shift := e.sshift, keys := [] }
  { e with samples := Assoc.put e.samples round (x.add count key) }

/-- The shadow splitters of the round in progress (R399). -/
def Exchange.shadowTable (e : Exchange) : List Nat :=
  let n := e.splitters.length
  let ks := match Assoc.find e.samples e.round with
    | none => []
    | some x => sortStable (fun a b => decide (a < b)) (x.keys.map Prod.snd)
  if ks.isEmpty then e.splitters
  else (List.range n).map fun j => ks[((j + 1) * ks.length + n) / (n + 1) - 1]?.getD 0

/-- A table of splitters that another device's Sieve or XSPLIT may give (R399, R412). -/
def State.freeTable (s : State) (bits n : Nat) : List Nat × State :=
  let r := (List.range n).foldl (fun (acc : List Nat × State) _ =>
    let (x, s) := acc.2.draw
    (acc.1 ++ [x % 2 ^ bits], s)) ([], s)
  (sortStable (fun a b => decide (a < b)) r.1, r.2)

/-! ### Rounds (R389, R400, R412, R414) -/

/-- The merge points of a receiver's tree that this device holds and that have senders behind them. -/
def Exchange.treePoints (e : Exchange) (b : Hub) (recv : Nat) : List MergePt :=
  let all := ((List.range 4).flatMap fun d => (List.range 16).map fun c => MergePt.cluster d c) ++
    (List.range 4).map MergePt.die ++ [.hub, .rowHop, .colHop]
  all.filter fun pt => e.holds b recv pt && e.stands b recv pt

/-- Every merge point of the device has closed, and nothing of the round is on its way (R389). (Log 45, DEDUCED.) -/
def Exchange.roundDone (e : Exchange) (b : Hub) : Bool :=
  e.formed &&
  e.senders.all (fun p => (p.2.gone || decide (e.round < p.2.round)) && p.2.queue.all fun q => decide (e.round < q.1)) &&
  (List.range e.receiverList.length).all (fun recv => (e.treePoints b recv).all fun pt =>
    let p := e.point (pointKey recv pt)
    p.sentClose && p.inputs.all fun i => i.2.link.isEmpty) &&
  e.receivers.all (fun p => p.2.stream.all fun q => match q.2 with | .record _ => false | .floor _ | .close => true) &&
  e.far.all (fun p => p.2.past e.round) && e.farReceivers.all (fun p => p.2.gone || decide (e.round ≤ p.2.round)) &&
  e.ingress.all fun p => p.2.inbox.isEmpty && p.2.waiting.isEmpty

/-- The next round begins with `fresh`, the shadow table of the round that closes: the splitters in force and the mode (R399, R400,
R412, R414). -/
def Exchange.nextRound (e : Exchange) (fresh : Option (List Nat)) : Exchange :=
  let table := match e.install, fresh with
    | some t, _ => t
    | none, some t => if e.nextMode = 1 then t else e.splitters
    | none, none => e.splitters
  { e with
    round := e.round + 1, mode := e.nextMode, splitters := table, install := none, points := [],
    shadow := match fresh with | some t => some (e.round, t) | none => e.shadow,
    samples := Assoc.drop e.samples e.round }

/-- Some hart of another device has been a member in the round in progress, as which it may execute XSPLIT and XREBAL: it has joined, and
had not left before (R387, R389). -/
def Exchange.farMember (e : Exchange) : Bool :=
  e.far.any (fun p => p.2.sends e.round) ||
  e.farReceivers.any fun p => (e.entry p.1).kind == 0 && p.2.joined && (!p.2.gone || decide (e.round ≤ p.2.since))

/-- What harts of other devices have set for the next round by XREBAL and XSPLIT (R412, R414), which is theirs to choose. -/
def State.farSettings (s : State) (e : Exchange) : State × Exchange :=
  if !e.farMember then (s, e)
  else
    let (m, s) := s.choose 4
    let (t, s) := s.freeTable e.keyBits e.splitters.length
    let (own, s) := s.choose 2
    (s, { e with nextMode := if m = 3 then e.nextMode else m, install := if own = 0 then e.install else some t })

/-- The shadow table of the round that closes (R399); Sieve's samples of other devices' senders that can have sent in it are theirs. -/
def State.closingTable (s : State) (e : Exchange) : State × Option (List Nat) :=
  if e.mode = 0 then (s, none)
  else if !e.far.any fun p => p.2.sends e.round then (s, some e.shadowTable)
  else
    let (t, s) := s.freeTable e.keyBits e.splitters.length
    (s, some t)

/-- The round in progress closes. -/
def State.closeRound (s : State) (xid : Nat) (e : Exchange) : State :=
  let (s, fresh) := s.closingTable e
  let (s, e) := s.farSettings e
  s.onExchange xid fun _ => e.nextRound fresh

/-- ROUND_CLOSE (R389). -/
def execRoundClose (xid : Nat) (s : State) : Host.Outcome State Fault Refusal :=
  match Assoc.find s.exchanges xid with
  | none => .next s
  | some e => if e.roundDone s.hub then .next (s.closeRound xid e) else .next s

/-- What another device's traffic tells of its members. -/
def Exchange.hear (e : Exchange) (n : XNews) : Exchange :=
  match n with
  | .joined k => { e with far := Assoc.change e.far k fun x => { x with joined := x.joined || !x.gone } }
  | .closedRun k =>
    { e with far := Assoc.change e.far k fun x => if x.joined && !x.gone then { x with round := x.round + 1 } else x }
  | .senderLeft k =>
    { e with far := Assoc.change e.far k fun x =>
        if x.gone then x else { x with gone := true, round := if x.joined then x.round + 1 else x.round } }
  | .delivered k => { e with farReceivers := Assoc.change e.farReceivers k fun x => { x with round := e.round } }
  | .receiverJoined k => { e with farReceivers := Assoc.change e.farReceivers k fun x => { x with joined := x.joined || !x.gone } }
  | .receiverLeft k =>
    { e with farReceivers := Assoc.change e.farReceivers k fun x => if x.gone then x else { x with gone := true, since := e.round } }

/-! ### Leaving and closing (R387, R389, R415) -/

/-- A sender closes its run of its round (R387, R409). -/
def Sender.closeRun (x : Sender) : Sender :=
  { x with queue := x.queue ++ [(x.round, .close)], round := x.round + 1, floor := 0, sent := 0 }

/-- A sender leaves: its open run closes first (R387, R415). -/
def Sender.leave (x : Sender) : Sender :=
  if x.gone then x else if x.joined then { x.closeRun with gone := true } else { x with gone := true }

/-- The hart named in an entry of this device. -/
def Endpoint.names (x : Endpoint) (b : Hub) (wid : Nat) : Bool := x.here b && x.kind == 0 && x.wid == wid

/-- The hart of this device with a WID leaves the exchange, or never joins it (R387, R389, R415). -/
def Exchange.leave (e : Exchange) (b : Hub) (wid : Nat) : Exchange :=
  { e with
    senders := e.senders.map fun p =>
      (p.1, match e.senderList[p.1]? with
        | some x => if x.names b wid then p.2.leave else p.2
        | none => p.2),
    receivers := e.receivers.map fun p =>
      (p.1, if (e.entry p.1).names b wid then { p.2 with gone := true, area := none } else p.2) }

/-- The keys of the areas that a hart holds in an exchange. -/
def Exchange.areaKeys (e : Exchange) (b : Hub) (wid : Nat) : List Nat :=
  e.receivers.filterMap fun p => if (e.entry p.1).names b wid then p.2.area.map fun a => a.key else none

/-- A hart leaves an exchange; an area it holds ends as it stands (R415). -/
def State.leaveExchange (s : State) (xid : Nat) (wid : Word) : State :=
  match Assoc.find s.exchanges xid with
  | none => s
  | some e =>
    ((e.areaKeys s.hub wid.toNat).foldl (fun s k => s.endArea e.tag k) s).onExchange xid fun e => e.leave s.hub wid.toNat

/-- A hart of a launch exits: it leaves every exchange of the launch (R92, R387, R389). -/
def State.leaveAll (s : State) (tag wid : Word) : State :=
  (s.exchanges.filter fun p => p.2.tag == tag).foldl (fun s p => s.leaveExchange p.1 wid) s

/-- The traffic of an ingress unit is over: the stream's end has reached it, and every batch is published (R427, R428). -/
def Ingress.finished (u : Ingress) : Bool :=
  u.inbox.isEmpty && u.waiting.isEmpty && u.started.isEmpty && u.buffers.isEmpty

/-- Every member has left, on this device and others, every round begun has closed, and the ingress units have published (R415). -/
def Exchange.finished (e : Exchange) : Bool :=
  e.senders.all (fun p => p.2.gone && decide (p.2.round ≤ e.round)) &&
  e.far.all (fun p => p.2.gone && decide (p.2.round ≤ e.round)) &&
  (e.receivers.all fun p => if (e.entry p.1).kind = 1 then p.2.stream.isEmpty else p.2.gone) &&
  (e.farReceivers.all fun p => p.2.gone || ((e.entry p.1).kind == 1 && decide (e.round ≤ p.2.round + 1))) &&
  e.ingress.all fun p => p.2.finished

/-- EXCHANGE_CLOSE (R415). -/
def execExchangeClose (xid : Nat) (s : State) : Host.Outcome State Fault Refusal :=
  match Assoc.find s.exchanges xid with
  | none => .next s
  | some e => if e.finished then .next { s with exchanges := Assoc.drop s.exchanges xid } else .next s

end Sys2Proof.Machine
end

