-- ==== Sys2Proof/Machine/Exchange.lean ====
section
/-! DEFINITION. The exchange instructions: MAJ 0x33 (R403 to R415), with the plan they open (R382, R383, R421). -/

namespace Sys2Proof.Machine

/-! ### Reading a stretch -/

/-- What reading a stretch comes to: all of it, a failing byte with what came before it, or a wait for an answer. -/
inductive Span where
  | ok (s : State) (got : List Byte)
  | bad (s : State) (got : List Byte) (c : Cause)
  | wait (s : State)

/-- A plain read of the hart of the pieces that follow `got`, in rising order. What comes before a failing word is read (R267). -/
def State.readPieces (s : State) (h : Hart) (got : List Byte) : List Piece → Span
  | [] => .ok s got
  | p :: ps =>
    if p.place.target = .memory then
      match s.badWord p.place.addr p.size with
      | some w =>
        let (xs, s) := s.readNear h [{ p with size := 8 * w - p.place.addr }]
        .bad (s.logBad (·.of s.cur h) w) (got ++ xs) .dataerr
      | none =>
        let (xs, s) := (s.noteRead h [p]).readNear h [p]
        s.readPieces h (got ++ xs) ps
    else
      match s.issueRead (.hart s.cur) p.place p.size with
      | (s, .answered (.data v)) =>
        (s.noteFar h p.place (toBytesLE p.size v)).readPieces h (got ++ toBytesLE p.size v) ps
      | (s, .answered (.failed c)) => .bad s got c
      | (s, .sent tag) =>
        .wait (s.onWait fun w => { w with request := some tag, answer := none, left := p :: ps, got := got })
      | (s, .full) => .wait (s.onWait fun w => { w with request := none, answer := none, left := p :: ps, got := got })

/-- Reads on from `va + got.length` up to `n` bytes in all. -/
def State.readUpTo (s : State) (h : Hart) (va : Nat) (got : List Byte) (n : Nat) : Span :=
  let m := n - got.length
  let (s, ps, err) := s.routeWide (s.hartAgent s.cur h 0) .read (granules m) ((va + got.length) % 2 ^ 64) m
  match s.readPieces h got (splitWords ps), err with
  | .ok s got, some (c, _) => .bad s got c
  | r, _ => r

/-- Reads on while more is needed. -/
def Span.more (h : Hart) (va : Nat) (need : List Byte → Nat) : Nat → Span → Span
  | fuel + 1, .ok s got => if need got ≤ got.length then .ok s got else Span.more h va need fuel (s.readUpTo h va got (need got))
  | _, r => r

/-- What has been read when the hart resumes: nothing at first, what an answer adds, or what stood while no tag was free. -/
def State.resumeSpan (s : State) (h : Hart) : Span :=
  match h.wait.answer, h.wait.request with
  | some (.failed c), _ => .bad (s.onWait fun _ => idleWait) h.wait.got c
  | some (.data v), _ =>
    let s := s.onWait fun _ => idleWait
    match h.wait.left with
    | [] => .ok s h.wait.got
    | p :: ps => (s.noteFar h p.place (toBytesLE p.size v)).readPieces h (h.wait.got ++ toBytesLE p.size v) ps
  | none, some _ => .wait s
  | none, none => if h.wait.left.isEmpty then .ok s [] else (s.onWait fun _ => idleWait).readPieces h h.wait.got h.wait.left

/-- Reads from `va` as many bytes as those read so far call for. -/
def State.readSpan (s : State) (h : Hart) (va : Nat) (need : List Byte → Nat) : Span :=
  Span.more h va need 8 (s.resumeSpan h)

/-! ### The plan (Tables 19.1 to 19.4) -/

/-- Dword `i` of a plan. -/
def planDword (xs : List Byte) (i : Nat) : Word := BitVec.ofNat 64 (ofBytesLE ((xs.drop (8 * i)).take 8))

/-- NSEND and NRECV. -/
def planSenders (xs : List Byte) : Nat := fieldOf (planDword xs 3) 0 15
def planReceivers (xs : List Byte) : Nat := fieldOf (planDword xs 3) 32 9

/-- The bytes of a plan that must be read: PCTL first, then the fixed part, then the entries (R382). -/
def planNeed (xs : List Byte) : Nat :=
  if xs.length < 8 then 8 else if xs.length < 0x940 then 0x940 else 0x940 + 8 * (planSenders xs + planReceivers xs)

/-- Fields of PCTL (Table 19.2). -/
def planXid (p : Word) : Nat := fieldOf p 52 4
def planScope (p : Word) : Nat := fieldOf p 50 2
def planWide (p : Word) : Bool := bitOf p.toNat 49
def planComb (p : Word) : Nat := fieldOf p 44 4
def planMode (p : Word) : Nat := fieldOf p 42 2
def planShift (p : Word) : Nat := fieldOf p 38 4
def planSplitters (p : Word) : Nat := fieldOf p 30 8
def planSegments (p : Word) : Nat := fieldOf p 28 2 + 1

/-- Segment word `i` (Table 19.3). -/
def planSegWord (xs : List Byte) (i : Nat) : Nat := fieldOf (planDword xs (1 + i / 2)) (32 * (i % 2)) 32

/-- The segments' types and byte counts. -/
def planSegs (xs : List Byte) : List (Nat × Nat) :=
  (List.range (planSegments (planDword xs 0))).map fun i =>
    (bitsOf (planSegWord xs i) 28 4, bitsOf (planSegWord xs i) 0 13)

/-- The splitters and the map. -/
def planTable (xs : List Byte) : List Nat :=
  (List.range (planSplitters (planDword xs 0))).map fun j => (planDword xs (8 + j)).toNat
def planMap (xs : List Byte) : List Nat :=
  ((xs.drop 0x840).take (planSplitters (planDword xs 0) + 1)).map fun b => b.toNat

/-- `n` entry words from dword `i` on. -/
def planWords (xs : List Byte) (i : Nat) : Nat → List Word
  | 0 => []
  | n + 1 => planDword xs i :: planWords xs (i + 1) n

/-- An entry (Table 19.4). -/
def planEntry (w : Word) : Endpoint :=
  { row := fieldOf w 60 4, col := fieldOf w 56 4, kind := fieldOf w 54 2, die := fieldOf w 48 2, wid := fieldOf w 0 48 }

/-- The entry words of senders and receivers. -/
def senderWords (xs : List Byte) : List Word := planWords (xs.drop 0x940) 0 (planSenders xs)
def receiverWords (xs : List Byte) : List Word :=
  planWords (xs.drop (0x940 + 8 * planSenders xs)) 0 (planReceivers xs)

/-! ### Its checks (Table 19.5) -/

/-- Reserved and unused fields are zero and the version is right (reason 0x02). -/
def planClean (xs : List Byte) : Bool :=
  let p := planDword xs 0
  let counts := planDword xs 3
  fieldOf p 56 8 == 1 && fieldOf p 48 1 == 0 && fieldOf p 0 28 == 0 && fieldOf counts 41 23 == 0 &&
  fieldOf counts 15 17 == 0 && (List.range 4).all (fun i => planDword xs (4 + i) == 0) && planDword xs 263 == 0 &&
  (List.range 4).all (fun i =>
    bitsOf (planSegWord xs i) 13 15 == 0 && (decide (i < planSegments p) || planSegWord xs i == 0)) &&
  (List.range 255).all (fun j => decide (j < planSplitters p) || planDword xs (8 + j) == 0) &&
  ((xs.drop (0x840 + planSplitters p + 1)).take (255 - planSplitters p)).all (· == 0) &&
  (senderWords xs ++ receiverWords xs).all fun w =>
    let x := planEntry w
    fieldOf w 50 4 == 0 && (x.kind != 0 || x.die == 0) && (x.kind != 1 || x.wid == 0)

/-- The combiner accepts the segments (Table 19.6). -/
def combinerAccepts (comb : Nat) (segs : List (Nat × Nat)) : Bool :=
  match comb with
  | 1 => segs.all fun x => x.1 == 2 || x.1 == 6
  | 2 => segs.all fun x => x.1 == 10
  | 3 => segs.all fun x => x.1 == 8
  | 4 | 5 => segs.all fun x => decide (x.1 < 14)
  | 7 => segs.length == 1
  | _ => true

/-- Splitters do not decrease and fit the key (reason 0x07). -/
def tableOk (bits : Nat) : List Nat → Bool
  | [] => true
  | [x] => decide (x < 2 ^ bits)
  | x :: y :: r => decide (x < 2 ^ bits) && decide (x ≤ y) && tableOk bits (y :: r)

/-- An entry names a device outside the scope (reason 0x0A). -/
def outsideScope (b : Hub) (group : Option (BitVec 256)) (scope die : Nat) (x : Endpoint) : Bool :=
  if scope = 2 then
    !(decide (x.row < b.rows) && decide (x.col < b.cols) &&
      (x.here b || match group with | none => false | some m => m.getLsbD (16 * x.row + x.col)))
  else !x.here b || (scope == 0 && x.kind == 1 && x.die != die)

/-- The first reason among 0x02 to 0x0A for which a plan is refused; 0x0B stands apart. (Log 48, DEDUCED.) -/
def planReason (xs : List Byte) (b : Hub) (group : Option (BitVec 256)) (widcount die : Nat) : Option Nat :=
  let p := planDword xs 0
  let segs := planSegs xs
  let sw := senderWords xs
  let rw' := receiverWords xs
  let es := (sw ++ rw').map planEntry
  let bits := if planWide p then 64 else 32
  if !planClean xs then some 2
  else if planScope p = 3 || 8 ≤ planComb p || planMode p = 3 || es.any (fun x => decide (2 ≤ x.kind)) ||
      sw.any (fun w => (planEntry w).kind == 1) then some 3
  else if planSenders xs < 1 || 16384 < planSenders xs || planReceivers xs < 1 || 256 < planReceivers xs ||
      4096 < (segs.map Prod.snd).sum then some 4
  else if segs.any (fun x => x.2 % segmentUnit x.1 != 0) then some 5
  else if !combinerAccepts (planComb p) segs then some 6
  else if !tableOk bits (planTable xs) then some 7
  else if (planMap xs).any (fun r => decide (planReceivers xs ≤ r)) then some 8
  else if es.any (fun x => x.kind == 0 && decide (widcount ≤ x.wid)) || sw.eraseDups.length != sw.length ||
      rw'.eraseDups.length != rw'.length then some 9
  else if es.any (outsideScope b group (planScope p) die) then some 10
  else none

/-- The properties of a dispatch exchange (R421). -/
def dispatchOk (xs : List Byte) : Bool :=
  let p := planDword xs 0
  planWide p && planComb p == 0 && planSegments p == 3 && (receiverWords xs).all (fun w => (planEntry w).kind == 1) &&
  match planSegs xs with
  | [a, b, c] => b.1 == 10 && b.2 % 4 == 0 && decide (4 ≤ b.2) && decide (b.2 ≤ 256) && c == (10, 4) &&
    decide (entryStride a.2 ≤ 4096)
  | _ => false

/-! ### Opening and joining (R405) -/

/-- The rank and the receiver index of a hart of this device. -/
def Exchange.rankOf (e : Exchange) (b : Hub) (wid : Nat) : Option Nat := e.senderList.findIdx? fun x => x.names b wid
def Exchange.recvOf (e : Exchange) (b : Hub) (wid : Nat) : Option Nat := e.receiverList.findIdx? fun x => x.names b wid

/-- The hart has joined; and it has joined and not left. -/
def Exchange.hasJoined (e : Exchange) (b : Hub) (wid : Nat) : Bool :=
  ((e.rankOf b wid).bind fun r => Assoc.find e.senders r).any (fun x => x.joined) ||
  ((e.recvOf b wid).bind fun r => Assoc.find e.receivers r).any fun x => x.joined
def Exchange.takesPart (e : Exchange) (b : Hub) (wid : Nat) : Bool :=
  ((e.rankOf b wid).bind fun r => Assoc.find e.senders r).any (fun x => x.joined && !x.gone) ||
  ((e.recvOf b wid).bind fun r => Assoc.find e.receivers r).any fun x => x.joined && !x.gone

/-- A new exchange from its plan, with round 1 and the plan's splitters in force (R405). -/
def freshExchange (xs : List Byte) (b : Hub) (tag : Word) (plan die : Nat) : Exchange :=
  let p := planDword xs 0
  let senders := (senderWords xs).map planEntry
  let receivers := (receiverWords xs).map planEntry
  let sender : Sender := { joined := false, leaf := 0, gone := false, round := 1, floor := 0, sent := 0, queue := [] }
  { tag := tag, plan := plan, die := die, scope := planScope p, wide := planWide p, comb := planComb p,
    sshift := planShift p, segs := planSegs xs, map := planMap xs, senderList := senders, receiverList := receivers,
    splitters := planTable xs,
    senders := (senders.zipIdx.filter fun q => q.1.here b).map fun q => (q.2, sender),
    receivers := (receivers.zipIdx.filter fun q => q.1.here b).map fun q =>
      (q.2, { joined := q.1.kind == 1, gone := false, area := none, stream := [] }),
    far := (senders.zipIdx.filter fun q => !q.1.here b).map fun q => (q.2, { joined := false, gone := false, round := 1 }),
    farReceivers := (receivers.zipIdx.filter fun q => !q.1.here b).map fun q => (q.2, { joined := false, gone := false, since := 0, round := 0 }),
    points := [], round := 1, mode := planMode p, nextMode := planMode p, install := none, shadow := none, samples := [],
    discarded := 0, ingress := [] }

/-- A hart joins, with the leaf of its seat (R405, R483). -/
def Exchange.join (e : Exchange) (b : Hub) (wid seat : Nat) : Exchange :=
  let e := match e.rankOf b wid with
    | none => e
    | some r => { e with senders := Assoc.change e.senders r fun x =>
        { x with joined := true, leaf := 16 * dieOf seat + clusterOf seat } }
  match e.recvOf b wid with
  | none => e
  | some r => { e with receivers := Assoc.change e.receivers r fun x => { x with joined := true } }

/-- The value XOPEN writes on success, and on refusal (R405). -/
def Exchange.joinValue (e : Exchange) (b : Hub) (wid : Nat) : Word :=
  BitVec.ofNat 64 ((e.recvOf b wid).getD 0xFFFF * 2 ^ 16 + (e.rankOf b wid).getD 0xFFFF)
def refusal (reason : Nat) : Word := BitVec.ofNat 64 (2 ^ 63 + reason)

/-- Why a hart may not join an open exchange, if it may not: not named, or seated off the die (R405). -/
def Exchange.refuses (e : Exchange) (b : Hub) (wid seat : Nat) : Option Nat :=
  if (e.rankOf b wid).isNone && (e.recvOf b wid).isNone then some 0x0C
  else if e.scope = 0 && dieOf seat ≠ e.die then some 0x0A
  else none

/-- The ingress contexts of a dispatch exchange on this device (R424); none when one is refused. -/
def State.openIngress (s : State) (g : Agent) (xid : Nat) (e : Exchange) : List Endpoint → State × Option (Assoc Ingress)
  | [] => (s, some [])
  | x :: xs =>
    if x.kind = 1 && x.here s.hub then
      match e.segs with
      | a :: b :: _ =>
        match s.readIngress g x.die xid a.2 b.2 with
        | (s, none) => (s, none)
        | (s, some u) =>
          match s.openIngress g xid e xs with
          | (s, none) => (s, none)
          | (s, some m) => (s, some (Assoc.put m x.die u))
      | _ => (s, none)
    else s.openIngress g xid e xs

/-- Members of the launch that have exited have left the new exchange too (R387, R389). -/
def State.withoutExited (s : State) (e : Exchange) : Exchange :=
  match s.launch? e.tag with
  | none => e
  | some l => l.members.foldl (fun e p => if p.2.exited then e.leave s.hub p.1 else e) e

/-- Other devices may refuse an exchange of scope fabric (R405): their XIDs and their ingress descriptors are not this device's to
see. -/
def State.abroadRefusal (s : State) (xs : List Byte) : State × Option Nat :=
  let far (ws : List Word) : List Endpoint := (ws.map planEntry).filter fun x => !x.here s.hub
  let units := (far (receiverWords xs)).any fun x => x.kind == 1
  let reasons := if units then [0x0B, 0x0D] else [0x0B]
  if (far (senderWords xs ++ receiverWords xs)).isEmpty then (s, none)
  else
    let (n, s) := s.choose (reasons.length + 1)
    (s, reasons[n]?)

/-- XOPEN of a free XID with its plan read (R405): the new exchange, or the reason it is refused. -/
def State.openPlan (s : State) (h : Hart) (va : Nat) (xs : List Byte) : State × Except Nat Exchange :=
  let die := dieOf s.cur
  let xid := planXid (planDword xs 0)
  let l := s.launch? h.tag
  let group := l.bind fun l => Assoc.find s.hub.groups (recGroup l.dwords)
  let widcount := match l with | none => 0 | some l => recWidcount l.dwords
  let early := planReason xs s.hub group widcount die
  let (s, far) := if early.isSome then (s, none) else s.abroadRefusal xs
  let dispatch := (receiverWords xs).any fun w => (planEntry w).kind == 1
  match early, far with
  | some r, _ => (s, .error r)
  | none, some r => (s, .error r)
  | none, none =>
    let e := freshExchange xs s.hub h.tag va die
    if dispatch && !dispatchOk xs then (s, .error 0x0D)
    else
      match s.openIngress (s.hartAgent s.cur h 0) xid e e.receiverList with
      | (s, none) => (s, .error 0x0D)
      | (s, some m) =>
        let e := s.withoutExited { e with ingress := m }
        match e.refuses s.hub h.wid.toNat s.cur with
        | some r => (s, .error r)
        | none => (s, .ok e)

/-- The unit writes its ring header with zeros (R424). -/
def State.clearRings (s : State) (xid : Nat) (e : Exchange) : State :=
  e.ingress.foldl (fun s p => s.unitWrite xid p.2.ring 0 (List.replicate 64 0)) s

/-- The bytes of a stretch of `n` from `va` on that come before its first watched dword, whole dwords each (R276): all when none
is. (Log 47, DEDUCED.) -/
def Hart.unwatched (h : Hart) (va n : Nat) (k : Access) : Nat :=
  if !h.watchHit va n k then n
  else match (List.range (n / 8)).find? fun j => h.watchHit (va + 8 * j) 8 k with
    | none => n
    | some j => 8 * j

/-- XOPEN's effect (R404, R405): the plan is read up to a watched dword, which traps once it is reached. -/
def openExchange (f : XFields) (s : State) (h : Hart) : Eff State :=
  let va := (h.sreg f.a).toNat
  let wid := h.wid.toNat
  let reply (s : State) (v : Word) : Eff State := .seq (s.elementDone.onCur fun h => h.setS f.d v)
  let joinIn (s : State) (xid : Nat) (e : Exchange) : Eff State :=
    match e.refuses s.hub wid s.cur with
    | some r => reply s (refusal r)
    | none => reply (s.onExchange xid fun e => e.join s.hub wid s.cur) (e.joinValue s.hub wid)
  match s.exchanges.find? fun p => p.2.tag == h.tag && p.2.plan == va with
  | some (xid, e) => if e.hasJoined s.hub wid then .stop s .xstate 8 else joinIn s xid e
  | none =>
    let whole (got : List Byte) : Nat := if va % 64 = 0 then planNeed got else 8
    let stopAt' (s : State) (got : List Byte) : Eff State :=
      .stop (s.onWait fun _ => idleWait) .watch (BitVec.ofNat 64 (va + got.length))
    let judge (s : State) (got : List Byte) (k : Eff State) : Eff State :=
      match Assoc.find s.exchanges (planXid (planDword got 0)) with
      | some e => if e.tag = h.tag && e.hasJoined s.hub wid then .stop s .xstate 8 else reply s (refusal 0x0B)
      | none => k
    match s.readSpan h va fun got => h.unwatched va (whole got) .read with
    | .wait s => .hold s
    | .bad s got _ => if got.length < 8 then reply s (refusal 1) else judge s got (reply s (refusal 1))
    | .ok s got =>
      if got.length < 8 then stopAt' s got
      else
        judge s got <|
          if got.length < whole got then stopAt' s got
          else if va % 64 ≠ 0 then reply s (refusal 1)
          else
            match s.openPlan h va got with
            | (s, .error r) => reply s (refusal r)
            | (s, .ok e) =>
              let xid := planXid (planDword got 0)
              let s := { s with exchanges := Assoc.put s.exchanges xid (e.join s.hub wid s.cur) }
              reply (s.clearRings xid e) (e.joinValue s.hub wid)

/-- Every hart of this device that a plan names has left, or will not join (R387, R389). -/
def Exchange.withoutLocal (e : Exchange) (b : Hub) : Exchange :=
  (e.senderList ++ e.receiverList).foldl (fun e x => e.leave b x.wid) e

/-- The exchange that a plan from another device opens here, which its opener has checked by its own WIDCOUNT and group (R405); none when
the plan cannot be right. -/
def State.plannedAbroad (s : State) (tag : Word) (va : Nat) (xs : List Byte) : Option Exchange :=
  let dispatch := (receiverWords xs).any fun w => (planEntry w).kind == 1
  if planScope (planDword xs 0) != 2 || xs.length != planNeed xs || (dispatch && !dispatchOk xs) ||
      (planReason xs s.hub (some (BitVec.allOnes 256)) (2 ^ 48) 0).isSome then none
  else some (freshExchange xs s.hub tag va 0)

/-- An exchange comes to be open here, with its ingress contexts. -/
def State.openAbroad (s : State) (xid : Nat) (e : Exchange) (g : Agent) : State :=
  match s.openIngress g xid e e.receiverList with
  | (s, none) => s
  | (s, some m) =>
    let e := s.withoutExited { e with ingress := m }
    { s with exchanges := Assoc.put s.exchanges xid e }.clearRings xid e

/-- Another device opens an exchange of scope fabric whose traffic reaches this device (R385, R405): for the system launch of the tag;
with the tag of a launch that has completed here, for merge points alone, its members having left; or, with tag 0, for merge points alone
until the launch is here too and another such input names it. Where an exchange of the XID is open nothing else changes. (Log 113,
DESIGN CHOICE.) -/
def State.remoteOpen (s : State) (tag : Word) (va : Nat) (xs : List Byte) : State :=
  let xid := planXid (planDword xs 0)
  match s.plannedAbroad tag va xs, Assoc.find s.exchanges xid, s.launch? tag with
  | none, _, _ => s
  | some e, none, some l => if recGroup l.dwords = 0 then s else s.openAbroad xid e l.agent
  | some e, none, none =>
    if e.receiverList.any (fun x => x.kind == 1 && x.here s.hub) then s
    else if tag = 0 then { s with exchanges := Assoc.put s.exchanges xid e }
    else if tag.toNat < s.nextTag then { s with exchanges := Assoc.put s.exchanges xid (e.withoutLocal s.hub) }
    else s
  | some _, some e, some l =>
    if e.tag = 0 && e.plan = va && recGroup l.dwords != 0 then
      { s with exchanges := Assoc.put s.exchanges xid (s.withoutExited { e with tag := tag }) }
    else s
  | some _, some _, none => s

/-- XOPEN (R405). -/
def execXopen (f : XFields) (s : State) : Host.Outcome State Fault Refusal := perform (.xopen f) s (openExchange f)

/-! ### The hart's role (Table 20.3) -/

/-- XID of the other instructions (Table 20.1). -/
def exchangeId (f : XFields) : Nat := f.imm.toNat % 16

/-- The exchange that the hart has joined and not left, if there is one. -/
def State.ownExchange (s : State) (h : Hart) (xid : Nat) : Option Exchange :=
  (Assoc.find s.exchanges xid).filter fun e => e.tag == h.tag && e.takesPart s.hub h.wid.toNat

/-- The instruction acts in the exchange, or traps XSTATE with code 1. -/
def inExchange (f : XFields) (s : State) (h : Hart) (k : Exchange → Eff State) : Eff State :=
  match s.ownExchange h (exchangeId f) with
  | none => .stop s .xstate 1
  | some e => k e

/-- The instruction acts for a sender, or traps with code 1 or 2. -/
def asSender (f : XFields) (s : State) (h : Hart) (k : Exchange → Nat → Sender → Eff State) : Eff State :=
  inExchange f s h fun e =>
    match (e.rankOf s.hub h.wid.toNat).bind fun r => (Assoc.find e.senders r).map fun x => (r, x) with
    | none => .stop s .xstate 2
    | some (r, x) => k e r x

/-- Changes a sender of an exchange. -/
def State.onSender (s : State) (xid rank : Nat) (f : Sender → Sender) : State :=
  s.onExchange xid fun e => { e with senders := Assoc.change e.senders rank f }

/-! ### XSEND and XSENDQ (R406, R407) -/

/-- A .k4 segment's block images from their binary32 values, with the encoder's flags (R191, R407). -/
def encodeBlocks (src : Nat → Nat) : Nat → Nat → List Byte × FlagSet
  | 0, _ => ([], 0)
  | n + 1, i =>
    let (codes, header, flags) := k4Encode ((List.range 32).map fun j => fmtF32.decode (src (i + j)))
    let image := codes.foldr (fun c x => 16 * x + c) 0 + header * 2 ^ 128
    let r := encodeBlocks src n (i + 32)
    (toBytesLE 18 image ++ r.1, flags ||| r.2)

/-- The bytes that a segment takes from the source payload (R407). -/
def sourceBytes (seg : Nat × Nat) : Nat := if seg.1 = 14 then seg.2 / 18 * 128 else seg.2

/-- A record's payload from its source payload, which begins at byte `o` of the span (R407). -/
def encodePayload (byteAt wordAt : Nat → Nat) : List (Nat × Nat) → Nat → List Byte × FlagSet
  | [], _ => ([], 0)
  | seg :: segs, o =>
    let (xs, fs) :=
      if seg.1 = 14 then encodeBlocks (fun j => wordAt (o + 4 * j)) (seg.2 / 18) 0
      else ((List.range seg.2).map fun j => BitVec.ofNat 8 (byteAt (o + j)), 0)
    let r := encodePayload byteAt wordAt segs (o + sourceBytes seg)
    (xs ++ r.1, fs ||| r.2)

/-- PS (R407), or PB for XSEND. -/
def Exchange.sourceSize (e : Exchange) (quant : Bool) : Nat :=
  if quant then (e.segs.map sourceBytes).sum else e.payloadBytes

/-- The payload of record `i`, with the flags of its encoding. -/
def recordPayload (f : XFields) (quant : Bool) (e : Exchange) (h : Hart) (i : Nat) : List Byte × FlagSet :=
  let byteAt (o : Nat) : Nat := h.readElem f.b 8 o
  let wordAt (o : Nat) : Nat := byteAt o + 2 ^ 8 * byteAt (o + 1) + 2 ^ 16 * byteAt (o + 2) + 2 ^ 24 * byteAt (o + 3)
  let segs := if quant then e.segs else e.segs.map fun x => (0, x.2)
  encodePayload byteAt wordAt segs (i * e.sourceSize quant)

/-- A used length fits the plan (Table 20.3, code 5). -/
def Exchange.usedOk (e : Exchange) (u : Nat) : Bool := u % e.usedUnit == 0 && decide (u ≤ e.payloadBytes)

/-- Sends record `i` (R406): out of order, with a bad used length, accepted, or held by back-pressure (R484). -/
def sendRecord (f : XFields) (quant : Bool) (rank : Nat) (h : Hart) (i : Nat) (s : State) : Got Unit :=
  let xid := exchangeId f
  match (Assoc.find s.exchanges xid).bind fun e => (Assoc.find e.senders rank).map fun x => (e, x) with
  | none => .wait s
  | some (e, x) =>
    let k := h.readElem f.a e.keyBits i
    let u := if e.concat && !quant then h.readElem f.c 16 i else e.payloadBytes
    if k < x.floor then .fail s .xorder k
    else if e.concat && !quant && !e.usedOk u then .fail s .xstate 5
    else
      let (pick, s) := s.choose (if x.sent < 16 then 1 else 2)
      if pick ≠ 0 then .wait s
      else
        let (bytes, flags) := recordPayload f quant e h i
        let r : XRecord :=
          { key := k, payload := bytes.take u ++ List.replicate (e.payloadBytes - u) 0, used := u, trunc := false }
        let s := s.onExchange xid fun e => e.sampleRecord x.round x.sent k
        let s := s.onSender xid rank fun x =>
          { x with queue := x.queue ++ [(x.round, .record r)], floor := k, sent := x.sent + 1 }
        .ok (s.onCur fun h => (h.raise flags).countEvent 0x0C 1) ()

/-- The operand spans of XSEND and XSENDQ break R337 (R406). -/
def sendSpans (f : XFields) (quant : Bool) (e : Exchange) (h : Hart) : Bool :=
  h.badSpan f.a (h.vl * (e.keyBits / 8)) || h.badSpan f.b (h.vl * e.sourceSize quant) ||
  (e.concat && !quant && h.badSpan f.c (2 * h.vl))

/-- The elements of an XSEND or XSENDQ: a record held by back-pressure is the element at which it holds, unless it is the first
active one, at which it holds before itself (R444). -/
def sendAccess (h : Hart) (g : Governing) (s : State) (step : Nat → State → Got Unit) : Eff State :=
  let hi := h.loopEnd s.stopAt
  match memLoop (h.active g) step (hi - h.vstart) h.vstart s with
  | .held s i => if firstActive h g == some i then .hold s else LoopEnd.outcome (.held s i) h g hi
  | r => r.outcome h g hi

/-- XSEND and XSENDQ (R404, R406, R407); with VSTART at or above VL they act on no element (R202). (Log 49, DEDUCED.) -/
def sendRecords (i : Instr) (f : XFields) (quant : Bool) (s : State) (h : Hart) : Eff State :=
  if h.vl ≤ h.vstart then .seq (s.onCur fun h => h.setVstart 0)
  else
    asSender f s h fun e rank _ =>
      if quant && !e.segs.any (fun x => x.1 == 14) then .stop s .xstate 4
      else if (f.b ≠ 0 && e.payloadBytes = 0) || (f.c ≠ 0 && !e.concat) then .stop s .xstate 5
      else if sendSpans f quant e h then .stop s .group (encodeWord i)
      else sendAccess h (govX f) s (sendRecord f quant rank h)

/-- XSEND (R406). -/
def execXsend (f : XFields) (s : State) : Host.Outcome State Fault Refusal :=
  performWith (.xsend f) s false (fun h => some (h.elemsOn (govX f))) (sendRecords (.xsend f) f false)

/-- XSENDQ (R407). -/
def execXsendq (f : XFields) (s : State) : Host.Outcome State Fault Refusal :=
  performWith (.xsendq f) s false (fun h => some (h.elemsOn (govX f))) (sendRecords (.xsendq f) f true)

/-! ### XFLOOR and XROUND (R408, R409) -/

/-- XFLOOR (R408). -/
def execXfloor (f : XFields) (s : State) : Host.Outcome State Fault Refusal :=
  perform (.xfloor f) s fun s h =>
    asSender f s h fun e rank x =>
      let v := (h.sreg f.a).toNat
      if 2 ^ e.keyBits ≤ v then .stop s .xstate 5
      else if v ≤ x.floor then .seq s
      else
        .seq (s.onSender (exchangeId f) rank fun x => { x with queue := x.queue ++ [(x.round, .floor v)], floor := v })

/-- XROUND (R409). -/
def execXround (f : XFields) (s : State) : Host.Outcome State Fault Refusal :=
  perform (.xround f) s fun s h =>
    asSender f s h fun _ rank _ => .seq (s.onSender (exchangeId f) rank Sender.closeRun)

/-! ### XRECV (R410) -/

/-- A new area is supplied (R410): its bytes translate, and it is held. -/
def supplyArea (f : XFields) (s : State) (h : Hart) (recv a n : Nat) : Eff State :=
  match s.routeWide (s.hartAgent s.cur h 0) .write (granules n) a n with
  | (s, _, some (c, va)) => .stop s c (BitVec.ofNat 64 va)
  | (s, ps, none) =>
    let key := 2 ^ 40 + s.writeSeq
    let d : Deferred := { who := h.wid.toNat, rel := true, finished := false, placed := false, status := none, writes := [] }
    let s := { s with writeSeq := s.writeSeq + 1 }
    let s := s.onLaunch h.tag fun l => { l with deferred := Assoc.put l.deferred key d }
    .hold (s.onReceiver (exchangeId f) recv fun r =>
      { r with area := some { asid := h.asid, core := coreIndex s.cur, va := a, size := n, pieces := ps, key := key, written := 0, round := 0, ended := none } })

/-- A write of Whisk to an area at a peer has not been accepted yet (R54). -/
def State.areaPending (s : State) (key : Nat) : Bool :=
  s.pending.any fun p => match p.2.waiter with | .area k _ => k == key | _ => false

/-- The value XRECV writes (R410). -/
def Area.result (a : Area) (last : Bool) : Word :=
  BitVec.ofNat 64 (bit01 last * 2 ^ 63 + a.round % 2 ^ 16 * 2 ^ 32 + a.written % 2 ^ 32)

/-- XRECV's effect (R404, R410): it supplies an area, waits for its end, or completes. -/
def receive (f : XFields) (s : State) (h : Hart) : Eff State :=
  let a := (h.sreg f.a).toNat
  let n := (h.sreg f.b).toNat
  inExchange f s h fun e =>
    match (e.recvOf s.hub h.wid.toNat).bind fun r => (Assoc.find e.receivers r).map fun x => (r, x) with
    | none => .stop s .xstate 3
    | some (recv, x) =>
      match x.area with
      | none => if a % 8 ≠ 0 || n % 8 ≠ 0 || n < e.slotSize then .stop s .xstate 6 else supplyArea f s h recv a n
      | some y =>
        if y.va ≠ a || y.size ≠ n then .stop s .xstate 6
        else
          match y.ended with
          | none => .hold s
          | some last =>
            if s.areaPending y.key then .hold s
            else
            let s := s.onReceiver (exchangeId f) recv fun r => { r with area := none }
            .seq ((s.observe h.tag h.wid y.key).onCur fun h => h.setS f.d (y.result last))

/-- XRECV (R410). -/
def execXrecv (f : XFields) (s : State) : Host.Outcome State Fault Refusal := perform (.xrecv f) s (receive f)

/-! ### XSTAT, XSPLIT, XSAMPLE, XREBAL and XCLOSE (R411 to R415) -/

/-- The value XSTAT writes (R411). -/
def Exchange.statusValue (e : Exchange) (b : Hub) (wid sel : Nat) : Nat :=
  let own := (e.rankOf b wid).bind fun r => Assoc.find e.senders r
  match sel with
  | 0 => e.round % 2 ^ 16 * 2 ^ 32 + (match own with | none => 0 | some x => x.round % 2 ^ 16) * 2 ^ 16
  | 1 => e.discarded
  | 2 => match own with | none => 0 | some x => x.sent
  | _ => match ((e.recvOf b wid).bind fun r => Assoc.find e.receivers r).bind fun r => r.area with
    | none => 0
    | some a => a.written

/-- XSTAT (R411). -/
def execXstat (f : XFields) (s : State) : Host.Outcome State Fault Refusal :=
  perform (.xstat f) s fun s h =>
    inExchange f s h fun e =>
      let v := e.statusValue s.hub h.wid.toNat (bitsOf f.imm.toNat 4 4)
      .seq (s.onCur fun h => h.setS f.d (BitVec.ofNat 64 v))

/-- The first of `n` dwords from `va` that a watchpoint covers (R276). (Log 47, DEDUCED.) -/
def Hart.watchedDword (h : Hart) (va n : Nat) (k : Access) : Option Nat :=
  (List.range n).find? fun j => h.watchHit ((va + 8 * j) % 2 ^ 64) 8 k

/-- The splitters that XSPLIT has read are installed for the next round, or refused (R412). -/
def installTable (f : XFields) (s : State) (e : Exchange) (xs : List Byte) : State :=
  let table := (List.range e.splitters.length).map fun j => (planDword xs j).toNat
  if tableOk e.keyBits table then
    (s.onExchange (exchangeId f) fun e => { e with install := some table }).onCur fun h => h.setS f.d 0
  else s.onCur fun h => h.setS f.d 7

/-- XSPLIT's effect (R412): each splitter is a plain read of eight bytes, its watchpoints first (R272). -/
def splitExchange (f : XFields) (s : State) (h : Hart) : Eff State :=
  inExchange f s h fun e =>
    let va := (h.sreg f.a).toNat
    let n := e.splitters.length
    let watched := h.watchedDword va n .read
    let stopAt' (s : State) (j : Nat) : Eff State := .stop s .watch (BitVec.ofNat 64 ((va + 8 * j) % 2 ^ 64))
    if va % 8 ≠ 0 then (if watched = some 0 then stopAt' s 0 else .stop s .misalign (h.sreg f.a))
    else
      let upTo := 8 * watched.getD n
      match s.readSpan h va fun _ => upTo with
      | .wait s => .hold s
      | .bad s got c => .stop (s.onWait fun _ => idleWait) c (BitVec.ofNat 64 ((va + got.length) % 2 ^ 64))
      | .ok s got =>
        match watched with
        | some j => stopAt' (s.onWait fun _ => idleWait) j
        | none => .seq (installTable f s.elementDone e got)

/-- XSPLIT (R412). -/
def execXsplit (f : XFields) (s : State) : Host.Outcome State Fault Refusal := perform (.xsplit f) s (splitExchange f)

/-- The writes of XSAMPLE: the round for D, and the bytes to be written. -/
structure Table where
  round : Nat
  data : List Byte
  deriving DecidableEq, Repr

/-- What stands with the hart while a write is on its way: where it begins, the round and the bytes. -/
def Table.saved (x : Table) (o : Nat) : List Byte := toBytesLE 8 o ++ toBytesLE 8 x.round ++ x.data
def savedOffset (got : List Byte) : Nat := ofBytesLE (got.take 8)
def savedTable (got : List Byte) : Table := { round := ofBytesLE ((got.drop 8).take 8), data := got.drop 16 }

/-- Writes pieces from byte `o` of a table on, where `rest` is left of it, in rising order: how far it came, and a failure's cause
or a wait. -/
def State.writePieces (s : State) (h : Hart) (x : Table) (rest : List Byte) (o : Nat) :
    List Piece → State × Nat × Option (Option Cause)
  | [] => (s, o, none)
  | p :: ps =>
    let here := rest.take p.size
    if p.place.target = .memory then
      (s.writePlace (h.writer s.cur) p.place here 0 64 false).writePieces h x (rest.drop p.size) (o + p.size) ps
    else
      match s.issueWrite (.hart s.cur) p.place here with
      | (s, .answered (.data _)) => s.writePieces h x (rest.drop p.size) (o + p.size) ps
      | (s, .answered (.failed c)) => (s, o, some (some c))
      | (s, .sent tag) =>
        (s.onWait fun w => { w with request := some tag, answer := none, left := p :: ps, got := x.saved o }, o, some none)
      | (s, .full) =>
        (s.onWait fun w => { w with request := none, answer := none, left := p :: ps, got := x.saved o }, o, some none)

/-- Writes a table from byte `o` on, at addresses from `va`. -/
def State.writeOn (s : State) (h : Hart) (va : Nat) (x : Table) : Nat → Nat → Eff State
  | 0, _ => .hold s
  | fuel + 1, o =>
    if x.data.length ≤ o then .seq s.elementDone
    else
      let m := x.data.length - o
      let (s, ps, err) := s.routeWide (s.hartAgent s.cur h 0) .write (granules m) ((va + o) % 2 ^ 64) m
      match s.writePieces h x (x.data.drop o) o (splitBlocks ps), err with
      | (s, o, some (some c)), _ => .stop (s.onWait fun _ => idleWait) c (BitVec.ofNat 64 ((va + o) % 2 ^ 64))
      | (s, _, some none), _ => .hold s
      | (s, _, none), some (c, b) => .stop (s.onWait fun _ => idleWait) c (BitVec.ofNat 64 b)
      | (s, o, none), none => s.writeOn h va x fuel o

/-- Goes on with the pieces of a table from byte `o` on, and then with its further writes. -/
def State.writeRest (s : State) (h : Hart) (va : Nat) (x : Table) (o : Nat) (ps : List Piece) : Eff State :=
  match s.writePieces h x (x.data.drop o) o ps with
  | (s, o, some (some c)) => .stop s c (BitVec.ofNat 64 ((va + o) % 2 ^ 64))
  | (s, _, some none) => .hold s
  | (s, o, none) => s.writeOn h va x 4 o

/-- Goes on with a table's writes after an answer, or where no tag was free (`none`). -/
def State.resumeWrites (s : State) (h : Hart) (va : Nat) (x : Table) (a : Option Answer) : Eff State :=
  let o := savedOffset h.wait.got
  let s := s.onWait fun _ => idleWait
  match a, h.wait.left with
  | some (.failed c), _ => .stop s c (BitVec.ofNat 64 ((va + o) % 2 ^ 64))
  | none, ps => s.writeRest h va x o ps
  | some (.data _), [] => s.writeRest h va x o []
  | some (.data _), p :: ps => s.writeRest h va x (o + p.size) ps

/-- The shadow table with its round, or the splitters in force with 0 (R413). -/
def Exchange.sampleTable (e : Exchange) : Nat × List Nat := e.shadow.getD (0, e.splitters)

/-- XSAMPLE's effect (R404, R413). What it writes is settled when it begins; each splitter is a plain write of eight bytes,
its watchpoints first (R272). -/
def sampleExchange (f : XFields) (s : State) (h : Hart) : Eff State :=
  inExchange f s h fun e =>
    let va := (h.sreg f.a).toNat
    let n := e.splitters.length
    let watched := h.watchedDword va n .write
    let finish (x : Table) (r : Eff State) : Eff State :=
      match r, watched with
      | .seq s, some j => .stop s .watch (BitVec.ofNat 64 ((va + 8 * j) % 2 ^ 64))
      | .seq s, none => .seq (s.onCur fun h => h.setS f.d (BitVec.ofNat 64 x.round))
      | r, _ => r
    let resumed (a : Option Answer) : Eff State := let x := savedTable h.wait.got; finish x (s.resumeWrites h va x a)
    match h.wait.answer, h.wait.request, h.wait.left with
    | some a, _, _ => resumed (some a)
    | none, some _, _ => .hold s
    | none, none, _ :: _ => resumed none
    | none, none, [] =>
      let t := e.sampleTable
      let x : Table := { round := t.1, data := (t.2.take (watched.getD n)).flatMap (toBytesLE 8) }
      if e.mode = 0 then .stop s .xstate 7
      else if va % 8 ≠ 0 then
        if watched = some 0 then .stop s .watch (h.sreg f.a) else .stop s .misalign (h.sreg f.a)
      else finish x (s.writeOn h va x 4 0)

/-- XSAMPLE (R413). -/
def execXsample (f : XFields) (s : State) : Host.Outcome State Fault Refusal := perform (.xsample f) s (sampleExchange f)

/-- XREBAL (R414). -/
def execXrebal (f : XFields) (s : State) : Host.Outcome State Fault Refusal :=
  perform (.xrebal f) s fun s h =>
    inExchange f s h fun _ =>
      .seq (s.onExchange (exchangeId f) fun e => { e with nextMode := bitsOf f.imm.toNat 4 2 })

/-- XCLOSE (R415). -/
def execXclose (f : XFields) (s : State) : Host.Outcome State Fault Refusal :=
  perform (.xclose f) s fun s h =>
    inExchange f s h fun _ => .seq (s.leaveExchange (exchangeId f) h.wid)

end Sys2Proof.Machine
end

