-- ==== Sys2Proof/Machine/Curve.lean ====
section
/-! DEFINITION. ECDSA on the curve P-384 with SHA-384 (R1, R52, R69), as the standards that the spec names define it (FIPS 186-5,
SP 800-186; log 116, PRESUMED). -/

namespace Sys2Proof.Machine

/-- The field's prime. -/
def curveP : Nat := 2 ^ 384 - 2 ^ 128 - 2 ^ 96 + 2 ^ 32 - 1

/-- The order of the base point. -/
def curveN : Nat := 0xFFFFFFFFFFFFFFFFFFFFFFFFFFFFFFFFFFFFFFFFFFFFFFFFC7634D81F4372DDF581A0DB248B0A77AECEC196ACCC52973

/-- The constant term of y² = x³ − 3x + b. -/
def curveB : Nat := 0xB3312FA7E23EE7E4988E056BE3F82D19181D9C6EFE8141120314088F5013875AC656398D8A2ED19D2A85C8EDD3EC2AEF

/-- A point of the curve; none: the point at infinity. -/
abbrev CurvePoint := Option (Nat × Nat)

/-- The base point. -/
def curveBase : CurvePoint :=
  some (0xAA87CA22BE8B05378EB1C71EF320AD746E1D3B628BA79B9859F741E082542A385502F25DBF55296C3A545E3872760AB7,
    0x3617DE4A96262C6F5D9E98BF9292DC29F8F41DBD289A147CE9DA3113B5F0B8C00A60B1CE1D7E819D7A431D7C90EA0E5F)

/-- `x` to the power of the lowest `n` bits of `e`, modulo `m`. -/
def powMod (m x : Nat) : Nat → Nat → Nat
  | 0, _ => 1
  | n + 1, e =>
    let y := powMod m x n (e / 2)
    y * y % m * (if e % 2 = 1 then x else 1) % m

/-- The inverse modulo a prime of 384 bits. -/
def invMod (m x : Nat) : Nat := powMod m x 384 (m - 2)

/-- `x - y` in the field, of elements of it. -/
def subP (x y : Nat) : Nat := (x + curveP - y) % curveP

/-- The third point of a line of slope `l`, mirrored. -/
def chord (l x1 y1 x2 : Nat) : CurvePoint :=
  let x := subP (subP (l * l % curveP) x1) x2
  some (x, subP (l * subP x1 x % curveP) y1)

/-- The sum of two points. -/
def addPoints (p q : CurvePoint) : CurvePoint :=
  match p, q with
  | none, q => q
  | p, none => p
  | some (x1, y1), some (x2, y2) =>
    if x1 ≠ x2 then chord (subP y2 y1 * invMod curveP (subP x2 x1) % curveP) x1 y1 x2
    else if (y1 + y2) % curveP = 0 then none
    else chord (subP (3 * x1 * x1 % curveP) 3 * invMod curveP (2 * y1 % curveP) % curveP) x1 y1 x2

/-- A point times the lowest `n` bits of a number. -/
def mulPoint (p : CurvePoint) : Nat → Nat → CurvePoint
  | 0, _ => none
  | n + 1, e =>
    let q := mulPoint p n (e / 2)
    let q := addPoints q q
    if e % 2 = 1 then addPoints q p else q

/-- The pair is a point of the curve. -/
def onCurve (x y : Nat) : Bool :=
  x < curveP && y < curveP && (y * y + 3 * x) % curveP == (x * x * x + curveB) % curveP

/-- A number as 48 bytes, big-endian, and back. -/
def bytesBE (x : Nat) : List Byte := (toBytesLE 48 x).reverse
def numberBE (xs : List Byte) : Nat := ofBytesLE xs.reverse

/-- The signature (r, s) of a SHA-384 digest verifies under the public key (x, y). -/
def ecdsaVerify (x y : Nat) (digest : List Byte) (r s : Nat) : Bool :=
  if onCurve x y && 0 < r && r < curveN && 0 < s && s < curveN then
    let w := invMod curveN s
    match addPoints (mulPoint curveBase 384 (numberBE digest * w % curveN)) (mulPoint (some (x, y)) 384 (r * w % curveN)) with
    | none => false
    | some (u, _) => u % curveN == r
  else false

/-- The signature of a digest with the private key `d` and the number `k`, both from 1 to the order less 1; none when `k` gives none. -/
def ecdsaSign (d : Nat) (digest : List Byte) (k : Nat) : Option (Nat × Nat) :=
  match mulPoint curveBase 384 k with
  | none => none
  | some (u, _) =>
    let r := u % curveN
    let s := invMod curveN k * (numberBE digest + r * d) % curveN
    if r = 0 || s = 0 then none else some (r, s)

/-- A free number as a scalar from 1 to the order less 1. -/
def asScalar (x : Nat) : Nat := x % (curveN - 1) + 1

/-! ### The device's keys -/

/-- The boot ROM's check of a firmware image (R69): its public key, X then Y, has the fused digest, and its signature verifies over the
digest of what it signs. Where an image holds these the spec does not say (log 4, DESIGN CHOICE). -/
def firmwareAccepted (image : List Byte) : Bool :=
  let key := (Config.imageKey image).take 96
  sha384 key == Config.fusedDigest &&
    ecdsaVerify (numberBE (key.take 48)) (numberBE (key.drop 48)) (sha384 (Config.imageSigned image)) (Config.imageSignature image).1
      (Config.imageSignature image).2

/-- The private half of the device identity key that the firmware derives in an incarnation (R69). -/
def identitySecret (incarnation : BitVec 16) : Nat := asScalar (Config.identitySecret incarnation)

/-- The identity public key, X then Y, 48 bytes each, big-endian (R97). -/
def identityKey (incarnation : BitVec 16) : List Byte :=
  match mulPoint curveBase 384 (identitySecret incarnation) with
  | none => []
  | some (x, y) => bytesBE x ++ bytesBE y

/-- The quote over a digest, r then s (R52, R97): the first of the numbers drawn that gives a signature. -/
def quoteOf (incarnation : BitVec 16) (digest : List Byte) : Nat → List Byte
  | 0 => []
  | n + 1 =>
    match ecdsaSign (identitySecret incarnation) digest (asScalar (Config.quoteNumber digest n)) with
    | none => quoteOf incarnation digest n
    | some (r, s) => bytesBE r ++ bytesBE s

end Sys2Proof.Machine
end

