-- ==== Sys2Proof/Machine/Work.lean ====
section
/-! DEFINITION. The work instructions: MAJ 0x34 (R87 to R92), and the end of a hart. -/

namespace Sys2Proof.Machine

/-! ### LAUNCH -/

/-- IMM18 of LAUNCH: the queue's number (R71, R88). -/
def launchTarget (f : XFields) (own : Nat) : Nat :=
  let die := if f.imm.getLsbD 6 then own else bitsOf f.imm.toNat 4 2
  16 * die + f.imm.toNat % 16

/-- What a LAUNCH of the hart leaves with its slot (R88, R363). -/
def State.appended (s : State) (h : Hart) : Appended :=
  let own := (s.launchOf h).map fun l => (h.asid, recRoot l.dwords)
  let m := (s.launchOf h).bind fun l => Assoc.find l.members h.wid.toNat
  { override := if h.trp.prv then none else own, tag := h.tag, who := h.wid.toNat,
    clock := match m with | none => [] | some m => m.clock, seq := s.writeSeq }

/-- Appends a record's slot at TAIL; none when the queue takes no append: TAIL − HEAD is exact (R10, R88). -/
def State.appendSlot (s : State) (i pa : Nat) (x : Appended) : Option (Word × State) :=
  let q := s.queue i
  if !q.enable || q.head.toNat + 256 ≤ q.tail.toNat then none
  else
    some (q.tail, (s.putSlot i (q.tail.toNat % 256) (BitVec.ofNat 64 (pa / 128 % 2 ^ 45 * 128 + 1))).onQueue i fun q =>
      { q with tail := q.tail + 1, appends := Assoc.put q.appends q.tail.toNat x })

/-- LAUNCH (R88). Its fence makes the hart's stores to tree memory visible to walks (R45), and orders nothing more than the model's memory
does already (log 6, DESIGN CHOICE). -/
def execLaunch (f : XFields) (s : State) : Host.Outcome State Fault Refusal :=
  perform (.launch f) s fun s h =>
    let s := s.onCur Hart.issueAll
    let va := h.sreg f.a
    if va.toNat % 128 ≠ 0 then .stop s .misalign va
    else
      match s.translate (s.hartAgent s.cur h 0) va.toNat .read with
      | (s, .error c) => .stop s c va
      | (s, .ok p) =>
        if p.target ≠ .memory || hbmTop ≤ p.addr then .stop s .rperm va
        else
          let s := s.released true
          match s.appendSlot (launchTarget f (dieOf s.cur)) p.addr (s.appended h) with
          | none => .seq (s.onCur fun h => h.setS f.d 0x8000000000000000)
          | some (n, s) => .seq (s.onCur fun h => h.setS f.d n)

/-! ### TNEXT -/

/-- The core group of a WID (R85). -/
def coreGroup (r : Record) (wid : Nat) : Nat := wid / 2 ^ recCoreBits r

/-- TNEXT (R89). -/
def execTnext (f : XFields) (s : State) : Host.Outcome State Fault Refusal :=
  perform (.tnext f) s fun s h =>
    let s := s.onCur Hart.issueAll
    let last (s : State) : Eff State := .seq (s.onCur fun h => h.setS f.d (BitVec.allOnes 64))
    match s.launchOf h with
    | none => last s
    | some l =>
      let j := coreGroup l.dwords h.wid.toNat
      match Assoc.find l.schedules j with
      | none => last s
      | some t =>
        match t.fault with
        | some (c, va) => .stop s c va
        | none =>
          match t.entries[t.cursor]? with
          | none => last s
          | some x =>
            if x = BitVec.allOnes 64 then last s
            else
              let s := s.onLaunch h.tag fun l =>
                { l with schedules := Assoc.change l.schedules j fun t => { t with cursor := t.cursor + 1 } }
              .seq (s.onCur fun h => h.setS f.d x)

/-! ### TQGET and TQPUT -/

/-- P: the launch's live harts on a die, seated or vacated (R86). -/
def State.liveOn (s : State) (tag : Word) (die : Nat) : Nat :=
  (s.harts.filter fun p => p.2.tag == tag && dieOf p.1 == die).length +
  (s.vacated.filter fun p => p.2.tag == tag && p.2.core / 128 == die).length

/-- A grant from a queue (R90): the value and what is left. -/
def grantChunk (q : List Interval) (cmin factor live : Nat) : Word × List Interval :=
  match q with
  | [] => (0, [])
  | head :: rest =>
    let r := (q.map fun i => i.count).sum
    let c := Nat.max cmin ((r + factor * live - 1) / (factor * live))
    let c := Nat.min (Nat.min c head.count) (2 ^ 24 - 1)
    let left : Interval := { start := head.start + c, count := head.count - c }
    (BitVec.ofNat 64 (c * 2 ^ 40 + head.start % 2 ^ 40), if left.count = 0 then rest else left :: rest)

/-- An interval added to a queue (R90): the value and the queue. -/
def putInterval (q : List Interval) (a n : Nat) : Word × List Interval :=
  if n = 0 then (0, q)
  else if 2 ^ 40 < a + n then (2, q)
  else
    match q.getLast? with
    | some t =>
      if t.start + t.count = a then (0, q.dropLast ++ [{ t with count := t.count + n }])
      else if 64 ≤ q.length then (1, q)
      else (0, q ++ [{ start := a, count := n }])
    | none => (0, [{ start := a, count := n }])

/-- A TQGET or TQPUT: it waits for its turn in a replay (R476), takes effect, and is recorded (R475). -/
def taskOp (f : XFields) (op : State → Hart → Launch → List Interval → Word × List Interval) (s : State) (h : Hart) : Eff State :=
  let s := s.onCur Hart.issueAll
  match s.launchOf h with
  | none => .stop s .queue 0
  | some l =>
    let die := dieOf s.cur
    let what : Word := BitVec.ofNat 64 (64 * die + recTqsel l.dwords)
    if !recTqen l.dwords then .stop s .queue 0
    else
      match s.replayTurn h.tag .task h.wid fun row => row.what == what with
      | (s, false) => .hold s
      | (s, true) =>
        let r := op s h l (l.tasks[die]?.getD [])
        let s := s.onLaunch h.tag fun l => { l with tasks := l.tasks.setIfInBounds die r.2 }
        let s := s.eventDone h.tag { type := EventType.task.code, bmask := 0, who := h.wid, what := what, data := r.1 }
        .seq (s.onCur fun h => h.setS f.d r.1)

/-- TQGET (R90). -/
def execTqget (f : XFields) (s : State) : Host.Outcome State Fault Refusal :=
  perform (.tqget f) s <| taskOp f fun s h l q =>
    grantChunk q (recCmin l.dwords) (recTqf l.dwords + 1) (s.liveOn h.tag (dieOf s.cur))

/-- TQPUT (R90). -/
def execTqput (f : XFields) (s : State) : Host.Outcome State Fault Refusal :=
  perform (.tqput f) s <| taskOp f fun _ h _ q => putInterval q (h.sreg f.a).toNat (h.sreg f.b).toNat

/-! ### WIDR -/

/-- WIDR (R91). -/
def execWidr (f : XFields) (s : State) : Host.Outcome State Fault Refusal :=
  perform (.widr f) s fun s h =>
    let s := s.onCur Hart.issueAll
    let k := f.imm.toNat % 8
    let v : Word := match s.launchOf h with
      | some l => if k = 7 then h.wid else BitVec.ofNat 64 (recFieldValue l.dwords k h.wid.toNat)
      | none => if k = 7 then h.wid else 0
    .seq (s.onCur fun h => h.setS f.d v)

/-! ### The end of a hart -/

/-- Every WID that agrees with group `g` above bit `bits` has exited (R82, R83, R85). -/
def Launch.groupDone (l : Launch) (bits g : Nat) : Bool :=
  let lo := g * 2 ^ bits
  let hi := Nat.min (lo + 2 ^ bits) (recWidcount l.dwords)
  (l.members.filter fun p => p.2.exited && p.1 / 2 ^ bits == g).length == hi - lo

/-- Seats, units and schedule stores of groups whose last WID has exited are given up (R82, R83, R85). -/
def Launch.tidy (l : Launch) : Launch :=
  let r := l.dwords
  { l with
    seats := l.seats.filter fun p => !l.groupDone (recHartBits r) p.1,
    units := l.units.filter fun p => !l.groupDone (recFieldLo r (p.1 / 2 ^ 64 + 1)) (p.1 % 2 ^ 64),
    schedules := l.schedules.filter fun p => !l.groupDone (recCoreBits r) p.1 }

/-- An exited hart arrives for ever at every phase group it belongs to (R92, R358). -/
def State.arriveForEver (s : State) (tag wid : Word) : State :=
  match (s.launch? tag).bind fun l => Assoc.find l.members wid.toNat with
  | none => s
  | some m =>
    let s := s.onMember tag wid fun m => { m.close wid.toNat with exited := true, inPhase := [], inEwait := [] }
    [1, 2, 3, 4, 5].foldl (fun s scope => s.completeBoundary tag scope (phaseKey scope wid.toNat m.seat)) s

/-- A seat is freed (R92). -/
def State.freeSeat (s : State) (k : Nat) : State :=
  { (s.releaseMatrix k).settleTree (.hart k) with
    harts := Assoc.drop s.harts k, badHarts := s.badHarts.filter fun p => p.1 != k }

/-- The seated hart ends, in the order of R92. -/
def State.endHart (s : State) (k : Nat) (h : Hart) : State :=
  (((s.leaveAll h.tag h.wid).arriveForEver h.tag h.wid).freeSeat k).onLaunch h.tag Launch.tidy

/-- HEXIT (R92), before which STRIPSTOP may be taken (R449). -/
def execHexit (f : XFields) (s : State) : Host.Outcome State Fault Refusal :=
  performStrip (.hexit f) s fun s h => .seq ((s.onCur Hart.issueAll).endHart s.cur h)

end Sys2Proof.Machine
end

