-- ==== Sys2Proof/Machine/System.lean ====
section
/-! DEFINITION. The system instructions: MAJ 0x38 (R451 to R458): state registers (R452, R453), context records (R446, R455,
R456), WFE and DSTOP; and the steps that write one state register. -/

namespace Sys2Proof.Machine

/-! ### Reading state registers (Table 24.5) -/

/-- LQSTAT and CQSTAT (Table 5.3). -/
def queueStatus (chk under : Bool) (n : Nat) : Word := BitVec.ofNat 64 (bit01 chk * 2 ^ 31 + bit01 under * 2 ^ 30 + n)

/-- TSTAT (Table 24.1). -/
def Hart.tstat (h : Hart) : Word :=
  BitVec.ofNat 64 (8 * bit01 h.trp.sstop + 4 * bit01 h.trp.dreq + 2 * bit01 (h.trp.irq != 0) + bit01 h.trp.prv)

/-- SAMPCFG (Table 26.6). -/
def Hart.sampcfg (h : Hart) : Word :=
  BitVec.ofNat 64 (h.obs.lost.toNat * 2 ^ 48 + h.obs.records.length * 2 ^ 32 + h.obs.period.toNat * 2 ^ 16 +
    4 * bit01 h.obs.fie + 2 * bit01 h.obs.ven + bit01 h.obs.en)

/-- VL, VCFG and ROTB (Tables 8.2, 6.5 and 5.5). -/
def Hart.vlWord (h : Hart) : Word := BitVec.ofNat 64 (h.vec.ord.toNat * 2 ^ 32 + h.vl)
def Hart.vcfg (h : Hart) : Word :=
  BitVec.ofNat 64 (h.vlmax * 2 ^ 32 + h.vec.lcmask.toNat * 2 ^ 8 + h.vec.qtr.toNat * 2 ^ 6 + h.vec.vlclass.toNat * 2 ^ 4 +
    h.vec.sewc.toNat * 4 + h.vec.nvc.toNat)
def Hart.rotb (h : Hart) : Word := BitVec.ofNat 64 (h.vec.rotSize.toNat * 2 ^ 8 + h.vec.rotBase.toNat)

/-- The next dword of the oldest sample record; 0 when there is none (R480). -/
def Hart.sampbuf (h : Hart) : Word :=
  match h.obs.records with
  | [] => 0
  | r :: _ => r[h.obs.next]?.getD 0

/-- State register `n` of the hart at seat `k` (Table 24.5). -/
def Hart.csr (h : Hart) (k n : Nat) : Word :=
  match n with
  | 0x000 => h.vlWord
  | 0x001 => h.vec.vstart.setWidth 64
  | 0x002 => h.vcfg
  | 0x003 => h.rotb
  | 0x004 => h.ctl.greg.setWidth 64
  | 0x010 => h.ar.acfg
  | 0x011 => h.ar.aflags
  | 0x012 => h.ar.gflags
  | 0x013 => h.ar.seed
  | 0x020 => queueStatus h.ctl.lqChk h.ctl.lqUnder h.ctl.lq.length
  | 0x021 => queueStatus h.ctl.cqChk h.ctl.cqUnder h.ctl.cq.length
  | 0x022 => BitVec.ofNat 64 k
  | 0x023 => h.asid.setWidth 64
  | 0x030 => h.trp.cause.setWidth 64
  | 0x031 => h.trp.tval
  | 0x032 => h.trp.tpc
  | 0x033 => h.trp.tvstart.setWidth 64
  | 0x034 => h.tstat
  | 0x035 => h.trp.tvec
  | 0x048 => h.wp.cfg
  | 0x050 => h.sampcfg
  | 0x051 => h.sampbuf
  | n =>
    if 0x040 ≤ n && n < 0x044 then h.wp.lo[n - 0x040]?.getD 0
    else if 0x044 ≤ n && n < 0x048 then h.wp.hi[n - 0x044]?.getD 0
    else if 0x060 ≤ n && n < 0x070 then h.obs.pmsel[n - 0x060]?.getD 0
    else if 0x070 ≤ n && n < 0x080 then h.obs.pmc[n - 0x070]?.getD 0
    else 0

/-- The level that reading and writing need: `true` for system (Table 24.5). SAMPBUF's level is system. -/
def csrReadSystem (n : Nat) : Bool := (decide (0x030 ≤ n) && decide (n ≤ 0x035)) || n == 0x051
def csrWriteSystem (n : Nat) : Bool := csrReadSystem n || n == 0x023 || n == 0x050 || decide (0x060 ≤ n)

/-! ### Writing state registers -/

/-- ROTB takes a rotation the hart can have (R143). -/
def Hart.writeRotb (h : Hart) (x : Word) : Hart :=
  let size := fieldOf x 8 7
  let base := fieldOf x 0 6
  if h.nv < size || (0 < size && size ≤ base) || (size = 0 && base ≠ 0) then h
  else { h with vec := { h.vec with rotBase := BitVec.ofNat 6 base, rotSize := BitVec.ofNat 7 size } }

/-- ACFG: DRM keeps its value when the write would make it 110 or 111 (R184). -/
def Hart.writeAcfg (h : Hart) (x : Word) : Hart :=
  let drm := if 6 ≤ fieldOf x 0 3 then fieldOf h.ar.acfg 0 3 else fieldOf x 0 3
  { h with ar := { h.ar with acfg := BitVec.ofNat 64 (fieldOf x 3 1 * 8 + drm) } }

/-- SAMPCFG: PERIOD, FIE, VEN and EN (Table 26.6); the countdown is drawn anew (R479). -/
def Hart.writeSampcfg (h : Hart) (x : Word) : Hart :=
  { h with obs := { h.obs with
      period := BitVec.ofNat 16 (fieldOf x 16 16), fie := bitOf x.toNat 2, ven := bitOf x.toNat 1, en := bitOf x.toNat 0,
      countdown := none } }

/-- LQSTAT or CQSTAT: QCHK and UNDER (R133). -/
def Hart.writeQueueStatus (h : Hart) (cond : Bool) (x : Word) : Hart :=
  let chk := bitOf x.toNat 31
  let under := bitOf x.toNat 30
  if cond then { h with ctl := { h.ctl with cqChk := chk, cqUnder := under } }
  else { h with ctl := { h.ctl with lqChk := chk, lqUnder := under } }

/-- Writes the writable fields of state register `n` (Table 24.5); a read-only register keeps its value. -/
def Hart.writeCsr (h : Hart) (n : Nat) (x : Word) : Hart :=
  match n with
  | 0x001 => { h with vec := { h.vec with vstart := BitVec.ofNat 16 (fieldOf x 0 16) } }
  | 0x003 => h.writeRotb x
  | 0x004 => { h with ctl := { h.ctl with greg := BitVec.ofNat 8 (fieldOf x 0 8) } }
  | 0x010 => h.writeAcfg x
  | 0x011 => { h with ar := { h.ar with aflags := BitVec.ofNat 64 (fieldOf x 0 7) } }
  | 0x012 => { h with ar := { h.ar with gflags := BitVec.ofNat 64 (fieldOf x 0 1) } }
  | 0x013 => { h with ar := { h.ar with seed := seedStore (BitVec.ofNat 32 (fieldOf x 0 32)) } }
  | 0x020 => h.writeQueueStatus false x
  | 0x021 => h.writeQueueStatus true x
  | 0x023 => { h with asid := BitVec.ofNat 16 (fieldOf x 0 16) }
  | 0x030 => { h with trp := { h.trp with cause := BitVec.ofNat 8 (fieldOf x 0 8) } }
  | 0x031 => { h with trp := { h.trp with tval := x } }
  | 0x032 => { h with trp := { h.trp with tpc := BitVec.ofNat 64 (fieldOf x 3 61 * 8) } }
  | 0x033 => { h with trp := { h.trp with tvstart := BitVec.ofNat 16 (fieldOf x 0 16) } }
  | 0x034 => { h with trp := { h.trp with sstop := bitOf x.toNat 3 } }
  | 0x035 => { h with trp := { h.trp with tvec := BitVec.ofNat 64 (fieldOf x 3 51 * 8) } }
  | 0x048 => { h with wp := { h.wp with cfg := BitVec.ofNat 64 (fieldOf x 0 17) } }
  | 0x050 => h.writeSampcfg x
  | n =>
    if 0x040 ≤ n && n < 0x044 then
      { h with wp := { h.wp with lo := h.wp.lo.setIfInBounds (n - 0x040) (BitVec.ofNat 64 (fieldOf x 0 54)) } }
    else if 0x044 ≤ n && n < 0x048 then
      { h with wp := { h.wp with hi := h.wp.hi.setIfInBounds (n - 0x044) (BitVec.ofNat 64 (fieldOf x 0 54)) } }
    else if 0x060 ≤ n && n < 0x070 then
      { h with obs := { h.obs with pmsel := h.obs.pmsel.setIfInBounds (n - 0x060) (BitVec.ofNat 64 (fieldOf x 0 20)) } }
    else if 0x070 ≤ n && n < 0x080 then
      { h with obs := { h.obs with pmc := h.obs.pmc.setIfInBounds (n - 0x070) (BitVec.ofNat 64 (fieldOf x 0 48)) } }
    else h

/-- The value a state-register write leaves, before the register's field rules (R453). -/
def csrResult (op : CsrOp) (old x : Word) : Word :=
  match op with
  | .write => x
  | .set => old ||| x
  | .clear => old &&& ~~~x

/-- OVF of counters that passed 2^48 − 1 in the cycle is set, whatever the write does (R482); `counted` counted the cycle's
events with every OVF clear. -/
def Hart.keepOverflows (counted h : Hart) : Hart :=
  { h with obs := { h.obs with
      pmsel := Vector.ofFn fun i : Fin 16 =>
        if bitOf counted.obs.pmsel[i].toNat 19 then setField h.obs.pmsel[i] 19 1 1 else h.obs.pmsel[i] } }

/-- Every OVF clear. -/
def Hart.clearOverflows (h : Hart) : Hart :=
  { h with obs := { h.obs with pmsel := Vector.ofFn fun i : Fin 16 => setField h.obs.pmsel[i] 19 1 0 } }

/-- Every OVF that `old` has set too. -/
def Hart.addOverflows (old h : Hart) : Hart :=
  { h with obs := { h.obs with
      pmsel := Vector.ofFn fun i : Fin 16 =>
        if bitOf old.obs.pmsel[i].toNat 19 then setField h.obs.pmsel[i] 19 1 1 else h.obs.pmsel[i] } }

/-- A CSRW, CSRS or CSRC of register `n` with s[a] (R453): the cycle's events are counted under the settings before it (R482).
(Log 52, DEDUCED.) -/
def csrWrite (i : Instr) (op : CsrOp) (n : Nat) (a : RegIdx) (s : State) : Host.Outcome State Fault Refusal :=
  performWith i s true (fun _ => none) fun s h0 =>
    let h := h0.issueAll
    let s := s.setHart s.cur h
    let write (_ : Unit) : Eff State :=
      let x := csrResult op (h.csr s.cur n) (h.sreg a)
      let s := (s.setHart s.cur h.clearOverflows).countTiming.onCur fun c => c.countEvent 0x02 1
      .seq (s.onCur fun c => Hart.keepOverflows c ((Hart.addOverflows h c).writeCsr n x))
    if csrWriteSystem n then h.orPriv i s write else write ()

/-- A read of register `n` to s[d] (R453); a read of SAMPBUF frees a record after its dword 7 (R480). -/
def csrRead (i : Instr) (n : Nat) (d : RegIdx) (s : State) : Host.Outcome State Fault Refusal :=
  perform i s fun s h0 =>
    let h := h0.issueAll
    let s := s.setHart s.cur h
    let read (_ : Unit) : Eff State :=
      let next := if h.obs.records.isEmpty then 0 else (h.obs.next + 1) % 8
      let obs := { h.obs with records := if next = 0 then h.obs.records.drop 1 else h.obs.records, next := next }
      let r := if n = 0x051 then { h with obs := obs } else h
      .seq (s.setHart s.cur (r.setS d (h.csr s.cur n)))
    if csrReadSystem n then h.orPriv i s read else read ()

/-- CSRR (R453). -/
def execCsrr (f : XFields) (s : State) : Host.Outcome State Fault Refusal := csrRead (.csrr f) f.imm.toNat f.d s

/-- CSRW (R453). -/
def execCsrw (f : XFields) (s : State) : Host.Outcome State Fault Refusal := csrWrite (.csrw f) .write f.imm.toNat f.a s

/-- CSRS (R453). -/
def execCsrs (f : XFields) (s : State) : Host.Outcome State Fault Refusal := csrWrite (.csrs f) .set f.imm.toNat f.a s

/-- CSRC (R453). -/
def execCsrc (f : XFields) (s : State) : Host.Outcome State Fault Refusal := csrWrite (.csrc f) .clear f.imm.toNat f.a s

/-! ### The steps of one register -/

/-- The word of a state-register write. (Log 86, DEDUCED.) -/
def csrInstr (op : CsrOp) (n : Nat) (a : RegIdx) : Instr :=
  let f : XFields :=
    { d := 0, a := a, b := 0, c := 0, sc := 0, acq := false, rel := false, masked := false, imm := BitVec.ofNat 18 n }
  match op with
  | .write => .csrw f
  | .set => .csrs f
  | .clear => .csrc f

/-- SAMPBUF_READ (R480). -/
def execSampbufRead (d : RegIdx) (s : State) : Host.Outcome State Fault Refusal :=
  csrRead (.csrr { d := d, a := 0, b := 0, c := 0, sc := 0, acq := false, rel := false, masked := false, imm := 0x051 })
    0x051 d s

/-- PMU_REGISTER_WRITE (R482): of a PMC when `count`, else of a PMSEL. -/
def execPmuRegisterWrite (op : CsrOp) (count : Bool) (n : BitVec 4) (a : RegIdx) (s : State) :
    Host.Outcome State Fault Refusal :=
  let k := (if count then 0x070 else 0x060) + n.toNat
  csrWrite (csrInstr op k a) op k a s

/-- ROTB_WRITE (R143). -/
def execRotbWrite (op : CsrOp) (a : RegIdx) (s : State) : Host.Outcome State Fault Refusal :=
  csrWrite (csrInstr op 0x003 a) op 0x003 a s

/-- GREG_WRITE (R144). -/
def execGregWrite (op : CsrOp) (a : RegIdx) (s : State) : Host.Outcome State Fault Refusal :=
  csrWrite (csrInstr op 0x004 a) op 0x004 a s

/-- SEED_WRITE (R181). -/
def execSeedWrite (op : CsrOp) (a : RegIdx) (s : State) : Host.Outcome State Fault Refusal :=
  csrWrite (csrInstr op 0x013 a) op 0x013 a s

/-- ACFG_WRITE (R184). -/
def execAcfgWrite (op : CsrOp) (a : RegIdx) (s : State) : Host.Outcome State Fault Refusal :=
  csrWrite (csrInstr op 0x010 a) op 0x010 a s

/-- QUEUE_STATUS_WRITE (R133): of CQSTAT when `cond`, else of LQSTAT. -/
def execQueueStatusWrite (op : CsrOp) (cond : Bool) (a : RegIdx) (s : State) : Host.Outcome State Fault Refusal :=
  let k := if cond then 0x021 else 0x020
  csrWrite (csrInstr op k a) op k a s

/-! ### TRAP and TRET -/

/-- TRAP (R454). (Log 33, DEDUCED.) -/
def execTrap (f : XFields) (s : State) : Host.Outcome State Fault Refusal :=
  perform (.trap f) s fun s _ => .stop (s.onCur Hart.issueAll) .trapi (f.imm.setWidth 64)

/-- A member returns to program level at an address: it goes on only with a wait that it has there (R310, R373). -/
def Member.returnTo (pc : Word) (m : Member) : Member :=
  { m with inPhase := m.inPhase.filter fun e => e.1 == 0 && e.2.1 == pc,
           inEwait := m.inEwait.filter fun e => e.1 == 0 && e.2.pc == pc }

/-- TRET (R454): an instruction at system level, which the hart leaves when it has completed. -/
def execTret (f : XFields) (s : State) : Host.Outcome State Fault Refusal :=
  performThen (.tret f) s Hart.leaveTrap fun s h =>
    let s := s.onCur Hart.issueAll
    h.orPriv (.tret f) s fun _ => .jump (s.onMember h.tag h.wid (Member.returnTo h.trp.tpc)) h.trp.tpc

/-! ### Context records (R446, Table 24.4) -/

/-- The loop stack of a record, its first level at offset 0xC0: S, E, C, then Nn and St. -/
def loopParts (h : Hart) : List (Nat × Nat × Nat) :=
  h.ctl.loops.reverse.zipIdx.flatMap fun p =>
    let o := 0xC0 + 32 * p.2
    let pipe := match p.1.pipe with | none => 0 | some (nn, st) => st.toNat * 2 ^ 32 + nn.toNat
    [(o, 8, p.1.start.toNat), (o + 8, 8, p.1.stop.toNat), (o + 16, 8, p.1.count.toNat), (o + 24, 8, pipe)]

/-- The numbers of the listed state registers (Table 24.5). -/
def csrNumbers : List Nat := (List.range 0x80).filter csrListed

/-- The parts of the hart's context record with the given LEVEL and PC, in rising order: offset, bytes and value (Table
24.4). -/
def contextParts (h : Hart) (k : Nat) (level : Bool) (pc : Word) : List (Nat × Nat × Nat) :=
  let rb := h.regBits / 8
  [(0, 4, 0x31585443), (4, 2, 1), (6, 2, bit01 level + 2 * h.ctl.loops.length), (8, 8, h.wid.toNat), (0x10, 8, pc.toNat),
   (0x18, 8, h.vec.ord.toNat * 2 ^ 32 + h.vl * 2 ^ 16 + h.vstart), (0x20, 8, h.tag.toNat)] ++
  (h.ctl.lq.zipIdx.map fun p => (0x40 + 4 * p.2, 4, p.1.toNat)) ++
  [(0x80, 8, h.ctl.cq.length * 2 ^ 16 + (h.ctl.cq.zipIdx.map fun p => bit01 p.1 * 2 ^ p.2).sum)] ++
  loopParts h ++
  ((List.finRange 4).map fun i => (0x140 + 8 * i.val, 8, h.mat.t[i].shape.toNat)) ++
  ((List.range 64).map fun i => (0x200 + 8 * i, 8, (h.sreg (BitVec.ofNat 6 i)).toNat)) ++
  (csrNumbers.map fun n => (0x400 + 8 * n, 8, (h.csr k n).toNat)) ++
  ((List.finRange 8).map fun i => (0x1000 + 0x1000 * i.val, 0x1000, h.vec.m[i])) ++
  ((List.range h.nv).map fun i => (0x9000 + rb * i, rb, h.vreg i)) ++
  (h.mat.parts.map fun p => (0x49000 + p.1, p.2.1, p.2.2))

/-- The bytes of parts in rising order from offset `o` on, `n` in all, with zeros where no part stands. -/
def partBytes : List (Nat × Nat × Nat) → Nat → Nat → List Byte
  | [], _, n => List.replicate n 0
  | (at', size, x) :: r, o, n =>
    List.replicate (at' - o) 0 ++ toBytesLE size x ++ partBytes r (at' + size) (n - (at' + size - o))

/-- The loop stack of a record, innermost level first. A level's start is an address that PC can hold (R99). -/
def readLoops (get : Nat → Nat → Nat) (depth : Nat) : List LoopLevel :=
  ((List.range (Nat.min depth 4)).map fun i =>
    let o := 0xC0 + 32 * i
    let pipe := get (o + 24) 8
    { start := BitVec.ofNat 64 (get o 8 / 8 * 8), stop := BitVec.ofNat 64 (get (o + 8) 8), count := BitVec.ofNat 64 (get (o + 16) 8),
      pipe := if bitsOf pipe 32 4 = 0 then none else some (BitVec.ofNat 32 pipe, BitVec.ofNat 4 (bitsOf pipe 32 4)) }).reverse

/-- The hart with a context record loaded (R446, R456); `get` reads bytes of the record. HARTID and the seat fields of VCFG
stay, and so do PC and TPC's place in the caller's hands. s0 and mask bits from VLMAX on discard what the record gives (R105,
R205), and a VL above VLMAX, for which R456 has no status, becomes VLMAX (R201; log 128, DESIGN CHOICE). The strip's address, for which
the record has no place, stays as the hart has it (R168; log 129, DESIGN CHOICE). A record of a STRIPSTOP is one of its resumable
position (R449). -/
def Hart.loadContext (h : Hart) (get : Nat → Nat → Nat) : Hart :=
  let reg (n : Nat) : Nat := get (0x400 + 8 * n) 8
  let pos := get 0x18 8
  let cq := get 0x80 8
  let vec := { h.vec with
    nvc := BitVec.ofNat 2 (reg 0x002), sewc := BitVec.ofNat 2 (bitsOf (reg 0x002) 2 2), rotBase := 0, rotSize := 0,
    ord := BitVec.ofNat 32 (bitsOf pos 32 32) }
  let h := { h with vec := vec, wid := BitVec.ofNat 64 (get 8 8) }
  let rb := h.regBits / 8
  let h := { h with
    vec := { h.vec with
      len := BitVec.ofNat 16 (Nat.min (bitsOf pos 16 16) h.vlmax),
      v := Vector.ofFn fun i : Fin 64 => if i.val < h.nv then get (0x9000 + rb * i.val) rb else 0,
      m := Vector.ofFn fun i : Fin 8 => get (0x1000 + 0x1000 * i.val) 0x1000 % 2 ^ h.vlmax },
    s := Vector.ofFn fun i : Fin 64 => if i.val = 0 then 0 else BitVec.ofNat 64 (get (0x200 + 8 * i.val) 8),
    mat := {
      t := Vector.ofFn fun i : Fin 4 =>
        { data := get (0x49000 + 0x12000 * i.val) 0x10000, headers := get (0x59000 + 0x12000 * i.val) 0x2000,
          shape := BitVec.ofNat 12 (get (0x140 + 8 * i.val) 8) },
      acc := Vector.ofFn fun i : Fin 4 => get (0x91000 + 0x10000 * i.val) 0x10000,
      e := Vector.ofFn fun i : Fin 8 => BitVec.ofNat 1024 (get (0xD1000 + 128 * i.val) 128) } }
  let h := csrNumbers.foldl (fun h n => h.writeCsr n (BitVec.ofNat 64 (reg n))) h
  { h with
    vec := { h.vec with vstart := BitVec.ofNat 16 (bitsOf pos 0 16) },
    ctl := { h.ctl with
      lqAt := 0,
      lq := (List.range (Nat.min (bitsOf (reg 0x020) 0 5) 16)).map fun i => BitVec.ofNat 32 (get (0x40 + 4 * i) 4),
      cq := (List.range (Nat.min (bitsOf cq 16 5) 16)).map (bitOf cq),
      loops := readLoops get (bitsOf (get 6 2) 1 3) },
    trp := { h.trp with
      stripAt := if h.trp.cause = Cause.stripstop.code then some (BitVec.ofNat 64 (get 0x10 8 / 8 * 8)) else none },
    obs := { h.obs with lost := BitVec.ofNat 16 (bitsOf (reg 0x050) 48 16) } }

/-- The numbers held by a list of bytes. -/
def listReader (xs : List Byte) (o n : Nat) : Nat := ofBytesLE ((xs.drop o).take n)

/-- The status of a TRSTR (R456); none when the record is restored. (Log 53, DEDUCED.) -/
def restoreStatus (h : Hart) (get : Nat → Nat → Nat) : Option Nat :=
  if get 0 4 ≠ 0x31585443 || get 4 2 ≠ 1 || bitsOf (get 6 2) 4 12 ≠ 0 || bitOf (get 6 2) 0 then some 1
  else if bitsOf (get (0x400 + 8 * 0x002) 8) 4 2 ≠ h.vec.vlclass.toNat then some 2
  else if get 0x20 8 ≠ h.tag.toNat then some 3
  else none

/-- TSAVE's effect (R455): the record's bytes are plain writes in rising order. -/
def saveContext (s : State) (h : Hart) (va : Nat) : Eff State :=
  match h.wait.answer, h.wait.request with
  | some a, _ => s.resumeWrites h va (savedTable h.wait.got) a
  | none, some _ => .hold s
  | none, none =>
    s.writeOn h va { round := 0, data := partBytes (contextParts h s.cur false h.trp.tpc) 0 recordBytes } 4 0

/-- TSAVE (R455). -/
def execTsave (f : XFields) (s : State) : Host.Outcome State Fault Refusal :=
  perform (.tsave f) s fun s h =>
    let s := s.onCur Hart.issueAll
    h.orPriv (.tsave f) s fun _ =>
      let a := h.sreg f.a
      if a.toNat % 4096 ≠ 0 then .stop s .misalign a else withMatrix s fun s h => saveContext s h a.toNat

/-- The executing hart's queues are written whole: their words fail no more (R450). -/
def State.queuesWritten (s : State) : State :=
  { s with badHarts := s.badHarts.filter fun p => p.1 != s.cur || match p.2 with
      | .length _ | .condition => false
      | _ => true }

/-- TRSTR's effect (R456): the record is a plain read; s[D] holds the status once the rest is loaded. -/
def restoreContext (f : XFields) (s : State) (h : Hart) (va : Nat) : Eff State :=
  match s.readSpan h va fun _ => recordBytes with
  | .wait s => .hold s
  | .bad s got c => .stop (s.onWait fun _ => idleWait) c (BitVec.ofNat 64 ((va + got.length) % 2 ^ 64))
  | .ok s got =>
    let get := listReader got
    match restoreStatus h get with
    | some r => .seq (s.elementDone.onCur fun h => h.setS f.d (BitVec.ofNat 64 r))
    | none =>
      .seq (s.elementDone.queuesWritten.onCur fun h =>
        let r := h.loadContext get
        { r with trp := { r.trp with tpc := BitVec.ofNat 64 (get 0x10 8 / 8 * 8) } }.setS f.d 0)

/-- TRSTR (R456). -/
def execTrstr (f : XFields) (s : State) : Host.Outcome State Fault Refusal :=
  perform (.trstr f) s fun s h =>
    let s := s.onCur Hart.issueAll
    h.orPriv (.trstr f) s fun _ =>
      let a := h.sreg f.a
      if a.toNat % 4096 ≠ 0 then .stop s .misalign a else withMatrix s fun s h => restoreContext f s h a.toNat

/-! ### WFE and DSTOP -/

/-- The 128-byte line of storage that holds an address, when it names storage of the device. -/
def State.watchedLine (s : State) (h : Hart) (va : Nat) : Option Nat :=
  match s.translate (s.hartAgent s.cur h 0) va .read with
  | (_, .error _) => none
  | (_, .ok p) => if p.target = .memory then some (p.addr / 128) else none

/-- The hart's wait in WFE is over (R457). -/
def Hart.wakes (h : Hart) : Bool := h.wait.wfeDone || h.trp.irq != 0 || h.trp.dreq

/-- WFE (R457): it begins to watch its line, and completes at a step at which its wait is over. -/
def execWfe (f : XFields) (s : State) : Host.Outcome State Fault Refusal :=
  perform (.wfe f) s fun s h =>
    let s := s.onCur Hart.issueAll
    if h.wakes then .seq s
    else
      match h.wait.wfe with
      | some _ => .hold s
      | none =>
        let line := s.watchedLine h (h.sreg f.a).toNat
        .hold (s.onWait fun w => { w with wfe := some line, limit := f.imm.toNat, wfeDone := false })

/-- WFE_TIMEOUT (R457): the time limit of a hart's WFE passes; a WFE with t = 0 has none. -/
def execWfeTimeout (hart : Nat) (s : State) : Host.Outcome State Fault Refusal :=
  .next (s.onHart hart fun h =>
    if h.wait.wfe.isSome && h.wait.limit != 0 then { h with wait := { h.wait with wfeDone := true } } else h)

/-- WFE_OTHER_EVENT (R457): the device ends a wait at a moment of its own choosing. -/
def execWfeOtherEvent (hart : Nat) (s : State) : Host.Outcome State Fault Refusal :=
  .next (s.onHart hart fun h =>
    if h.wait.wfe.isSome then { h with wait := { h.wait with wfeDone := true } } else h)

/-- DSTOP (R458). -/
def execDstop (f : XFields) (s : State) : Host.Outcome State Fault Refusal :=
  perform (.dstop f) s fun s h =>
    let s := s.onCur Hart.issueAll
    h.orPriv (.dstop f) s fun _ =>
      let k := (h.sreg f.a).toNat % 2 ^ 13
      match s.hart? k with
      | none => .seq (s.onCur fun h => h.setS f.d 1)
      | some g =>
        if g.tag = h.tag then
          .seq ((s.onHart k fun g => { g with trp := { g.trp with dreq := true } }).onCur fun h => h.setS f.d 0)
        else .seq (s.onCur fun h => h.setS f.d 1)

end Sys2Proof.Machine
end

