-- ==== Sys2Proof/Machine/Ranges.lean ====
section
/-! DEFINITION. The range instructions: MAJ 0x39 (R58 to R68), and the steps of a compaction (R56, R57). -/

namespace Sys2Proof.Machine

/-! ### The tree as the range instructions see it -/

/-- A range, valid or not, in the tree: its descriptor, its leaf and slot, and the interior nodes above, the last one first. -/
structure RangeAt where
  desc : Descriptor
  leaf : Nat
  slot : Nat
  path : List Nat
  deriving DecidableEq, Repr

/-- The range in which an address lies, whether or not its descriptor is well formed (R46, R63); a malformed node is logged (R43). -/
def State.rawRange (s : State) (g : Agent) (root va : Nat) : State × Option RangeAt :=
  let w := s.walkNode va 4 root []
  match w with
  | .found leaf slot path =>
    let d := s.descriptorAt (slotAddr leaf slot)
    (s, if va < d.limit then some { desc := d, leaf := leaf, slot := slot, path := path } else none)
  | _ => (s.logWalk g w, none)

/-- The range in which an address lies: a malformed descriptor is absent, and logged (R39, R46). -/
def State.rangeAt (s : State) (h : Hart) (root va : Nat) : State × Option RangeAt :=
  let w := s.findRange h.asid root va
  match w with
  | .found leaf slot path =>
    (s, some { desc := s.descriptorAt (slotAddr leaf slot), leaf := leaf, slot := slot, path := path })
  | _ => (s.logWalk (s.hartAgent s.cur h 0) w, none)

/-- The range with the given base. -/
def RangeAt.basedAt (va : Nat) (r : Option RangeAt) : Option RangeAt := r.filter fun r => r.desc.base == va

/-- A descriptor with one field of a dword replaced (Table 2.1). -/
def Descriptor.setBase (d : Descriptor) (a : Nat) : Descriptor := { d with d0 := setField d.d0 8 46 (a / 256) }
def Descriptor.setLimit (d : Descriptor) (a : Nat) : Descriptor := { d with d1 := setField d.d1 8 46 (a / 256) }
def Descriptor.setResident (d : Descriptor) (n : Nat) : Descriptor := { d with d2 := setField d.d2 0 46 (n / 256) }
def Descriptor.setCmpx (d : Descriptor) (b : Bool) : Descriptor := { d with d1 := setField d.d1 1 1 (bit01 b) }
/-- SEALED set and WRITE cleared (R65). -/
def Descriptor.seal (d : Descriptor) : Descriptor := { d with d0 := setField d.d0 5 1 0, d1 := setField d.d1 4 1 1 }
/-- The offset that leads the base to the physical address `q` (R56). -/
def Descriptor.rebase (d : Descriptor) (q : Nat) : Descriptor :=
  { d with d3 := setField d.d3 16 48 (wrapI (((q : Int) - (d.base : Int)) / 256) 48) }

/-- The device writes dwords of a tree node, unless a byte of them is sealed (R50); no walk sees an older store there any longer
(R53). (Log 59, DEDUCED.) -/
def State.writeTree (s : State) (a : Nat) (ws : List Word) : State :=
  let bytes := ws.flatMap fun w => toBytesLE 8 w.toNat
  if s.seals.any fun e => overlapping a bytes.length e.base e.size then s
  else
    let s := { s with treeStores := s.treeStores.filter fun t => !overlapping (8 * t.dword) 8 a bytes.length }
    s.writePlace { Writer.device with final := true } (windowPlace a) bytes 0 64 true

/-- Writes a descriptor in its slot. -/
def State.putDescriptor (s : State) (a : Nat) (d : Descriptor) : State := s.writeTree a [d.d0, d.d1, d.d2, d.d3]

/-- The descriptors of a leaf. -/
def State.leafDescriptors (s : State) (leaf : Nat) : List Descriptor :=
  (List.range (fieldOf (s.mem.dword leaf) 0 16)).map fun i => s.descriptorAt (slotAddr leaf i)

/-- Writes a leaf's header and descriptors (R42). -/
def State.putLeaf (s : State) (leaf : Nat) (ds : List Descriptor) : State :=
  s.writeTree leaf (BitVec.ofNat 64 (2 ^ 56 + ds.length) :: 0 :: 0 :: 0 :: ds.flatMap fun d => [d.d0, d.d1, d.d2, d.d3])

/-- The entries of an interior node: KEY and CHILD. -/
def State.nodeEntries (s : State) (a : Nat) : List (Word × Word) :=
  (List.range (fieldOf (s.mem.dword a) 0 16)).map fun i => (s.mem.dword (a + 16 + 16 * i), s.mem.dword (a + 24 + 16 * i))

/-- Writes an interior node's header and entries (R42). -/
def State.putEntries (s : State) (a : Nat) (es : List (Word × Word)) : State :=
  s.writeTree a (BitVec.ofNat 64 (2 * 2 ^ 56 + es.length) :: 0 :: es.flatMap fun e => [e.1, e.2])

/-! ### Accesses under way (R54, R55) -/

/-- The cores whose entries a scope takes in (R64); holder 512 is the device's own. -/
def inScope (scope own holder : Nat) : Bool :=
  if scope ≤ 1 then holder == own
  else if scope = 2 then holder / 8 == own / 8
  else if scope = 3 then holder / 128 == own / 128
  else true

/-- The pieces that a hart's instruction under way has translated and is still to access, but for that of a request in flight: those of
the element at which it holds, and of elements translated ahead (R48, R273). -/
def Hart.ahead (h : Hart) : List Piece :=
  (if h.wait.request.isSome then h.wait.left.drop 1 else h.wait.left) ++
  (h.wait.probed.getD []).flatMap fun x => match x.2 with
    | .pieces ps => if h.vstart ≤ x.1 then ps else []
    | .failed _ _ => []

/-- The pieces of accesses that harts other than that at seat `but`, peers and the host have under way and that have not been requested
yet, with the holder of their translations. -/
def State.ahead (s : State) (but : Option Nat) : List (Nat × Piece) :=
  (s.harts.filter fun p => some p.1 != but).flatMap (fun p => p.2.ahead.map fun x => (coreIndex p.1, x)) ++
  s.peerIn.flatMap (fun q => (if q.request.isSome then q.left.drop 1 else q.left).map fun x => (512, x)) ++
  s.hub.windowIn.flatMap fun q => (if q.request.isSome then q.left.drop 1 else q.left).map fun x => (512, x)

/-- A descriptor of the address space has translated the piece: it lies in no fixed window. -/
def Piece.under (p : Piece) (asid : BitVec 16) : Bool :=
  p.place.asid == asid && !(p.place.target == .memory && 2 ^ 52 ≤ p.place.addr)

/-- Some access of an address space that was translated in a scope is not yet performed (R54, R55), but for the hart's at seat `but`:
a host or peer access of whoever made it, what an access under way has translated ahead, a delivery of a running node, or a stretch that
Whisk holds and that meets `lo` to `hi - 1`. (Log 57, DEDUCED.) -/
def State.underWayBut (s : State) (but : Option Nat) (asid : BitVec 16) (scope lo hi : Nat) : Bool :=
  let own := coreIndex s.cur
  s.pending.any (fun p => p.2.asid == asid && inScope scope own p.2.holder && p.2.waiter != .gone &&
    match p.2.waiter with | .hart k => some k != but | _ => true) ||
  (s.ahead but).any (fun x => x.2.under asid && inScope scope own x.1) ||
  s.nodes.any (fun p => p.2.asid == asid && inScope scope own (p.1 / 1024) && p.2.st == .running && !p.2.plan.isEmpty) ||
  s.exchanges.any fun x =>
    x.2.receivers.any (fun r => match r.2.area with
      | some a => a.asid == asid && inScope scope own a.core && a.ended.isNone && overlapping a.va a.size lo (hi - lo)
      | none => false) ||
    x.2.ingress.any fun u =>
      u.2.asid == asid && (overlapping u.2.poolVa (4096 * u.2.nb) lo (hi - lo) ||
      overlapping u.2.ringVa (64 + u.2.nbq * u.2.ringEntry) lo (hi - lo))

/-- The same but for the executing hart's own. -/
def State.underWay (s : State) (asid : BitVec 16) (scope lo hi : Nat) : Bool := s.underWayBut (some s.cur) asid scope lo hi

/-- Some piece lies in the device and meets a physical extent. -/
def meetsExtent (ps : List Piece) (base size : Nat) : Bool :=
  ps.any fun p => p.place.target == .memory && overlapping p.place.addr p.size base size

/-- Some write that has been translated to a physical extent, in whatever address space, is not yet performed (R65): what an access
under way has translated ahead, a node's delivery, or a stretch that Whisk holds. -/
def State.writingTo (s : State) (base size : Nat) : Bool :=
  meetsExtent ((s.ahead (some s.cur)).map Prod.snd) base size ||
  s.nodes.any (fun p => p.2.st == .running && p.2.plan.any fun m => meetsExtent m.dsts base size) ||
  s.exchanges.any fun x =>
    x.2.receivers.any (fun r => match r.2.area with
      | some a => a.ended.isNone && meetsExtent a.pieces base size
      | none => false) ||
    x.2.ingress.any fun u => meetsExtent u.2.pool base size || meetsExtent u.2.ring base size

/-- The entries of an address space that overlap a stretch are dropped in a scope (R55). (Log 58, DESIGN CHOICE.) -/
def State.invalidate (s : State) (asid : BitVec 16) (scope lo hi : Nat) : State :=
  let own := coreIndex s.cur
  s.dropEntries fun e => e.asid == asid && inScope scope own e.holder && overlapping e.desc.base e.desc.size lo (hi - lo)

/-- Another device that takes part in a launch invalidates at scope 5: this device's entries go too (R64). -/
def State.remoteInval (s : State) (asid : BitVec 16) (lo hi : Nat) : State :=
  s.dropEntries fun e => e.asid == asid && overlapping e.desc.base e.desc.size lo (hi - lo)

/-! ### The frame of a range instruction -/

/-- A range instruction at system level, on the tree of the hart's ASID (R59). -/
def performRange (i : Instr) (a : RegIdx) (s : State) (effect : State → Hart → Nat → Eff State) :
    Host.Outcome State Fault Refusal :=
  perform i s fun s h =>
    let s := s.onCur Hart.issueAll
    h.orPriv i s fun _ =>
      match s.rootOf h.asid with
      | none => .stop s .rmiss (h.sreg a)
      | some root => effect s h root

/-- The instruction completes with a value for s[d]. -/
def State.giveS (s : State) (d : RegIdx) (x : Nat) : Eff State := .seq (s.onCur fun h => h.setS d (BitVec.ofNat 64 x))

/-- One of several statuses that the spec does not choose between. -/
def State.someStatus (s : State) (d : RegIdx) (xs : List Nat) : Eff State :=
  let (n, s) := s.choose xs.length
  s.giveS d ((xs[n]?).getD 0)

/-! ### RSPLIT -/

/-- The two halves of a range split at `a` (R62). -/
def Descriptor.split (d : Descriptor) (a : Nat) : Descriptor × Descriptor :=
  ((d.setLimit a).setResident (Nat.min d.resident (a - d.base)), (d.setBase a).setResident (d.resident - (a - d.base)))

/-- The index of a child in its parent. -/
def childIndex (es : List (Word × Word)) (child : Nat) : Nat := (es.takeWhile fun e => e.2.toNat != child).length

/-- RSPLIT of the range `r` (R62): with room in the leaf, with the spare node, or with a status that changes nothing. (Log 54,
DEDUCED.) (Log 55, DEDUCED.) -/
def splitRange (s : State) (asid : BitVec 16) (d : RegIdx) (r : RangeAt) (a spare : Nat) : Eff State :=
  let (low, high) := r.desc.split a
  let old := s.leafDescriptors r.leaf
  let all := old.take r.slot ++ [low, high] ++ old.drop (r.slot + 1)
  let finish (s : State) (status : Nat) : Eff State := (s.invalidate asid 4 r.desc.base r.desc.limit).giveS d status
  if r.desc.cmpx then s.giveS d 4
  else if old.length < 127 then finish (s.putLeaf r.leaf all) 0
  else if spare = 0 then s.giveS d 2
  else if hbmTop ≤ spare then s.someStatus d [2, 8]
  else
    match r.path with
    | [] => s.someStatus d [2, 3]
    | parent :: _ =>
      let es := s.nodeEntries parent
      if 255 ≤ es.length then s.giveS d 3
      else
        let (n, s) := s.choose 3
        let moved := all.drop (63 + n)
        let key := match moved with | [] => 0 | m :: _ => m.base
        let i := childIndex es r.leaf + 1
        let es := es.take i ++ [(BitVec.ofNat 64 key, BitVec.ofNat 64 spare)] ++ es.drop i
        finish (((s.putLeaf spare moved).putLeaf r.leaf (all.take (63 + n))).putEntries parent es) 1

/-- RSPLIT (R62). -/
def execRsplit (f : XFields) (s : State) : Host.Outcome State Fault Refusal :=
  performRange (.rsplit f) f.a s fun s h root =>
    let a := h.sreg f.a
    let spare := h.sreg f.b
    if a.toNat % 256 ≠ 0 then .stop s .misalign a
    else if spare.toNat % 4096 ≠ 0 then .stop s .misalign spare
    else
      match s.rangeAt h root a.toNat with
      | (s, none) => .stop s .rmiss a
      | (s, some r) =>
        if r.desc.base = a.toNat then .stop s .rmiss a
        else if s.sealedRange r.desc then .stop s .sealed a
        else splitRange s h.asid f.d r a.toNat spare.toNat

/-! ### RMERGE -/

/-- The descriptors agree in every field but BASE, LIMIT and RESID (R63). -/
def Descriptor.sameRest (l u : Descriptor) : Bool :=
  let rest (d : Descriptor) : Descriptor := ((d.setBase 0).setLimit 0).setResident 0
  rest l == rest u

/-- Raises the keys on the path to the upper range that would lead addresses of the merged range away from its leaf: an
interior entry that the upper range is reached by and the lower one is not gets the merged limit as its key. (Log 56,
DEDUCED.) -/
def State.raiseKeys (s : State) (path : List Nat) (child low limit : Nat) : State :=
  match path with
  | [] => s
  | node :: up =>
    let es := s.nodeEntries node
    let i := childIndex es child
    let s := match es[i]? with
      | none => s
      | some e => if low < e.1.toNat then s.writeTree (node + 16 + 16 * i) [BitVec.ofNat 64 limit] else s
    s.raiseKeys up node low limit

/-- The lower range takes in the upper one, whose slot is freed (R63). -/
def State.joinRanges (s : State) (l u : RangeAt) : State :=
  let d := (l.desc.setLimit u.desc.limit).setResident (l.desc.resident + u.desc.resident)
  let s := s.putDescriptor (slotAddr l.leaf l.slot) d
  let us := s.leafDescriptors u.leaf
  let s := s.putLeaf u.leaf (us.take u.slot ++ us.drop (u.slot + 1))
  s.raiseKeys u.path u.leaf l.desc.base u.desc.limit

/-- RMERGE (R63). It holds until the accesses translated through both ranges are performed (R55). -/
def execRmerge (f : XFields) (s : State) : Host.Outcome State Fault Refusal :=
  performRange (.rmerge f) f.a s fun s h root =>
    let a := h.sreg f.a
    let g := s.hartAgent s.cur h 0
    let (s, low) := if a = 0 then (s, none) else s.rawRange g root (a.toNat - 1)
    let (s, up) := s.rawRange g root a.toNat
    match low.filter fun r => r.desc.limit == a.toNat, RangeAt.basedAt a.toNat up with
    | some l, some u =>
      if s.sealedRange l.desc || s.sealedRange u.desc then .stop s .sealed a
      else if l.desc.cmpx || u.desc.cmpx then s.giveS f.d 4
      else if !s.wellFormedRange h.asid l.desc || !s.wellFormedRange h.asid u.desc || !l.desc.sameRest u.desc then
        s.giveS f.d 5
      else if l.desc.resident ≠ l.desc.size && u.desc.resident ≠ 0 then s.giveS f.d 6
      else if s.underWay h.asid 4 l.desc.base u.desc.limit then .hold s
      else ((s.joinRanges l u).invalidate h.asid 4 l.desc.base u.desc.limit).giveS f.d 0
    | _, _ => .stop s .rmiss a

/-! ### RINVAL -/

/-- RINVAL (R64). At scope 5 the other devices' part is their own; theirs here is `State.remoteInval`. -/
def execRinval (f : XFields) (s : State) : Host.Outcome State Fault Refusal :=
  performRange (.rinval f) f.a s fun s h _ =>
    let lo := if h.sreg f.b = 0 then 0 else (h.sreg f.a).toNat
    let hi := if h.sreg f.b = 0 then 2 ^ 54 else lo + (h.sreg f.b).toNat
    let scope := f.sc.toNat
    if s.underWay h.asid scope lo hi then .hold s
    else
      .seq (((s.invalidate h.asid scope lo hi).released true).acquired h true)

/-! ### RSEAL -/

/-- The failing word of a stretch with the lowest address (R267). -/
def State.firstBad (s : State) (a n : Nat) : Option Nat :=
  (s.badWords.filter fun w => overlapping (8 * w) 8 a n).foldl
    (fun m w => match m with | none => some w | some x => some (Nat.min x w)) none

/-- The digest of a range's contents (R51). -/
def State.sealDigest (s : State) (d : Descriptor) : List Byte :=
  sha384 (toBytesLE 8 d.base ++ toBytesLE 8 d.size ++ s.mem.readBytes d.extent.1 d.size)

/-- The entries that the attestation log has and is still to get: a seal is numbered by its place there once it completes (R51). -/
def State.sealCount (s : State) : Nat := s.attestation.length + (s.seals.filter fun e => e.under.isSome).length

/-- RSEAL's steps 1 and 2 (R65): the extent is in the seal table, and the descriptor is SEALED and has lost WRITE. -/
def State.installSeal (s : State) (r : RangeAt) : State :=
  let d := r.desc
  let s := s.putDescriptor (slotAddr r.leaf r.slot) d.seal
  { s with seals := s.seals ++
      [{ base := d.extent.1, size := d.size, seq := 0, under := some (s.cur, d) }] }

/-- RSEAL's steps 3 to 6 (R65), once every write translated to the extent is performed: the seal gets the number of its entry (R51). -/
def State.attest (s : State) (h : Hart) (d : Descriptor) (e : SealEntry) : State :=
  let s := s.invalidate h.asid 4 d.base d.limit
  let n := s.attestation.length
  let x : AttEntry :=
    { seq := n, asid := h.asid, inc := s.hub.incarnation, vbase := d.base, size := d.size, pbase := d.extent.1,
      digest := s.sealDigest d }
  { s with seals := s.seals.map fun x => if x = e then { x with under := none, seq := n } else x, attestation := s.attestation ++ [x] }

/-- An uncorrectable error undoes steps 1 and 2 (R65). -/
def State.undoSeal (s : State) (r : RangeAt) (e : SealEntry) : State :=
  let s := { s with seals := s.seals.filter (· != e) }
  match e.under with
  | none => s
  | some (_, d) => s.putDescriptor (slotAddr r.leaf r.slot) d

/-- RSEAL from step 3 on (R65): it holds until the writes under way are performed. -/
def sealOn (f : XFields) (s : State) (h : Hart) (r : RangeAt) (e : SealEntry) : Eff State :=
  let d := r.desc
  if s.underWay h.asid 4 d.base d.limit || s.writingTo e.base e.size then .hold s
  else
    match s.firstBad e.base e.size with
    | some w =>
      let at' := d.base + (Nat.max (8 * w) e.base - e.base)
      .stop (((s.logBad (·.of s.cur h) w).undoSeal r e).invalidate h.asid 4 d.base d.limit) .dataerr (BitVec.ofNat 64 at')
    | none => (s.attest h d e).giveS f.d (s.attestation.length * 2 ^ 32)

/-- RSEAL (R65). While another RSEAL of the same extent is not complete it waits: edits have an order (R53). -/
def execRseal (f : XFields) (s : State) : Host.Outcome State Fault Refusal :=
  performRange (.rseal f) f.a s fun s h root =>
    let a := h.sreg f.a
    match s.rangeAt h root a.toNat with
    | (s, found) =>
      match RangeAt.basedAt a.toNat found with
      | none => .stop s .rmiss a
      | some r =>
        let d := r.desc
        let own (e : SealEntry) : Bool := e.base == d.extent.1 && e.size == d.size
        match s.seals.find? fun e => own e && e.under.any fun u => u.1 == s.cur with
        | some e => sealOn f s h r e
        | none =>
          if d.tgt ≠ 0 || hbmTop < d.extent.1 + d.size then s.giveS f.d 8
          else if d.resident ≠ d.size then s.giveS f.d 11
          else if d.cmpx then s.giveS f.d 4
          else if 256 ≤ s.seals.length || 256 ≤ s.sealCount then s.giveS f.d 9
          else
            match s.seals.find? own with
            | some e => if e.under.isSome then .hold s else s.giveS f.d (e.seq * 2 ^ 32)
            | none =>
              let s := s.installSeal r
              match s.seals.getLast? with
              | none => .hold s
              | some e => sealOn f s h { r with desc := d.seal } e

/-! ### RRES -/

/-- RRES (R66). A lowered mark holds until the accesses translated through the range are performed (R55). -/
def execRres (f : XFields) (s : State) : Host.Outcome State Fault Refusal :=
  performRange (.rres f) f.a s fun s h root =>
    let a := h.sreg f.a
    let b := h.sreg f.b
    match s.rangeAt h root a.toNat with
    | (s, none) => .stop s .rmiss a
    | (s, some r) =>
      let d := r.desc
      let old := d.base + d.resident
      if s.sealedRange d then .stop s .sealed a
      else if b.toNat % 256 ≠ 0 then .stop s .misalign b
      else if b.toNat < d.base || d.limit < b.toNat then .stop s .rpartial b
      else if b.toNat = old then s.giveS f.d old
      else if b.toNat < old && s.underWay h.asid 4 d.base d.limit then .hold s
      else
        let s := s.putDescriptor (slotAddr r.leaf r.slot) (d.setResident (b.toNat - d.base))
        (s.invalidate h.asid 4 d.base d.limit).giveS f.d old

/-! ### RPROBE -/

/-- The access kind of IMM18 (R67). -/
def probeKind (n : Nat) : Access :=
  match n % 4 with
  | 0 => .read
  | 1 => .write
  | 2 => .execute
  | _ => .atomic

/-- The TGT code of a place (Table 2.1). -/
def Target.code : Target → Nat
  | .memory => 0
  | .host => 1
  | .peer => 2

/-- RPROBE (R67). -/
def execRprobe (f : XFields) (s : State) : Host.Outcome State Fault Refusal :=
  performRange (.rprobe f) f.a s fun s h root =>
    let a := h.sreg f.a
    match s.translateFull { s.hartAgent s.cur h 0 with root := some root } a.toNat (probeKind f.imm.toNat) with
    | (s, .error c) => s.giveS f.d (c.code.toNat * 2 ^ 56)
    | (s, .ok (_, none)) => s.giveS f.d (3 * 2 ^ 54 + a.toNat)
    | (s, .ok (p, some _)) => s.giveS f.d (p.target.code * 2 ^ 54 + p.addr % 2 ^ 54)

/-! ### RCOMPACT and its compaction -/

/-- The compaction contexts that are free, by number. -/
def State.freeContexts (s : State) : List Nat :=
  (List.range 4).filter fun i => match s.compactions[i]? with | some none => true | _ => false

/-- RCOMPACT (R68). A destination that runs beyond local HBM gives status 8 too (log 105, DESIGN CHOICE). -/
def execRcompact (f : XFields) (s : State) : Host.Outcome State Fault Refusal :=
  performRange (.rcompact f) f.a s fun s h root =>
    let a := h.sreg f.a
    let b := h.sreg f.b
    match s.rangeAt h root a.toNat with
    | (s, found) =>
      match RangeAt.basedAt a.toNat found with
      | none => .stop s .rmiss a
      | some r =>
        let d := r.desc
        if s.sealedRange d then .stop s .sealed a
        else if b.toNat % 256 ≠ 0 then .stop s .misalign b
        else if d.tgt ≠ 0 || hbmTop < d.extent.1 + d.size || hbmTop < b.toNat + d.size then s.giveS f.d 8
        else if d.cmpx then s.giveS f.d 4
        else if overlapping b.toNat d.size d.extent.1 d.size then s.giveS f.d 10
        else if s.freeContexts.isEmpty then s.giveS f.d 7
        else
          let (n, s) := s.choose s.freeContexts.length
          let ctx := (s.freeContexts[n]?).getD 0
          let c : Compaction :=
            { asid := h.asid, root := root, base := d.base, size := d.size, source := d.extent.1, target := b.toNat, copied := 0,
              swung := false }
          let s := s.putDescriptor (slotAddr r.leaf r.slot) (d.setCmpx true)
          { s with compactions := s.compactions.setIfInBounds ctx (some c) }.giveS f.d 0

/-- Copies a stretch of memory but for bytes of sealed extents (R50). -/
def copyUnsealed (seals : List SealEntry) (m : Mem) (src dst size : Nat) : Mem :=
  let moved := m.copy src dst size
  seals.foldl (fun x e => if overlapping e.base e.size dst size then
      (m.cells e.base e.size).foldl (fun y c => y.write c.1 c.2) (x.clear e.base e.size)
    else x) moved

/-- The next `n` bytes of a compaction stand at its target (R56). -/
def State.copyOn (s : State) (ctx : Nat) (c : Compaction) (n : Nat) : State :=
  let at' := c.target + c.copied
  let s : State := { s with
    mem := copyUnsealed s.seals s.mem (c.source + c.copied) at' n,
    badWords := s.badWords.filter fun w => !(at' ≤ 8 * w && 8 * w + 8 ≤ at' + n),
    compactions := s.compactions.setIfInBounds ctx (some { c with copied := c.copied + n }) }
  s.followCopies

/-- Records of writes to the source, moved to the target; those to the target are gone with the bytes they wrote. -/
def moveRecord (c : Compaction) (w : WriteRec) : List WriteRec :=
  let far := (w.bytes.zipIdx.filter fun p => c.source ≤ w.addr + p.2 && w.addr + p.2 < c.source + c.size).map Prod.fst
  let first := Nat.max w.addr c.source
  let here : List WriteRec := if overlapping w.addr w.bytes.length c.target c.size then [] else [w]
  if far.isEmpty then here else here ++ [{ w with addr := first - c.source + c.target, bytes := far }]

/-- The same for writes of agents outside. -/
def moveForeign (c : Compaction) (w : ForeignRec) : List ForeignRec :=
  let far := (w.bytes.zipIdx.filter fun p => c.source ≤ w.addr + p.2 && w.addr + p.2 < c.source + c.size).map Prod.fst
  let first := Nat.max w.addr c.source
  let here : List ForeignRec := if overlapping w.addr w.bytes.length c.target c.size then [] else [w]
  if far.isEmpty then here else here ++ [{ w with addr := first - c.source + c.target, bytes := far }]

/-- What phase order holds of a range moves with it. -/
def Launch.moveRange (c : Compaction) (seals : List SealEntry) (l : Launch) : Launch :=
  { l with
    base := copyUnsealed seals l.base c.source c.target c.size,
    writes := l.writes.flatMap (moveRecord c),
    foreign := l.foreign.flatMap (moveForeign c),
    deferred := l.deferred.map fun p => (p.1, { p.2 with writes := p.2.writes.flatMap (moveRecord c) }) }

/-- The source, copied whole, now stands at the target in what fetches may still see (R101) and in phase order. -/
def State.moveExtent (s : State) (c : Compaction) : State :=
  let copy (m : Mem) : Mem := copyUnsealed s.seals m c.source c.target c.size
  { s with
    harts := s.harts.map fun (p : Nat × Hart) => (p.1, { p.2 with code := copy p.2.code }),
    vacated := s.vacated.map fun (p : Nat × Vacated) => (p.1, { p.2 with code := copy p.2.code }),
    launches := s.launches.map fun (p : Nat × Launch) => (p.1, p.2.moveRange c s.seals) }

/-- A compaction as an agent in its range's address space. -/
def Compaction.agent (c : Compaction) : Agent := { holder := 512, asid := c.asid, root := some c.root, core := none, slice := none }

/-- Changes the descriptor of a compacting range, where the tree still holds it. -/
def State.onCompacting (s : State) (c : Compaction) (f : Descriptor → Descriptor) : State :=
  match s.rawRange c.agent c.root c.base with
  | (s, found) =>
    match RangeAt.basedAt c.base found with
    | none => s
    | some r => s.putDescriptor (slotAddr r.leaf r.slot) (f r.desc)

/-- CMPX is cleared, and the context is free (R56, R57). -/
def State.endCompaction (s : State) (ctx : Nat) (c : Compaction) : State :=
  { s.onCompacting c (·.setCmpx false) with compactions := s.compactions.setIfInBounds ctx none }

/-- The compaction in a context. -/
def State.compaction (s : State) (ctx : Nat) : Option Compaction := s.compactions[ctx]?.join

/-- The first failing word of what is still to be copied (R57). -/
def State.firstUncopied (s : State) (c : Compaction) : Option Nat := s.firstBad (c.source + c.copied) (c.size - c.copied)

/-- A compaction copies up to `n` more bytes, to no failing word (R56, R57). -/
def State.compactionStep (s : State) (ctx n : Nat) : State :=
  match s.compaction ctx with
  | none => s
  | some c =>
    let from' := c.source + c.copied
    let stop := match s.firstUncopied c with | none => c.source + c.size | some w => Nat.max from' (8 * w)
    s.copyOn ctx c (Nat.min n (stop - from'))

/-- COMPACTION_SWING (R56), first what is left of the copy and the swing: no access through the old entries is under way, and the range
leads to its new extent. It does not happen while a word still to be copied fails (R57). A second one clears CMPX. (Log 60, DESIGN
CHOICE.) -/
def execCompactionSwing (ctx : Nat) (s : State) : Host.Outcome State Fault Refusal :=
  match s.compaction ctx with
  | none => .next s
  | some c =>
    if c.swung then .next (s.endCompaction ctx c)
    else if (s.firstUncopied c).isSome || s.underWayBut none c.asid 4 c.base (c.base + c.size) then .next s
    else
      let s := (s.copyOn ctx c (c.size - c.copied)).moveExtent c
      let s := s.onCompacting c fun d => d.rebase c.target
      .next ({ s with compactions := s.compactions.setIfInBounds ctx (some { c with copied := c.size, swung := true }) }.invalidate
        c.asid 4 c.base (c.base + c.size))

/-- COMPACTION_ABANDON (R57): the copy has met a failing word; the bytes before it are copied. -/
def execCompactionAbandon (ctx : Nat) (s : State) : Host.Outcome State Fault Refusal :=
  match s.compaction ctx with
  | none => .next s
  | some c =>
    match s.firstUncopied c with
    | none => .next s
    | some w =>
      if c.swung then .next s
      else
        .next (((s.compactionStep ctx c.size).endCompaction ctx c).log .error
          ((blankEntry 4 0 (BitVec.ofNat 64 (8 * w))).under c.asid))

/-- Memory with the copies that compactions have made so far brought up to date (R56). -/
def State.recopy (s : State) (m : Mem) : Mem :=
  s.compactions.toList.foldl (fun m c => match c with
    | some c => if c.swung then m else copyUnsealed s.seals m c.source c.target c.copied
    | none => m) m

end Sys2Proof.Machine
end

