-- ==== Sys2Proof/Machine/Launches.lean ====
section
/-! DEFINITION. Taking a launch (R25 to R27, R74 to R77), its place in phase order (R361, R363), divergence hashing (R472 to
R474), completion (R465 to R469) and its end by system software (R470). -/

namespace Sys2Proof.Machine

/-! ### What a launch sees at its start (R363) -/

/-- All writes of a live launch, its deferred ones among them. -/
def Launch.allWrites (l : Launch) : List WriteRec :=
  l.writes ++ (l.deferred.filter fun p => !p.2.placed).flatMap fun p => p.2.writes

/-- The writes of a live launch that a LAUNCH has released to the launch it appends (R88, R363). -/
def Launch.released (l : Launch) (tag : Nat) (a : Option Appended) : List WriteRec :=
  match a with
  | none => []
  | some a => if a.tag.toNat = tag then
      l.writes.filter (Reader.sees { who := a.who, clock := a.clock, upTo := some a.seq }) else []

/-- Lays bytes from `a` on over memory: of each byte the nibbles that `take` gives. -/
def Mem.lay (m : Mem) (a : Nat) (bytes : List Byte) (take : Nat → Nat → Bool) : Mem :=
  forElems (fun i m =>
    let b := bytes[i]?.getD 0
    match take (a + i) 0, take (a + i) 1 with
    | true, true => m.write (a + i) b
    | true, false => m.write (a + i) (mergeNibble (m.read (a + i)) b 1)
    | false, true => m.write (a + i) (mergeNibble (m.read (a + i)) b 2)
    | false, false => m) bytes.length 0 m

/-- Sets the nibbles that writes cover to what `f` gives. -/
def setTouched (f : Nat → Byte) (m : Mem) (ws : List WriteRec) : Mem :=
  ws.foldl (fun m w => m.lay w.addr ((List.range w.bytes.length).map fun i => f (w.addr + i)) w.covers) m

/-- Memory at the start of a launch: without what the launches still live have written, but for what one of them has released
to it, and with every write of an agent that is no live launch. -/
def State.startMemory (s : State) (a : Option Appended) : Mem :=
  let undone := s.launches.reverse.foldl (fun m p => setTouched p.2.base.read m p.2.allWrites) s.mem
  let outside := s.launches.foldl (fun m p =>
    (p.2.foreign.filter fun f => !s.launches.any fun q => q.1 == f.source).foldl (fun m f => m.store f.addr f.bytes f.nibble) m)
    undone
  s.launches.foldl (fun m p =>
    let ws := p.2.released p.1 a
    setTouched (fun x => byteOf ws (m.read x) x) m ws) outside

/-- The writes of live launches that are foreign to a launch from its start on (R361, R363). -/
def State.startForeign (s : State) (a : Option Appended) : List ForeignRec :=
  s.launches.flatMap fun p =>
    let seen := p.2.released p.1 a
    (p.2.allWrites.filter fun w => !seen.contains w).map fun w =>
      { source := p.1, addr := w.addr, bytes := w.bytes, nibble := w.nibble, seq := w.seq }

/-! ### The device's own accesses to a launch's blocks -/

/-- What the device's write of a dword comes to: performed, failed, or sent to a peer, which is to accept it (R54). -/
inductive Stored where
  | done
  | failed (c : Cause)
  | sent (tag : BitVec 16)
  deriving DecidableEq, Repr

/-- The device writes one dword at a virtual address, atomically (R27, R466): in the device, at the host or at a peer. One that meets
an uncorrectable error writes nothing, and one to a peer for which no tag is free fails (log 91, DESIGN CHOICE). -/
def State.deviceDword (s : State) (w : Waiter) (g : Agent) (va : Nat) (x : Word) : State × Stored :=
  match s.translate g va .write with
  | (s, .error c) => (s, .failed c)
  | (s, .ok p) =>
    let bytes := toBytesLE 8 x.toNat
    if p.target = .memory then
      match s.badWord p.addr 8 with
      | some b => (s.logBad (s.signed g) b, .failed .dataerr)
      | none => (s.writePlace Writer.device p bytes 0 64 true, .done)
    else
      match s.issueWrite w p bytes with
      | (s, .answered (.failed c)) => (s, .failed c)
      | (s, .answered (.data _)) => (s, .done)
      | (s, .sent tag) => (s, .sent tag)
      | (s, .full) => (s, .failed .peer)

/-- The agent that a record names: its address space, under its root. -/
def recordAgent (r : Record) : Agent :=
  { holder := 512, asid := recAsid r, root := some (recRoot r), core := none, slice := none }

/-! ### Taking and rejecting (R25 to R27) -/

/-- Rejects a launch (R27): a completion word, or an entry in the launch error log, at once or when a peer answers that the word
failed. -/
def State.rejectLaunch (s : State) (record : Nat) (r : Option Record) (reason : Nat) : State :=
  let note (s : State) (asid : BitVec 16) : State := s.log .launch (launchEntry 1 reason record asid 0 0)
  match r with
  | none => note s 0
  | some r =>
    if recCaddr r = 0 then note s (recAsid r)
    else
      match s.deviceDword (.reject record reason) (recordAgent r) (recCaddr r)
          (BitVec.ofNat 64 (0x80 * 2 ^ 56 + reason * 2 ^ 48)) with
      | (s, .failed _) => note s (recAsid r)
      | (s, _) => s

/-- The dwords of a record's copy, each by itself one of the values that it has held (R25). (Log 61, DESIGN CHOICE.) -/
def State.tornDwords (s : State) : List (List Word) → List Word × State
  | [] => ([], s)
  | xs :: rest =>
    let (n, s) := s.choose xs.length
    let (ds, s) := s.tornDwords rest
    (xs[n]?.getD 0 :: ds, s)

/-- The values that the dwords of a record may be read with, the one that stands in memory first (R25). -/
def State.dwordValues (s : State) (pa : Nat) (copy : Option RecordCopy) : List (List Word) :=
  (List.range 16).map fun i =>
    (s.mem.dword (pa + 8 * i) :: (((copy.filter (·.base == pa)).bind (·.values[i]?)).getD []).reverse).eraseDups

/-- The copy of a record at a physical address (R25), with the values that its dwords have held since it was appended; none when it
cannot be read. -/
def State.readRecord (s : State) (pa : Nat) (copy : Option RecordCopy) : State × Option Record :=
  match s.badWord pa 128 with
  | some w => (s.logBad id w, none)
  | none =>
    let (ds, s) := s.tornDwords (s.dwordValues pa copy)
    (s, some (Vector.ofFn fun i => ds[i.val]?.getD 0))

/-- The record as a LAUNCH at program level leaves it (R88). -/
def overrideRecord (r : Record) (a : Option Appended) : Record :=
  match a.bind fun a => a.override with
  | none => r
  | some (asid, root) => (r.set 2 (setField r[2] 48 16 asid.toNat)).set 1 (setField r[1] 12 40 (root / 4096))

/-- Reason 0x0A: the task queue is bound to a live launch (R22). -/
def State.queueBound (s : State) (r : Record) : Bool :=
  recTqen r && s.launches.any fun p => recTqen p.2.dwords && recTqsel p.2.dwords == recTqsel r

/-- Reason 0x0C: the system group is not defined, or a live launch has joined it (R76). -/
def State.groupTaken (s : State) (r : Record) : Bool :=
  recGroup r != 0 && ((Assoc.find s.hub.groups (recGroup r)).isNone ||
    s.launches.any fun p => recGroup p.2.dwords == recGroup r)

/-- The first check of Table 1.7 that fails; `cls` is the class of the launch queue, none for a successor (R469). -/
def State.recordFault (s : State) (r : Record) (cls : Option Nat) : Option Nat :=
  match recFault r with
  | some n => some n
  | none =>
    if s.queueBound r then some 0x0A
    else if cls.isSome && cls != some (recClass r) then some 0x0B
    else if s.groupTaken r then some 0x0C
    else none

/-! ### The completion block (R471) -/

/-- The eight-byte fields of the block from offset `o` on; none when the read faults. (Log 63, DEDUCED.) -/
def State.blockFields (s : State) (g : Agent) (caddr o n : Nat) : State × Option (List Word) :=
  match s.deviceRead g (granules (8 * n)) (caddr + o) (8 * n) with
  | (s, .error _) => (s, none)
  | (s, .ok xs) => (s, some ((List.range n).map fun i => BitVec.ofNat 64 (ofBytesLE ((xs.drop (8 * i)).take 8))))

/-- Bits outside 53:5 of an address field are zero. -/
def logAddress (x : Word) : Bool := fieldOf x 0 5 == 0 && fieldOf x 54 10 == 0

/-- An unusable completion block. -/
def Replay.unusable (on blk : Bool) : Replay :=
  { on := on, blockOk := false, blk := blk, rmode := false, rlog := 0, rcap := 0, rlen := 0, rpos := 0, rovf := false,
    rdiv := false }

/-- Reads RLOG to RLEN when a launch with HASHTRACK or REPLAY is taken (R471). (Log 62, DEDUCED.) -/
def State.readBlock (s : State) (r : Record) (record : Nat) (tag : Word) : State × Option Replay :=
  let on := recReplay r
  let a := recCaddr r
  if !on && !recHashtrack r then (s, none)
  else if a = 0 then (s.log .launch (launchEntry 4 0 record (recAsid r) tag 0), some (Replay.unusable on false))
  else if a % 128 ≠ 0 then (s, some (Replay.unusable on true))
  else
    match s.blockFields (recordAgent r) a 0x30 10 with
    | (s, none) => (s, some (Replay.unusable on true))
    | (s, some ws) =>
      let w (i : Nat) : Word := ws[i]?.getD 0
      if !logAddress (w 0) || fieldOf (w 2) 1 63 ≠ 0 || (ws.drop 4).any (· != 0) then (s, some (Replay.unusable on true))
      else
        let rmode := bitOf (w 2).toNat 0
        (s, some { on := on, blockOk := true, blk := false, rmode := rmode, rlog := w 0, rcap := w 1,
                   rlen := if rmode then (w 3).toNat / 32 * 32 else 0, rpos := 0,
                   rovf := on && !rmode && (w 1).toNat < 32, rdiv := false })

/-! ### Accepting a launch -/

/-- The die takes the launch of a record that has passed its checks; external entries at the head of its log are applied at once
(R476). (Log 90, DESIGN CHOICE.) -/
def State.acceptLaunch (s : State) (die record : Nat) (r : Record) (a : Option Appended) : State :=
  let tag := s.nextTag
  let (s, replay) := s.readBlock r record (BitVec.ofNat 64 tag)
  let l : Launch :=
    { die := die, record := record, dwords := r, order := tag, ended := false, members := [], started := [], units := [],
      seats := [], base := s.startMemory a, writes := [], foreign := s.startForeign a, deferred := [], boundaries := [],
      tasks := Vector.replicate 4 [], schedules := [], pins := [], dirty := [], replay := replay, closing := none }
  { s with launches := Assoc.put s.launches tag l, nextTag := tag + 1 }.applyExternals (BitVec.ofNat 64 tag)
    (match replay with | none => 0 | some r => r.rlen / 32)

/-- Checks a record and takes or rejects its launch (R26). (Log 61, DESIGN CHOICE.) -/
def State.takeRecordCopy (s : State) (die record : Nat) (r : Option Record) (cls : Option Nat) (a : Option Appended) : State :=
  match r with
  | none => s.rejectLaunch record none 0x01
  | some r =>
    match s.recordFault r cls with
    | some n => s.rejectLaunch record (some r) n
    | none => s.acceptLaunch die record r a

/-! ### TAKE_POSITION -/

/-- The launches that a die holds (R77). -/
def State.launchesOn (s : State) (die : Nat) : Nat := (s.launches.filter fun p => p.2.die == die).length

/-- A queue whose position HEAD can be taken: it is enabled and its slot is valid (R74, R75). -/
def State.takeable (s : State) (i : Nat) : Bool :=
  let q := s.queue i
  q.enable && bitOf (q.slot (q.head.toNat % 256)).toNat 0

/-- The queue that the die serves next: latency before bulk, and round robin within a class (R77). -/
def State.nextQueue (s : State) (die : Nat) : Option Nat :=
  let pick (cls : Nat) : Option Nat :=
    let last := s.turns[2 * die + cls]?.getD 0
    ((List.range 8).map fun j => 16 * die + 8 * cls + (last + 1 + j) % 8).find? s.takeable
  match pick 0 with
  | some i => some i
  | none => pick 1

/-- A slot that names no readable record (R74). -/
def slotUnreadable (x : Word) : Bool := fieldOf x 52 12 != 0 || fieldOf x 1 6 != 0 || hbmTop ≤ slotRecord x

/-- Takes the record at HEAD of queue `i` (R74). What a LAUNCH at program level puts in place of the record's ASID and RTROOT stands with
the position (R88), also where a host that does not own the slot has put another record there (log 123, DESIGN CHOICE). -/
def State.takeHead (s : State) (i : Nat) : State :=
  let q := s.queue i
  let x := q.slot (q.head.toNat % 256)
  let j := q.head.toNat % 256
  let pa := slotRecord x
  let a := Assoc.find q.appends q.head.toNat
  let (s, r) := if slotUnreadable x then (s, none) else s.readRecord pa (Assoc.find q.copies j)
  let s := (s.putSlot i j 0).onQueue i fun q =>
    { q with head := q.head + 1, appends := Assoc.drop q.appends q.head.toNat }.takeLate j
  let s := { s with turns := s.turns.setIfInBounds (i / 8) (i % 8) }
  s.takeRecordCopy (i / 16) pa (r.map fun r => overrideRecord r a) (some (i / 8 % 2)) a

/-- TAKE_POSITION (R74, R77). -/
def execTakePosition (q : QueueId) (s : State) : Host.Outcome State Fault Refusal :=
  let i := queueNumber q
  if s.launchesOn q.die.toNat < 64 && s.nextQueue q.die.toNat == some i then .next (s.takeHead i) else .next s

/-! ### Completion: phase order (R361, R363) -/

/-- The deferred writes of a completing launch that never took a place in phase order take it at its end (R370, R371), after every
write so far. -/
def Launch.settleDeferred (l : Launch) (seq : Nat) : List WriteRec :=
  l.writes ++ (l.deferred.filter fun p => !p.2.placed).flatMap fun p =>
    match Assoc.find l.members p.2.who with
    | none => p.2.writes
    | some m => p.2.writes.map fun w => { w with seq := seq + w.seq, who := p.2.who, epoch := m.epoch, clock := m.clock }

/-- The foreign write covers nibble `n` of the byte `a`. -/
def ForeignRec.covers (f : ForeignRec) (a n : Nat) : Bool :=
  decide (f.addr ≤ a) && decide (a < f.addr + f.bytes.length) && (f.nibble == 0 || f.nibble == n + 1)

/-- Where a foreign write and a plain write of a completing launch meet, the element is left as it is, or holds the foreign value or the
launch's (R361). -/
def State.settlePair (s : State) (f : ForeignRec) (m : Mem) (w : WriteRec) : Mem × State :=
  let both (a n : Nat) : Bool := f.covers a n && w.covers a n
  let (pick, s) := s.choose 3
  (if pick = 0 then m else if pick = 1 then m.lay f.addr f.bytes both else m.lay w.addr w.bytes both, s)

/-- Memory once a foreign write has met the plain writes of a completing launch. An edit of a range tree stands where none of them was
made after it (R58), and any other is settled with each by itself (R361). -/
def State.settleForeign (s : State) (plain : List WriteRec) (m : Mem) (f : ForeignRec) : Mem × State :=
  if f.final then
    let covered (a n : Nat) : Bool := plain.any fun w => w.covers a n
    let after (a n : Nat) : Bool := plain.any fun w => w.covers a n && decide (f.seq < w.seq)
    (m.lay f.addr f.bytes fun a n => f.covers a n && covered a n && !after a n, s)
  else
    (plain.filter fun w => overlapping w.addr w.bytes.length f.addr f.bytes.length).foldl
      (fun x w => x.2.settlePair f x.1 w) (m, s)

/-- Memory as a completing launch leaves it: each element that it wrote by plain writes to PHASED ranges has the value of the latest of
them (R360), or, where a foreign write met it, that write's or another of the launch's (R361). (Log 67, DEDUCED.) -/
def State.publish (s : State) (tag : Nat) (l : Launch) : State :=
  let ws := l.settleDeferred s.writeSeq
  let plain := ws.filter fun w => !w.home
  let value (a : Nat) : Byte := byteOf (ws.filter fun w => w.touches a 1) (l.base.read a) a
  let r := (l.foreign.filter fun f => f.source != tag).foldl (fun (x : Mem × State) f => x.2.settleForeign plain x.1 f)
    (setTouched value s.mem plain, s)
  let mem := r.2.recopy (r.2.keepSealed r.1)
  let given : List ForeignRec := plain.map fun w =>
    { source := tag, addr := w.addr, bytes := mem.readBytes w.addr w.bytes.length, nibble := w.nibble, seq := s.writeSeq }
  let s : State := { r.2 with
    mem := mem,
    launches := r.2.launches.map fun p =>
      (p.1, if p.1 = tag then { p.2 with writes := [], deferred := [] } else { p.2 with foreign := p.2.foreign ++ given }) }
  s.followCopies

/-! ### Completion: hashing (R472 to R474) -/

/-- A block of a tracked range (R472): where it begins and ends, and the storage of its first byte, none at the host or a peer. -/
structure Block where
  va : Nat
  stop : Nat
  storage : Option Nat
  deriving DecidableEq, Repr

/-- The dirty blocks, in rising order, of the ranges as they stand now, from the granules written and the blocks found so far, the latest
first (R472). A granule that lies in no tracked range any longer is in no block (log 64, DEDUCED). -/
def State.dirtyBlocks (s : State) (l : Launch) : List Nat → List Block → State × List Block
  | [], bs => (s, bs.reverse)
  | va :: vas, bs =>
    if bs.head?.any fun b => decide (va < b.stop) then s.dirtyBlocks l vas bs
    else
      match s.rawRange l.agent (recRoot l.dwords) va with
      | (s, none) => s.dirtyBlocks l vas bs
      | (s, some r) =>
        if !r.desc.ht then s.dirtyBlocks l vas bs
        else
          let (va, stop) := r.desc.block va
          s.dirtyBlocks l vas ({ va := va, stop := stop, storage := if r.desc.tgt = 0 then some (r.desc.move va) else none } :: bs)

/-- The bytes of a dirty block, or an error: the address of a failing word, or nothing that can be read. -/
def State.blockBytes (s : State) (b : Block) : Except (Option Nat) (List Byte) :=
  match b.storage with
  | none => .error none
  | some a =>
    match s.firstBad a (b.stop - b.va) with
    | some w => .error (some w)
    | none => .ok (s.mem.readBytes a (b.stop - b.va))

/-- A computed entry (Table 26.3): its bytes, and whether an error stood in its way. -/
structure HashEntry where
  bytes : List Byte
  failed : Bool
  deriving DecidableEq, Repr

/-- The entry of a dirty block. The hash of a block that cannot be read is a free value. (Log 64, DEDUCED.) -/
def State.hashBlock (s : State) (l : Launch) (b : Block) : State × HashEntry :=
  let make (hash : List Byte) (bad : Bool) : HashEntry :=
    { bytes := toBytesLE 8 b.va ++ hash ++ toBytesLE 4 (b.stop - b.va) ++ [0, 0, 0, 0], failed := bad }
  match s.blockBytes b with
  | .ok xs => (s, make ((sha384 (toBytesLE 8 b.va ++ xs)).take 16) false)
  | .error e =>
    let s := match e with | none => s | some w => s.logBad (s.signed l.agent) w
    let (x, s) := s.draw
    (s, make (toBytesLE 16 x) e.isSome)

/-- The entries of dirty blocks in ascending order. -/
def State.hashBlocks (s : State) (l : Launch) : List Block → State × List HashEntry
  | [] => (s, [])
  | b :: bs =>
    let (s, e) := s.hashBlock l b
    let (s, es) := s.hashBlocks l bs
    (s, e :: es)

/-- Writes the entries that fit from HLOG on (R473). -/
def State.writeHashes (s : State) (w : Waiter) (g : Agent) (va : Nat) : List HashEntry → State
  | [] => s
  | e :: es => ((s.deviceWrite w g (granules 32) va e.bytes).1).writeHashes w g (va + 32) es

/-- The first index at which the entries and the reference differ (R474). -/
def State.firstMismatch (s : State) (g : Agent) (va : Nat) : List HashEntry → Nat → Nat → State × Option Nat
  | [], i, n => (s, if i = n then none else some i)
  | e :: es, i, n =>
    if n ≤ i then (s, some i)
    else
      match s.deviceRead g (granules 32) va 24 with
      | (s, .error _) => (s, some i)
      | (s, .ok xs) =>
        if e.failed || xs != e.bytes.take 24 then (s, some i) else s.firstMismatch g (va + 32) es (i + 1) n

/-- What hashing comes to: HOVF, BLK and the mismatch. -/
structure Hashed where
  hovf : Bool
  blk : Bool
  mismatch : Option Nat
  deriving DecidableEq, Repr

/-- The hash log, its count and the comparison (R472 to R474), by HLOG to HREFN. -/
def State.hashInto (s : State) (tag : Word) (l : Launch) (hlog hcap href hrefn : Word) : State × Hashed :=
  let g := l.agent
  let (s, bs) := s.dirtyBlocks l (l.dirty.map Prod.fst) []
  let (s, es) := s.hashBlocks l bs
  let s := s.writeHashes (.completion tag) g hlog.toNat (es.take hcap.toNat)
  let s := (s.deviceWrite (.completion tag) g (granules 8) (recCaddr l.dwords + 0x28) (toBytesLE 8 es.length)).1
  let (s, m) :=
    if href = 0 then
      let i := (es.takeWhile fun e => !e.failed).length
      (s, if i < es.length then some i else none)
    else s.firstMismatch g href.toNat es 0 hrefn.toNat
  (s, { hovf := decide (hcap.toNat < es.length), blk := false, mismatch := m })

/-- HLOG to HREFN are read at completion with HASHTRACK or REPLAY set (R471); hashing follows when it applies (R472 to R474). -/
def State.hashLaunch (s : State) (tag : Word) (l : Launch) : State × Hashed :=
  let none' : Hashed := { hovf := false, blk := false, mismatch := none }
  let usable := match l.replay with | none => false | some r => r.blockOk
  if l.ended || !usable then (s, none')
  else
    match s.blockFields l.agent (recCaddr l.dwords) 8 4 with
    | (s, none) => (s, { none' with blk := true })
    | (s, some ws) =>
      let w (i : Nat) : Word := ws[i]?.getD 0
      if !logAddress (w 0) || fieldOf (w 1) 32 32 ≠ 0 || !logAddress (w 2) || fieldOf (w 3) 32 32 ≠ 0 then
        (s, { none' with blk := true })
      else if recHashtrack l.dwords then s.hashInto tag l (w 0) (w 1) (w 2) (w 3)
      else (s, none')

/-! ### Completion (R465 to R469) -/

/-- The conditions of R465: every WID has run and exited, or the launch was ended; its nodes have finished and its exchanges
closed. -/
def State.mayComplete (s : State) (tag : Word) (l : Launch) : Bool :=
  l.members.all (fun p => p.2.exited) && (l.ended || l.members.length == recWidcount l.dwords) &&
  s.nodes.all (fun p => p.2.tag != tag || p.2.st == .finished) && s.exchanges.all fun p => p.2.tag != tag

/-- The completion word (Table 26.1). -/
def completionWord (l : Launch) (x : Hashed) : Word :=
  let r := l.replay
  let flag (f : Replay → Bool) : Bool := match r with | none => false | some r => f r
  let status := if l.ended then 3 else if x.mismatch.isSome then 2 else 1
  BitVec.ofNat 64 (status * 2 ^ 56 + bit01 x.hovf * 2 ^ 55 + bit01 (flag fun r => r.rovf) * 2 ^ 54 +
    bit01 (flag fun r => r.rdiv) * 2 ^ 53 + bit01 (x.blk || flag fun r => r.blk) * 2 ^ 52 +
    (x.mismatch.getD 0) % 2 ^ 48)

/-- The device forgets a completed launch: what it held of the launch's vacated harts and, with the last launch of its ASID,
of its ranges. (Log 68, DEDUCED.) -/
def State.dropLaunch (s : State) (tag : Nat) (l : Launch) : State :=
  let s := { s with launches := Assoc.drop s.launches tag, vacated := s.vacated.filter fun p => p.2.tag.toNat != tag }
  let asid := recAsid l.dwords
  if s.launches.any fun p => recAsid p.2.dwords == asid then s else s.dropEntries fun e => e.asid == asid

/-- Where the successor's record lies in the device; none when it cannot be read there (R25, R466). One whose SUCC leads to the host or
a peer cannot: reason 0x01 (log 66, DESIGN CHOICE). -/
def State.successorAt (s : State) (l : Launch) : State × Option Nat :=
  match s.translate l.agent (recSucc l.dwords) .read with
  | (s, .error _) => (s, none)
  | (s, .ok p) => (s, if p.target = .memory then some p.addr else none)

/-- Reads the successor's record (R25, R466); none when it cannot be read. With it the address by which a rejection is logged (R27): the
record's physical address, and SUCC itself where it leads to no storage of the device (log 124, DESIGN CHOICE). -/
def State.readSuccessor (s : State) (l : Launch) (copy : Option RecordCopy) : State × Option Record × Nat :=
  match s.successorAt l with
  | (s, none) => (s, none, recSucc l.dwords)
  | (s, some pa) =>
    let (s, r) := s.readRecord pa copy
    (s, r, pa)

/-- RLEN of a recording launch (Table 26.2). -/
def State.writeRlen (s : State) (tag : Word) (l : Launch) : State :=
  match l.replay with
  | none => s
  | some r =>
    if r.on && r.blockOk && !r.rmode then
      (s.deviceWrite (.completion tag) l.agent (granules 8) (recCaddr l.dwords + 0x48) (toBytesLE 8 r.rlen)).1
    else s

/-- Every write of the completion has been performed (R54). -/
def State.quiet (s : State) (tag : Word) : Bool := s.pending.all fun p => p.2.waiter != .completion tag

/-- A completion word that faulted is logged (R466). -/
def State.logCompletion (s : State) (tag : Word) (l : Launch) (c : Cause) : State :=
  s.log .launch (launchEntry 5 c.code.toNat l.record (recAsid l.dwords) tag (BitVec.ofNat 64 (recCaddr l.dwords)))

/-- Steps 4 and 5 of R466: the message, and the successor. -/
def State.endCompletion (s : State) (tag : Word) (l : Launch) (next : Option (Option Record × Nat)) : State :=
  let s := if recMsien l.dwords then s.raiseMsi (recMsivec l.dwords) else s
  let s := s.dropLaunch tag.toNat l
  match next with
  | some (r, record) => s.takeRecordCopy l.die record r none none
  | none =>
    if recSucc l.dwords = 0 then s
    else s.log .launch (launchEntry 3 0 (recSucc l.dwords) (recAsid l.dwords) tag 0)

/-- Step 3 of R466: the completion word is written, the successor's record having been read. -/
def State.writeWord (s : State) (tag : Word) (l : Launch) (c : Closing) (next : Option (Option Record × Nat)) : State :=
  let a := recCaddr l.dwords
  if a = 0 then s.endCompletion tag l next
  else
    match s.deviceDword (.completion tag) l.agent a c.word with
    | (s, .done) => s.endCompletion tag l next
    | (s, .failed e) => (s.logCompletion tag l e).endCompletion tag l next
    | (s, .sent q) =>
      s.onLaunch tag fun l => { l with closing := some { c with written := true, next := next, request := some q } }

/-- Steps 2 and 3 of R466. The successor's record is read at once, or from now on until a later step: a dword that is written meanwhile
is read with its old or its new value (R25). -/
def State.wordCompletion (s : State) (tag : Word) (l : Launch) (c : Closing) : State :=
  let takes := recSucc l.dwords != 0 && fieldOf c.word 56 8 == 1
  let (n, s) := s.choose (if takes && c.copy.isNone then 2 else 1)
  if !takes then s.writeWord tag l c none
  else if n = 0 then
    let r := s.readSuccessor l c.copy
    r.1.writeWord tag l c (some r.2)
  else
    match s.successorAt l with
    | (s, none) => s.writeWord tag l c (some (none, recSucc l.dwords))
    | (s, some pa) => s.onLaunch tag fun l => { l with closing := some { c with copy := some (s.mem.recordCopy pa) } }

/-- The completion goes on as far as no answer of a peer is awaited (R54, R466). -/
def State.goOnCompletion (s : State) (tag : Word) (l : Launch) (c : Closing) : State :=
  if !s.quiet tag then s
  else if !c.written then s.wordCompletion tag l c
  else
    match c.answer with
    | some (.failed e) => (s.logCompletion tag l e).endCompletion tag l c.next
    | _ => s.endCompletion tag l c.next

/-- The steps of R466 in order, from the first. With BLK there is neither hashing nor recording (R471). -/
def State.completeLaunch (s : State) (tag : Word) (l : Launch) : State :=
  let s := s.publish tag.toNat l
  let (s, x) := s.hashLaunch tag l
  let s := if x.blk then s else s.writeRlen tag l
  let c : Closing := { word := completionWord l x, written := false, copy := none, next := none, request := none, answer := none }
  (s.onLaunch tag fun l => { l with closing := some c }).goOnCompletion tag l c

/-- LAUNCH_COMPLETE (R465, R466): a completion begins, or goes on once a peer has accepted its writes. -/
def execLaunchComplete (tag : Word) (s : State) : Host.Outcome State Fault Refusal :=
  match s.launch? tag with
  | none => .next s
  | some l =>
    match l.closing with
    | some c => .next (s.goOnCompletion tag l c)
    | none => if s.mayComplete tag l then .next (s.completeLaunch tag l) else .next s

/-! ### The end of a launch by system software (R470) -/

/-- The steps of R470: harts are discarded, no WID starts, waiting nodes finish and exchanges close. -/
def State.endLaunch (s : State) (tag : Word) : State :=
  let gone := s.harts.filter fun p => p.2.tag == tag
  let s := gone.foldl (fun s p => s.freeSeat p.1) s
  let s := { s with
    vacated := s.vacated.filter fun p => p.2.tag != tag, exchanges := s.exchanges.filter fun p => p.2.tag != tag }
  let s := s.onLaunch tag fun l =>
    { l with ended := true, seats := [], units := [], schedules := [],
             members := l.members.map fun p =>
               (p.1, { p.2.close p.1 with exited := true, inPhase := [], inEwait := [] }) }
  s.endWaiting tag

end Sys2Proof.Machine
end

