-- ==== Sys2Proof/Machine/Requests.lean ====
section
/-! DEFINITION. The fabric at its target and on the links: requests of peers (R322 to R324), the target fault log (R327 to
R329), flits and ports (R316 to R321), and the answers of peers and of the host (R299, R325, R326). -/

namespace Sys2Proof.Machine

/-! ### Accesses of agents outside the device -/

/-- Agents outside the device translate in the tree of an address space (R95, R324); they reach no window. -/
def outsideAgent (asid : BitVec 16) (root : Option Nat) : Agent :=
  { holder := 512, asid := asid, root := root, core := none, slice := none }

/-- A part of an element is refused to a peer: its range lacks REMOTE (R41). -/
def notRemote (remote : Bool) (d : Option Descriptor) : Bool :=
  remote && match d with
    | none => true
    | some d => !d.remote

/-- The pieces of an access by an agent outside the device, by R47 and R48; with `remote` its ranges must
have REMOTE = 1 (R41). The spec gives no order: REMOTE is tested after the checks of R47, so that a request that also fails one of
them, as SEALED or RPARTIAL, gets that cause (log 26, DESIGN CHOICE). -/
def State.outsideRoute (s : State) (g : Agent) (va size : Nat) (k : Access) (remote : Bool) :
    State × Except (Cause × Nat) (List Piece) :=
  let n := Nat.min size (256 - va % 256)
  match s.translateFull g va k with
  | (s, .error c) => (s, .error (c, va))
  | (s, .ok (p, d)) =>
    if notRemote remote d then (s, .error (.rperm, va))
    else if n = size then (s, .ok [{ place := p, size := size }])
    else
      match s.translateUpper g d (va + n) k with
      | (s, .error c) => (s, .error (c, va + n))
      | (s, .ok q) => (s, .ok [{ place := p, size := n }, { place := q, size := size - n }])

/-- The bytes of pieces as an agent outside every launch reads them. -/
def State.outsidePieces (s : State) : List Piece → List Byte × State
  | [] => ([], s)
  | p :: ps =>
    let (xs, s) := s.outsideBytes p.place p.size
    let (ys, s) := s.outsidePieces ps
    (xs ++ ys, s)

/-- Writes bytes to pieces as an agent outside every launch, each at its home. -/
def State.outsideWrite (s : State) : List Piece → List Byte → State
  | [], _ => s
  | p :: ps, bytes =>
    (s.writePlace Writer.outside p.place (bytes.take p.size) 0 64 false).outsideWrite ps (bytes.drop p.size)

/-- An access that follows the posted writes of an agent outside the device: they have been performed, and walks see them (R43, R45). -/
def State.afterPosted (s : State) : State := s.settleTree .outside

/-- The writes that a plain read of another device that takes part in the launch sees, of those from `ws`: what precedes the last
boundary complete here, and of its own since then those that its program order has put before the read, which this device does not
know (R76, R359, R360). (Log 46, DESIGN CHOICE.) -/
def State.memberSees (s : State) (who : Nat) (clock : Assoc Nat) : List WriteRec → List WriteRec × State
  | [] => ([], s)
  | w :: ws =>
    let (n, s) := s.choose (if w.epoch < clockAt clock w.who then 1 else if w.who = who then 2 else 1)
    let r := s.memberSees who clock ws
    (if w.epoch < clockAt clock w.who || (w.who = who && n = 0) then w :: r.1 else r.1, r.2)

/-- The bytes that a plain read of an agent outside the device returns: of a PHASED stretch, to another device that takes part in a
launch here, by phase order (R357, R360). -/
def State.sourceBytes (s : State) (w : Writer) (p : Place) (n : Nat) : List Byte × State :=
  match (w.launch.bind fun t => Assoc.find s.launches t), p.phased with
  | some l, true =>
    let r := s.memberSees w.who l.systemBoundary.clock (l.writes.filter fun x => x.touches p.addr n)
    r.2.viewBytes l r.1 p.addr n
  | _, _ => s.outsideBytes p n

/-- An atomic at its home, in its single order: the old value and what it wrote (R295, R324). -/
def State.outsideAtomic (s : State) (w : Writer) (p : Place) (n : Nat) (op : AtomicOp) (operand compare : Nat) :
    State × Nat × Option Nat :=
  let old := ofBytesLE (s.homeBytes p n)
  match op.apply n old operand compare with
  | none => (s.markDirty p n, old, none)
  | some new => (s.writePlace w p (toBytesLE n new) 0 (8 * n) true, old, some new)

/-- The bytes of a number with their addresses. -/
def cellsAt (va : Nat) (bytes : List Byte) : List (Nat × Byte) := bytes.zipIdx.map fun p => (va + p.2, p.1)

/-! ### The fault log (R327 to R329) -/

/-- A store of the request's source and address space is held in the fault log (R328). -/
def State.heldStore (s : State) (q : PeerRequest) : Option FaultEntry :=
  s.hub.faults.find? fun e => e.row == q.row && e.col == q.col && e.asid == q.asid

/-- The 64 bytes of a block under its mask. -/
def PeerRequest.maskedBlock (q : PeerRequest) : List Byte :=
  (List.range 64).map fun i => if bitOf q.bmask.toNat i then q.block[i]?.getD 0 else 0

/-- An entry's bytes (Table 14.5). -/
def PeerRequest.entryBytes (q : PeerRequest) (seq : BitVec 32) (cause : BitVec 8) : List Byte :=
  toBytesLE 4 seq.toNat ++ [cause, q.row ++ q.col] ++ toBytesLE 2 q.asid.toNat ++ toBytesLE 2 q.srcinc.toNat ++
    List.replicate 6 0 ++ toBytesLE 8 q.va.toNat ++ toBytesLE 8 q.bmask.toNat ++ q.maskedBlock ++ List.replicate 32 0

/-- Enters a store in the fault log, which raises its vector when it turns from empty to non-empty (R327). -/
def State.logStore (s : State) (q : PeerRequest) (cause : BitVec 8) : State :=
  let b := s.hub
  let seq := b.flTail
  let e : FaultEntry := { seq := seq, cause := cause, row := q.row, col := q.col, asid := q.asid }
  let wake := b.flHead == b.flTail && bitOf b.flCtl.toNat 0
  let s := s.onHub fun b =>
    { b with flTail := seq + 1, faults := b.faults ++ [e],
             flData := b.flData.writeBytes (seq.toNat % 4096 * 128) (q.entryBytes seq cause) }
  if wake then s.raiseMsi (fieldOf b.flCtl 1 6) else s

/-- The fault log is full. -/
def Hub.logFull (b : Hub) : Bool := 4096 ≤ (b.flTail - b.flHead).toNat

/-! ### Requests (R322 to R324) -/

/-- A load or atomic that waits behind the stores held in the log (R328). -/
def State.waitsBehind (s : State) (q : PeerRequest) : Bool := q.op != 1 && (s.heldStore q).isSome

/-- The `k`th request that has arrived, when it may be handled: those of one source are handled in order, but for the ones
that wait behind the log (R320, R328). (Log 74, DESIGN CHOICE.) -/
def State.requestTurn (s : State) (k : Nat) (op : BitVec 8) : Option PeerRequest :=
  match s.peerIn[k]? with
  | none => none
  | some q =>
    let before := (s.peerIn.take k).filter fun p => p.row == q.row && p.col == q.col
    if q.op == op && !s.waitsBehind q && before.all s.waitsBehind then some q else none

/-- The request leaves its channel. -/
def State.dropRequest (s : State) (k : Nat) : State := { s with peerIn := s.peerIn.eraseIdx k }

/-- The agent of a request (R324). -/
def State.peerAgent (s : State) (q : PeerRequest) : Agent := outsideAgent q.asid (s.rootOf q.asid)

/-- The source of a request as an agent outside the device. -/
def PeerRequest.source (q : PeerRequest) : External := .peer q.row.toNat q.col.toNat

/-- A request dropped in replay (R476): the sender traps REMOTE. (Log 75, DEDUCED.) -/
def State.refuseReplay (s : State) (q : PeerRequest) : State := (s.logReplayDrop q.asid q.va.toNat).respond q 2 0

/-- Changes the `k`th request that has arrived. -/
def State.onRequest (s : State) (k : Nat) (f : PeerRequest → PeerRequest) : State := { s with peerIn := s.peerIn.modify k f }

/-- The request waits for the answer to one that goes on to the host or another peer (R324), or for a free tag. -/
def State.requestSent (s : State) (k : Nat) (tag : Option (BitVec 16)) (left : List Piece) (got : List Byte) : State :=
  s.onRequest k fun q => { q with request := tag, answer := none, left := left, got := got }

/-- A load or atomic fails: an error response for a data error, else a fault response (Table 14.4). -/
def State.refuseRequest (s : State) (k : Nat) (q : PeerRequest) (c : Cause) : State :=
  (s.dropRequest k).respond q (if c = .dataerr then 3 else 2) 0

/-- Reads the pieces of a load that are left, one after another, where they lead (R47, R324). -/
def State.serveRead (s : State) (k : Nat) (q : PeerRequest) (got : List Byte) : List Piece → State
  | [] => (s.dropRequest k).respond q 0 (BitVec.ofNat 64 (ofBytesLE got))
  | p :: ps =>
    if p.place.target = .memory then
      match s.badWord p.place.addr p.size with
      | some w => (s.logBad (·.under q.asid) w).refuseRequest k q .dataerr
      | none =>
        let (xs, s) := s.sourceBytes (s.outsideWriter q.source q.asid) p.place p.size
        s.serveRead k q (got ++ xs) ps
    else
      match s.issueRead .peer p.place p.size with
      | (s, .answered (.data v)) => s.serveRead k q (got ++ toBytesLE p.size v) ps
      | (s, .answered (.failed c)) => s.refuseRequest k q c
      | (s, .sent tag) => s.requestSent k (some tag) (p :: ps) got
      | (s, .full) => s.requestSent k none (p :: ps) got

/-- A load is answered (Table 14.4). -/
def State.serveLoad (s : State) (k : Nat) (q : PeerRequest) : State :=
  match q.request, q.answer, q.left with
  | some _, none, _ => s
  | some _, some (.failed c), _ => s.refuseRequest k q c
  | some _, some (.data v), p :: ps => s.serveRead k q (q.got ++ toBytesLE p.size v) ps
  | some _, some (.data _), [] => s.serveRead k q q.got []
  | none, _, p :: ps => s.serveRead k q q.got (p :: ps)
  | none, _, [] =>
    if s.replaying q.source q.asid q.va.toNat q.size.toNat then (s.dropRequest k).refuseReplay q
    else
      match s.outsideRoute (s.peerAgent q) q.va.toNat q.size.toNat .read true with
      | (s, .error (c, _)) => (s.dropRequest k).respond q (if c = .dataerr then 3 else 2) 0
      | (s, .ok ps) => s.serveRead k q [] (splitWords ps)

/-- The runs of set bits of a mask from bit `i` on, `n` bits in all: first bit and length. -/
def maskRuns (m : Nat) : Nat → Nat → List (Nat × Nat)
  | 0, _ => []
  | n + 1, i =>
    if bitOf m i then
      match maskRuns m n (i + 1) with
      | (j, k) :: r => if j = i + 1 then (i, k + 1) :: r else (i, 1) :: (j, k) :: r
      | [] => [(i, 1)]
    else maskRuns m n (i + 1)

/-- The runs of bytes that a store writes at the place of its block. -/
def PeerRequest.runs (q : PeerRequest) (p : Place) : List Piece :=
  (maskRuns q.bmask.toNat 64 0).map fun r => { place := { p with addr := p.addr + r.1 }, size := r.2 }

/-- The bytes of a run. -/
def PeerRequest.runBytes (q : PeerRequest) (p : Piece) : List Byte := (q.block.drop (p.place.addr % 64)).take p.size

/-- The bytes of a store that its mask writes, with their addresses. -/
def PeerRequest.cells (q : PeerRequest) : List (Nat × Byte) :=
  (cellsAt q.va.toNat q.block).filter fun c => bitOf q.bmask.toNat (c.1 - q.va.toNat)

/-- A store that fails: logged and accepted; while the log is full it waits (Table 14.4, R328). -/
def State.keepStore (s : State) (k : Nat) (q : PeerRequest) (cause : BitVec 8) : State :=
  if s.hub.logFull then s else ((s.dropRequest k).logStore q cause).respond q 1 0

/-- The width in bits of the elements that a run of a store writes: a request does not say it, and a run of 1, 2, 4 or 8 bytes is taken
to be one element (R360; log 122, DESIGN CHOICE). -/
def runWidth (n : Nat) : Nat := if n = 2 || n = 4 || n = 8 then 8 * n else 8

/-- Writes the runs of a store that are left, one after another, where they lead; a failing word that one meets is counted
(Table 14.4). -/
def State.serveWrite (s : State) (k : Nat) (q : PeerRequest) : List Piece → State
  | [] => ((s.dropRequest k).recordExternal q.source q.asid q.cells).respond q 1 0
  | p :: ps =>
    if p.place.target = .memory then
      let s := match s.badWord p.place.addr p.size with
        | none => s
        | some w => s.logBad (·.under q.asid) w
      (s.writePlace (s.outsideWriter q.source q.asid) p.place (q.runBytes p) q.nibble (runWidth p.size) false).serveWrite k q ps
    else
      match s.issueStore .peer p.place (q.runBytes p) q.nibble with
      | (s, .answered (.data _)) => s.serveWrite k q ps
      | (s, .answered (.failed c)) => s.keepStore k q c.code
      | (s, .sent tag) => s.requestSent k (some tag) (p :: ps) []
      | (s, .full) => s.requestSent k none (p :: ps) []

/-- A store is performed, or logged, and accepted (Table 14.4, R328). -/
def State.serveStore (s : State) (k : Nat) (q : PeerRequest) : State :=
  match q.request, q.answer, q.left with
  | some _, none, _ => s
  | some _, some (.failed c), _ => s.keepStore k q c.code
  | some _, some (.data _), left => s.serveWrite k q (left.drop 1)
  | none, _, p :: ps => s.serveWrite k q (p :: ps)
  | none, _, [] =>
    if s.replaying q.source q.asid q.va.toNat 64 then (s.dropRequest k).refuseReplay q
    else
      match s.heldStore q with
      | some e => s.keepStore k q e.cause
      | none =>
        match s.outsideRoute (s.peerAgent q) q.va.toNat 1 .write true with
        | (s, .error (c, _)) => s.keepStore k q c.code
        | (s, .ok ps) => s.serveWrite k q (ps.flatMap fun p => q.runs p.place)

/-- An atomic of a peer that has been performed, where its range leads, over the old value: it is recorded (R475) and answered. -/
def State.atomicServed (s : State) (k : Nat) (q : PeerRequest) (op : AtomicOp) (old : Nat) : State :=
  let n := q.size.toNat
  let new := op.apply n old (q.opb.toNat % 2 ^ (8 * n)) (q.opc.toNat % 2 ^ (8 * n))
  ((s.dropRequest k).recordExternal q.source q.asid (cellsAt q.va.toNat (toBytesLE n (new.getD old)))).respond q 0 (BitVec.ofNat 64 old)

/-- An atomic at the place where it leads (R324). -/
def State.serveUpdate (s : State) (k : Nat) (q : PeerRequest) (op : AtomicOp) (p : Piece) : State :=
  let n := q.size.toNat
  let operand := q.opb.toNat % 2 ^ (8 * n)
  let compare := q.opc.toNat % 2 ^ (8 * n)
  if p.place.target = .memory then
    match s.badWord p.place.addr n with
    | some w => (s.logBad (·.under q.asid) w).refuseRequest k q .dataerr
    | none =>
      let (s, old, new) := (s.dropRequest k).outsideAtomic (s.outsideWriter q.source q.asid) p.place n op operand compare
      let s := s.recordExternal q.source q.asid (cellsAt q.va.toNat (toBytesLE n (new.getD old)))
      s.respond q 0 (BitVec.ofNat 64 old)
  else
    match s.issueAtomic .peer p.place n op operand compare with
    | (s, .answered (.data v)) => s.atomicServed k q op v
    | (s, .answered (.failed c)) => s.refuseRequest k q c
    | (s, .sent tag) => s.requestSent k (some tag) [p] []
    | (s, .full) => s

/-- An atomic is performed and answered (Table 14.4). -/
def State.serveAtomic (s : State) (k : Nat) (q : PeerRequest) (op : AtomicOp) : State :=
  match q.request, q.answer with
  | some _, none => s
  | some _, some (.failed c) => s.refuseRequest k q c
  | some _, some (.data v) => s.atomicServed k q op v
  | none, _ =>
    if s.replaying q.source q.asid q.va.toNat q.size.toNat then (s.dropRequest k).refuseReplay q
    else
      match s.outsideRoute (s.peerAgent q) q.va.toNat q.size.toNat .atomic true with
      | (s, .error (c, _)) => s.refuseRequest k q c
      | (s, .ok []) => s.refuseRequest k q .rmiss
      | (s, .ok (p :: _)) => s.serveUpdate k q op p

/-- REMOTE_LOAD_REQUEST (R324, R328): the `k`th request that has arrived. -/
def execRemoteLoadRequest (k : Nat) (s : State) : Host.Outcome State Fault Refusal :=
  match s.requestTurn k 0 with
  | none => .next s
  | some q => .next (s.afterPosted.serveLoad k q)

/-- REMOTE_STORE_REQUEST (R324, R327, R328). -/
def execRemoteStoreRequest (k : Nat) (s : State) : Host.Outcome State Fault Refusal :=
  match s.requestTurn k 1 with
  | none => .next s
  | some q => .next (s.serveStore k q)

/-- REMOTE_ATOMIC_REQUEST (R324, R328). -/
def execRemoteAtomicRequest (k : Nat) (s : State) : Host.Outcome State Fault Refusal :=
  match (s.requestTurn k 2).bind fun q => (AtomicOp.ofCode q.aop.toNat).map fun op => (q, op) with
  | none => .next s
  | some (q, op) => .next (s.afterPosted.serveAtomic k q op)

/-- FLHEAD_WRITE (R329). -/
def execFlheadWrite (value : BitVec 32) (s : State) : Host.Outcome State Fault Refusal :=
  .next (if s.answers 0x1FF000 then s.afterPosted.writeFlhead value else s)

/-! ### Answers (R299, R323, R325, R326) -/

/-- REMOTE_RESPONSE (R323, R325). -/
def execRemoteResponse (r : PeerResponse) (s : State) : Host.Outcome State Fault Refusal := .next (s.takeResponse r)

/-- PEER_TIMEOUT (R326). -/
def execPeerTimeout (tag : BitVec 16) (s : State) : Host.Outcome State Fault Refusal := .next (s.timeOut tag)

/-- HOST_COMPLETION (R299, Table 12.6): a completion without success fails the element with DATAERR. -/
def execHostCompletion (tag : BitVec 16) (ok : Bool) (data : List Byte) (s : State) : Host.Outcome State Fault Refusal :=
  let size := match Assoc.find s.pending tag.toNat with
    | none => 0
    | some p => p.size
  .next ((s.answerTag tag false (if ok then .data (ofBytesLE (data.take size)) else .failed .dataerr)).getD s)

/-! ### Flits (R317 to R321) -/

/-- NP (R316). -/
def Hub.ports (b : Hub) : Nat := b.nr.toNat + b.nc.toNat

/-- A port exists and is up. -/
def Hub.working (b : Hub) (port : Nat) : Bool := port < b.ports && !b.down.contains port

/-- A request from its flits; none when its form is not that of R323. -/
def parseRequest (x : FlitHead) (head : List Byte) (tail : Option (List Byte)) : Option PeerRequest :=
  let num (o n : Nat) : Nat := ofBytesLE ((head.drop o).take n)
  let op := head[4]?.getD 0
  let skip := num 5 1
  if num 7 1 ≠ 0 || num 0x28 16 ≠ 0 || (op = 1) ≠ tail.isSome then none
  else
    some { row := BitVec.ofNat 4 x.srow, col := BitVec.ofNat 4 x.scol, expinc := x.expinc, tag := x.tag,
           srcinc := BitVec.ofNat 16 (num 0 2), asid := BitVec.ofNat 16 (num 2 2), op := op, size := head[5]?.getD 0,
           aop := head[6]?.getD 0, va := BitVec.ofNat 64 (num 8 8), bmask := BitVec.ofNat 64 (num 0x10 8),
           opb := BitVec.ofNat 64 (num 0x18 8), opc := BitVec.ofNat 64 (num 0x20 8),
           block := match tail with
             | none => []
             | some t => (List.replicate skip 0 ++ payload t ++ List.replicate 64 0).take 64 }

/-- A whole packet reaches this device, its destination (R318, R323, R325). Exchange, fault log and management traffic has no
layout in the spec: it has no effect here (log 27, DESIGN CHOICE). -/
def State.deliver (s : State) (x : FlitHead) (head : List Byte) (tail : Option (List Byte)) : State :=
  if x.expinc ≠ s.hub.incarnation then s.countStale
  else if x.vc = 2 || x.vc = 3 then
    match parseRequest x head tail with
    | none => s.countStale
    | some q => s.arriveRequest q
  else if x.vc = 4 || x.vc = 5 then
    s.takeResponse
      { expinc := x.expinc, tag := x.tag, rsp := head[0]?.getD 0,
        data := BitVec.ofNat 64 (ofBytesLE ((head.drop 8).take 8)) }
  else s

/-- The header with which a packet goes on: off the minimal route it has taken its detour hop, and travels on the upper
channel of its class (R318, R319). -/
def Hub.onward (b : Hub) (x : FlitHead) : FlitHead :=
  if x.det || (b.row.toNat = x.srow && b.col.toNat = x.dcol) then x
  else { x with det := true, vc := if x.vc < 6 then x.vc / 2 * 2 + 1 else x.vc }

/-- Sends a flit on. -/
def State.relay (s : State) (x : FlitHead) (f : Flit) (port : Nat) : State :=
  s.emit (.flit port { f with header := (s.hub.onward x).word })

/-- The port of a packet that is not for this device, on the minimal route from here; none without a route (R319, R321). -/
def Hub.outPort (b : Hub) (x : FlitHead) : Option Nat :=
  let hop := b.nextHop x.drow x.dcol
  if b.portUp hop.1 hop.2 then b.portTo hop.1 hop.2 else none

/-- A packet that is whole: it is for this device, or it goes on as a whole, contiguously, on one port (R317). -/
def State.routePacket (s : State) (x : FlitHead) (head : Flit) (rest : List Flit) : State :=
  if x.drow = s.hub.row.toNat && x.dcol = s.hub.col.toNat then s.deliver x head.payload (rest.getLast?.map Flit.payload)
  else
    match s.hub.outPort x with
    | none => s
    | some port => (head :: rest).foldl (fun s f => s.relay { x with kind := (flitHead f.header).kind } f port) s

/-- The router takes a flit from a working port (R317). -/
def State.routeFlit (s : State) (port : Nat) (f : Flit) : State :=
  let x := flitHead f.header
  let slot := 8 * port + x.vc
  let extend (s : State) : State :=
    s.onHub fun b => { b with arriving := Assoc.change b.arriving slot fun p => { p with body := p.body ++ [f] } }
  match x.kind with
  | 0 => s.onHub fun b => { b with arriving := Assoc.put b.arriving slot { head := f, body := [] } }
  | 1 => extend s
  | 2 =>
    match Assoc.find s.hub.arriving slot with
    | none => s
    | some p =>
      (s.onHub fun b => { b with arriving := Assoc.drop b.arriving slot }).routePacket (flitHead p.head.header) p.head
        (p.body ++ [f])
  | 3 => s.routePacket x f []
  | _ => s

/-- FLIT_RECEIVE (R317): kinds 5 to 7 are dropped at the link, and kind 4 is the link's own. -/
def execFlitReceive (port : Nat) (flit : Flit) (s : State) : Host.Outcome State Fault Refusal :=
  .next (if s.hub.working port && !s.hub.recovery then s.routeFlit port flit else s)

/-- A port goes down (R316, R317). (Log 77, DEDUCED.) -/
def State.portDown (s : State) (port : Nat) : State :=
  s.onHub fun b => if b.working port then { b with down := port :: b.down } else b

/-- LINK_DOWN (R317). -/
def execLinkDown (port : Nat) (s : State) : Host.Outcome State Fault Refusal := .next (s.portDown port)

/-- LANE_FAILURE (R316). -/
def execLaneFailure (port : Nat) (s : State) : Host.Outcome State Fault Refusal :=
  .next (if !s.hub.working port then s
    else if s.hub.spares = 0 then s.portDown port
    else s.onHub fun b => { b with spares := b.spares - 1 })

end Sys2Proof.Machine
end

