-- ==== Sys2Proof/Machine/HostWindow.lean ====
section
/-! DEFINITION. What the host does at its windows: Window A registers and AtomicOps (R72, R73, R75, R93, R94, R468) and device
memory through Window B (R95). -/

namespace Sys2Proof.Machine

/-! ### Window A -/

/-- Where a queue's block begins (R71). -/
def queueOffset (q : QueueId) : Nat := 0x100000 + 4096 * queueNumber q

/-- Where a die's configuration block begins (R71). -/
def dieOffset (die : BitVec 2) : Nat := 0x140000 + 4096 * die.toNat

/-- TAIL_FETCHADD (R73): the host gets the old value, or a Completer Abort. -/
def execTailFetchadd (q : QueueId) (op : HostAtomic) (wide : Bool) (addend : Word) (s : State) :
    Host.Outcome State Fault Refusal :=
  if !s.answers (queueOffset q) then .next (s.emit .unsupported)
  else
    match s.afterPosted.fetchAddTail (queueNumber q) op wide addend with
    | (s, some old) => .next (s.emit (.completion (toBytesLE 8 old.toNat)))
    | (s, none) => .next (s.emit .completerAbort)

/-- A host write at a Window A offset (R94), after its earlier posted writes; in recovery one outside the mailbox has no effect (R69). -/
def State.hostWrite (s : State) (off : Nat) (bytes : List Byte) : State :=
  if s.answers off then s.afterPosted.writeWindowA off bytes else s

/-- SLOT_WRITE (R73). -/
def execSlotWrite (q : QueueId) (slot : BitVec 8) (value : Word) (s : State) : Host.Outcome State Fault Refusal :=
  .next (s.hostWrite (queueOffset q + 0x800 + 8 * slot.toNat) (toBytesLE 8 value.toNat))

/-- QCTL_WRITE (R75). -/
def execQctlWrite (q : QueueId) (value : Word) (s : State) : Host.Outcome State Fault Refusal :=
  .next (s.hostWrite (queueOffset q + 16) (toBytesLE 8 value.toNat))

/-- LATLO_WRITE (R72). -/
def execLatloWrite (die : BitVec 2) (value : Word) (s : State) : Host.Outcome State Fault Refusal :=
  .next (s.hostWrite (dieOffset die) (toBytesLE 8 value.toNat))

/-- LATHI_WRITE (R72). -/
def execLathiWrite (die : BitVec 2) (value : Word) (s : State) : Host.Outcome State Fault Refusal :=
  .next (s.hostWrite (dieOffset die + 8) (toBytesLE 8 value.toNat))

/-- TVECD_WRITE (R72). -/
def execTvecdWrite (die : BitVec 2) (value : Word) (s : State) : Host.Outcome State Fault Refusal :=
  .next (s.hostWrite (dieOffset die + 16) (toBytesLE 8 value.toNat))

/-- REGISTER_WRITE (R94): a host write of any size at a Window A offset. -/
def execRegisterWrite (offset : Nat) (data : List Byte) (s : State) : Host.Outcome State Fault Refusal :=
  .next (s.hostWrite offset data)

/-- MSIX_VECTOR_UNMASK (R468): the host clears a vector's mask bit. -/
def execMsixVectorUnmask (vector : BitVec 6) (s : State) : Host.Outcome State Fault Refusal :=
  .next (s.hostWrite (0x145000 + 16 * vector.toNat + 12) (toBytesLE 4 0))

/-! ### Window B (R95) -/

/-- WBEN and WBASID (Table 3.8). -/
def Hub.wbEnabled (b : Hub) : Bool := bitOf b.wbctl.toNat 0 && !b.recovery
def Hub.wbAsid (b : Hub) : BitVec 16 := BitVec.ofNat 16 (fieldOf b.wbctl 48 16)

/-- A request of `n` bytes at an offset reaches Window B: it lies in the window as the host has sized it (R93). -/
def Hub.inWindowB (b : Hub) (offset n : Nat) : Bool := decide (offset + n ≤ b.sizeB)

/-- The virtual address of a Window B offset. -/
def Hub.wbAddr (b : Hub) (offset : Nat) : Nat := (b.wbbase.toNat + offset) % 2 ^ 54

/-- The host at Window B as an agent. -/
def Hub.wbAgent (b : Hub) : Agent := outsideAgent b.wbAsid (some b.wbroot.toNat)

/-- A request at Window B that fails is entered in the range error log. -/
def State.logWindow (s : State) (asid : BitVec 16) (c : Cause) (va : Nat) : State :=
  s.log .range ((blankEntry 2 c.code.toNat (BitVec.ofNat 64 va)).under asid)

/-- The same under the address space that Window B now has. -/
def State.logWindowB (s : State) (c : Cause) (va : Nat) : State := s.logWindow s.hub.wbAsid c va

/-- The pieces of a request at Window B (R48, R95); a failure is logged. -/
def State.routeWindowB (s : State) (va size : Nat) (k : Access) : State × Option (List Piece) :=
  match s.routeRow s.hub.wbAgent va size k with
  | (s, .error (c, a)) => (s.logWindowB c a, none)
  | (s, .ok ps) => (s, some ps)

/-- A read or AtomicOp that meets an uncorrectable error is answered without data, in one of PCI Express's two ways (log 28, DEDUCED). -/
def State.emitBad (s : State) : State :=
  let (x, s) := s.choose 2
  s.emit (if x = 0 then .unsupported else .completerAbort)

/-- The same of an error in the device's storage, which is logged. -/
def State.answerBad (s : State) (w : Nat) : State := (s.logBad (·.under s.hub.wbAsid) w).emitBad

/-! ### Window B beyond the device (R40, R47, R95; log 115, DESIGN CHOICE) -/

/-- Changes the `k`th request that has gone on. -/
def State.onWindow (s : State) (k : Nat) (f : WindowRequest → WindowRequest) : State :=
  s.onHub fun b => { b with windowIn := b.windowIn.modify k f }

/-- The request is over. -/
def State.dropWindow (s : State) (k : Nat) : State := s.onHub fun b => { b with windowIn := b.windowIn.eraseIdx k }

/-- A request that went on has failed: a read gets an Unsupported Request completion, an AtomicOp is dropped, and both are logged; of a
data error both are answered without data. -/
def State.failWindow (s : State) (k : Nat) (q : WindowRequest) (c : Cause) : State :=
  let s := s.dropWindow k
  if c = .dataerr then s.emitBad
  else
    let s := s.logWindow q.asid c q.va
    if q.op.isNone then s.emit .unsupported else s

/-- Reads the pieces that are left, one after another, where they lead. -/
def State.windowReads (s : State) (k : Nat) (q : WindowRequest) (got : List Byte) : List Piece → State
  | [] => (s.dropWindow k).emit (.completion got)
  | p :: ps =>
    if p.place.target = .memory then
      match s.badWord p.place.addr p.size with
      | some w => (s.logBad (·.under q.asid) w).failWindow k q .dataerr
      | none =>
        let (xs, s) := s.outsideBytes p.place p.size
        s.windowReads k q (got ++ xs) ps
    else
      match s.issueRead .window p.place p.size with
      | (s, .answered (.data v)) => s.windowReads k q (got ++ toBytesLE p.size v) ps
      | (s, .answered (.failed c)) => s.failWindow k q c
      | (s, .sent tag) => s.onWindow k fun q => { q with request := some tag, answer := none, left := p :: ps, got := got }
      | (s, .full) => s.onWindow k fun q => { q with request := none, answer := none, left := p :: ps, got := got }

/-- The operation of a PCI Express AtomicOp. -/
def hostOp : HostAtomic → AtomicOp
  | .fetchAdd => .add
  | .swap => .xchg
  | .cas => .cas

/-- An AtomicOp beyond the device has been performed over the old value: it is recorded and answered. -/
def State.windowServed (s : State) (k : Nat) (q : WindowRequest) (op : HostAtomic) (n : Nat) (operand compare : Word) (old : Nat) : State :=
  let new := (hostOp op).apply n old (operand.toNat % 2 ^ (8 * n)) (compare.toNat % 2 ^ (8 * n))
  ((s.dropWindow k).recordExternal .host q.asid (cellsAt q.va (toBytesLE n (new.getD old)))).emit (.completion (toBytesLE n old))

/-- Issues an AtomicOp at the host or a peer. -/
def State.windowUpdate (s : State) (k : Nat) (q : WindowRequest) (p : Piece) (op : HostAtomic) (operand compare : Word) : State :=
  let n := p.size
  match s.issueAtomic .window p.place n (hostOp op) (operand.toNat % 2 ^ (8 * n)) (compare.toNat % 2 ^ (8 * n)) with
  | (s, .answered (.data old)) => s.windowServed k q op n operand compare old
  | (s, .answered (.failed c)) => s.failWindow k q c
  | (s, .sent tag) => s.onWindow k fun q => { q with request := some tag, answer := none }
  | (s, .full) => s

/-- The `k`th request that has gone on goes on with its answer, or once a tag is free. -/
def State.windowTurn (s : State) (k : Nat) : State :=
  match s.hub.windowIn[k]? with
  | none => s
  | some q =>
    match q.request, q.answer, q.left, q.op with
    | some _, none, _, _ => s
    | some _, some (.failed c), _, _ => s.failWindow k q c
    | some _, some (.data v), p :: ps, none => s.windowReads k q (q.got ++ toBytesLE p.size v) ps
    | some _, some (.data v), p :: _, some (op, operand, compare) => s.windowServed k q op p.size operand compare v
    | none, _, left, none => s.windowReads k q q.got left
    | none, _, p :: _, some (op, operand, compare) => s.windowUpdate k q p op operand compare
    | _, _, [], _ => s.dropWindow k

/-- A request goes on beyond the device. -/
def State.openWindow (s : State) (va : Nat) (op : Option (HostAtomic × Word × Word)) (ps : List Piece) : State :=
  let q : WindowRequest := { asid := s.hub.wbAsid, va := va, op := op, left := ps, got := [], request := none, answer := none }
  (s.onHub fun b => { b with windowIn := b.windowIn ++ [q] }).windowTurn s.hub.windowIn.length

/-- Writes bytes to pieces, one after another, where they lead: a host or peer write goes out, and one that cannot is logged. -/
def State.windowWrites (s : State) (va : Nat) : List Piece → List Byte → State
  | [], _ => s
  | p :: ps, bytes =>
    let s :=
      if p.place.target = .memory then s.writePlace Writer.outside p.place (bytes.take p.size) 0 64 false
      else
        match s.issueWrite .device p.place (bytes.take p.size) with
        | (s, .answered (.failed c)) => s.logWindowB c va
        | (s, .full) => s.logWindowB .peer va
        | (s, _) => s
    s.windowWrites va ps (bytes.drop p.size)

/-! ### The host's requests at Window B (R95) -/

/-- WINDOW_B_READ (R95). -/
def execWindowBRead (offset size : Nat) (s : State) : Host.Outcome State Fault Refusal :=
  if !s.hub.inWindowB offset size then .next s
  else if !s.hub.wbEnabled then .next (s.emit .unsupported)
  else
    match s.afterPosted.routeWindowB (s.hub.wbAddr offset) size .read with
    | (s, none) => .next (s.emit .unsupported)
    | (s, some ps) =>
      if farPieces ps then .next (s.openWindow (s.hub.wbAddr offset) none (splitWords ps))
      else
        match s.badPieces ps with
        | some w => .next (s.answerBad w)
        | none =>
          let (xs, s) := s.outsidePieces ps
          .next (s.emit (.completion xs))

/-- WINDOW_B_WRITE (R95, R361, R476). -/
def execWindowBWrite (offset : Nat) (data : List Byte) (s : State) : Host.Outcome State Fault Refusal :=
  if !s.hub.inWindowB offset data.length || !s.hub.wbEnabled then .next s
  else
    let va := s.hub.wbAddr offset
    let asid := s.hub.wbAsid
    if s.replaying .host asid va data.length then .next (s.logReplayDrop asid va)
    else
      match s.routeWindowB va data.length .write with
      | (s, none) => .next s
      | (s, some ps) =>
        let s := if farPieces ps then s.windowWrites va (splitBlocks ps) data else s.outsideWrite ps data
        .next (s.recordExternal .host asid (cellsAt va data))

/-- An AtomicOp at Window B that is enabled, of four or eight bytes. -/
def State.windowAtomic (s : State) (va : Nat) (op : HostAtomic) (n : Nat) (operand compare : Word) : State :=
  let asid := s.hub.wbAsid
  if s.replaying .host asid va n then s.logReplayDrop asid va
  else if va % n ≠ 0 then s.logWindowB .misalign va
  else
    match s.routeWindowB va n .atomic with
    | (s, none) => s
    | (s, some ps) =>
      if farPieces ps then s.openWindow va (some (op, operand, compare)) ps
      else
        match s.badPieces ps, ps with
        | some w, _ => s.answerBad w
        | none, [] => s
        | none, p :: _ =>
          let (s, old, new) :=
            s.outsideAtomic Writer.outside p.place n (hostOp op) (operand.toNat % 2 ^ (8 * n)) (compare.toNat % 2 ^ (8 * n))
          let s := s.recordExternal .host asid (cellsAt va (toBytesLE n (new.getD old)))
          s.emit (.completion (toBytesLE n old))

/-- WINDOW_B_ATOMIC (R93, R95): an AtomicOp of another width, as the 128-bit CAS, gets an Unsupported Request completion. While
WBEN = 0 one is dropped, as a write is (log 106, DESIGN CHOICE). -/
def execWindowBAtomic (offset : Nat) (op : HostAtomic) (size : Nat) (operand compare : Word) (s : State) :
    Host.Outcome State Fault Refusal :=
  if !s.hub.inWindowB offset size then .next s
  else if size ≠ 4 && size ≠ 8 then .next (s.emit .unsupported)
  else if !s.hub.wbEnabled then .next s
  else .next (s.afterPosted.windowAtomic (s.hub.wbAddr offset) op size operand compare)

end Sys2Proof.Machine
end

