-- ==== Sys2Proof/Machine/Reads.lean ====
section
/-! DEFINITION. Uncorrectable errors in a hart's own state (R267, R450): the words of state, what each instruction reads of
them, and the instruction as it runs while some of them fail. -/

namespace Sys2Proof.Machine

/-! ### Words of state -/

/-- The position in the length queue of the entry at place `i` of its storage. -/
def Hart.lengthPlace (h : Hart) (i : Nat) : Nat := (i + 16 - h.ctl.lqAt.toNat) % 16

/-- The length at place `i` of the queue's storage; 0 where no entry stands. -/
def Hart.lengthAt (h : Hart) (i : Nat) : BitVec 32 := h.ctl.lq[h.lengthPlace i]?.getD 0

/-- Replaces the length at place `i` of the queue's storage, where an entry stands. -/
def Hart.setLengthAt (h : Hart) (i : Nat) (x : BitVec 32) : Hart :=
  { h with ctl := { h.ctl with lq := h.ctl.lq.set (h.lengthPlace i) x } }

/-- The value of a word of the hart's own state, each in its storage image: a word of the length queue holds two entries, and
the condition queue is one word (R267; log 79, DEDUCED). -/
def Hart.stateWord (h : Hart) : HartWord → Nat
  | .scalar r => h.s[r.toNat].toNat
  | .vector r j => bitsOf (h.vreg r.toNat) (64 * j) 64
  | .mask r j => bitsOf (h.mask r.toNat) (64 * j) 64
  | .tile r j => bitsOf (h.tile r.toNat).data (64 * j) 64
  | .headers r j => bitsOf (h.tile r.toNat).headers (64 * j) 64
  | .accumulator r j => bitsOf (h.mat.acc[r.toNat]) (64 * j) 64
  | .scale r j => bitsOf (h.mat.e[r.toNat]).toNat (64 * j) 64
  | .length j => (h.lengthAt (2 * j)).toNat + 2 ^ 32 * (h.lengthAt (2 * j + 1)).toNat
  | .condition => (h.ctl.cq.zipIdx.map fun p => bit01 p.1 * 2 ^ p.2).sum

/-- Replaces a word of the hart's own state. -/
def Hart.setStateWord (h : Hart) (w : HartWord) (x : Nat) : Hart :=
  match w with
  | .scalar r => h.setS r (BitVec.ofNat 64 x)
  | .vector r j => h.setVreg r.toNat (setBits (h.vreg r.toNat) (64 * j) 64 x)
  | .mask r j => h.setMask r.toNat (setBits (h.mask r.toNat) (64 * j) 64 x % 2 ^ h.vlmax)
  | .tile r j =>
    let t := h.tile r.toNat
    h.setTile r.toNat { t with data := setBits t.data (64 * j) 64 x }
  | .headers r j =>
    let t := h.tile r.toNat
    h.setTile r.toNat { t with headers := setBits t.headers (64 * j) 64 x }
  | .accumulator r j =>
    { h with mat := { h.mat with acc := h.mat.acc.set r.toNat (setBits h.mat.acc[r.toNat] (64 * j) 64 x) } }
  | .scale r j =>
    { h with mat := { h.mat with
        e := h.mat.e.set r.toNat (BitVec.ofNat 1024 (setBits h.mat.e[r.toNat].toNat (64 * j) 64 x)) } }
  | .length j => (h.setLengthAt (2 * j) (BitVec.ofNat 32 x)).setLengthAt (2 * j + 1) (BitVec.ofNat 32 (x / 2 ^ 32))
  | .condition => { h with ctl := { h.ctl with cq := (List.range h.ctl.cq.length).map (bitOf x) } }

/-- The word exists: it lies inside the storage of the hart as it is shaped. -/
def Hart.hasWord (h : Hart) : HartWord → Bool
  | .scalar r => r != 0
  | .vector r j => r.toNat < h.nv && 64 * j < h.regBits
  | .mask _ j => 64 * j < h.vlmax
  | .tile _ j => j < 8192
  | .headers _ j => j < 1024
  | .accumulator _ j => j < 8192
  | .scale _ j => j < 16
  | .length j => j < 8
  | .condition => true

/-! ### What instructions read -/

/-- Something an instruction reads: a scalar register, elements of a vector operand (from its first register, by width, count
and which of them), a mask register, a tile with or without its headers, rows of an accumulator, block headers from a scale
register on, the oldest entry of a queue, of which an empty one has none (R131), or all of the state. -/
inductive Source where
  | scalar (r : RegIdx)
  | elems (first : RegIdx) (width count : Nat) (needs : Nat → Bool)
  | mask (r : Nat)
  | tile (r : Nat)
  | cells (r lo n : Nat)
  | blocks (e count : Nat) (needs : Nat → Bool)
  | length
  | condition
  | everything

/-- The source takes in a word. -/
def Source.takes (h : Hart) (x : Source) (w : HartWord) : Bool :=
  match x, w with
  | .everything, _ => true
  | .scalar r, .scalar r' => r == r'
  | .elems first width count needs, .vector p j =>
    (List.range count).any fun i =>
      h.mapReg (first.toNat + i * width / h.regBits) == p.toNat && i * width % h.regBits / 64 == j && needs i
  | .mask r, .mask r' j => r == r'.toNat && 64 * j < h.vl
  | .tile r, .tile r' _ => r == r'.toNat
  | .tile r, .headers r' _ => r == r'.toNat && (h.tile r).headed
  | .cells r lo n, .accumulator r' j => r == r'.toNat && lo ≤ j / 64 && j / 64 < lo + n
  | .blocks e count needs, .scale r' j =>
    (List.range count).any fun b => e + b / 64 == r'.toNat && b % 64 / 4 == j && needs b
  | .length, .length j => !h.ctl.lq.isEmpty && j == h.ctl.lqAt.toNat / 2
  | .condition, .condition => !h.ctl.cq.isEmpty
  | _, _ => false

/-- The governing mask. -/
def maskSource (g : Governing) : List Source := if g.masked then [.mask g.reg] else []

/-- The active elements of an operand of an R-format word, at width `w`. -/
def activeR (h : Hart) (f : RFields) (r : RegIdx) (w : Nat) : Source := .elems r w h.vl (h.active (govR f))

/-- All elements of an operand below VL. -/
def wholeR (h : Hart) (f : RFields) (r : RegIdx) : Source := .elems r f.et.bits h.vl fun _ => true

/-- The headers of the blocks in which active elements lie. -/
def blocksOf (h : Hart) (g : Governing) (e : RegIdx) : Source :=
  .blocks e.toNat ((h.vl + 31) / 32) fun b => (List.range 32).any fun j => h.active g (32 * b + j)

/-- What an R-format vector word reads: nothing when its guard is off. -/
def sourcesR (h : Hart) (f : RFields) (xs : List Source) : List Source :=
  if h.guardedOff f.gd f.gs then [] else maskSource (govR f) ++ xs

/-- What an M-format word reads: its base, its stride or indices, and `xs`. -/
def sourcesM (h : Hart) (f : MFields) (xs : List Source) : List Source :=
  if h.guardedOff f.gd f.gs then []
  else
    maskSource (govM f) ++ [.scalar f.a] ++
      (if f.am = 1 then [.scalar f.b] else if f.am = 2 then [.elems f.b (indexWidth f) h.vl (h.active (govM f))] else []) ++ xs

/-- The active data elements of an M-format word. -/
def dataM (h : Hart) (f : MFields) : Source := .elems f.d f.et.bits h.vl (h.active (govM f))

/-- What a slot of a paired word reads. -/
def sourcesSlot (h : Hart) : Slot → List Source
  | .scalar _ d a imm => if imm.isSome then [.scalar a] else [.scalar d, .scalar a]
  | .vector hop d a t m _ =>
    let g := slotGov m
    maskSource g ++ [.elems a t.bits h.vl (h.active g)] ++
      if hop = .vmv then [] else [.elems d t.bits h.vl (h.active g)]

/-- The rows of MMUL and MMULS that take part read `per` elements each. -/
def rowElems (h : Hart) (f : XFields) (r : RegIdx) (width per : Nat) : Source :=
  .elems r width (mulRows f * per) fun i => h.vstart ≤ i / per && h.rowActive f (i / per)

/-- What a multiply reads: its tile, its accumulator rows, its activations, metadata or headers. -/
def sourcesMul (h : Hart) (f : XFields) (sparse : Bool) : List Source :=
  let t := h.tile f.b.toNat
  let per := if sparse then t.depth / 2 else t.depth
  maskSource (govX f) ++
    if t.zf then []
    else
      [.tile f.b.toNat, .cells f.d.toNat (mulRow f) (mulRows f), rowElems h f f.a (codeBits (mulType f)) per] ++
        if sparse then [rowElems h f f.c 16 (t.depth / 8)]
        else if mulScaled f then [.blocks (f.c.toNat % 8) (mulRows f * (t.depth / 32)) fun _ => true] else []

/-- What XSEND and XSENDQ read: keys, source payloads and used lengths of active records. -/
def sourcesSend (s : State) (h : Hart) (f : XFields) (quant : Bool) : List Source :=
  match Assoc.find s.exchanges (exchangeId f) with
  | none => []
  | some e =>
    let n := e.sourceSize quant
    let active := h.active (govX f)
    maskSource (govX f) ++ [.elems f.a e.keyBits h.vl active, .elems f.b 8 (h.vl * n) fun o => active (o / n)] ++
      if e.concat && !quant then [.elems f.c 16 h.vl active] else []

/-- What an instruction reads of its hart's state. A step of the device reads nothing of it. (Log 79, DEDUCED.) -/
def Instr.sources (s : State) (h : Hart) : Instr → List Source
  | .add f | .sub f | .and f | .or f | .xor f | .sll f | .srl f | .sra f | .slt f | .sltn f | .min f | .max f | .minn f
  | .maxn f | .mul f | .mulh f | .mulhn f | .clz f | .ctz f | .popc f | .brev f | .sel f | .div f | .rem f | .divn f
  | .remn f => if h.guardedOff f.gd f.gs then [] else [.scalar f.a, .scalar f.b, .scalar f.c]
  | .addi f | .andi f | .ori f | .xori f | .slli f | .srli f | .srai f | .slti f | .li f | .lih f => [.scalar f.a]
  | .beq f | .bne f | .blt f | .bge f | .bltn f | .bgen f => [.scalar f.a, .scalar f.b]
  | .jr f | .loop f | .loopp f => [.scalar f.a]
  | .ret _ => [.scalar 1]
  | .jmp _ | .jal _ | .lcnt _ | .vdecl _ | .vgetmax _ => []
  | .bcq _ | .cqpop _ => [.condition]
  | .vsetlq _ | .lqpop _ => [.length]
  | .vsetl f => [.scalar f.a]
  | .vadd f | .vsub f | .vmul f | .vmulh f | .vwmul f | .vmin f | .vmax f | .vand f | .vor f | .vxor f | .vsll f | .vsrl f
  | .vsra f | .vcmp f | .vdiv f | .vrem f | .vfadd f | .vfsub f | .vfmul f | .vfmin f | .vfmax f | .vfcmp f | .vfdiv f
  | .vpushl f | .vrec f | .vbsort f | .vbmerge f | .vsel f =>
    sourcesR h f [activeR h f f.a f.et.bits, activeR h f f.b f.et.bits]
  | .vmac f => sourcesR h f [activeR h f f.a f.et.bits, activeR h f f.b f.et.bits, activeR h f f.d f.et.bits]
  | .vwmac f => sourcesR h f [activeR h f f.a f.et.bits, activeR h f f.b f.et.bits, activeR h f f.d (2 * f.et.bits)]
  | .vfma f | .vfms f | .vfnma f =>
    sourcesR h f [activeR h f f.a f.et.bits, activeR h f f.b f.et.bits, activeR h f f.c f.et.bits]
  | .vadds f | .vsubs f | .vtopk f | .vgtopk f => sourcesR h f [activeR h f f.a f.et.bits, .scalar f.b]
  | .vabs f | .vneg f | .vclz f | .vpopc f | .vmv f | .vfclass f | .vfabs f | .vfneg f | .vfsqrt f | .vfrcp f | .vfrsq f
  | .vexp2 f | .vlog2 f | .vexp f | .vlog f | .vtanh f | .vcompr f | .vredsum f | .vredmax f | .vredmin f | .vredand f
  | .vredor f | .vscan f | .vsprs f => sourcesR h f [activeR h f f.a f.et.bits]
  | .vbcast f => sourcesR h f [.scalar f.a]
  | .vid f | .vmset f | .vmclr f => sourcesR h f []
  | .vcvt f => sourcesR h f [activeR h f f.a (cvtSource f).bits]
  | .vquant f => sourcesR h f [activeR h f f.a 32]
  | .vdeq f => sourcesR h f [activeR h f f.a (cvtSource f).bits, blocksOf h (govR f) f.c]
  | .vmand f | .vmor f | .vmxor f => sourcesR h f [.mask f.a.toNat, .mask f.b.toNat]
  | .vmnot f | .vmpre f | .vminc f | .vmone f | .vmpop f | .vmfirst f | .vanyq f | .vallq f =>
    sourcesR h f [.mask f.a.toNat]
  | .vslideup f | .vslidedn f => sourcesR h f [wholeR h f f.a, .scalar f.b]
  | .vperm f => sourcesR h f [wholeR h f f.a, activeR h f f.b f.et.bits]
  | .vexpnd f => sourcesR h f [wholeR h f f.a]
  | .ldb f | .ldh f | .ldw f | .ldd f | .ldbn f | .ldhn f | .ldwn f | .vld f | .vldff f | .pref f | .vpref f => sourcesM h f []
  | .stb f | .sth f | .stw f | .std f => sourcesM h f [.scalar f.d]
  | .vst f | .vaadd f | .vamin f | .vamax f => sourcesM h f [dataM h f]
  | .vrstore f => sourcesM h f (if reduceScaled f.et then [dataM h f, blocksOf h (govM f) f.b] else [dataM h f])
  | .aadd f | .aand f | .aor f | .axor f | .amin f | .amax f | .aminn f | .amaxn f | .axchg f =>
    if h.guardedOff f.gd f.gs then [] else [.scalar f.a, .scalar f.b]
  | .acas f => if h.guardedOff f.gd f.gs then [] else [.scalar f.a, .scalar f.b, .scalar f.d]
  | .waitw f | .tload f | .xrecv f | .launch f | .tqput f | .rsplit f | .rinval f | .rres f | .rcompact f =>
    [.scalar f.a, .scalar f.b]
  | .esub f | .ewait f | .epoll f | .esets f | .xopen f | .xsplit f | .xfloor f | .xsample f | .csrw f | .csrs f | .csrc f
  | .trstr f | .wfe f | .dstop f | .rmerge f | .rseal f | .rprobe f => [.scalar f.a]
  | .ecmd f =>
    maskSource (govX f) ++ [.elems f.a 64 (8 * h.vl) fun i => h.active (govX f) (i / 8)]
  | .mmul f => sourcesMul h f false
  | .mmuls f => sourcesMul h f true
  | .mdrain f => maskSource (govX f) ++ [.cells f.a.toNat (drainRow f) ((h.vl + 127) / 128)]
  | .esetv f => maskSource (govX f) ++ [.elems f.a 16 (Nat.min h.vl 64) (h.active (govX f))]
  | .xsend f => sourcesSend s h f false
  | .xsendq f => sourcesSend s h f true
  | .tsave _ => [.everything]
  | .pairedWord x y => sourcesSlot h x ++ sourcesSlot h y
  | .phase _ | .phasea _ | .phasew _ | .fence _ | .tzero _ | .mzero _ | .xround _ | .xstat _ | .xrebal _ | .xclose _ | .tnext _
  | .tqget _ | .widr _ | .hexit _ | .trap _ | .tret _ | .csrr _ | .nop _ _ => []
  | .matrixStateSwap _ | .mergeInputArrival _ _ _ _ | .mergePointEmit _ _ _ | .whiskDeliver _ _ | .roundClose _
  | .exchangeClose _ | .ingressRecord _ _ | .batchPublish _ _ | .ringReleaseWrite _ _ | .wfeTimeout _ | .compactionSwing _
  | .compactionAbandon _ | .vectorMicroOpIssue _ | .preemptInterrupt _ | .stripstop _ | .sampleTag _ | .sampbufRead _
  | .pmuRegisterWrite _ _ _ _ | .rotbWrite _ _ | .gregWrite _ _ | .seedWrite _ _ | .acfgWrite _ _
  | .queueStatusWrite _ _ _ | .hartPlacement _ _ _ | .coreVacate _ _ _ | .phaseGroupVacate _ _ _ | .hartResume _ _ _
  | .engineNodeStart _ _ | .engineNodeFinish _ _ | .nodeNeverReleased _ | .deviceReset _ | .tailFetchadd _ _ _ _
  | .slotWrite _ _ _ | .qctlWrite _ _ | .latloWrite _ _ | .lathiWrite _ _ | .tvecdWrite _ _ | .registerWrite _ _
  | .takePosition _ | .launchComplete _ | .replayAbandon _ | .msixVectorUnmask _ | .windowBRead _ _ | .windowBWrite _ _
  | .windowBAtomic _ _ _ _ _ | .ident | .areas | .readlog | .counters | .attlog | .quote | .vacate | .endlaunch | .debug
  | .sysgrp | .launches | .fwload | .unknownCommand | .mailboxCommandDone | .flheadWrite _ | .remoteLoadRequest _
  | .remoteStoreRequest _ | .remoteAtomicRequest _ | .remoteResponse _ | .peerTimeout _ | .hostCompletion _ _ _
  | .flitReceive _ _ | .linkDown _ | .laneFailure _ | .softErrorDetected _ _ | .cycleEventOverflow _ _ | .wfeOtherEvent _ => []

/-! ### Running with failing state -/

/-- The failing words of the executing hart. -/
def State.failing (s : State) : List HartWord := (s.badHarts.filter fun p => p.1 == s.cur).map Prod.snd

/-- The step of an instruction ended in a trap that comes before it reads its operands: of the decode checks (Table 4.12, orders 2 to 4;
R441), or a STRIPSTOP (R449). -/
def refusedAtDecode (s t : State) (word : Word) : Bool :=
  let code (c : BitVec 8) : Bool := c == Cause.illop.code || c == Cause.priv.code || c == Cause.group.code
  match s.hart? s.cur, t.hart? s.cur with
  | some h, some r =>
    if h.trp.prv then r.halted && (t.hub.errorLog.entries.getLast?.map fun e => code e.code) == some true
    else r.trp.prv && ((code r.trp.cause && r.trp.tval == word) || r.trp.cause == Cause.stripstop.code)
  | _, _ => false

/-- The words that a step wrote wholly: it leaves the same there whatever they held. A push writes a part of its queue's word,
and a pop none of it. -/
def State.overwritten (s : State) (run : State → Host.Outcome State Fault Refusal) (w : HartWord) : Bool :=
  let queue := match w with | .length _ | .condition => true | _ => false
  let from' (x : Nat) : Option (Option Nat) :=
    match run (s.onCur fun h => h.setStateWord w x) with
    | .next t => some ((t.hart? s.cur).map fun h => h.stateWord w)
    | _ => none
  !queue && from' 0 == from' (2 ^ 64 - 1)

/-- Runs the instruction `i` on a hart with failing words (R450): one that reads such a word traps DATAERR with TVAL all ones,
once what comes before its operands has passed, and a word that the instruction writes wholly fails no more. -/
def State.runFailing (s : State) (i : Instr) (run : State → Host.Outcome State Fault Refusal) :
    Host.Outcome State Fault Refusal :=
  match s.running, run s with
  | some h, .next t =>
    let reads := s.failing.any fun w => (Instr.sources s h i).any fun x => x.takes h w
    if reads && !refusedAtDecode s t (encodeWord i) then .next (State.finish i false none (.stop s .dataerr (BitVec.allOnes 64)))
    else .next { t with badHarts := t.badHarts.filter fun p => p.1 != s.cur || !s.overwritten run p.2 }
  | _, r => r

/-- Runs an instruction of the executing hart by its meaning `run`. (Log 7, DEDUCED.) -/
def State.runInstr (s : State) (i : Instr) (run : State → Host.Outcome State Fault Refusal) :
    Host.Outcome State Fault Refusal :=
  if s.failing.isEmpty then run s else s.runFailing i run

end Sys2Proof.Machine
end

