-- ==== Sys2Proof/Machine/Fetch.lean ====
section
/-! DEFINITION. Fetching an instruction (R99 to R101, R277, R450), the sampling countdown (R479), and a word that is no
instruction (R120). -/

namespace Sys2Proof.Machine

/-- What a fetch comes to. -/
inductive Fetched where
  | word (w : Word)
  | trap (c : Cause) (tval : Word)
  deriving DecidableEq, Repr

/-- A fetch from the host or a peer: the word is what stands there, a free value, and the access may fail as a load's (Table
12.6; log 30, DESIGN CHOICE). -/
def State.fetchFar (s : State) (p : Place) (pc : Word) : State × Fetched :=
  if p.target = .peer && !s.inGrid p then (s, .trap .peer pc)
  else
    let causes : List Cause := if p.target = .peer then [.remote, .peer, .dataerr] else [.dataerr]
    let (n, s) := s.choose (causes.length + 1)
    match causes[n]? with
    | some c => (s, .trap c pc)
    | none =>
      let (x, s) := s.draw
      (s, .word (BitVec.ofNat 64 x))

/-- A fetch from the device's storage: the word as it stood at the hart's start or last phase boundary, or as it stands now
(R101). (Log 88, DEDUCED.) -/
def State.fetchNear (s : State) (h : Hart) (p : Place) : State × Fetched :=
  match s.badWord p.addr 8 with
  | some w => (s.logBad (·.of s.cur h) w, .trap .dataerr h.pc)
  | none =>
    let old := h.code.dword p.addr
    let new := s.mem.dword p.addr
    let (n, s) := s.choose (if old = new then 1 else 2)
    (s, .word (if n = 0 then new else old))

/-- The fetch at the hart's PC: watchpoints, then translation, then the word (R100, R272, R277). -/
def State.fetchWord (s : State) (h : Hart) : State × Fetched :=
  let pc := h.pc.toNat
  let hit := !h.trp.prv && h.watched pc 1 .execute
  if hit && !h.wskip then (s, .trap .watch h.pc)
  else
    let s := if hit then s.onCur Hart.spendSkip else s
    match s.translate (s.hartAgent s.cur h 0) pc .execute with
    | (s, .error c) => (s, .trap c h.pc)
    | (s, .ok p) => if p.target = .memory then s.fetchNear h p else s.fetchFar p h.pc

/-- The countdown goes down for the fetched instruction, which is tagged when it reaches zero (R479), unless it resumes after
the stop that ended its sample (R480); the countdown's start is a free value (log 8, DESIGN CHOICE). (Log 83, DEDUCED.) -/
def State.countFetch (s : State) (h : Hart) : State :=
  let again := !h.trp.prv && h.obs.untag == some h.pc
  let s := if h.trp.prv then s else s.onCur fun h => { h with obs := { h.obs with untag := none } }
  if !h.obs.en || h.obs.period = 0 then s
  else
    let (n, s) := match h.obs.countdown with
      | some n => (n, s)
      | none =>
        let (x, s) := s.choose (2 * h.obs.period.toNat)
        (x + 1, s)
    s.onCur fun h =>
      if n ≤ 1 then { h with obs := { h.obs with countdown := none, tagged := if again then none else some h.vstart } }
      else { h with obs := { h.obs with countdown := some (n - 1) } }

/-- The word of the executing hart's next instruction: the one in which it holds, or a fetched one. -/
def State.nextWord (s : State) (h : Hart) : State × Fetched :=
  match h.wait.word with
  | some w => (s, .word w)
  | none =>
    match s.fetchWord h with
    | (s, .trap c t) => (s, .trap c t)
    | (s, .word w) => (s.countFetch h, .word w)

/-- The next instruction of the hart at a seat, when it can be fetched and is one; the state does not change. -/
def State.peek (s : State) (k : Nat) (h : Hart) : Option Instr :=
  match ({ s with cur := k }.nextWord h).2 with
  | .trap _ _ => none
  | .word w =>
    match decodeWord w with
    | .ok i => some i
    | .error _ => none

/-- A word that is no instruction traps ILLOP, with the word in TVAL (R120). -/
def State.refuseWord (s : State) (w : Word) : State :=
  ((s.countTiming.onCur Hart.settle).sample w (.stopped Cause.illop.code) none).takeTrap .illop w

end Sys2Proof.Machine
end

