-- ==== Sys2Proof/Machine/Stops.lean ====
section
/-! DEFINITION. Where an interrupt, a vacate or a debug stop lands (R444), the PREEMPT trap (R441, R443), and the steps of a hart
(R99 to R101, R120). -/

namespace Sys2Proof.Machine

/-! ### Preemption points (R444) -/

/-- The meaning of an instruction whose elements or rows have checks of their own. -/
def elementMeaning (i : Instr) (s : State) : Option (Host.Outcome State Fault Refusal) :=
  match i with
  | .vld f => some (execVld f s)
  | .vldff f => some (execVldff f s)
  | .vst f => some (execVst f s)
  | .vrstore f => some (execVrstore f s)
  | .vaadd f => some (execVaadd f s)
  | .vamin f => some (execVamin f s)
  | .vamax f => some (execVamax f s)
  | .xsend f => some (execXsend f s)
  | .xsendq f => some (execXsendq f s)
  | .tload f => some (execTload f s)
  | .mmuls f => some (execMmuls f s)
  | _ => none

/-- The element at which the hart at a seat stands, inside an instruction, fails its own check: that trap is taken, and no stop
lands there (R444). (Log 99, DEDUCED.) -/
def State.ownTrap (s : State) (k : Nat) (h : Hart) : Bool :=
  h.wait.word.isSome && match (s.peek k h).bind fun i => elementMeaning i { s with cur := k, stopAt := some (h.vstart + 1) } with
    | some (.next t) => (t.hart? k).any fun r => r.halted || r.trp.prv != h.trp.prv
    | _ => false

/-- The instruction in which a hart holds. -/
def Hart.heldIn (h : Hart) : Option Instr :=
  h.wait.word.bind fun w => match decodeWord w with
    | .ok i => some i
    | .error _ => none

/-- The hart holds in RSEAL, which delays every stop (R65). -/
def Hart.inSeal (h : Hart) : Bool := match h.heldIn with | some (.rseal _) => true | _ => false

/-- A hart can be stopped at a preemption point now (R444): it is not halted, no access of the instruction it is in is under
way, and it is not in RSEAL. -/
def Hart.stoppable (h : Hart) : Bool := !h.halted && h.wait.request.isNone && h.wait.left.isEmpty && !h.inSeal

/-- A stop of the hart at a seat lands now. -/
def State.stoppable (s : State) (k : Nat) (h : Hart) : Bool := h.stoppable && !s.ownTrap k h

/-! ### Samples of a stopped instruction (R480) -/

/-- The governing mask of a word, by its format (R106). -/
def governingOf (w : Word) : Governing :=
  match formatOf (bitsAt w 56 7).toNat with
  | some .r => ((fieldsR w).map govR).getD Governing.off
  | some .m => ((fieldsM w).map govM).getD Governing.off
  | some .x => ((fieldsX w).map govX).getD Governing.off
  | _ => Governing.off

/-- What a tagged instruction has completed on each lane cluster when a stop meets it; none when it made no micro-operation. -/
def Hart.stoppedElems (h : Hart) (w : Word) : Option (Nat → Nat) :=
  if h.atTag.vstart < h.vstart then some (h.atTag.elemsOn (governingOf w) h.vstart) else none

/-- A tagged instruction that a stop interrupts, or that had not begun (R480). -/
def State.sampleStop (s : State) (k : Nat) (h : Hart) : State :=
  match h.wait.word with
  | some w => s.sample w (.stopped Cause.preempt.code) (h.stoppedElems w)
  | none => s.sample (((s.peek k h).map encodeWord).getD 0) .squashed none

/-! ### PREEMPT (R443) -/

/-- The pending source taken first (R443): the lowest counter, the sample buffer last. -/
def firstSource (q : BitVec 17) : Option Nat := (List.range 17).find? fun n => bitOf q.toNat n

/-- TVAL of a source (R443). -/
def sourceValue (n : Nat) : Word := if n < 16 then BitVec.ofNat 64 (0x100 + n) else 0x200

/-- Runs a change of the executing hart on the hart at seat `k`. -/
def State.asHart (s : State) (k : Nat) (f : State → State) : State := { f { s with cur := k } with cur := s.cur }

/-- The hart at a seat takes a pending source as a PREEMPT trap. -/
def State.preempt (s : State) (k : Nat) (h : Hart) (n : Nat) : State :=
  s.asHart k fun s =>
    let s := (s.sampleStop k h).onCur fun h =>
      { h.settle with trp := { h.trp with irq := h.trp.irq &&& ~~~(BitVec.ofNat 17 (2 ^ n)), due := false } }
    s.takeTrap .preempt (sourceValue n)

/-- The source that the hart at a seat takes before it executes anything: one that was pending at its TRET (R441). -/
def State.dueSource (s : State) (k : Nat) (h : Hart) : Option Nat :=
  if h.trp.due && !h.trp.prv && s.stoppable k h then firstSource h.trp.irq else none

/-! ### The steps of a hart -/

/-- The executing hart takes a source that is due, or fetches and executes one instruction by `execute`; without a hart that can
execute nothing happens. -/
def State.runHart (s : State) (execute : Instr → State → Host.Outcome State Fault Refusal) :
    Host.Outcome State Fault Refusal :=
  match s.running with
  | none => .next s
  | some h =>
    match s.dueSource s.cur h with
    | some n => .next (s.preempt s.cur h n)
    | none =>
      match s.nextWord h with
      | (s, .trap c t) => .next (s.countTiming.takeTrap c t)
      | (s, .word w) =>
        match decodeWord w with
        | .error _ => .next (s.refuseWord w)
        | .ok i => s.runInstr i (execute i)

/-- A step of the device, the host or a peer: what is neither an instruction of Flaica nor one named by the register it
writes or reads. -/
def Instr.isEvent (i : Instr) : Bool :=
  match i with
  | .sampbufRead _ | .pmuRegisterWrite _ _ _ _ | .rotbWrite _ _ | .gregWrite _ _ | .seedWrite _ _ | .acfgWrite _ _
  | .queueStatusWrite _ _ _ => false
  | i => (encode i).isNone

/-- A host read of Window A (R94). -/
def State.hostRead (s : State) (off n : Nat) : State :=
  match s.readWindowA off n with
  | .data xs => s.emit (.completion xs)
  | .abort => s.emit .completerAbort
  | .unsupported => s.emit .unsupported

/-- A host AtomicOp on Window A (R73, R94). One that the registers do not accept, a CAS of 16 bytes (R93) among them, gets a Completer
Abort, as R94 says of the rest (log 127, DESIGN CHOICE). -/
def State.hostAtomic (s : State) (off : Nat) (op : HostAtomic) (n : Nat) (operand : Word) : State :=
  if !s.answers off then s.emit .unsupported
  else
    match s.atomicWindowA off op n operand with
    | (s, some old) => s.emit (.completion (toBytesLE n old.toNat))
    | (s, none) => s.emit .completerAbort

/-- A step of the host, of the fabric or of a unit of the device that is no constructor of `Instr`. Window A is of 4 MiB, and Window
B of 1 GiB to 512 GiB (R93). -/
def State.unitStep (s : State) (a : Action) : State :=
  match a with
  | .windowARead off n => if off + n ≤ 2 ^ 22 then s.afterPosted.hostRead off n else s
  | .windowAAtomic off op n operand => if off + n ≤ 2 ^ 22 then s.afterPosted.hostAtomic off op n operand else s
  | .placeWindows a b log =>
    s.onHub fun h => { h with barA := a, barB := b, sizeB := if 30 ≤ log && log ≤ 39 then 2 ^ log else h.sizeB }
  | .msixControl enabled masked => s.setMsix enabled masked
  | .credit port cls spent => s.setCredit port cls spent
  | .drained flow => s.drainFlow flow
  | .compactionCopy ctx n => s.compactionStep ctx n
  | .windowTurn k => s.windowTurn k
  | .remoteInval asid lo hi => s.remoteInval asid lo hi
  | .remoteOpen tag va xs => s.remoteOpen tag va xs
  | .exchangeNews xid n => s.onExchange xid fun e => e.hear n
  | .run _ _ | .event _ => s

/-- The step that the agenda gives next: a hart's, or an event; with an empty agenda the hart `cur` executes on. (Log 1,
DESIGN CHOICE.) -/
def State.runNext (s : State) (execute : Instr → State → Host.Outcome State Fault Refusal) :
    Host.Outcome State Fault Refusal :=
  match s.agenda with
  | [] => s.runHart execute
  | .event i :: rest =>
    let s := { s with agenda := rest }
    if Instr.isEvent i then execute i s else .next s
  | .run k stopAt :: rest =>
    match { s with agenda := rest, cur := k, stopAt := stopAt }.runHart execute with
    | .next t => .next { t with stopAt := none }
    | r => r
  | a :: rest => .next ({ s with agenda := rest }.unitStep a)

end Sys2Proof.Machine
end

