-- ==== Sys2Proof/Machine/Placement.lean ====
section
/-! DEFINITION. Seats and placement (R78 to R85), vacating harts and placing them again (R80, R445, R448). -/

namespace Sys2Proof.Machine

/-! ### Seats and lane grants (R81) -/

/-- A seat with its grant as a launch keeps it for a hart group. -/
def Seat.code (x : Seat) : Nat := Seat.hartId x + 2 ^ 13 * x.lanes.toNat + 2 ^ 17 * x.qtr.toNat

/-- The quarters of a core's lane clusters that a grant takes: bit 4 × LC + quarter. -/
def laneQuarters (cls : BitVec 2) (lanes qtr : Nat) : Nat :=
  ([0, 1, 2, 3].filter fun k => bitOf lanes k).foldl
    (fun m k => m + (if cls = 0 then 2 ^ (4 * k + qtr) else 15 * 2 ^ (4 * k))) 0

/-- A grant is one of Table 3.3. -/
def grantOk (cls : BitVec 2) (lanes qtr : Nat) : Bool :=
  match cls.toNat with
  | 0 => [1, 2, 4, 8].contains lanes
  | 1 => [1, 2, 4, 8].contains lanes && qtr == 0
  | 2 => (lanes == 3 || lanes == 12) && qtr == 0
  | _ => lanes == 15 && qtr == 0

/-- A taken seat: its HARTID, the quarters it takes, and the launch whose hart or hart group holds it. -/
structure Taken where
  seat : Nat
  quarters : Nat
  tag : Nat
  deriving DecidableEq, Repr

/-- The taken seats of a core: those of seated harts, and those kept for the next WID of a hart group (R83). -/
def State.takenOn (s : State) (core : Nat) : List Taken :=
  ((s.harts.filter fun p => coreIndex p.1 == core).map fun p =>
    { seat := p.1, quarters := laneQuarters p.2.vec.vlclass p.2.vec.lcmask.toNat p.2.vec.qtr.toNat, tag := p.2.tag.toNat }) ++
  s.launches.flatMap fun p =>
    (p.2.seats.filter fun q => coreIndex (q.2 % 2 ^ 13) == core && (s.hart? (q.2 % 2 ^ 13)).isNone).map fun q =>
      { seat := q.2 % 2 ^ 13, tag := p.1,
        quarters := laneQuarters (recVlclass p.2.dwords) (bitsOf q.2 13 4) (bitsOf q.2 17 2) }

/-- A seat can be taken by a hart of a launch (R81); `own` is the seat code that its hart group already keeps. -/
def State.seatFree (s : State) (tag : Nat) (l : Launch) (x : Seat) (own : Option Nat) : Bool :=
  let k := (Seat.hartId x)
  let others := (s.takenOn (coreIndex k)).filter fun t => !(own == some (Seat.code x) && t.seat == k && t.tag == tag)
  let q := laneQuarters (recVlclass l.dwords) x.lanes.toNat x.qtr.toNat
  (match own with | none => true | some c => c == (Seat.code x)) &&
  x.cluster.toNat < 12 && grantOk (recVlclass l.dwords) x.lanes.toNat x.qtr.toNat && (s.hart? k).isNone &&
  others.all (fun t => t.seat != k && t.quarters &&& q == 0) &&
  (others.filter fun t => t.tag == tag).length < recHpc l.dwords + 1

/-! ### Units, classes and schedule stores (R79, R82, R85) -/

/-- The unit of a seat for a domain code from 1 to 3. -/
def domainUnit (d seat : Nat) : Nat := if d = 1 then coreIndex seat else if d = 2 then coreIndex seat / 8 else dieOf seat

/-- The keys of the groups of a WID whose fields confine them, each with its domain code. -/
def confinedGroups (r : Record) (wid : Nat) : List (Nat × Nat) :=
  ((recUsed r).filter fun i => 1 ≤ recDomain r i && recDomain r i ≤ 3).map fun i =>
    (2 ^ 64 * i + wid / 2 ^ recFieldLo r (i + 1), recDomain r i)

/-- The core group of a WID has a seated hart. -/
def State.coreGroupSeated (s : State) (tag : Nat) (l : Launch) (wid : Nat) : Bool :=
  let j := wid / 2 ^ recCoreBits l.dwords
  s.harts.any fun p => p.2.tag.toNat == tag && p.2.wid.toNat / 2 ^ recCoreBits l.dwords == j

/-- The key of a unit is that of a group of domain core that lies in core group `j`. -/
def coreUnit (r : Record) (j key : Nat) : Bool :=
  let i := key / 2 ^ 64
  (recUsed r).contains i && recDomain r i == 1 && key % 2 ^ 64 / 2 ^ (recCoreBits r - recFieldLo r (i + 1)) == j

/-- The launch with the units that a vacated hart keeps when it is placed again: when all of its core group has left its core, the
group as a whole, with every group of domain core in it, may take another core, and keeps its cluster and die (R80, R82, R85, R460).
(Log 100, DEDUCED.) -/
def State.unitsKept (s : State) (tag : Nat) (l : Launch) (wid : Nat) : Launch :=
  if s.coreGroupSeated tag l wid then l
  else { l with units := l.units.filter fun u => !coreUnit l.dwords (wid / 2 ^ recCoreBits l.dwords) u.1 }

/-- A seat lies in the units already fixed for a WID's groups (R82). -/
def Launch.unitsAllow (l : Launch) (wid seat : Nat) : Bool :=
  (confinedGroups l.dwords wid).all fun g =>
    match Assoc.find l.units g.1 with
    | none => true
    | some u => u == domainUnit g.2 seat

/-- The units of a WID's groups become fixed. -/
def Launch.fixUnits (l : Launch) (wid seat : Nat) : Launch :=
  { l with units := (confinedGroups l.dwords wid).foldl (fun u g => Assoc.put u g.1 (domainUnit g.2 seat)) l.units }

/-- A core of a die is named in LATMASK (R71). -/
def State.reserved (s : State) (core : Nat) : Bool :=
  let d := s.die (core / 128)
  let c := core % 128
  if c < 64 then bitOf d.latLo.toNat c else bitOf d.latHi.toNat (c - 64)

/-- A launch of the latency class. -/
def Launch.latency (l : Launch) : Bool := recClass l.dwords == 0

/-- The harts of a launch may be preempted for others (R79, R476). -/
def Launch.preemptible (l : Launch) : Bool := recPreemptible l.dwords && !recReplay l.dwords

/-- A core holds a latency hart. -/
def State.holdsLatency (s : State) (core : Nat) : Bool :=
  (s.takenOn core).any fun t => match Assoc.find s.launches t.tag with
    | none => false
    | some l => l.latency

/-- A core's schedule store can serve a WID's core group (R85). -/
def State.storeServes (s : State) (tag : Nat) (l : Launch) (wid core : Nat) : Bool :=
  let j := wid / 2 ^ recCoreBits l.dwords
  recSchedlen l.dwords == 0 || s.launches.all fun p => p.2.schedules.all fun q =>
    q.2.core != core || (p.1 == tag && q.1 == j)

/-- The lane grants of a class. -/
def grants (cls : BitVec 2) : List (Nat × Nat) :=
  match cls.toNat with
  | 0 => [1, 2, 4, 8].flatMap fun m => [0, 1, 2, 3].map fun q => (m, q)
  | 1 => [(1, 0), (2, 0), (4, 0), (8, 0)]
  | 2 => [(3, 0), (12, 0)]
  | _ => [(15, 0)]

/-- The seats of a core that a hart of a class could have. -/
def seatsOf (cls : BitVec 2) (core : Nat) : List Seat :=
  (List.range 16).flatMap fun c => (grants cls).map fun g =>
    { die := BitVec.ofNat 2 (core / 128), cluster := BitVec.ofNat 4 (core / 8), core := BitVec.ofNat 3 core,
      ctx := BitVec.ofNat 4 c, lanes := BitVec.ofNat 4 g.1, qtr := BitVec.ofNat 2 g.2 }

/-- A seat can hold a WID of a launch by R81, R82 and R85. -/
def State.canSeat (s : State) (tag : Nat) (l : Launch) (wid : Nat) (own : Option Nat) (x : Seat) : Bool :=
  s.seatFree tag l x own && l.unitsAllow wid (Seat.hartId x) && s.storeServes tag l wid (coreIndex (Seat.hartId x))

/-- Some seat of a core can hold the WID. -/
def State.coreTakes (s : State) (tag : Nat) (l : Launch) (wid : Nat) (own : Option Nat) (core : Nat) : Bool :=
  (seatsOf (recVlclass l.dwords) core).any (s.canSeat tag l wid own)

/-- The class rule (R79). -/
def State.classAllows (s : State) (tag : Nat) (l : Launch) (wid : Nat) (own : Option Nat) (core : Nat) : Bool :=
  if l.latency then
    s.reserved core || (List.range 96).all fun c =>
      let at' := core / 128 * 128 + c
      !(s.reserved at' && s.coreTakes tag l wid own at')
  else !s.reserved core || (l.preemptible && !s.holdsLatency core)

/-! ### Which WID may start (R83) -/

/-- Bits of a WID below the groups of the lowest used field whose domain is not hart; none when there is no such field. -/
def recOrderBits (r : Record) : Option Nat :=
  ((recUsed r).find? fun i => recDomain r i != 0).map fun i => recFieldLo r (i + 1)

/-- The number of hart groups. -/
def recGroups (r : Record) : Nat := (recWidcount r + recGroupSize r - 1) / recGroupSize r

/-- The next WID of a hart group: the first, or the one after a WID that has exited; none while one runs or after the last. -/
def Launch.nextWid (l : Launch) (g : Nat) : Option Nat :=
  let size := recGroupSize l.dwords
  let stop := Nat.min ((g + 1) * size) (recWidcount l.dwords)
  match Assoc.find l.started g with
  | none => if g * size < stop then some (g * size) else none
  | some n =>
    if n < stop && (match Assoc.find l.members (n - 1) with | none => false | some m => m.exited) then some n else none

/-- The hart groups before `g` in its group of the lowest field above the hart fields have all started (R83). -/
def Launch.inOrder (l : Launch) (g : Nat) : Bool :=
  match recOrderBits l.dwords with
  | none => true
  | some bits =>
    let size := recGroupSize l.dwords
    let first := g * size / 2 ^ bits * 2 ^ bits / size
    (l.started.filter fun p => first ≤ p.1 && p.1 < g).length == g - first

/-- The WID that hart group `g` waits to start, when its turn has come. -/
def Launch.waiting (l : Launch) (g : Nat) : Option Nat :=
  if l.ended then none else if l.inOrder g then l.nextWid g else none

/-- Some number below `n` satisfies a condition; the search begins at 0. -/
def anyFrom (p : Nat → Bool) : Nat → Nat → Bool
  | 0, _ => false
  | n + 1, i => p i || anyFrom p n (i + 1)

/-- The unit of a seat for the lowest used field above the hart fields; none where that field confines nothing. -/
def recSeatUnit (r : Record) (seat : Nat) : Option Nat :=
  match (recUsed r).find? fun i => recDomain r i != 0 with
  | none => none
  | some i =>
    if recDomain r i ≤ 3 then some (domainUnit (recDomain r i) seat) else if recDomain r i = 4 then some 0 else none

/-- The unit fixed for a hart group's group of that field. -/
def Launch.groupUnit (l : Launch) (g : Nat) : Option Nat :=
  match (recUsed l.dwords).find? fun i => recDomain l.dwords i != 0 with
  | none => none
  | some i =>
    if recDomain l.dwords i ≤ 3 then
      Assoc.find l.units (2 ^ 64 * i + g * recGroupSize l.dwords / 2 ^ recFieldLo l.dwords (i + 1))
    else if recDomain l.dwords i = 4 then some 0 else none

/-- An earlier hart group waits for a seat in the unit of this one (R83). -/
def Launch.behind (l : Launch) (g seat : Nat) : Bool :=
  match recSeatUnit l.dwords seat with
  | none => false
  | some u => anyFrom (fun e => (Assoc.find l.started e).isNone && (l.waiting e).isSome && l.groupUnit e == some u) g 0

/-! ### Which WID comes first (R78, R80, R448) -/

/-- A launch's waiting WIDs come before another's (R78). -/
def Launch.outranks (a b : Launch) : Bool :=
  if a.latency != b.latency then a.latency
  else if recPrio a.dwords ≠ recPrio b.dwords then recPrio b.dwords < recPrio a.dwords
  else a.order < b.order

/-- A WID of a hart group can be placed on a core now. -/
def State.groupFits (s : State) (tag : Nat) (l : Launch) (wid core : Nat) : Bool :=
  let own := Assoc.find l.seats (recHartGroup l.dwords wid)
  s.classAllows tag l wid own core && s.coreTakes tag l wid own core

/-- The state with a seat kept for a hart group. (Log 85, DEDUCED.) -/
def State.keepSeat (s : State) (tag : Nat) (g code : Nat) : State :=
  { s with launches := Assoc.change s.launches tag fun l => { l with seats := Assoc.put l.seats g code } }

/-- What the first of the numbers `n` from `i` on that gives something gives. -/
def firstFrom {α : Type} (f : Nat → Option α) : Nat → Nat → Option α
  | 0, _ => none
  | n + 1, i => match f i with
    | some x => some x
    | none => firstFrom f n (i + 1)

/-- A waiting WID of a launch that a core can take now, with its hart group and a seat for it. -/
def State.nextFit (s : State) (tag : Nat) (l : Launch) (core : Nat) : Option (Nat × Nat × Seat) :=
  firstFrom (fun g => (l.waiting g).bind fun w =>
    if s.groupFits tag l w core then
      ((seatsOf (recVlclass l.dwords) core).find? (s.canSeat tag l w (Assoc.find l.seats g))).map fun x => (g, w, x)
    else none) (recGroups l.dwords) 0

/-- The state as far as placement goes, once a WID stands on a seat. -/
def State.trySeat (s : State) (tag g wid : Nat) (x : Seat) : State :=
  { s with launches := Assoc.change s.launches tag fun l =>
      { l.fixUnits wid (Seat.hartId x) with
        seats := Assoc.put l.seats g (Seat.code x), started := Assoc.put l.started g (wid + 1) } }

/-- How many waiting WIDs of the launches that satisfy a condition a core can take, those that come first placed first (R78): at most
the number `n`. -/
def State.roomFor (s : State) (core : Nat) (which : Nat → Launch → Bool) : Nat → Nat
  | 0 => 0
  | n + 1 =>
    let all := sortStable (fun a b => a.2.outranks b.2) (s.launches.filter fun p => which p.1 p.2)
    match all.findSome? fun p => (s.nextFit p.1 p.2 core).map fun x => (p.1, x) with
    | none => 0
    | some (t, g, w, x) => (s.trySeat t g w x).roomFor core which n + 1

/-- Fewer of the waiting WIDs of the launches that outrank `l` could be placed on the core once a seat is taken there: the seat is scarce,
and not `l`'s (R78). (Log 69, DEDUCED.) -/
def State.outrankedOn (s after : State) (tag : Nat) (l : Launch) (core : Nat) : Bool :=
  let first (t : Nat) (q : Launch) : Bool := t != tag && q.outranks l
  after.roomFor core first 16 < s.roomFor core first 16

/-- The instruction in which a hart holds is a wait for the boundary at which it has arrived at a scope (R373). -/
def waitsAt (w : Option Word) (scope : Nat) : Bool :=
  match w.bind fun w => (decodeWord w).toOption with
  | some (.phase f) | some (.phasea f) | some (.phasew f) => f.sc.toNat == scope
  | _ => false

/-- A member waits at boundary `n` of its group at a scope: it has arrived, and its hart, seated or vacated, holds in the wait for
it (R448). -/
def State.waitsOpen (s : State) (tag : Word) (wid : Nat) (m : Member) (scope n : Nat) : Bool :=
  m.arrived scope n &&
  (s.harts.any (fun p => p.2.tag == tag && p.2.wid.toNat == wid && waitsAt p.2.wait.word scope) ||
    s.vacated.any fun p => p.2.tag == tag && p.2.wid.toNat == wid && waitsAt p.2.held scope)

/-- A swapped-out hart for which every other live member of one of its phase groups waits at an open boundary (R448). -/
def State.blocksBoundary (s : State) (v : Vacated) : Bool :=
  match (s.launch? v.tag).bind fun l => (Assoc.find l.members v.wid.toNat).map fun m => (l, m) with
  | none => false
  | some (l, m) => [1, 2, 3, 4, 5].any fun scope =>
      let key := phaseKey scope v.wid.toNat m.seat
      let n := (l.boundary key).complete + 1
      let others := (l.phaseGroup scope key).filter fun p => p.1 != v.wid.toNat && !p.2.exited
      !m.arrived scope n && !others.isEmpty && others.all fun p => s.waitsOpen v.tag p.1 p.2 scope n

/-- The order in which vacated harts of a class resume (R448): those that others wait for, then those vacated with their phase
group, then the rest. -/
def State.resumeRank (s : State) (v : Vacated) : Nat := if s.blocksBoundary v then 0 else if v.ahead then 1 else 2

/-- No seat of the die can take a waiting WID. -/
def State.unplaceable (s : State) (tag : Nat) (l : Launch) (wid die : Nat) : Bool :=
  (List.range 96).all fun c => !s.groupFits tag l wid (128 * die + c)

/-- A vacated hart of the launch `q` could be placed again now. -/
def State.resumable (s : State) (v : Vacated) (q : Launch) : Bool :=
  (List.range 4).any fun d => !s.unplaceable v.tag.toNat (s.unitsKept v.tag.toNat q v.wid.toNat) v.wid.toNat d

/-- A vacated hart that resumes before a WID of `l` not yet started could be placed again now (R80, R448): one that can be placed
nowhere holds no WID back (log 69, DEDUCED). -/
def State.resumedFirst (s : State) (l : Launch) : Bool :=
  s.vacated.any fun p =>
    match s.launch? p.2.tag with
    | none => false
    | some q => (!l.latency || (q.latency && s.resumeRank p.2 < 2)) && s.resumable p.2 q

/-! ### A new hart (R84, Table 3.4) -/

/-- SEED of a new hart. -/
def firstSeed (wid : Word) : Word :=
  let x := wid.extractLsb' 0 32 ^^^ wid.extractLsb' 32 32 ^^^ 0x2545F491#32
  if x = 0 then 1 else x.setWidth 64

/-- No rotation, masks or elements; the shape of the record and the lanes of the seat. -/
def firstVector (r : Record) (lanes : BitVec 4) (qtr : BitVec 2) : VectorState :=
  { v := Vector.replicate 64 0, m := Vector.replicate 8 0, len := 0, ord := 0, vstart := 0, nvc := recNvc r,
    sewc := recSewc r, vlclass := recVlclass r, qtr := qtr, lcmask := lanes, rotBase := 0, rotSize := 0 }

/-- Observation off. -/
def firstObserve : Observe :=
  { period := 0, fie := false, ven := false, en := false, lost := 0, records := [], next := 0, countdown := none,
    tagged := none, untag := none, strip := 0, pmsel := Vector.replicate 16 0, pmc := Vector.replicate 16 0, ops := 0, bands := 0 }

/-- The hart of a WID in the state of Table 3.4. -/
def newHart (tag wid : Word) (r : Record) (lanes : BitVec 4) (qtr : BitVec 2) (tvec : Word) (code : Mem) : Hart :=
  { tag := tag, wid := wid, halted := false, pc := recEntry r, asid := recAsid r,
    s := Vector.ofFn fun i : Fin 64 => if 4 ≤ i.val && i.val < 12 then r[8 + (i.val - 4) % 8]'(by omega) else 0,
    ctl := { lq := [], lqAt := 0, lqChk := true, lqUnder := false, cq := [], cqChk := true, cqUnder := false, greg := 0, loops := [] },
    vec := firstVector r lanes qtr,
    mat := freshMatrix,
    ar := { acfg := 0, aflags := 0, gflags := 0, seed := firstSeed wid },
    trp := { prv := false, cause := 0, tval := 0, tpc := 0, tvstart := 0, tvec := tvec, sstop := false, dreq := false, irq := 0,
             due := false, stripAt := none, stripDone := false },
    wp := { lo := Vector.replicate 4 0, hi := Vector.replicate 4 0, cfg := 0 },
    obs := firstObserve, wait := idleWait, code := code, atomics := 0, submissions := 0, polled := [] }

/-- The stretches of the lane slices of a seat: where each begins, and its size (R263). -/
def seatSlices (cls : BitVec 2) (core lanes qtr : Nat) : List (Nat × Nat) :=
  ([0, 1, 2, 3].filter fun k => bitOf lanes k).flatMap fun k => (List.range 16).map fun j =>
    let a := sliceBase core (16 * k + j)
    if cls = 0 then (a + 1024 * qtr, 1024) else (a, 4096)

/-- The lane slices of a seat read as zero (R263): what they held has gone, with its errors. -/
def State.freshSlices (s : State) (cls : BitVec 2) (core lanes qtr : Nat) : State :=
  let parts := seatSlices cls core lanes qtr
  { s with mem := parts.foldl (fun m p => m.clear p.1 p.2) s.mem,
           badWords := s.badWords.filter fun w => !parts.any fun p => p.1 ≤ 8 * w && 8 * w < p.1 + p.2 }

/-- A core group's schedule store stands on a core (R85). -/
def Launch.moveStore (l : Launch) (wid core : Nat) : Launch :=
  { l with schedules := Assoc.change l.schedules (wid / 2 ^ recCoreBits l.dwords) fun t => { t with core := core } }

/-- Reads the schedule table of a core group, when its first hart is placed (R85). The device makes the read, which is on no core: a
SCHEDPTR in a fixed local window records RMISS (log 126, DESIGN CHOICE). -/
def State.readSchedule (s : State) (tag : Word) (l : Launch) (wid core : Nat) : State :=
  let n := recSchedlen l.dwords
  let j := wid / 2 ^ recCoreBits l.dwords
  if n = 0 || (Assoc.find l.schedules j).isSome then s
  else
    let (s, r) := s.deviceRead l.agent (granules (8 * n)) (recSchedptr l.dwords + j * n * 8) (8 * n)
    let t : Schedule := match r with
      | .ok xs => { core := core, fault := none, cursor := 0,
                    entries := (List.range n).map fun i => BitVec.ofNat 64 (ofBytesLE ((xs.drop (8 * i)).take 8)) }
      | .error e => { core := core, entries := [], fault := some (e.1, BitVec.ofNat 64 e.2), cursor := 0 }
    s.onLaunch tag fun l => { l with schedules := Assoc.put l.schedules j t }

/-- The hart of a WID starts on a seat. -/
def State.seatHart (s : State) (tag : Word) (l : Launch) (g wid : Nat) (x : Seat) : State :=
  let k := (Seat.hartId x)
  let w := BitVec.ofNat 64 wid
  let s := s.onLaunch tag fun l =>
    { l.fixUnits wid k with
      started := Assoc.put l.started g (wid + 1), seats := Assoc.put l.seats g (Seat.code x),
      members := Assoc.put l.members wid
        { seat := k, epoch := 0, clock := [], arrivals := [], inPhase := [], inEwait := [], exited := false } }
  let s := s.readSchedule tag l wid (coreIndex k)
  let s := (s.onLaunch tag fun l => l.moveStore wid (coreIndex k)).freshSlices (recVlclass l.dwords) (coreIndex k)
    x.lanes.toNat x.qtr.toNat
  s.setHart k (newHart tag w l.dwords x.lanes x.qtr (s.die x.die.toNat).tvecd s.mem)

/-- HART_PLACEMENT (R78 to R84): the first WID of a hart group is an event of the recording log (R475, R476; log 87, DESIGN CHOICE). The
next WID of a bulk group waits where a core that a later LATMASK names, or that a latency hart has come to, is no longer for its class
(R79), though R83 starts it on that seat (log 125, DESIGN CHOICE). -/
def execHartPlacement (tag : Word) (group : Nat) (seat : Seat) (s : State) : Host.Outcome State Fault Refusal :=
  match (s.launch? tag).bind fun l => (l.waiting group).map fun w => (l, w) with
  | none => .next s
  | some (l, wid) =>
    let t := tag.toNat
    let own := Assoc.find l.seats group
    let core := coreIndex (Seat.hartId seat)
    let after := s.keepSeat t group (Seat.code seat)
    if !s.canSeat t l wid own seat || !s.classAllows t l wid own core || s.outrankedOn after t l core ||
        s.resumedFirst l || ((Assoc.find l.started group).isNone && l.behind group (Seat.hartId seat)) then .next s
    else if (Assoc.find l.started group).isSome then .next (s.seatHart tag l group wid seat)
    else
      match s.replayTurn tag .placement (BitVec.ofNat 64 wid) fun row => coreIndex row.what.toNat == core with
      | (s, false) => .next s
      | (s, true) =>
        let s := s.seatHart tag l group wid seat
        .next (s.eventDone tag
          { type := EventType.placement.code, bmask := 0, who := BitVec.ofNat 64 wid,
            what := BitVec.ofNat 64 (Seat.hartId seat), data := 0 })

/-! ### Vacating (R445, R446) -/

/-- The free records of a die's context store. -/
def State.freeRecords (s : State) (die : Nat) : List Nat :=
  (List.range storeRecords).filter fun i => (Assoc.find s.vacated (storeRecords * die + i)).isNone

/-- Writes a context record at a physical address: zero wherever nothing is assigned (R446). -/
def putContext (m : Mem) (a : Nat) (parts : List (Nat × Nat × Nat)) : Mem :=
  parts.foldl (fun m p => m.putImage (a + p.1) p.2.1 p.2.2) (m.clear a recordBytes)

/-- The held samples of a hart that leaves its seat are lost (R480). -/
def Hart.loseSamples (h : Hart) : Hart :=
  { h with obs := { h.obs with lost := BitVec.ofNat 16 (Nat.min 0xFFFF (h.obs.lost.toNat + h.obs.records.length)),
                               records := [], next := 0 } }

/-- The records of a tagged instruction that a vacate stops, or that had not begun: what the hart holds is discarded (R480). -/
def State.sampleVacated (s : State) (k : Nat) (h : Hart) : State := s.asHart k fun s => s.sampleStop k h

/-- The die vacates the hart at seat `k` into a free record of its store (R445); `ahead` when it does so for R448. (Log 70,
DEDUCED.) -/
def State.vacate (s : State) (k : Nat) (ahead : Bool) : State :=
  let s := s.unspill k
  let s := match s.hart? k with | none => s | some h => s.sampleVacated k h
  match s.hart? k with
  | none => s
  | some h =>
    let free := s.freeRecords (dieOf k)
    let (n, s) := s.choose free.length
    match free[n]? with
    | none => s
    | some i =>
      let h := h.issueAll.loseSamples
      let v : Vacated :=
        { tag := h.tag, wid := h.wid, core := coreIndex k, irq := h.trp.irq, dreq := h.trp.dreq,
          due := h.trp.due, stripAt := h.trp.stripAt, stripDone := h.trp.stripDone, strip := h.obs.strip,
          untag := h.obs.untag, atomics := h.atomics, submissions := h.submissions, code := h.code, polled := h.polled,
          held := h.wait.word, ahead := ahead }
      let s := { s with
        mem := s.keepSealed <| putContext s.mem (storeBase (dieOf k) + recordBytes * i) (contextParts h k h.trp.prv h.pc),
        vacated := Assoc.put s.vacated (storeRecords * dieOf k + i) v }
      let s := (s.freeSeat k).onLaunch h.tag fun l =>
        { l with seats := Assoc.drop l.seats (recHartGroup l.dwords h.wid.toNat) }
      s.onLaunch h.tag fun l =>
        if s.coreGroupSeated h.tag.toNat l h.wid.toNat then l else l.moveStore h.wid.toNat 512

/-- The physical address of the record of a vacated hart's key. -/
def recordAddr (key : Nat) : Nat := storeBase (key / storeRecords) + recordBytes * (key % storeRecords)

/-- The record of a vacated hart, by its launch and WID. -/
def State.vacatedKey (s : State) (tag : Word) (wid : Nat) : Option (Nat × Vacated) :=
  s.vacated.find? fun p => p.2.tag == tag && p.2.wid.toNat == wid

/-- The hart of a record on a new seat (R445, R446): its context, with what the record has no place for. -/
def resumedHart (m : Mem) (key : Nat) (v : Vacated) (r : Record) (lanes : BitVec 4) (qtr : BitVec 2) : Hart :=
  let base := recordAddr key
  let get (o n : Nat) : Nat := m.image (base + o) n
  let h := (newHart v.tag v.wid r lanes qtr 0 v.code).loadContext get
  { h with
    wid := v.wid, pc := BitVec.ofNat 64 (get 0x10 8 / 8 * 8),
    trp := { h.trp with prv := bitOf (get 6 2) 0, irq := v.irq, dreq := v.dreq, due := v.due, stripAt := v.stripAt,
                        stripDone := v.stripDone },
    obs := { h.obs with strip := v.strip, untag := v.untag },
    atomics := v.atomics, submissions := v.submissions, polled := v.polled }

/-- A vacated hart is placed again. -/
def State.resumeHart (s : State) (tag : Word) (l : Launch) (key : Nat) (v : Vacated) (x : Seat) : State :=
  let k := (Seat.hartId x)
  let wid := v.wid.toNat
  let h := resumedHart s.mem key v l.dwords x.lanes x.qtr
  let s := { s with vacated := Assoc.drop s.vacated key }.freshSlices (recVlclass l.dwords) (coreIndex k) x.lanes.toNat
    x.qtr.toNat
  (s.setHart k h).onLaunch tag fun l =>
    let l := { (s.unitsKept tag.toNat l wid).fixUnits wid k with seats := Assoc.put l.seats (recHartGroup l.dwords wid) (Seat.code x) }
    l.moveStore wid (coreIndex k)

/-- HART_RESUME (R80, R82, R445, R448). -/
def execHartResume (tag wid : Word) (seat : Seat) (s : State) : Host.Outcome State Fault Refusal :=
  match (s.launch? tag).bind fun l => (s.vacatedKey tag wid.toNat).map fun v => (l, v) with
  | none => .next s
  | some (l, key, v) =>
    let t := tag.toNat
    let l := s.unitsKept t l wid.toNat
    let core := coreIndex (Seat.hartId seat)
    let after := s.keepSeat t (recHartGroup l.dwords wid.toNat) (Seat.code seat)
    let blocked := s.vacated.any fun p => p.1 != key && s.resumeRank p.2 < s.resumeRank v &&
      match s.launch? p.2.tag with
      | none => false
      | some q => q.latency == l.latency && s.resumable p.2 q
    let outranked := s.outrankedOn after t l core && s.resumeRank v = 2 && l.latency
    let latencyWaits := !l.latency && after.roomFor core (fun _ q => q.latency) 16 < s.roomFor core (fun _ q => q.latency) 16
    if !s.canSeat t l wid.toNat none seat || !s.classAllows t l wid.toNat none core || blocked || outranked ||
        latencyWaits then .next s
    else .next (s.resumeHart tag l key v seat)

/-- The seated harts of a core. -/
def State.hartsOn (s : State) (core : Nat) : List (Nat × Hart) := s.harts.filter fun p => coreIndex p.1 == core

/-- A hart of a bulk launch that is treated as preemptible. One that is not, on a core that a later LATMASK reserves, keeps its seat
when the core is vacated (R80; log 110, DESIGN CHOICE). -/
def State.borrowed (s : State) (h : Hart) : Bool :=
  match s.launchOf h with
  | none => false
  | some l => !l.latency && l.preemptible

/-- CORE_VACATE (R80): the core is reserved, holds borrowed bulk harts and no halted one, each can be stopped and has a record,
and some waiting latency WID that finds no seat on the die could then be placed on it (log 32, DEDUCED). -/
def execCoreVacate (die cluster core : Nat) (s : State) : Host.Outcome State Fault Refusal :=
  let c := 128 * die + 8 * cluster + core
  let all := s.hartsOn c
  let out := all.filter fun p => s.borrowed p.2
  let after := out.foldl (fun s p => s.vacate p.1 false) s
  let waits := s.launches.any fun p => p.2.latency && anyFrom (fun g =>
    match p.2.waiting g with
    | none => false
    | some w => s.unplaceable p.1 p.2 w die && after.groupFits p.1 p.2 w c) (recGroups p.2.dwords) 0
  if s.reserved c && !out.isEmpty && all.all (fun p => !p.2.halted) && out.all (fun p => s.stoppable p.1 p.2) &&
      out.length ≤ (s.freeRecords die).length && waits then .next after
  else .next s

/-- PHASE_GROUP_VACATE (R448): for a swapped-out hart every other live member of the group waits at its open boundary, and no seat
takes it; the seated members that wait are vacated together. (Log 101, DEDUCED.) -/
def execPhaseGroupVacate (tag : Word) (scope unit : Nat) (s : State) : Host.Outcome State Fault Refusal :=
  match s.launch? tag with
  | none => .next s
  | some l =>
    let key := 8 * unit + scope
    let n := (l.boundary key).complete + 1
    let group := l.phaseGroup scope key
    let swapped (w : Nat) : Bool := (s.vacatedKey tag w).isSome
    let last := group.any fun p =>
      swapped p.1 && !p.2.arrived scope n && !p.2.exited &&
      (group.all fun q => q.1 == p.1 || q.2.exited || s.waitsOpen tag q.1 q.2 scope n) &&
      (List.range 4).all fun d => s.unplaceable tag.toNat (s.unitsKept tag.toNat l p.1) p.1 d
    let waiting := s.harts.filter fun p => p.2.tag == tag && match Assoc.find group p.2.wid.toNat with
      | none => false
      | some m => !m.exited && m.arrived scope n && waitsAt p.2.wait.word scope
    let room := (List.range 4).all fun d =>
      (waiting.filter fun p => dieOf p.1 == d).length ≤ (s.freeRecords d).length
    if 1 ≤ scope && scope ≤ 5 && last && !recReplay l.dwords && room && waiting.all fun p => s.stoppable p.1 p.2 then
      .next (waiting.foldl (fun s p => s.vacate p.1 true) s)
    else .next s

end Sys2Proof.Machine
end

