-- ==== Sys2Proof/Machine/Management.lean ====
section
/-! DEFINITION. Reset of the device (R69, R70) and the commands of the management controller (R96 to R98). -/

namespace Sys2Proof.Machine

/-! ### Reset (R69, R70, R315, R316) -/

/-- W (R316). -/
def portWidth (ports : Nat) : Nat := ([32, 16, 8, 4, 2].find? fun w => w * ports ≤ 64).getD 2

/-- A device's position lies in its grid (R315). -/
def gridValid (g : Grid) : Bool := g.row ≤ g.nr && g.col ≤ g.nc

/-- A grid and a position in it, of which nothing else is known. -/
def State.freeGrid (s : State) : Grid × State :=
  let (nr, s) := s.choose 16
  let (nc, s) := s.choose 16
  let (row, s) := s.choose (nr + 1)
  let (col, s) := s.choose (nc + 1)
  ({ nr := BitVec.ofNat 4 nr, nc := BitVec.ofNat 4 nc, row := BitVec.ofNat 4 row, col := BitVec.ofNat 4 col }, s)

/-- The device restarts with a firmware image: it comes up with the next incarnation when the boot ROM accepts the image, and with
the grid that the firmware sets (R315); else it stays in recovery. What is the model's own stays. (Log 76, DESIGN CHOICE.) -/
def State.restart (s : State) (image : List Byte) (g : Grid) : State :=
  let b := s.hub
  let ok := firmwareAccepted image
  let ports := g.nr.toNat + g.nc.toNat
  { State.reset with
    agenda := s.agenda, draws := s.draws, writeSeq := s.writeSeq, outputs := s.outputs,
    hub := { Hub.reset with
      recovery := !ok, incarnation := if ok then b.incarnation + 1 else b.incarnation, nr := g.nr, nc := g.nc, row := g.row,
      col := g.col, spares := 64 - portWidth ports * ports } }

/-- DEVICE_RESET (R69), with the grid that the firmware sets at bring-up (R315). -/
def execDeviceReset (image : Firmware) (s : State) : Host.Outcome State Fault Refusal :=
  if gridValid image.grid then .next (s.restart image.bytes image.grid) else .next s

/-! ### Commands (R96, R97) -/

/-- The codes of Table 3.10. -/
def commandCodes : List Nat := [0x01, 0x02, 0x03, 0x04, 0x05, 0x06, 0x07, 0x08, 0x09, 0x0A, 0x0B, 0x10]

/-- The code of the mailbox's command, when one has started and not yet ended. -/
def State.commandCode (s : State) : Option Nat :=
  if s.hub.box.stage = .started then some (fieldOf s.hub.box.cmd 0 8) else none

/-- An argument dword. -/
def State.arg (s : State) (i : Nat) : Word := s.hub.box.args[i]?.getD 0

/-- The command has a result code. -/
def State.endCommand (s : State) (code : Nat) : State := s.onBox fun b => { b with stage := .executed code }

/-- Sets ARG0 on to the given dwords. -/
def State.setArgs (s : State) (xs : List Word) : State :=
  s.onBox fun b => { b with args := xs.zipIdx.foldl (fun a p => a.setIfInBounds p.2 p.1) b.args }

/-- Sets MBDATA from its first byte on. -/
def State.setData (s : State) (bytes : List Byte) : State :=
  s.onBox fun b => { b with data := b.data.writeBytes 0 bytes }

/-- Runs a command of the given code; in recovery all but IDENT and FWLOAD end with code 3 (R69, R97). -/
def runCommand (code : Nat) (s : State) (f : State → State) : Host.Outcome State Fault Refusal :=
  if s.commandCode = some code then
    .next (if s.hub.recovery && code ≠ 0x01 && code ≠ 0x10 then s.endCommand 3 else f s)
  else .next s

/-- IDENT. -/
def execIdent (s : State) : Host.Outcome State Fault Refusal :=
  runCommand 0x01 s fun s =>
    let b := s.hub
    let key := if b.recovery then List.replicate 96 0 else identityKey b.incarnation
    ((s.setArgs [BitVec.ofNat 64 (bit01 b.recovery * 2 ^ 63 + b.incarnation.toNat),
        BitVec.ofNat 64 (b.nr.toNat + 16 * b.nc.toNat + 256 * b.row.toNat + 4096 * b.col.toNat)]).setData key).endCommand 0

/-- AREAS (R332, R445). -/
def execAreas (s : State) : Host.Outcome State Fault Refusal :=
  runCommand 0x02 s fun s =>
    let d := (s.arg 0).toNat
    if 4 ≤ d then s.endCommand 2
    else (s.setArgs [BitVec.ofNat 64 (spillBase d), BitVec.ofNat 64 slotArea, BitVec.ofNat 64 (storeBase d),
        BitVec.ofNat 64 storeRecords]).endCommand 0

/-- An entry's bytes (Table 3.11). -/
def LogEntry.bytes (e : LogEntry) : List Byte :=
  toBytesLE 4 e.seq.toNat ++ [e.kind, e.code, 0, 0] ++
    [e.time, e.addr, e.tag, e.who, e.wid, e.pc, e.val].flatMap fun x => toBytesLE 8 x.toNat

/-- A log by its number in READLOG. -/
def Hub.logAt (b : Hub) (n : Nat) : Option Log := [b.errorLog, b.launchLog, b.rangeLog, b.engineLog][n]?

/-- READLOG (R98). -/
def execReadlog (s : State) : Host.Outcome State Fault Refusal :=
  runCommand 0x03 s fun s =>
    match s.hub.logAt (s.arg 0).toNat with
    | none => s.endCommand 2
    | some l =>
      let es := (l.entries.filter fun e => (s.arg 1).toNat ≤ e.seq.toNat).take 960
      let low := match l.entries with | [] => l.next | e :: _ => e.seq
      ((s.setArgs [BitVec.ofNat 64 es.length, low.setWidth 64, l.next.setWidth 64]).setData
        (es.flatMap LogEntry.bytes)).endCommand 0

/-- COUNTERS. -/
def execCounters (s : State) : Host.Outcome State Fault Refusal :=
  runCommand 0x04 s fun s =>
    (s.setArgs [s.hub.stale, s.hub.correctable, s.hub.uncorrectable, s.hub.boxDrops]).endCommand 0

/-- An attestation log entry's bytes (Table 2.2). -/
def AttEntry.bytes (e : AttEntry) : List Byte :=
  toBytesLE 4 e.seq ++ toBytesLE 2 e.asid.toNat ++ toBytesLE 2 e.inc.toNat ++ toBytesLE 8 e.vbase ++ toBytesLE 8 e.size ++
    toBytesLE 8 e.pbase ++ (e.digest ++ List.replicate 48 0).take 48 ++ List.replicate 48 0

/-- ATTLOG (R51). -/
def execAttlog (s : State) : Host.Outcome State Fault Refusal :=
  runCommand 0x05 s fun s =>
    if 480 < (s.arg 1).toNat then s.endCommand 2
    else
      let es := (s.attestation.drop (s.arg 0).toNat).take (s.arg 1).toNat
      ((s.setArgs [BitVec.ofNat 64 es.length]).setData (es.flatMap AttEntry.bytes)).endCommand 0

/-- QUOTE (R52). -/
def execQuote (s : State) : Host.Outcome State Fault Refusal :=
  runCommand 0x06 s fun s =>
    let digest := sha384 (s.hub.box.data.readBytes 0 48 ++ s.attestation.flatMap AttEntry.bytes)
    ((s.setArgs [BitVec.ofNat 64 s.attestation.length]).setData (quoteOf s.hub.incarnation digest 64)).endCommand 0

/-- VACATE of a hart that a preemption point can stop; a hart that is never vacated, halted or of a replay launch, leaves the
code to the device: bad argument or resource busy (R441, R445, R476; log 29, DEDUCED). -/
def State.vacateSeat (s : State) (k : Nat) (h : Hart) : State :=
  let never := h.halted || match s.launchOf h with
    | none => false
    | some l => recReplay l.dwords
  if never then
    let (x, s) := s.choose 2
    s.endCommand (if x = 0 then 2 else 6)
  else if (s.freeRecords (dieOf k)).isEmpty then s.endCommand 5
  else if s.stoppable k h then (s.vacate k false).endCommand 0
  else s

/-- The hart at the seat that ARG0 names. -/
def State.argHart (s : State) : Option (Nat × Hart) :=
  (s.hart? (s.arg 0).toNat).map fun h => ((s.arg 0).toNat, h)

/-- VACATE (R445). -/
def execVacate (s : State) : Host.Outcome State Fault Refusal :=
  runCommand 0x07 s fun s =>
    match s.argHart with
    | none => s.endCommand 4
    | some (k, h) => s.vacateSeat k h

/-- Every hart of a launch is halted or can be stopped at a preemption point now (R444, R470). -/
def State.allStoppable (s : State) (tag : Word) : Bool :=
  s.harts.all fun p => p.2.tag != tag || p.2.halted || s.stoppable p.1 p.2

/-- ENDLAUNCH (R470): the command goes on until every hart of the launch has come to a preemption point. (Log 71, DEDUCED.) -/
def execEndlaunch (s : State) : Host.Outcome State Fault Refusal :=
  runCommand 0x08 s fun s =>
    if (s.launch? (s.arg 0)).isNone then s.endCommand 4
    else if s.allStoppable (s.arg 0) then (s.endLaunch (s.arg 0)).endCommand 0
    else s

/-- DEBUG (R449). -/
def execDebug (s : State) : Host.Outcome State Fault Refusal :=
  runCommand 0x09 s fun s =>
    match s.argHart with
    | none => s.endCommand 4
    | some (k, _) => (s.onHart k fun h => { h with trp := { h.trp with dreq := true } }).endCommand 0

/-- A member map names this device and no position outside the grid (R76). -/
def Hub.mapOk (b : Hub) (m : Nat) : Bool :=
  bitOf m (16 * b.row.toNat + b.col.toNat) &&
  (List.range 256).all fun i => !bitOf m i || (i / 16 < b.rows && i % 16 < b.cols)

/-- SYSGRP (R76). -/
def execSysgrp (s : State) : Host.Outcome State Fault Refusal :=
  runCommand 0x0A s fun s =>
    let g := fieldOf (s.arg 0) 0 12
    let map := ofBytesLE ((s.hub.box.argBytes.drop 8).take 32)
    let joined := s.launches.any fun p => recGroup p.2.dwords == g
    if g = 0 || joined then s.endCommand 2
    else if map = 0 then (s.onHub fun b => { b with groups := Assoc.drop b.groups g }).endCommand 0
    else if s.hub.mapOk map then
      (s.onHub fun b => { b with groups := Assoc.put b.groups g (BitVec.ofNat 256 map) }).endCommand 0
    else s.endCommand 2

/-- An entry of LAUNCHES (Table 3.10). The spec does not say when a launch is completing: it is when it has been ended, and from when the
conditions for its completion hold (log 109, DESIGN CHOICE). -/
def State.launchRow (s : State) (tag : Nat) (l : Launch) : List Byte :=
  let completing := l.ended || l.closing.isSome || s.mayComplete (BitVec.ofNat 64 tag) l
  toBytesLE 8 tag ++ toBytesLE 8 l.record ++ toBytesLE 8 l.dwords[2].toNat ++
    toBytesLE 8 (256 * l.die + if completing then 2 else 1)

/-- LAUNCHES. -/
def execLaunches (s : State) : Host.Outcome State Fault Refusal :=
  runCommand 0x0B s fun s =>
    let d := (s.arg 0).toNat
    if 4 ≤ d && d ≠ 0xFF then s.endCommand 2
    else
      let ls := (s.launches.filter fun p => d == 0xFF || p.2.die == d).take 256
      ((s.setArgs [BitVec.ofNat 64 ls.length]).setData (ls.flatMap fun p => s.launchRow p.1 p.2)).endCommand 0

/-- FWLOAD: a chunk of an image; at the last one the boot ROM checks the image and restarts the device (R69), whose firmware sets a
grid that no step gives (log 22, DESIGN CHOICE). -/
def execFwload (s : State) : Host.Outcome State Fault Refusal :=
  runCommand 0x10 s fun s =>
    let o := (s.arg 0).toNat
    let n := (s.arg 1).toNat
    if 61440 < n then s.endCommand 2
    else
      let chunk := s.hub.box.data.readBytes 0 n
      let s := s.onHub fun b => { b with image := b.image.writeBytes o chunk, imageEnd := Nat.max b.imageEnd (o + n) }
      if !bitOf (s.arg 2).toNat 0 then s.endCommand 0
      else
        let image := s.hub.image.readBytes 0 s.hub.imageEnd
        let s := s.onHub fun b => { b with image := [], imageEnd := 0 }
        if !firmwareAccepted image then s.endCommand 2
        else
          let (g, s) := s.freeGrid
          s.restart image g

/-- UNKNOWN_COMMAND (R97). -/
def execUnknownCommand (s : State) : Host.Outcome State Fault Refusal :=
  match s.commandCode with
  | none => .next s
  | some c => if commandCodes.contains c then .next s else .next (s.endCommand (if s.hub.recovery then 3 else 1))

/-- MAILBOX_COMMAND_DONE (R96). -/
def execMailboxCommandDone (s : State) : Host.Outcome State Fault Refusal :=
  match s.hub.box.stage with
  | .executed code =>
    let s := s.onBox fun b =>
      { b with stage := .idle, isDone := true, result := BitVec.ofNat 16 code, doneTag := BitVec.ofNat 16 (fieldOf b.cmd 16 16) }
    .next (if bitOf s.hub.box.msi.toNat 0 then s.raiseMsi (fieldOf s.hub.box.msi 1 6) else s)
  | _ => .next s

end Sys2Proof.Machine
end

