-- ==== Sys2Proof/Machine/HartEvents.lean ====
section
/-! DEFINITION. What befalls a hart between or inside its instructions: interrupts (R443, R444), debug stops (R449), sampling
(R479), the issue of micro-operations (R209), counters of cycles (R481), nodes that will never be released (R310), a replay
given up (R477), and soft errors (R267, R450). -/

namespace Sys2Proof.Machine

/-- VECTOR_MICRO_OP_ISSUE (R209): counted (Table 26.10, code 0x04). -/
def execVectorMicroOpIssue (hart : Nat) (s : State) : Host.Outcome State Fault Refusal :=
  .next (s.onHart hart fun h =>
    if h.obs.ops = 0 then h else { h.countEvent 0x04 1 with obs := { (h.countEvent 0x04 1).obs with ops := h.obs.ops - 1 } })

/-! ### Interrupts and debug stops -/

/-- PREEMPT_INTERRUPT (R441, R443, R444). -/
def execPreemptInterrupt (hart : Nat) (s : State) : Host.Outcome State Fault Refusal :=
  match (s.hart? hart).bind fun h => (firstSource h.trp.irq).map fun n => (h, n) with
  | none => .next s
  | some (h, n) => if h.trp.prv || !s.stoppable hart h then .next s else .next (s.preempt hart h n)

/-- An instruction before which a STRIPSTOP is taken (R449). -/
def opensStrip : Instr → Bool
  | .vsetl _ | .vsetlq _ | .hexit _ => true
  | _ => false

/-- STRIPSTOP (R449): at program level, before a VSETL, VSETLQ or HEXIT that has not begun. -/
def execStripstop (hart : Nat) (s : State) : Host.Outcome State Fault Refusal :=
  match (s.hart? hart).bind fun h => (s.peek hart h).map fun i => (h, i) with
  | none => .next s
  | some (h, i) =>
    if h.halted || !h.stripStops || h.wait.word.isSome || !opensStrip i then .next s
    else .next (s.asHart hart fun s => State.finish i false none (s.lift (stripStop h)))

/-! ### Sampling and counters -/

/-- A wrong-path instruction was tagged: its record says so, with a PC and word that nothing fixes (R479, R480; log 8, DESIGN CHOICE). -/
def State.sampleWrongPath (s : State) (h : Hart) : State :=
  let (pc, s) := s.draw
  let (w, s) := s.draw
  let s := (s.onCur fun h => { h with pc := BitVec.ofNat 64 (pc * 8), obs := { h.obs with tagged := some h.vstart } }).sample
    (BitVec.ofNat 64 w) .squashed none
  s.onCur fun r => { r with pc := h.pc }

/-- SAMPLE_TAG (R479): wrong-path fetches bring the countdown to zero sooner; the tag falls on one of them or on the next
instruction, unless that one resumes after a stop (R480). -/
def execSampleTag (hart : Nat) (s : State) : Host.Outcome State Fault Refusal :=
  match s.hart? hart with
  | none => .next s
  | some h =>
    if h.halted || !h.obs.en || h.obs.period = 0 || h.obs.tagged.isSome then .next s
    else
      .next (s.asHart hart fun s =>
        let s := s.onCur fun h => { h with obs := { h.obs with countdown := none } }
        let (n, s) := s.choose 2
        let tags := h.wait.word.isNone && h.obs.untag != some h.pc
        if n ≠ 0 then s.sampleWrongPath h
        else if tags then s.onCur fun h => { h with obs := { h.obs with tagged := some h.vstart } }
        else s)

/-- CYCLE_EVENT_OVERFLOW (R481): a counter of an event whose number timing decides wraps, to a count that nothing fixes (log
8, DESIGN CHOICE). -/
def execCycleEventOverflow (hart : Nat) (n : BitVec 4) (s : State) : Host.Outcome State Fault Refusal :=
  match s.hart? hart with
  | none => .next s
  | some h =>
    let sel := h.obs.pmsel[n.toNat]
    if !timingEvents.contains (fieldOf sel 0 16) || !bitOf sel.toNat (if h.trp.prv then 17 else 16) then .next s
    else
      let (x, s) := s.draw
      .next (s.onHart hart fun h =>
        { h with
          obs := { h.obs with pmc := h.obs.pmc.set n.toNat (BitVec.ofNat 64 (x % 2 ^ 48)),
                              pmsel := h.obs.pmsel.set n.toNat (setField sel 19 1 1) },
          trp := { h.trp with irq := if bitOf sel.toNat 18 then h.trp.irq ||| BitVec.ofNat 17 (2 ^ n.toNat) else h.trp.irq } })

/-! ### Nodes that will never be released -/

/-- The PC of a vacated hart, and its registers, as its record has them (Table 24.4). -/
def State.vacatedPc (s : State) (key : Nat) : Word := s.mem.dword (recordAddr key + 0x10)
def State.vacatedReg (s : State) (key : Nat) (x : RegIdx) : Word := s.mem.dword (recordAddr key + 0x200 + 8 * x.toNat)

/-- NODE_NEVER_RELEASED (R310). -/
def execNodeNeverReleased (tag : Word) (s : State) : Host.Outcome State Fault Refusal :=
  .next (if s.neverReleased tag s.vacatedPc s.vacatedReg then s.endWaiting tag else s)

/-! ### A replay that makes no progress -/

/-- The meaning of an instruction that waits its turn in a log (Table 26.5, R476). -/
def loggedMeaning (i : Instr) (s : State) : Option (Host.Outcome State Fault Refusal) :=
  match i with
  | .tqget f => some (execTqget f s)
  | .tqput f => some (execTqput f s)
  | .aadd f => some (execAadd f s)
  | .aand f => some (execAand f s)
  | .aor f => some (execAor f s)
  | .axor f => some (execAxor f s)
  | .amin f => some (execAmin f s)
  | .amax f => some (execAmax f s)
  | .aminn f => some (execAminn f s)
  | .amaxn f => some (execAmaxn f s)
  | .axchg f => some (execAxchg f s)
  | .acas f => some (execAcas f s)
  | .vaadd f => some (execVaadd f s)
  | .vamin f => some (execVamin f s)
  | .vamax f => some (execVamax f s)
  | .vrstore f => some (execVrstore f s)
  | .waitw f => some (execWaitw f s)
  | _ => none

/-- What the hart at a seat shows of its progress: how many instructions and events it has completed, and a request it has sent. -/
def Hart.progress (h : Hart) : Word × Bool × Nat × Bool := (h.pc, h.trp.prv, h.atomics, h.wait.request.isSome)

/-- How far the next instruction of the hart at a seat brings it, when that instruction waits its turn in a log. -/
def State.loggedProgress (s : State) (k : Nat) (h : Hart) : Option (Word × Bool × Nat × Bool) :=
  match (s.peek k h).bind fun i => loggedMeaning i { s with cur := k, stopAt := none } with
  | some (.next t) => (t.hart? k).map Hart.progress
  | _ => none

/-- The hart at a seat waits on the log of its replaying launch: its next instruction completes nothing, and would if the log
constrained nothing (R476, R477). -/
def State.waitsOnLog (s : State) (k : Nat) (h : Hart) : Bool :=
  let free := s.onReplay h.tag fun r => { r with rdiv := true }
  s.loggedProgress k h == some h.progress &&
    (free.loggedProgress k h).isSome && free.loggedProgress k h != some h.progress

/-- REPLAY_ABANDON (R477): every live hart waits on the log; the 10 ms are not the model's to count. (Log 81, DEDUCED.) -/
def execReplayAbandon (tag : Word) (s : State) : Host.Outcome State Fault Refusal :=
  match s.launch? tag with
  | none => .next s
  | some l =>
    let mine := s.harts.filter fun p => p.2.tag == tag
    let constrained := match l.replay with
      | none => false
      | some r => r.constrains
    if constrained && !mine.isEmpty && mine.all fun p => s.waitsOnLog p.1 p.2 then
      .next (s.onReplay tag fun r => { r with rdiv := true })
    else .next s

/-! ### Soft errors -/

/-- The number is that of the first byte of a word of storage. -/
def storageWord (a : Nat) : Bool :=
  a % 8 == 0 && (a < hbmTop || (2 ^ 52 ≤ a && a < sliceBase 512 0) || (2 ^ 53 ≤ a && a < 2 ^ 53 + 512 * 2 ^ 20) ||
    (2 ^ 54 ≤ a && a < 2 ^ 54 + 64 * 2 ^ 22) || (2 ^ 55 ≤ a && a < 2 ^ 55 + 4 * 2 ^ 26))

/-- A correctable error is counted and entered in the error log (R267, Table 3.12). Of a word that is no HBM the entry's ADDR
is a free value (log 8, DESIGN CHOICE). -/
def State.logCorrected (s : State) (sign : LogEntry → LogEntry) (a : Option Nat) : State :=
  let s := s.onHub fun b => { b with correctable := b.correctable + 1 }
  match a with
  | some a => s.log .error (sign (blankEntry 1 0 (BitVec.ofNat 64 a)))
  | none =>
    let (x, s) := s.draw
    s.log .error (sign (blankEntry 1 0 (BitVec.ofNat 64 x)))

/-- A word of storage fails: it may hold any value (R450). (Log 82, DESIGN CHOICE.) -/
def State.failWord (s : State) (a : Nat) : State :=
  let (x, s) := (s.logBad id (a / 8)).draw
  { s with badWords := if s.badWords.contains (a / 8) then s.badWords else a / 8 :: s.badWords,
           mem := s.mem.writeBytes a (toBytesLE 8 x) }

/-- A word of a hart's own state fails. -/
def State.failState (s : State) (k : Nat) (h : Hart) (w : HartWord) : State :=
  let (x, s) := (s.logBad (·.of k h) (2 ^ 52)).draw
  { s.onHart k fun h => h.setStateWord w x with
    badHarts := if s.badHarts.contains (k, w) then s.badHarts else (k, w) :: s.badHarts }

/-- SOFT_ERROR_DETECTED (R267, R450). -/
def execSoftErrorDetected (site : ErrorSite) (correctable : Bool) (s : State) : Host.Outcome State Fault Refusal :=
  match site with
  | .storage a =>
    if !storageWord a then .next s
    else if correctable then .next (s.logCorrected id (if a < hbmTop then some a else none))
    else .next (s.failWord a)
  | .hartState k w =>
    match s.hart? k with
    | none => .next s
    | some h =>
      if !h.hasWord w then .next s
      else if correctable then .next (s.logCorrected (·.of k h) none)
      else .next (s.failState k h w)

end Sys2Proof.Machine
end

