-- ==== Sys2Proof/Machine/Paired.lean ====
section
/-! DEFINITION. The paired word (R113 to R116). -/

namespace Sys2Proof.Machine

/-- A scalar pairable operation on its two operands (Table 4.11, R114). -/
def scalarHopValue (hop : ScalarHop) (x y : Word) : Word :=
  match hop with
  | .add => x + y
  | .sub => x - y
  | .and => andValue x y
  | .or => orValue x y
  | .xor => xorValue x y
  | .sll => x <<< (y.toNat % 64)
  | .srl => srlValue x y
  | .sra => sraValue x y
  | .mov => y
  | .min => minValue x y
  | .max => maxValue x y
  | .minn => minnValue x y
  | .maxn => maxnValue x y
  | .mul => x * y
  | .slt => sltValue x y
  | .sltn => sltnValue x y

/-- A vector pairable operation on two elements, with its flags (Table 4.11, R114): rounding is to nearest-even. -/
def vectorHopValue (hop : VectorHop) (t : ElemType) (ftz : Bool) (x y : Nat) : Nat × FlagSet :=
  let w := t.bits
  let int (op : Int → Int → Int) : Nat × FlagSet := (wrapI (op (readInt t x) (readInt t y)) w, 0)
  let fmt := fmtOf t
  let a := fmt.operand ftz x
  let b := fmt.operand ftz y
  match hop with
  | .vadd => int (· + ·)
  | .vsub => int (· - ·)
  | .vmul => int (· * ·)
  | .vand => ((x &&& y) % 2 ^ w, 0)
  | .vor => ((x ||| y) % 2 ^ w, 0)
  | .vxor => ((x ^^^ y) % 2 ^ w, 0)
  | .vmin => int fun p q => if p ≤ q then p else q
  | .vmax => int fun p q => if p ≤ q then q else p
  | .vmv => (y % 2 ^ w, 0)
  | .vfadd => fmt.add .rne ftz a b
  | .vfsub => fmt.add .rne ftz a b.neg
  | .vfmul => fmt.mul .rne ftz a b
  | .vfmin => (fmt.minMax false a b, 0)
  | .vfmax => (fmt.minMax true a b, 0)
  | .vsll => (x * 2 ^ shiftCount w y % 2 ^ w, 0)
  | .vsrl => (x / 2 ^ shiftCount w y % 2 ^ w, 0)

/-- The two operands of a scalar slot (R116): D and A, or A and the immediate; MOV with an immediate takes it as its source. -/
def scalarSlotReads (h : Hart) (d a : RegIdx) (imm : Option (BitVec 11)) : Word × Word :=
  match imm with
  | some k => (h.sreg a, k.signExtend 64)
  | none => (h.sreg d, h.sreg a)

/-- The effect of one slot on `r`, its operands read from `h` (R116). -/
def slotEffect (h : Hart) (x : Slot) (r : Hart) : Hart :=
  match x with
  | .scalar hop d a imm =>
    let v := scalarSlotReads h d a imm
    r.setS d (scalarHopValue hop v.1 v.2)
  | .vector hop d a t masked _ =>
    let g := slotGov masked
    let r := forElems (fun i r =>
      if h.active g i then
        let y := vectorHopValue hop t h.ftz (h.readElem d t.bits i) (h.readElem a t.bits i)
        (r.writeElem d t.bits i y.1).raise y.2
      else r) (h.vl - h.vstart) h.vstart r
    r.countVector h g h.vl

/-- The groups of a slot, each one register (R115). -/
def slotGroups : Slot → List Group
  | .scalar _ _ _ _ => []
  | .vector _ d a t _ _ => [{ first := d, size := 1, width := t.bits }, { first := a, size := 1, width := t.bits }]

/-- The active elements of a slot below `hi` on a lane cluster. -/
def slotElems (h : Hart) (hi lc : Nat) : Slot → Nat
  | .scalar _ _ _ _ => 0
  | .vector _ _ _ _ m _ => h.elemsOn (slotGov m) hi lc

/-- The paired word (R116): both slots read before either writes. -/
def pairEffect (x y : Slot) (h : Hart) : Eff Hart :=
  .seq ((slotEffect h y (slotEffect h x h)).setVstart 0)

/-- The paired word (R116). The elements of both slots are in its sample (R480). -/
def execPairedWord (slot0 slot1 : Slot) (s : State) : Host.Outcome State Fault Refusal :=
  performWith (.pairedWord slot0 slot1) s false
    (fun h => if (slotGroups slot0 ++ slotGroups slot1).isEmpty then none
      else some fun hi lc => slotElems h hi lc slot0 + slotElems h hi lc slot1)
    fun s h =>
      if (slotGroups slot0 ++ slotGroups slot1).any h.badGroup then
        .stop s .group (encodeWord (.pairedWord slot0 slot1))
      else s.lift (pairEffect slot0 slot1 h)

end Sys2Proof.Machine
end

