-- ==== Sys2Proof/Machine/Dispatch.lean ====
section
/-! DEFINITION. The dispatch: one arm per constructor of `Instr`, each one direct call of its meaning. -/

namespace Sys2Proof.Machine

/-- The meaning of one step on a state. -/
def exec (i : Instr) (s : State) : Host.Outcome State Fault Refusal :=
  match i with
  | .add f => Sys2Proof.Machine.execAdd f s
  | .sub f => Sys2Proof.Machine.execSub f s
  | .and f => Sys2Proof.Machine.execAnd f s
  | .or f => Sys2Proof.Machine.execOr f s
  | .xor f => Sys2Proof.Machine.execXor f s
  | .sll f => Sys2Proof.Machine.execSll f s
  | .srl f => Sys2Proof.Machine.execSrl f s
  | .sra f => Sys2Proof.Machine.execSra f s
  | .slt f => Sys2Proof.Machine.execSlt f s
  | .sltn f => Sys2Proof.Machine.execSltn f s
  | .min f => Sys2Proof.Machine.execMin f s
  | .max f => Sys2Proof.Machine.execMax f s
  | .minn f => Sys2Proof.Machine.execMinn f s
  | .maxn f => Sys2Proof.Machine.execMaxn f s
  | .mul f => Sys2Proof.Machine.execMul f s
  | .mulh f => Sys2Proof.Machine.execMulh f s
  | .mulhn f => Sys2Proof.Machine.execMulhn f s
  | .clz f => Sys2Proof.Machine.execClz f s
  | .ctz f => Sys2Proof.Machine.execCtz f s
  | .popc f => Sys2Proof.Machine.execPopc f s
  | .brev f => Sys2Proof.Machine.execBrev f s
  | .sel f => Sys2Proof.Machine.execSel f s
  | .div f => Sys2Proof.Machine.execDiv f s
  | .rem f => Sys2Proof.Machine.execRem f s
  | .divn f => Sys2Proof.Machine.execDivn f s
  | .remn f => Sys2Proof.Machine.execRemn f s
  | .addi f => Sys2Proof.Machine.execAddi f s
  | .andi f => Sys2Proof.Machine.execAndi f s
  | .ori f => Sys2Proof.Machine.execOri f s
  | .xori f => Sys2Proof.Machine.execXori f s
  | .slli f => Sys2Proof.Machine.execSlli f s
  | .srli f => Sys2Proof.Machine.execSrli f s
  | .srai f => Sys2Proof.Machine.execSrai f s
  | .slti f => Sys2Proof.Machine.execSlti f s
  | .li f => Sys2Proof.Machine.execLi f s
  | .lih f => Sys2Proof.Machine.execLih f s
  | .beq f => Sys2Proof.Machine.execBeq f s
  | .bne f => Sys2Proof.Machine.execBne f s
  | .blt f => Sys2Proof.Machine.execBlt f s
  | .bge f => Sys2Proof.Machine.execBge f s
  | .bltn f => Sys2Proof.Machine.execBltn f s
  | .bgen f => Sys2Proof.Machine.execBgen f s
  | .jmp f => Sys2Proof.Machine.execJmp f s
  | .jal f => Sys2Proof.Machine.execJal f s
  | .jr f => Sys2Proof.Machine.execJr f s
  | .ret f => Sys2Proof.Machine.execRet f s
  | .loop f => Sys2Proof.Machine.execLoop f s
  | .loopp f => Sys2Proof.Machine.execLoopp f s
  | .lcnt f => Sys2Proof.Machine.execLcnt f s
  | .bcq f => Sys2Proof.Machine.execBcq f s
  | .vdecl f => Sys2Proof.Machine.execVdecl f s
  | .vsetl f => Sys2Proof.Machine.execVsetl f s
  | .vsetlq f => Sys2Proof.Machine.execVsetlq f s
  | .vgetmax f => Sys2Proof.Machine.execVgetmax f s
  | .lqpop f => Sys2Proof.Machine.execLqpop f s
  | .cqpop f => Sys2Proof.Machine.execCqpop f s
  | .vadd f => Sys2Proof.Machine.execVadd f s
  | .vsub f => Sys2Proof.Machine.execVsub f s
  | .vmul f => Sys2Proof.Machine.execVmul f s
  | .vmulh f => Sys2Proof.Machine.execVmulh f s
  | .vmac f => Sys2Proof.Machine.execVmac f s
  | .vwmac f => Sys2Proof.Machine.execVwmac f s
  | .vwmul f => Sys2Proof.Machine.execVwmul f s
  | .vadds f => Sys2Proof.Machine.execVadds f s
  | .vsubs f => Sys2Proof.Machine.execVsubs f s
  | .vmin f => Sys2Proof.Machine.execVmin f s
  | .vmax f => Sys2Proof.Machine.execVmax f s
  | .vabs f => Sys2Proof.Machine.execVabs f s
  | .vneg f => Sys2Proof.Machine.execVneg f s
  | .vand f => Sys2Proof.Machine.execVand f s
  | .vor f => Sys2Proof.Machine.execVor f s
  | .vxor f => Sys2Proof.Machine.execVxor f s
  | .vsll f => Sys2Proof.Machine.execVsll f s
  | .vsrl f => Sys2Proof.Machine.execVsrl f s
  | .vsra f => Sys2Proof.Machine.execVsra f s
  | .vclz f => Sys2Proof.Machine.execVclz f s
  | .vpopc f => Sys2Proof.Machine.execVpopc f s
  | .vsel f => Sys2Proof.Machine.execVsel f s
  | .vmv f => Sys2Proof.Machine.execVmv f s
  | .vbcast f => Sys2Proof.Machine.execVbcast f s
  | .vid f => Sys2Proof.Machine.execVid f s
  | .vcmp f => Sys2Proof.Machine.execVcmp f s
  | .vdiv f => Sys2Proof.Machine.execVdiv f s
  | .vrem f => Sys2Proof.Machine.execVrem f s
  | .vfadd f => Sys2Proof.Machine.execVfadd f s
  | .vfsub f => Sys2Proof.Machine.execVfsub f s
  | .vfmul f => Sys2Proof.Machine.execVfmul f s
  | .vfma f => Sys2Proof.Machine.execVfma f s
  | .vfms f => Sys2Proof.Machine.execVfms f s
  | .vfnma f => Sys2Proof.Machine.execVfnma f s
  | .vfmin f => Sys2Proof.Machine.execVfmin f s
  | .vfmax f => Sys2Proof.Machine.execVfmax f s
  | .vfcmp f => Sys2Proof.Machine.execVfcmp f s
  | .vfclass f => Sys2Proof.Machine.execVfclass f s
  | .vfabs f => Sys2Proof.Machine.execVfabs f s
  | .vfneg f => Sys2Proof.Machine.execVfneg f s
  | .vfdiv f => Sys2Proof.Machine.execVfdiv f s
  | .vfsqrt f => Sys2Proof.Machine.execVfsqrt f s
  | .vfrcp f => Sys2Proof.Machine.execVfrcp f s
  | .vfrsq f => Sys2Proof.Machine.execVfrsq f s
  | .vexp2 f => Sys2Proof.Machine.execVexp2 f s
  | .vlog2 f => Sys2Proof.Machine.execVlog2 f s
  | .vexp f => Sys2Proof.Machine.execVexp f s
  | .vlog f => Sys2Proof.Machine.execVlog f s
  | .vtanh f => Sys2Proof.Machine.execVtanh f s
  | .vcvt f => Sys2Proof.Machine.execVcvt f s
  | .vquant f => Sys2Proof.Machine.execVquant f s
  | .vdeq f => Sys2Proof.Machine.execVdeq f s
  | .vmand f => Sys2Proof.Machine.execVmand f s
  | .vmor f => Sys2Proof.Machine.execVmor f s
  | .vmxor f => Sys2Proof.Machine.execVmxor f s
  | .vmnot f => Sys2Proof.Machine.execVmnot f s
  | .vmpre f => Sys2Proof.Machine.execVmpre f s
  | .vminc f => Sys2Proof.Machine.execVminc f s
  | .vmone f => Sys2Proof.Machine.execVmone f s
  | .vmpop f => Sys2Proof.Machine.execVmpop f s
  | .vmfirst f => Sys2Proof.Machine.execVmfirst f s
  | .vanyq f => Sys2Proof.Machine.execVanyq f s
  | .vallq f => Sys2Proof.Machine.execVallq f s
  | .vmset f => Sys2Proof.Machine.execVmset f s
  | .vmclr f => Sys2Proof.Machine.execVmclr f s
  | .vslideup f => Sys2Proof.Machine.execVslideup f s
  | .vslidedn f => Sys2Proof.Machine.execVslidedn f s
  | .vperm f => Sys2Proof.Machine.execVperm f s
  | .vpushl f => Sys2Proof.Machine.execVpushl f s
  | .vcompr f => Sys2Proof.Machine.execVcompr f s
  | .vexpnd f => Sys2Proof.Machine.execVexpnd f s
  | .vrec f => Sys2Proof.Machine.execVrec f s
  | .vredsum f => Sys2Proof.Machine.execVredsum f s
  | .vredmax f => Sys2Proof.Machine.execVredmax f s
  | .vredmin f => Sys2Proof.Machine.execVredmin f s
  | .vredand f => Sys2Proof.Machine.execVredand f s
  | .vredor f => Sys2Proof.Machine.execVredor f s
  | .vscan f => Sys2Proof.Machine.execVscan f s
  | .vbsort f => Sys2Proof.Machine.execVbsort f s
  | .vbmerge f => Sys2Proof.Machine.execVbmerge f s
  | .vtopk f => Sys2Proof.Machine.execVtopk f s
  | .vgtopk f => Sys2Proof.Machine.execVgtopk f s
  | .vsprs f => Sys2Proof.Machine.execVsprs f s
  | .ldb f => Sys2Proof.Machine.execLdb f s
  | .ldh f => Sys2Proof.Machine.execLdh f s
  | .ldw f => Sys2Proof.Machine.execLdw f s
  | .ldd f => Sys2Proof.Machine.execLdd f s
  | .ldbn f => Sys2Proof.Machine.execLdbn f s
  | .ldhn f => Sys2Proof.Machine.execLdhn f s
  | .ldwn f => Sys2Proof.Machine.execLdwn f s
  | .stb f => Sys2Proof.Machine.execStb f s
  | .sth f => Sys2Proof.Machine.execSth f s
  | .stw f => Sys2Proof.Machine.execStw f s
  | .std f => Sys2Proof.Machine.execStd f s
  | .vld f => Sys2Proof.Machine.execVld f s
  | .vldff f => Sys2Proof.Machine.execVldff f s
  | .vst f => Sys2Proof.Machine.execVst f s
  | .vrstore f => Sys2Proof.Machine.execVrstore f s
  | .pref f => Sys2Proof.Machine.execPref f s
  | .vpref f => Sys2Proof.Machine.execVpref f s
  | .aadd f => Sys2Proof.Machine.execAadd f s
  | .aand f => Sys2Proof.Machine.execAand f s
  | .aor f => Sys2Proof.Machine.execAor f s
  | .axor f => Sys2Proof.Machine.execAxor f s
  | .amin f => Sys2Proof.Machine.execAmin f s
  | .amax f => Sys2Proof.Machine.execAmax f s
  | .aminn f => Sys2Proof.Machine.execAminn f s
  | .amaxn f => Sys2Proof.Machine.execAmaxn f s
  | .axchg f => Sys2Proof.Machine.execAxchg f s
  | .acas f => Sys2Proof.Machine.execAcas f s
  | .vaadd f => Sys2Proof.Machine.execVaadd f s
  | .vamin f => Sys2Proof.Machine.execVamin f s
  | .vamax f => Sys2Proof.Machine.execVamax f s
  | .phase f => Sys2Proof.Machine.execPhase f s
  | .phasea f => Sys2Proof.Machine.execPhasea f s
  | .phasew f => Sys2Proof.Machine.execPhasew f s
  | .fence f => Sys2Proof.Machine.execFence f s
  | .waitw f => Sys2Proof.Machine.execWaitw f s
  | .esub f => Sys2Proof.Machine.execEsub f s
  | .ecmd f => Sys2Proof.Machine.execEcmd f s
  | .ewait f => Sys2Proof.Machine.execEwait f s
  | .epoll f => Sys2Proof.Machine.execEpoll f s
  | .tload f => Sys2Proof.Machine.execTload f s
  | .tzero f => Sys2Proof.Machine.execTzero f s
  | .mmul f => Sys2Proof.Machine.execMmul f s
  | .mmuls f => Sys2Proof.Machine.execMmuls f s
  | .mdrain f => Sys2Proof.Machine.execMdrain f s
  | .mzero f => Sys2Proof.Machine.execMzero f s
  | .esets f => Sys2Proof.Machine.execEsets f s
  | .esetv f => Sys2Proof.Machine.execEsetv f s
  | .matrixStateSwap hart => Sys2Proof.Machine.execMatrixStateSwap hart s
  | .xopen f => Sys2Proof.Machine.execXopen f s
  | .xsplit f => Sys2Proof.Machine.execXsplit f s
  | .xsend f => Sys2Proof.Machine.execXsend f s
  | .xsendq f => Sys2Proof.Machine.execXsendq f s
  | .xfloor f => Sys2Proof.Machine.execXfloor f s
  | .xround f => Sys2Proof.Machine.execXround f s
  | .xrecv f => Sys2Proof.Machine.execXrecv f s
  | .xstat f => Sys2Proof.Machine.execXstat f s
  | .xsample f => Sys2Proof.Machine.execXsample f s
  | .xrebal f => Sys2Proof.Machine.execXrebal f s
  | .xclose f => Sys2Proof.Machine.execXclose f s
  | .mergeInputArrival xid recv pt input => Sys2Proof.Machine.execMergeInputArrival xid recv pt input s
  | .mergePointEmit xid recv pt => Sys2Proof.Machine.execMergePointEmit xid recv pt s
  | .whiskDeliver xid recv => Sys2Proof.Machine.execWhiskDeliver xid recv s
  | .roundClose xid => Sys2Proof.Machine.execRoundClose xid s
  | .exchangeClose xid => Sys2Proof.Machine.execExchangeClose xid s
  | .ingressRecord die xid => Sys2Proof.Machine.execIngressRecord die xid s
  | .batchPublish die xid => Sys2Proof.Machine.execBatchPublish die xid s
  | .ringReleaseWrite die xid => Sys2Proof.Machine.execRingReleaseWrite die xid s
  | .launch f => Sys2Proof.Machine.execLaunch f s
  | .tnext f => Sys2Proof.Machine.execTnext f s
  | .tqget f => Sys2Proof.Machine.execTqget f s
  | .tqput f => Sys2Proof.Machine.execTqput f s
  | .widr f => Sys2Proof.Machine.execWidr f s
  | .hexit f => Sys2Proof.Machine.execHexit f s
  | .trap f => Sys2Proof.Machine.execTrap f s
  | .tret f => Sys2Proof.Machine.execTret f s
  | .csrr f => Sys2Proof.Machine.execCsrr f s
  | .csrw f => Sys2Proof.Machine.execCsrw f s
  | .csrs f => Sys2Proof.Machine.execCsrs f s
  | .csrc f => Sys2Proof.Machine.execCsrc f s
  | .tsave f => Sys2Proof.Machine.execTsave f s
  | .trstr f => Sys2Proof.Machine.execTrstr f s
  | .wfe f => Sys2Proof.Machine.execWfe f s
  | .dstop f => Sys2Proof.Machine.execDstop f s
  | .wfeTimeout hart => Sys2Proof.Machine.execWfeTimeout hart s
  | .rsplit f => Sys2Proof.Machine.execRsplit f s
  | .rmerge f => Sys2Proof.Machine.execRmerge f s
  | .rinval f => Sys2Proof.Machine.execRinval f s
  | .rseal f => Sys2Proof.Machine.execRseal f s
  | .rres f => Sys2Proof.Machine.execRres f s
  | .rprobe f => Sys2Proof.Machine.execRprobe f s
  | .rcompact f => Sys2Proof.Machine.execRcompact f s
  | .compactionSwing ctx => Sys2Proof.Machine.execCompactionSwing ctx s
  | .compactionAbandon ctx => Sys2Proof.Machine.execCompactionAbandon ctx s
  | .nop hint bits => Sys2Proof.Machine.execNop hint bits s
  | .pairedWord slot0 slot1 => Sys2Proof.Machine.execPairedWord slot0 slot1 s
  | .vectorMicroOpIssue hart => Sys2Proof.Machine.execVectorMicroOpIssue hart s
  | .preemptInterrupt hart => Sys2Proof.Machine.execPreemptInterrupt hart s
  | .stripstop hart => Sys2Proof.Machine.execStripstop hart s
  | .sampleTag hart => Sys2Proof.Machine.execSampleTag hart s
  | .sampbufRead d => Sys2Proof.Machine.execSampbufRead d s
  | .pmuRegisterWrite op count n a => Sys2Proof.Machine.execPmuRegisterWrite op count n a s
  | .rotbWrite op a => Sys2Proof.Machine.execRotbWrite op a s
  | .gregWrite op a => Sys2Proof.Machine.execGregWrite op a s
  | .seedWrite op a => Sys2Proof.Machine.execSeedWrite op a s
  | .acfgWrite op a => Sys2Proof.Machine.execAcfgWrite op a s
  | .queueStatusWrite op cond a => Sys2Proof.Machine.execQueueStatusWrite op cond a s
  | .hartPlacement tag group seat => Sys2Proof.Machine.execHartPlacement tag group seat s
  | .coreVacate die cluster core => Sys2Proof.Machine.execCoreVacate die cluster core s
  | .phaseGroupVacate tag scope unit => Sys2Proof.Machine.execPhaseGroupVacate tag scope unit s
  | .hartResume tag wid seat => Sys2Proof.Machine.execHartResume tag wid seat s
  | .engineNodeStart core slot => Sys2Proof.Machine.execEngineNodeStart core slot s
  | .engineNodeFinish core slot => Sys2Proof.Machine.execEngineNodeFinish core slot s
  | .nodeNeverReleased tag => Sys2Proof.Machine.execNodeNeverReleased tag s
  | .deviceReset image => Sys2Proof.Machine.execDeviceReset image s
  | .tailFetchadd q op wide addend => Sys2Proof.Machine.execTailFetchadd q op wide addend s
  | .slotWrite q slot value => Sys2Proof.Machine.execSlotWrite q slot value s
  | .qctlWrite q value => Sys2Proof.Machine.execQctlWrite q value s
  | .latloWrite die value => Sys2Proof.Machine.execLatloWrite die value s
  | .lathiWrite die value => Sys2Proof.Machine.execLathiWrite die value s
  | .tvecdWrite die value => Sys2Proof.Machine.execTvecdWrite die value s
  | .registerWrite offset data => Sys2Proof.Machine.execRegisterWrite offset data s
  | .takePosition q => Sys2Proof.Machine.execTakePosition q s
  | .launchComplete tag => Sys2Proof.Machine.execLaunchComplete tag s
  | .replayAbandon tag => Sys2Proof.Machine.execReplayAbandon tag s
  | .msixVectorUnmask vector => Sys2Proof.Machine.execMsixVectorUnmask vector s
  | .windowBRead offset size => Sys2Proof.Machine.execWindowBRead offset size s
  | .windowBWrite offset data => Sys2Proof.Machine.execWindowBWrite offset data s
  | .windowBAtomic offset op size operand compare => Sys2Proof.Machine.execWindowBAtomic offset op size operand compare s
  | .ident => Sys2Proof.Machine.execIdent s
  | .areas => Sys2Proof.Machine.execAreas s
  | .readlog => Sys2Proof.Machine.execReadlog s
  | .counters => Sys2Proof.Machine.execCounters s
  | .attlog => Sys2Proof.Machine.execAttlog s
  | .quote => Sys2Proof.Machine.execQuote s
  | .vacate => Sys2Proof.Machine.execVacate s
  | .endlaunch => Sys2Proof.Machine.execEndlaunch s
  | .debug => Sys2Proof.Machine.execDebug s
  | .sysgrp => Sys2Proof.Machine.execSysgrp s
  | .launches => Sys2Proof.Machine.execLaunches s
  | .fwload => Sys2Proof.Machine.execFwload s
  | .unknownCommand => Sys2Proof.Machine.execUnknownCommand s
  | .mailboxCommandDone => Sys2Proof.Machine.execMailboxCommandDone s
  | .flheadWrite value => Sys2Proof.Machine.execFlheadWrite value s
  | .remoteLoadRequest k => Sys2Proof.Machine.execRemoteLoadRequest k s
  | .remoteStoreRequest k => Sys2Proof.Machine.execRemoteStoreRequest k s
  | .remoteAtomicRequest k => Sys2Proof.Machine.execRemoteAtomicRequest k s
  | .remoteResponse r => Sys2Proof.Machine.execRemoteResponse r s
  | .peerTimeout tag => Sys2Proof.Machine.execPeerTimeout tag s
  | .hostCompletion tag ok data => Sys2Proof.Machine.execHostCompletion tag ok data s
  | .flitReceive port flit => Sys2Proof.Machine.execFlitReceive port flit s
  | .linkDown port => Sys2Proof.Machine.execLinkDown port s
  | .laneFailure port => Sys2Proof.Machine.execLaneFailure port s
  | .softErrorDetected site correctable => Sys2Proof.Machine.execSoftErrorDetected site correctable s
  | .cycleEventOverflow hart n => Sys2Proof.Machine.execCycleEventOverflow hart n s
  | .wfeOtherEvent hart => Sys2Proof.Machine.execWfeOtherEvent hart s

end Sys2Proof.Machine
end

