-- ==== Sys2Proof/Machine/Load.lean ====
section
/-! DEFINITION. Placing one instruction where a hart fetches next: a launch of one hart with a range for its code, when no hart
can fetch (log 31, DESIGN CHOICE). -/

namespace Sys2Proof.Machine

/-- Where the loaded launch has its range tree's root and its code, and its address space. -/
def loadRoot : Nat := 0x1000
def loadCode : Nat := 0x10000
def loadAsid : BitVec 16 := 1

/-- The record of the loaded launch (Table 1.3): one WID, entered at its code. -/
def loadRecord : Record :=
  #v[BitVec.ofNat 64 (2 ^ 56 + loadCode), BitVec.ofNat 64 loadRoot, BitVec.ofNat 64 (loadAsid.toNat * 2 ^ 48), 1,
     0, 0, 0, 0, 0, 0, 0, 0, 0, 0, 0, 0]

/-- The launch, with its one member at seat `k`. -/
def loadLaunch (s : State) (k : Nat) : Launch :=
  { die := dieOf k, record := 0, dwords := loadRecord, order := s.nextTag, ended := false,
    members := [(0, { seat := k, epoch := 0, clock := [], arrivals := [], inPhase := [], inEwait := [], exited := false })],
    started := [(0, 1)], units := [], seats := [(0, k + 2 ^ 13)], base := s.mem, writes := [], foreign := [], deferred := [],
    boundaries := [], tasks := Vector.replicate 4 [], schedules := [], pins := [], dirty := [], replay := none, closing := none }

/-- A leaf with one descriptor: 64 KiB from `loadCode` on, read, write and execute, coherent, mapped to itself (R42, Tables
2.1 and 2.3). -/
def loadTree (m : Mem) : Mem :=
  let put (m : Mem) (a x : Nat) : Mem := m.writeBytes a (toBytesLE 8 x)
  let m := put m loadRoot (2 ^ 56 + 1)
  let m := [8, 16, 24].foldl (fun m o => put m (loadRoot + o) 0) m
  let m := put m (loadRoot + 32) (loadCode + 0xF0)
  let m := put m (loadRoot + 40) (loadCode + 0x10000 + 0x80)
  let m := put m (loadRoot + 48) 0x100
  put m (loadRoot + 56) loadAsid.toNat

/-- The lowest HARTID without a hart. -/
def freeKey : Assoc Hart → Nat → Nat
  | [], n => n
  | (k, _) :: r, n => if n < k then n else freeKey r (k + 1)

/-- Loads the launch and seats its hart, which executes next. -/
def State.loadHart (s : State) : State :=
  let k := freeKey s.harts 0
  let s := { s with mem := loadTree s.mem }
  let l := loadLaunch s k
  let tag := BitVec.ofNat 64 s.nextTag
  { s with
    cur := k, launches := Assoc.put s.launches s.nextTag l, nextTag := s.nextTag + 1,
    harts := Assoc.put s.harts k (newHart tag 0 loadRecord 1 0 (s.die (dieOf k)).tvecd s.mem) }

/-- Where the executing hart fetches its next word, in the device's storage. -/
def State.fetchPlace (s : State) : Option Place :=
  match s.running with
  | none => none
  | some h =>
    if !h.trp.prv && h.watched h.pc.toNat 1 .execute then none
    else
      match (s.translate (s.hartAgent s.cur h 0) h.pc.toNat .execute).2 with
      | .ok p => if p.target = .memory then some p else none
      | .error _ => none

/-- Puts a word at a place, for every fetch of the executing hart. -/
def State.placeWord (s : State) (p : Place) (w : Nat) : State :=
  let bytes := toBytesLE 8 w
  { s.onCur fun h => { h with code := h.code.writeBytes p.addr bytes, wait := { h.wait with word := none }, trp := { h.trp with due := false } } with
    mem := s.mem.writeBytes p.addr bytes, badWords := s.badWords.filter fun b => !overlapping (8 * b) 8 p.addr 8 }

/-- The word where the executing hart fetches next, after a load when no hart can fetch. -/
def State.withWord (s : State) (w : Nat) : State :=
  let s := { s with agenda := [], stopAt := none }
  match s.fetchPlace with
  | some p => s.placeWord p w
  | none =>
    let s := s.loadHart
    match s.fetchPlace with
    | some p => s.placeWord p w
    | none => s

end Sys2Proof.Machine
end

