-- ==== Sys2Proof/Machine/Step.lean ====
section
/-! DEFINITION. The step of the machine: the next entry of its agenda, or the next instruction of the hart `cur`. -/

namespace Sys2Proof.Machine

/-- One step (R99 to R101, R120): an event of the agenda, or an instruction fetched, decoded and executed. -/
def step (s : State) : Host.Outcome State Fault Refusal := s.runNext exec

/-- The state with an instruction of `nbits` bits `w` (the bits above are zero) where `step` fetches next (log 31, DESIGN CHOICE). -/
def State.withFetchWord (s : State) (nbits w : Nat) : State := s.withWord (w % 2 ^ Nat.min nbits 64)

end Sys2Proof.Machine
end

