-- ==== Sys2Proof/Safety.lean ====
section
/-! DEFINITION. The terms in which claims are made: how a step of a hart comes out, what observation may change beside it, and
the conditions that rule out states no run reaches. -/

namespace Sys2Proof.Machine

/-- The harts `a` and `b` are equal but for what counting and sampling keep (R478 to R481): records, the sampling countdown and
tag, counter values, the OVF bits of PMSEL, micro-operations still queued, and interrupt sources that have become pending. -/
structure Observed (a b : Hart) : Prop where
  rest : b = { a with obs := b.obs, trp := { a.trp with irq := b.trp.irq } }
  strip : b.obs.strip = a.obs.strip
  period : b.obs.period = a.obs.period
  fie : b.obs.fie = a.obs.fie
  ven : b.obs.ven = a.obs.ven
  en : b.obs.en = a.obs.en
  select : ∀ (n : Fin 16) (j : Nat), j ≠ 19 → b.obs.pmsel[n].getLsbD j = a.obs.pmsel[n].getLsbD j
  pending : ∀ j : Nat, a.trp.irq.getLsbD j = true → b.trp.irq.getLsbD j = true

/-- The hart at the start of an instruction: the instruction uses up a return to a STRIPSTOP (R449) and a source that was to be
taken before it (R441). -/
def Hart.begun (h : Hart) : Hart := { h with trp := { h.trp with due := false, stripDone := false } }

/-- The instruction `i` answers a next state in which the state is `s1` but for the executing hart, which is `h` as far as
observation goes, and for the count of free values drawn. -/
def Ends (i : Instr) (s s1 : State) (h : Hart) : Prop :=
  ∃ h' n, Observed h h' ∧ exec i s = .next { s1 with harts := Assoc.put s1.harts s1.cur h', draws := n }

/-- The instruction completes with its effect, which leads from `s` to `s1`, and control falls through: PC + 8, or the
loop-back step (R139). -/
def Completes (i : Instr) (s s1 : State) : Prop :=
  ∃ h, s1.hart? s1.cur = some h ∧ Ends i s s1 h.settle.fallThrough

/-- The instruction completes with its effect, which leads from `s` to `s1`, and control passes to `pc`. -/
def Jumps (i : Instr) (s s1 : State) (pc : Word) : Prop :=
  ∃ h, s1.hart? s1.cur = some h ∧ Ends i s s1 { h.settle with pc := pc }

/-- The instruction stops with a trap taken at program level (R440), after an effect that leads from `s` to `s1`. -/
def Traps (i : Instr) (s s1 : State) (c : Cause) (tval : Word) : Prop :=
  ∃ h, s1.hart? s1.cur = some h ∧ h.trp.prv = false ∧ Ends i s s1 (h.settle.enterTrap c tval)

/-- The instruction holds: it stays the hart's next one (R444), after an effect that leads from `s` to `s1`. -/
def Holds (i : Instr) (s s1 : State) : Prop :=
  ∃ h, s1.hart? s1.cur = some h ∧
    exec i s = .next (s1.setHart s1.cur { h with wait := { h.wait with word := some (encodeWord i) } })

/-- The instruction completes, and its effect is on its hart alone, which becomes `e` before control falls through. -/
def CompletesWith (i : Instr) (s : State) (e : Hart) : Prop := Completes i s (s.setHart s.cur e)

/-- The instruction completes on its hart alone, which becomes `e`, and control passes to `pc`. -/
def JumpsWith (i : Instr) (s : State) (e : Hart) (pc : Word) : Prop := Jumps i s (s.setHart s.cur e) pc

/-- The instruction stops with a trap taken at program level, its hart being `e` until then. -/
def TrapsWith (i : Instr) (s : State) (e : Hart) (c : Cause) (tval : Word) : Prop :=
  Traps i s (s.setHart s.cur e) c tval

/-- The vector state is one that VDECL, VSETL and a valid write of ROTB leave (R143, R166, R167). -/
def Hart.VectorOk (h : Hart) : Prop := h.vl ≤ h.vlmax ∧ h.vec.rotSize.toNat ≤ h.nv

/-- No operand of the list breaks a rule of register groups (R110, R143, R199). -/
def Hart.GroupsOk (h : Hart) (gs : List Group) : Prop := gs.any h.badGroup = false

/-- The guard of an instruction lets its effect happen (R111). -/
def Hart.GuardOn (h : Hart) (gd : Bool) (gs : BitVec 3) : Prop := h.guardedOff gd gs = false

/-- A physical register of the group of `n` registers from the name `first` on, under the rotation in force (R143). -/
def Hart.inGroup (h : Hart) (first : RegIdx) (n p : Nat) : Prop := ∃ k, k < n ∧ p = h.mapReg (first.toNat + k)

/-- The hart `e` differs from `h` in the group of `n` vector registers from `first` on, in AFLAGS, which keeps every flag that is
set (R186), and in VSTART, which is 0. -/
structure WritesGroup (h e : Hart) (first : RegIdx) (n : Nat) : Prop where
  rest : e = { h.begun with vec := { h.vec with v := e.vec.v, vstart := 0 }, ar := { h.ar with aflags := e.ar.aflags } }
  others : ∀ p, ¬ h.inGroup first n p → e.vreg p = h.vreg p
  sticky : ∀ j : Nat, h.ar.aflags.getLsbD j = true → e.ar.aflags.getLsbD j = true

/-- The hart `e` differs from `h` in the vector groups `gs`, in the mask registers `ms`, in the flags of AFLAGS and GFLAGS, which
stay set (R186), in SEED, which draws change (R182), and in VSTART, which is 0. -/
structure WritesVector (h e : Hart) (gs : List Group) (ms : List Nat) : Prop where
  rest : e = { h.begun with vec := { h.vec with v := e.vec.v, m := e.vec.m, vstart := 0 },
                            ar := { h.ar with aflags := e.ar.aflags, gflags := e.ar.gflags, seed := e.ar.seed } }
  others : ∀ p, (∀ g ∈ gs, ¬ h.inGroup g.first g.size p) → e.vreg p = h.vreg p
  masks : ∀ r, r ∉ ms → e.mask r = h.mask r
  sticky : ∀ j : Nat, h.ar.aflags.getLsbD j = true → e.ar.aflags.getLsbD j = true
  gateSticky : ∀ j : Nat, h.ar.gflags.getLsbD j = true → e.ar.gflags.getLsbD j = true

/-- The hart `e` differs from `h` in the mask register `d` alone, and there only at positions from VSTART below VL that the
governing mask lets in; VSTART is 0. -/
structure WritesMask (h e : Hart) (g : Governing) (d : Nat) : Prop where
  rest : e = { h.begun with vec := { h.vec with m := e.vec.m, vstart := 0 } }
  others : ∀ r, r ≠ d → e.mask r = h.mask r
  bits : ∀ i, h.active g i = false → e.maskBit d i = h.maskBit d i

/-- Element `i` of width `w` of the group from `first` on is `x i` where the element is active, and unchanged elsewhere. -/
def Elements (h e : Hart) (g : Governing) (first : RegIdx) (n w : Nat) (x : Nat → Nat) : Prop :=
  ∀ i, i * w < n * h.regBits → e.readElem first w i = if h.active g i then x i % 2 ^ w else h.readElem first w i

/-- The operand groups of a vector instruction on registers, and whether they overlap where they may not (R110, R199, R219,
R241): what Table 4.12 checks before such an instruction does anything. -/
def vectorOperands : Instr → Option (RFields × List Group × Bool)
  | .vadd f | .vsub f | .vmul f | .vmulh f | .vmac f | .vmin f | .vmax f | .vand f | .vor f | .vxor f | .vsll f | .vsrl f
  | .vsra f | .vsel f | .vdiv f | .vrem f | .vfadd f | .vfsub f | .vfmul f | .vfmin f | .vfmax f | .vfdiv f =>
    some (f, groupsDAB f, false)
  | .vadds f | .vsubs f | .vabs f | .vneg f | .vclz f | .vpopc f | .vmv f | .vfclass f | .vfabs f | .vfneg f | .vfsqrt f
  | .vfrcp f | .vfrsq f | .vexp2 f | .vlog2 f | .vexp f | .vlog f | .vtanh f => some (f, groupsDA f, false)
  | .vbcast f | .vid f => some (f, groupsD f, false)
  | .vcmp f | .vfcmp f => some (f, groupsAB f, false)
  | .vwmac f | .vwmul f => some (f, wideGroup f :: groupsAB f, wideConflict f)
  | .vfma f | .vfms f | .vfnma f => some (f, groupsDABC f, false)
  | .vcvt f =>
    let d := groupR f f.d f.et.bits
    let a := groupR f f.a (cvtSource f).bits
    some (f, [d, a], d.width != a.width && d.overlaps a)
  | .vmand f | .vmor f | .vmxor f | .vmnot f | .vmset f | .vmclr f | .vmpre f | .vminc f | .vmone f | .vanyq f
  | .vallq f => some (f, [], false)
  | .vmpop f | .vmfirst f => some (f, if f.aux.getLsbD 0 then [] else groupsD f, false)
  | .vslideup f | .vslidedn f | .vcompr f | .vexpnd f | .vredsum f | .vredmax f | .vredmin f | .vredand f | .vredor f
  | .vscan f => some (f, groupsDA f, anyOverlap (groupsDA f))
  | .vperm f | .vpushl f | .vrec f => some (f, groupsDAB f, anyOverlap (groupsDAB f))
  | .vbsort f | .vbmerge f => some (f, sortGroups f, anyOverlap (sortGroups f))
  | .vtopk f => some (f, topkGroups f, anyOverlap (topkGroups f))
  | .vgtopk f => some (f, gtopkGroups f, anyOverlap (gtopkGroups f))
  | .vsprs f => some (f, sparseGroups f, anyOverlap (sparseGroups f))
  | .vquant f => some (f, [groupR f f.d f.et.bits, groupR f f.a 32], (groupR f f.d f.et.bits).overlaps (groupR f f.a 32))
  | .vdeq f =>
    let d := groupR f f.d f.et.bits
    let a := groupR f f.a (cvtSource f).bits
    some (f, [d, a], d.overlaps a)
  | _ => none

/-- A hart that can run a vector instruction to its end: it is not cut at an element (R444), its vector state is in order, and
the instruction's groups and guard let it run. -/
structure VectorReady (i : Instr) (s : State) (h : Hart) : Prop where
  running : s.running = some h
  uncut : s.stopAt = none
  state : h.VectorOk
  groups : ∃ f gs, vectorOperands i = some (f, gs, false) ∧ h.GroupsOk gs ∧ h.GuardOn f.gd f.gs

/-- The engine of the executing hart's core has come to hold that hart's matrix state (R332): the state then, and the hart. -/
structure MatrixReady (s : State) (h : Hart) (s0 : State) (h0 : Hart) : Prop where
  running : s.running = some h
  held : s0 = (s.setHart s.cur h.begun).claimMatrix s.cur
  hart : s0.hart? s.cur = some h0

/-- Memory is in its canonical form. -/
def State.MemoryOk (s : State) : Prop := s.mem.wf = true

/-- What every step keeps: memory stays in its canonical form, and a seat holds one hart (R81). -/
structure State.Ordered (s : State) : Prop where
  memory : s.MemoryOk
  seats : Assoc.wf s.harts = true

end Sys2Proof.Machine
end

