-- ==== Sys2Proof/Certificates/Slice0/Obligations.lean ====
section
/-! DEFINITION. The statements for the provers. `Completes`, `CompletesWith`, `JumpsWith`, `TrapsWith` and `Holds` say how an
instruction comes out and give the whole next state, so each such statement carries its frame: what the effect's state does not
change, the instruction leaves alone, memory and every other hart among it. -/

open Sys2Proof Sys2Proof.Machine

/-! ### Scalar arithmetic -/

/-- R152 with SAT = 0: each MAJ 0x00 instruction whose guard lets it run writes the value of Table 6.1 to sD and changes nothing
else of the machine, its flags included. -/
def Obligations.ScalarResults : Prop :=
  ∀ (f : RFields) (s : State) (h : Hart), s.running = some h → h.GuardOn f.gd f.gs → f.sat = false →
    let a := h.sreg f.a
    let b := h.sreg f.b
    let sh := b.toNat % 64
    let gives (i : Instr) (x : Word) : Prop := CompletesWith i s (h.begun.setS f.d x)
    let test (c : Prop) [Decidable c] : Word := if c then 1 else 0
    gives (.add f) (a + b) ∧ gives (.sub f) (a - b) ∧ gives (.and f) (a &&& b) ∧ gives (.or f) (a ||| b) ∧
    gives (.xor f) (a ^^^ b) ∧ gives (.sll f) (a <<< sh) ∧ gives (.srl f) (a >>> sh) ∧ gives (.sra f) (a.sshiftRight sh) ∧
    gives (.slt f) (test (a.toInt < b.toInt)) ∧ gives (.sltn f) (test (a.toNat < b.toNat)) ∧
    (∃ x, gives (.min f) x ∧ (x = a ∨ x = b) ∧ x.toInt ≤ a.toInt ∧ x.toInt ≤ b.toInt) ∧
    (∃ x, gives (.max f) x ∧ (x = a ∨ x = b) ∧ a.toInt ≤ x.toInt ∧ b.toInt ≤ x.toInt) ∧
    (∃ x, gives (.minn f) x ∧ (x = a ∨ x = b) ∧ x.toNat ≤ a.toNat ∧ x.toNat ≤ b.toNat) ∧
    (∃ x, gives (.maxn f) x ∧ (x = a ∨ x = b) ∧ a.toNat ≤ x.toNat ∧ b.toNat ≤ x.toNat) ∧
    gives (.mul f) (a * b) ∧ gives (.mulh f) (BitVec.ofInt 64 (a.toInt * b.toInt / 2 ^ 64)) ∧
    gives (.mulhn f) (BitVec.ofNat 64 (a.toNat * b.toNat / 2 ^ 64)) ∧
    (∃ n, gives (.clz f) (BitVec.ofNat 64 n) ∧ n ≤ 64 ∧ (∀ j, 64 - n ≤ j → a.getLsbD j = false) ∧
      (n < 64 → a.getLsbD (63 - n) = true)) ∧
    (∃ n, gives (.ctz f) (BitVec.ofNat 64 n) ∧ n ≤ 64 ∧ (∀ j, j < n → a.getLsbD j = false) ∧
      (n < 64 → a.getLsbD n = true)) ∧
    gives (.popc f) (BitVec.ofNat 64 ((List.range 64).countP fun j => a.getLsbD j)) ∧
    (∃ x, gives (.brev f) x ∧ ∀ j, j < 64 → x.getLsbD j = a.getLsbD (63 - j)) ∧
    gives (.sel f) (if (h.sreg f.c).toNat ≠ 0 then a else b)

/-- R153: with SAT = 1, ADD, SUB, SLL and MUL form the exact result of their operands, read as signed numbers, or with AUX bit 0
as unsigned ones; sD takes it clamped to 64 bits, and OF is set when clamping changes it. -/
def Obligations.SaturatingResults : Prop :=
  ∀ (f : RFields) (s : State) (h : Hart), s.running = some h → h.GuardOn f.gd f.gs → f.sat = true →
    let u := f.aux.getLsbD 0
    let a : Int := if u then (h.sreg f.a).toNat else (h.sreg f.a).toInt
    let b : Int := if u then (h.sreg f.b).toNat else (h.sreg f.b).toInt
    let lo : Int := if u then 0 else -(2 ^ 63)
    let hi : Int := if u then 2 ^ 64 - 1 else 2 ^ 63 - 1
    let gives (i : Instr) (x : Int) : Prop := ∃ r : Word,
      CompletesWith i s ((h.begun.setS f.d r).raise (if lo ≤ x ∧ x ≤ hi then 0 else Flag.ovf.bit)) ∧
      (if u then (r.toNat : Int) else r.toInt) = max lo (min hi x)
    gives (.add f) (a + b) ∧ gives (.sub f) (a - b) ∧ gives (.mul f) (a * b) ∧
    gives (.sll f) (a * 2 ^ ((h.sreg f.b).toNat % 64))

/-- R154: quotient, remainder and flags of DIV, REM, DIVN and REMN, division by zero and the overflow of −2^63 / −1 among them.
-/
def Obligations.DivisionResults : Prop :=
  ∀ (f : RFields) (s : State) (h : Hart), s.running = some h → h.GuardOn f.gd f.gs →
    let a := h.sreg f.a
    let b := h.sreg f.b
    let gives (i : Instr) (x : Word) (fl : FlagSet) : Prop := CompletesWith i s ((h.begun.setS f.d x).raise fl)
    (b = 0 → gives (.div f) (BitVec.allOnes 64) Flag.dz.bit ∧ gives (.rem f) a Flag.dz.bit ∧
      gives (.divn f) (BitVec.allOnes 64) Flag.dz.bit ∧ gives (.remn f) a Flag.dz.bit) ∧
    (a.toInt = -(2 ^ 63) → b.toInt = -1 → gives (.div f) a Flag.ovf.bit ∧ gives (.rem f) 0 Flag.ovf.bit) ∧
    (b ≠ 0 → ¬ (a.toInt = -(2 ^ 63) ∧ b.toInt = -1) →
      ∃ q r : Word, gives (.div f) q 0 ∧ gives (.rem f) r 0 ∧ a.toInt = q.toInt * b.toInt + r.toInt ∧
        r.toInt.natAbs < b.toInt.natAbs ∧ (r.toInt = 0 ∨ (r.toInt < 0 ↔ a.toInt < 0))) ∧
    (b ≠ 0 → ∃ q r : Word, gives (.divn f) q 0 ∧ gives (.remn f) r 0 ∧ a.toNat = q.toNat * b.toNat + r.toNat ∧
      r.toNat < b.toNat)

/-- R111 and R149: a scalar instruction of MAJ 0x00 or 0x01, a scalar load, store or atomic, or PREF, whose guard bit is 0, writes
no register and no memory, sets no flag and leaves VSTART unchanged. -/
def Obligations.GuardedOffScalar : Prop :=
  (∀ (f : RFields) (s : State) (h : Hart), s.running = some h → h.guardedOff f.gd f.gs = true →
    ∀ i ∈ [Instr.add f, .sub f, .and f, .or f, .xor f, .sll f, .srl f, .sra f, .slt f, .sltn f, .min f, .max f, .minn f,
      .maxn f, .mul f, .mulh f, .mulhn f, .clz f, .ctz f, .popc f, .brev f, .sel f, .div f, .rem f, .divn f, .remn f],
      CompletesWith i s h.begun) ∧
  (∀ (f : MFields) (s : State) (h : Hart), s.running = some h → h.guardedOff f.gd f.gs = true →
    ∀ i ∈ [Instr.ldb f, .ldh f, .ldw f, .ldd f, .ldbn f, .ldhn f, .ldwn f, .stb f, .sth f, .stw f, .std f, .pref f, .aadd f,
      .aand f, .aor f, .axor f, .amin f, .amax f, .aminn f, .amaxn f, .axchg f, .acas f],
      CompletesWith i s h.begun)

/-- R155: the immediate operations of Table 6.2, which set no flag. SLLI, SRLI and SRAI are well formed with counts below 64.
R105: s0 reads zero, a write to it is discarded, and a write to another scalar register changes that register alone. -/
def Obligations.ImmediateResults : Prop :=
  (∀ (f : IFields) (s : State) (h : Hart), s.running = some h →
     let a := h.sreg f.a
     let imm : Int := f.imm.toInt
     let gives (i : Instr) (x : Word) : Prop := CompletesWith i s (h.begun.setS f.d x)
     gives (.addi f) (BitVec.ofInt 64 (a.toNat + imm)) ∧ gives (.andi f) (a &&& BitVec.ofInt 64 imm) ∧
     gives (.ori f) (a ||| BitVec.ofInt 64 imm) ∧ gives (.xori f) (a ^^^ BitVec.ofInt 64 imm) ∧
     gives (.slli f) (BitVec.ofNat 64 (a.toNat * 2 ^ f.imm.toNat)) ∧
     gives (.srli f) (BitVec.ofNat 64 (a.toNat / 2 ^ f.imm.toNat)) ∧
     gives (.srai f) (BitVec.ofInt 64 (a.toInt / 2 ^ f.imm.toNat)) ∧
     gives (.slti f) (if a.toInt < imm then 1 else 0) ∧ gives (.li f) (BitVec.ofInt 64 imm) ∧
     (∃ x, gives (.lih f) x ∧ (∀ j, j < 32 → x.getLsbD j = a.getLsbD j) ∧
       ∀ j, j < 32 → x.getLsbD (32 + j) = f.imm.getLsbD j)) ∧
  (∀ (h : Hart) (r q : RegIdx) (x : Word), h.sreg 0 = 0 ∧ h.setS 0 x = h ∧
     (h.setS r x).sreg q = (if q = r ∧ r ≠ 0 then x else h.sreg q) ∧ { h.setS r x with s := h.s } = h)

/-- R118: a hint only advances the PC, whatever its bits hold. -/
def Obligations.HintOnlyAdvances : Prop :=
  ∀ (hint : BitVec 2) (bits : BitVec 56) (s : State) (h : Hart), s.running = some h →
    decodeWord (encodeWord (.nop hint bits)) = .ok (.nop hint bits) ∧ CompletesWith (.nop hint bits) s h.begun

/-! ### Branches, jumps and loops -/

/-- R157: a compare and branch whose condition holds passes control to PC + 8 × OFF32 and leaves the loop levels of R140; one
whose condition fails only falls through. R140: the levels that a taken branch at program level leaves are those, from the
innermost out, whose body its target lies outside, up to the first it lies in; R441: at system level none is left. -/
def Obligations.BranchOutcomes : Prop :=
  (∀ (f : JFields) (s : State) (h : Hart), s.running = some h →
     let a := h.sreg f.a
     let b := h.sreg f.b
     let t : Word := BitVec.ofInt 64 (h.pc.toNat + 8 * f.off.toInt)
     let branches (i : Instr) (c : Prop) : Prop :=
       (c → JumpsWith i s (h.begun.leaveLoops t) t) ∧ (¬ c → CompletesWith i s h.begun)
     branches (.beq f) (a = b) ∧ branches (.bne f) (a ≠ b) ∧ branches (.blt f) (a.toInt < b.toInt) ∧
     branches (.bge f) (b.toInt ≤ a.toInt) ∧ branches (.bltn f) (a.toNat < b.toNat) ∧
     branches (.bgen f) (b.toNat ≤ a.toNat)) ∧
  (∀ (h : Hart) (t : Word), { h.leaveLoops t with ctl := h.ctl } = h ∧
     (h.leaveLoops t).ctl = { h.ctl with loops := (h.leaveLoops t).ctl.loops } ∧
     (h.trp.prv = true → (h.leaveLoops t).ctl.loops = h.ctl.loops) ∧
     (h.trp.prv = false → ∃ k, (h.leaveLoops t).ctl.loops = h.ctl.loops.drop k ∧
       (∀ l ∈ h.ctl.loops.take k, ¬ (l.start.toNat ≤ t.toNat ∧ t.toNat < l.stop.toNat)) ∧
       ∀ l ∈ (h.ctl.loops.drop k).head?, l.start.toNat ≤ t.toNat ∧ t.toNat < l.stop.toNat))

/-- R159: JMP, JAL, JR and RET: their targets, links and the levels they leave; a register jump to a target that is no multiple
of 8 traps MISALIGN at the jump and writes nothing. -/
def Obligations.JumpOutcomes : Prop :=
  ∀ (f : JFields) (s : State) (h : Hart), s.running = some h →
    let t : Word := BitVec.ofInt 64 (h.pc.toNat + 8 * f.off.toInt)
    let r : Word := BitVec.ofInt 64 ((h.sreg f.a).toNat + 8 * f.off.toInt)
    JumpsWith (.jmp f) s (h.begun.leaveLoops t) t ∧
    JumpsWith (.jal f) s (h.begun.setS f.d (h.pc + 8)) t ∧
    (r.toNat % 8 = 0 → JumpsWith (.jr f) s ((h.begun.setS f.d (h.pc + 8)).leaveLoops r) r) ∧
    (r.toNat % 8 ≠ 0 → h.trp.prv = false → TrapsWith (.jr f) s h.begun .misalign r) ∧
    ((h.sreg 1).toNat % 8 = 0 → JumpsWith (.ret f) s h.begun (h.sreg 1)) ∧
    ((h.sreg 1).toNat % 8 ≠ 0 → h.trp.prv = false → TrapsWith (.ret f) s h.begun .misalign (h.sreg 1))

/-- R138, R142 and R160 at program level: LOOP and LOOPP push their level and enter the body, or skip it for a count of 0, or
stop at the first of their checks that fails, with nothing changed. R141: LCNT writes the count of the innermost level, or 0
when the loop stack is empty. R139: where an instruction completes and control does not jump, the PC moves to the next word E; if
E ends the innermost level, the level goes on at its first word with one execution fewer, or is popped when none is left, and the
step repeats for the level then innermost. R145: where the level that goes on is pipelined, its count of executions that start is
one fewer, down to 0, the guards shift up by one with bit 0 set while that count is not 0, and the base of the rotating block
moves down by one around its size. At system level there is no loop-back step (R441). -/
def Obligations.LoopOutcomes : Prop :=
  (∀ (f : JFields) (s : State) (h : Hart), s.running = some h →
     (h.ctl.loops = [] → CompletesWith (.lcnt f) s (h.begun.setS f.d 0)) ∧
     (∀ l r, h.ctl.loops = l :: r → CompletesWith (.lcnt f) s (h.begun.setS f.d l.count)) ∧
     (h.trp.prv = false →
     let n := (h.sreg f.a).toNat % 2 ^ 32
     let stop : Word := BitVec.ofInt 64 (h.pc.toNat + 8 * f.off.toInt)
     let rb := 64 * bit01 (f.d.getLsbD 3) + f.b.toNat
     let st := f.d.toNat % 8 + 1
     let full := 4 ≤ h.ctl.loops.length
     let pushed (e : Hart) (c : Nat) (p : Option (BitVec 32 × BitVec 4)) : Hart :=
       { e with ctl := { e.ctl with loops :=
           { start := h.pc + 8, stop := stop, count := BitVec.ofNat 64 c, pipe := p } :: h.ctl.loops } }
     (f.off.toInt < 2 → TrapsWith (.loop f) s h.begun .illop (encodeWord (.loop f)) ∧
       TrapsWith (.loopp f) s h.begun .illop (encodeWord (.loopp f))) ∧
     (2 ≤ f.off.toInt → full → TrapsWith (.loop f) s h.begun .queue 5 ∧ TrapsWith (.loopp f) s h.begun .queue 5) ∧
     (2 ≤ f.off.toInt → ¬ full → n = 0 → JumpsWith (.loop f) s (h.begun.leaveLoops stop) stop) ∧
     (2 ≤ f.off.toInt → ¬ full → n ≠ 0 → JumpsWith (.loop f) s (pushed h.begun n none) (h.pc + 8)) ∧
     (2 ≤ f.off.toInt → ¬ full → h.ctl.loops.any (fun l => l.pipe.isSome) = true →
       TrapsWith (.loopp f) s h.begun .queue 6) ∧
     (2 ≤ f.off.toInt → ¬ full → h.ctl.loops.any (fun l => l.pipe.isSome) = false → h.nv < rb →
       TrapsWith (.loopp f) s h.begun .group (encodeWord (.loopp f))) ∧
     (2 ≤ f.off.toInt → ¬ full → h.ctl.loops.any (fun l => l.pipe.isSome) = false → rb ≤ h.nv → n = 0 →
       JumpsWith (.loopp f) s (h.begun.leaveLoops stop) stop) ∧
     (2 ≤ f.off.toInt → ¬ full → h.ctl.loops.any (fun l => l.pipe.isSome) = false → rb ≤ h.nv → n ≠ 0 →
       JumpsWith (.loopp f) s
         (pushed { h.begun with ctl := { h.ctl with greg := 1 },
                                vec := { h.vec with rotBase := 0, rotSize := BitVec.ofNat 7 rb } }
           (n + st - 1) (some (BitVec.ofNat 32 n, BitVec.ofNat 4 st)))
         (h.pc + 8)))) ∧
  (∀ h : Hart, (h.trp.prv = true → h.fallThrough = { h with pc := h.pc + 8 }) ∧
     (h.trp.prv = false →
       ∃ k, (∀ l ∈ h.ctl.loops.take k, l.stop = h.pc + 8 ∧ l.count.toNat ≤ 1) ∧
         match h.ctl.loops.drop k with
         | [] => h.fallThrough = { h with pc := h.pc + 8, ctl := { h.ctl with loops := [] } }
         | l :: r =>
           if l.stop = h.pc + 8 then
             1 < l.count.toNat ∧
             match l.pipe with
             | none =>
               h.fallThrough = { h with pc := l.start, ctl := { h.ctl with loops := { l with count := l.count - 1 } :: r } }
             | some (nn, st) =>
               let left := nn.toNat - 1
               let size := h.vec.rotSize.toNat
               ∃ (g : BitVec 8) (base : BitVec 6),
                 (∀ j, j < 8 → g.getLsbD j = if j = 0 then decide (left ≠ 0) else h.ctl.greg.getLsbD (j - 1)) ∧
                 base = (if size = 0 then h.vec.rotBase else BitVec.ofNat 6 ((h.vec.rotBase.toNat + size - 1) % size)) ∧
                 h.fallThrough =
                   { h with pc := l.start, vec := { h.vec with rotBase := base },
                            ctl := { h.ctl with greg := g, loops :=
                              { l with count := l.count - 1, pipe := some (BitVec.ofNat 32 left, st) } :: r } }
           else h.fallThrough = { h with pc := h.pc + 8, ctl := { h.ctl with loops := l :: r } }))

/-- R131, R162 and R172: BCQ, CQPOP and LQPOP pop their queue; an empty queue traps QUEUE with nothing popped when QCHK is set,
and else gives 0 and sets UNDER. -/
def Obligations.QueuePops : Prop :=
  ∀ (f : RFields) (j : JFields) (s : State) (h : Hart), s.running = some h →
    let t : Word := BitVec.ofInt 64 (h.pc.toNat + 8 * j.off.toInt)
    let branch (e : Hart) (b : Bool) : Prop :=
      if b = (j.a == 0) then JumpsWith (.bcq j) s (e.leaveLoops t) t else CompletesWith (.bcq j) s e
    let cq (r : List Bool) : Hart := { h.begun with ctl := { h.ctl with cq := r } }
    let lq (r : List (BitVec 32)) : Hart := { h.begun with ctl := { h.ctl with lq := r } }
    let cu : Hart := { h.begun with ctl := { h.ctl with cqUnder := true } }
    let lu : Hart := { h.begun with ctl := { h.ctl with lqUnder := true } }
    (∀ b r, h.ctl.cq = b :: r → branch (cq r) b ∧ CompletesWith (.cqpop f) s ((cq r).setS f.d (if b then 1 else 0))) ∧
    (∀ n r, h.ctl.lq = n :: r → CompletesWith (.lqpop f) s ((lq r).setS f.d (BitVec.ofNat 64 n.toNat))) ∧
    (h.ctl.cq = [] → h.ctl.cqChk = false → branch cu false ∧ CompletesWith (.cqpop f) s (cu.setS f.d 0)) ∧
    (h.ctl.lq = [] → h.ctl.lqChk = false → CompletesWith (.lqpop f) s (lu.setS f.d 0)) ∧
    (h.trp.prv = false → h.ctl.cq = [] → h.ctl.cqChk = true →
      TrapsWith (.bcq j) s h.begun .queue 3 ∧ TrapsWith (.cqpop f) s h.begun .queue 3) ∧
    (h.trp.prv = false → h.ctl.lq = [] → h.ctl.lqChk = true → TrapsWith (.lqpop f) s h.begun .queue 1)

/-! ### The vector configuration -/

/-- R166: VDECL sets NVC and SEWC, and zeroes the vector and mask registers, VL.LEN, VSTART and ROTB; ORD is kept. R171: VGETMAX
writes VLMAX to sD and changes no other state. -/
def Obligations.VectorConfiguration : Prop :=
  ∀ (f : RFields) (s : State) (h : Hart), s.running = some h →
    CompletesWith (.vdecl f) s
      { h.begun with vec := { h.vec with
          nvc := f.aux.extractLsb' 0 2, sewc := f.aux.extractLsb' 2 2, v := Vector.replicate 64 0, m := Vector.replicate 8 0,
          len := 0, vstart := 0, rotBase := 0, rotSize := 0 } } ∧
    CompletesWith (.vgetmax f) s (h.begun.setS f.d (BitVec.ofNat 64 h.vlmax)) ∧ h.vlmax < 2 ^ 16 ∧
    h.vlmax = min (partitionOf h.vec.vlclass / ((h.nv + h.nv / 4) * (h.sew / 8)) / h.lanes * h.lanes) 32768

/-- R167, R168 and R169: VSETL and VSETLQ open a strip of the lesser of the length asked for and VLMAX, with VSTART = 0 and the
next ORD; VSETLQ takes the length from its queue. The strip's address is kept with them. With a debug stop requested they trap
STRIPSTOP instead (R449), which the statement on traps says. -/
def Obligations.StripsOpen : Prop :=
  ∀ (f : RFields) (s : State) (h : Hart), s.running = some h → h.stripStops = false →
    let strip (e : Hart) (n : Nat) : Hart :=
      { e with vec := { h.vec with len := BitVec.ofNat 16 (min n h.vlmax), vstart := 0, ord := h.vec.ord + 1 },
               obs := { h.obs with strip := h.pc } }
    CompletesWith (.vsetl f) s
      ((strip h.begun (h.sreg f.a).toNat).setS f.d (BitVec.ofNat 64 (min (h.sreg f.a).toNat h.vlmax))) ∧
    (∀ n r, h.ctl.lq = n :: r →
      CompletesWith (.vsetlq f) s (strip { h.begun with ctl := { h.ctl with lq := r } } n.toNat)) ∧
    (h.ctl.lq = [] → h.ctl.lqChk = false →
      CompletesWith (.vsetlq f) s (strip { h.begun with ctl := { h.ctl with lqUnder := true } } 0)) ∧
    (h.trp.prv = false → h.ctl.lq = [] → h.ctl.lqChk = true →
      TrapsWith (.vsetlq f) s (h.begun.setVstart 0) .queue 1)


/-! ### Vector arithmetic -/

/-- Table 4.12, order 4: a vector instruction, on registers or memory, whose operand groups break a rule of register groups traps
GROUP, and nothing else happens; R111: one whose guard bit is 0 only sets VSTART to 0. -/
def Obligations.VectorChecks : Prop :=
  (∀ (i : Instr) (f : RFields) (gs : List Group) (clash : Bool) (s : State) (h : Hart),
    vectorOperands i = some (f, gs, clash) → s.running = some h →
    (h.trp.prv = false → ¬ (h.GroupsOk gs ∧ clash = false) → TrapsWith i s h.begun .group (encodeWord i)) ∧
    (h.GroupsOk gs → clash = false → h.guardedOff f.gd f.gs = true → CompletesWith i s (h.begun.setVstart 0))) ∧
  (∀ (f : MFields) (s : State) (h : Hart), s.running = some h →
    let data := groupM f f.d f.et.bits
    let index := groupM f f.b (indexWidth f)
    let indexed := f.am == 2
    let all := if indexed then [data, index] else [data]
    ∀ x ∈ ([(.vld f, all, indexed && data.overlaps index), (.vldff f, all, false), (.vst f, all, false),
        (.vrstore f, [data], false), (.vaadd f, all, false), (.vamin f, all, false), (.vamax f, all, false),
        (.vpref f, if indexed then [index] else [], false)] : List (Instr × List Group × Bool)),
      (h.trp.prv = false → ¬ (h.GroupsOk x.2.1 ∧ x.2.2 = false) → TrapsWith x.1 s h.begun .group (encodeWord x.1)) ∧
      (h.GroupsOk x.2.1 → x.2.2 = false → h.guardedOff f.gd f.gs = true → CompletesWith x.1 s (h.begun.setVstart 0)))

/-- R216 and R218: the integer operations of Table 9.1 that have an exact integer result, which each active element takes
wrapped to its width, or clamped when SAT is set, with OF set when clamping changes the result of some active element. Elements
read and clamp with the signedness of ET. Inactive elements, other registers and all else stay as they are. -/
def Obligations.VectorIntegerResults : Prop :=
  ∀ (f : RFields) (s : State) (h : Hart), s.running = some h → f.et.isInt = true →
    let w := f.et.bits
    let rd (x : Nat) : Int := if f.et.isSigned then (BitVec.ofNat w x).toInt else x
    let a (i : Nat) : Int := rd (h.readElem f.a w i)
    let b (i : Nat) : Int := rd (h.readElem f.b w i)
    let d (i : Nat) : Int := rd (h.readElem f.d w i)
    let c : Int := rd ((h.sreg f.b).toNat % 2 ^ w)
    let lo : Int := if f.et.isSigned then -(2 ^ (w - 1)) else 0
    let hi : Int := if f.et.isSigned then 2 ^ (w - 1) - 1 else 2 ^ w - 1
    let fits (x : Int) : Prop := lo ≤ x ∧ x ≤ hi
    let out (x : Int) : Nat := ((if f.sat then max lo (min hi x) else x) % 2 ^ w).toNat
    let gives (i : Instr) (x : Nat → Int) : Prop := VectorReady i s h →
      ∃ e, CompletesWith i s e ∧ WritesGroup h e f.d (groupSize f.gm) ∧
        Elements h e (govR f) f.d (groupSize f.gm) w (fun i => out (x i)) ∧
        ((∃ i, h.active (govR f) i = true ∧ f.sat = true ∧ ¬ fits (x i)) →
          e.ar.aflags = h.ar.aflags ||| BitVec.ofNat 64 Flag.ovf.bit) ∧
        ((∀ i, h.active (govR f) i = true → f.sat = true → fits (x i)) → e.ar.aflags = h.ar.aflags)
    gives (.vadd f) (fun i => a i + b i) ∧ gives (.vsub f) (fun i => a i - b i) ∧
    gives (.vmul f) (fun i => a i * b i) ∧
    gives (.vmulh f) (fun i => a i * b i / 2 ^ w) ∧
    gives (.vmac f) (fun i => d i + a i * b i) ∧
    gives (.vadds f) (fun i => a i + c) ∧ gives (.vsubs f) (fun i => a i - c) ∧
    gives (.vmin f) (fun i => min (a i) (b i)) ∧ gives (.vmax f) (fun i => max (a i) (b i)) ∧
    gives (.vabs f) (fun i => (a i).natAbs) ∧ gives (.vneg f) (fun i => -a i)

/-- R218, R220 and R221: the operations on element bits: logic, shifts by the low bits of the count, counts of zero and one
bits, moves, broadcasts and indices. VSEL takes A where its mask bit, as AUX bit 4 reads it, is 1, and B elsewhere, at every
element from VSTART below VL. No flag changes. -/
def Obligations.VectorBitResults : Prop :=
  ∀ (f : RFields) (s : State) (h : Hart), s.running = some h →
    let w := f.et.bits
    let a := h.readElem f.a w
    let b := h.readElem f.b w
    let gives (g : Governing) (i : Instr) (x : Nat → Nat) : Prop := VectorReady i s h →
      ∃ e, CompletesWith i s e ∧ WritesGroup h e f.d (groupSize f.gm) ∧ Elements h e g f.d (groupSize f.gm) w x ∧
        e.ar = h.ar
    let does := gives (govR f)
    does (.vand f) (fun i => a i &&& b i) ∧ does (.vor f) (fun i => a i ||| b i) ∧
    does (.vxor f) (fun i => a i ^^^ b i) ∧ does (.vsll f) (fun i => a i <<< (b i % w)) ∧
    does (.vsrl f) (fun i => a i >>> (b i % w)) ∧
    does (.vsra f) (fun i => ((BitVec.ofNat w (a i)).sshiftRight (b i % w)).toNat) ∧
    does (.vpopc f) (fun i => (List.range w).countP fun j => (a i).testBit j) ∧
    (∃ n : Nat → Nat, does (.vclz f) n ∧ ∀ i, n i ≤ w ∧
      (∀ j, w - n i ≤ j → j < w → (a i).testBit j = false) ∧ (n i < w → (a i).testBit (w - 1 - n i) = true)) ∧
    does (.vmv f) a ∧ does (.vbcast f) (fun _ => (h.sreg f.a).toNat) ∧
    does (.vid f) (fun i => i) ∧
    gives Governing.off (.vsel f) (fun i => if h.maskBit f.mr.toNat i != f.aux4 then a i else b i)

/-- R219: VWMUL and VWMAC form a × b at twice the width in a group of twice the size, which may overlap no source; VWMAC adds it
to the element of D there. SAT clamps at the wide width and sets OF. R223: VDIV and VREM per element, division by zero and the
overflow of the most negative number by −1 among them. -/
def Obligations.WideningAndDivision : Prop :=
  (∀ (f : RFields) (s : State) (h : Hart), s.running = some h → etWiden f.et = true →
     let w := f.et.bits
     let w2 := 2 * f.et.bits
     let rd (k : Nat) (x : Nat) : Int := if f.et.isSigned then (BitVec.ofNat k x).toInt else x
     let p (i : Nat) : Int := rd w (h.readElem f.a w i) * rd w (h.readElem f.b w i)
     let lo : Int := if f.et.isSigned then -(2 ^ (w2 - 1)) else 0
     let hi : Int := if f.et.isSigned then 2 ^ (w2 - 1) - 1 else 2 ^ w2 - 1
     let out (x : Int) : Nat := ((if f.sat then max lo (min hi x) else x) % 2 ^ w2).toNat
     let gives (i : Instr) (x : Nat → Int) : Prop := VectorReady i s h →
       ∃ e, CompletesWith i s e ∧ WritesGroup h e f.d (2 * groupSize f.gm) ∧
         Elements h e (govR f) f.d (2 * groupSize f.gm) w2 (fun i => out (x i)) ∧
         ((∃ i, h.active (govR f) i = true ∧ f.sat = true ∧ ¬ (lo ≤ x i ∧ x i ≤ hi)) →
           e.ar.aflags = h.ar.aflags ||| BitVec.ofNat 64 Flag.ovf.bit)
     gives (.vwmul f) p ∧ gives (.vwmac f) (fun i => rd w2 (h.readElem f.d w2 i) + p i)) ∧
  (∀ (f : RFields) (s : State) (h : Hart), VectorReady (.vdiv f) s h → f.et.isInt = true →
     let w := f.et.bits
     let rd (x : Nat) : Int := if f.et.isSigned then (BitVec.ofNat w x).toInt else x
     let a (i : Nat) := h.readElem f.a w i
     let b (i : Nat) := h.readElem f.b w i
     ∃ (q r : Nat → Nat) (e1 e2 : Hart), CompletesWith (.vdiv f) s e1 ∧ CompletesWith (.vrem f) s e2 ∧
       WritesGroup h e1 f.d (groupSize f.gm) ∧ WritesGroup h e2 f.d (groupSize f.gm) ∧
       Elements h e1 (govR f) f.d (groupSize f.gm) w q ∧ Elements h e2 (govR f) f.d (groupSize f.gm) w r ∧
       (∀ i, b i = 0 → q i = 2 ^ w - 1 ∧ r i = a i) ∧
       (∀ i, f.et.isSigned = true → rd (a i) = -(2 ^ (w - 1)) → rd (b i) = -1 → q i = a i ∧ r i = 0) ∧
       (∀ i, b i ≠ 0 → ¬ (f.et.isSigned = true ∧ rd (a i) = -(2 ^ (w - 1)) ∧ rd (b i) = -1) →
         rd (a i) = rd (q i) * rd (b i) + rd (r i) ∧ (rd (r i)).natAbs < (rd (b i)).natAbs ∧
         (rd (r i) = 0 ∨ (rd (r i) < 0 ↔ rd (a i) < 0))) ∧
       ((∃ i, h.active (govR f) i = true ∧ b i = 0) →
         e1.ar.aflags.getLsbD 1 = true ∧ e2.ar.aflags.getLsbD 1 = true))

/-- R222 and R227: VCMP and VFCMP write to the mask register D, at each active position, whether the condition of AUX holds of
the elements; VFCMP's conditions are those of Table 9.3, an unordered pair satisfying codes 1 and 6 alone. -/
def Obligations.CompareResults : Prop :=
  ∀ (f : RFields) (s : State) (h : Hart), VectorReady (.vcmp f) s h → f.d.toNat < 8 →
    let w := f.et.bits
    let rd (r : RegIdx) (i : Nat) : Int :=
      if f.et.isSigned then (BitVec.ofNat w (h.readElem r w i)).toInt else h.readElem r w i
    let num (r : RegIdx) (i : Nat) : Fp := (fmtOf f.et).operand h.ftz (h.readElem r w i)
    let holds (o : Int) : Bool :=
      match f.aux.toNat with
      | 0 => o == 0 | 1 => o != 0 | 2 => o < 0 | 3 => o ≤ 0 | 4 => 0 < o | _ => 0 ≤ o
    let gives (i : Instr) (c : Nat → Bool) : Prop :=
      ∃ e, CompletesWith i s e ∧ WritesMask h e (govR f) f.d.toNat ∧
        ∀ i, h.active (govR f) i = true → e.maskBit f.d.toNat i = c i
    (f.et.isInt = true → f.aux.toNat < 6 → gives (.vcmp f) (fun i => holds (rd f.a i - rd f.b i))) ∧
    (f.et.isFloat = true → f.aux.toNat < 8 → gives (.vfcmp f) (fun i =>
      match (num f.a i).cmp (num f.b i) with
      | none => f.aux.toNat == 1 || f.aux.toNat == 6
      | some o => if f.aux.toNat < 6 then holds o else f.aux.toNat == 7))

/-- R225 to R233, R248 and R250: the floating operations, special functions, conversions, and the permutes that write one
element for each active one complete, and change nothing but active elements of their destination group, flags that become set,
and SEED by their draws. R249, R251 to R261: VPUSHL, VCOMPR, VREC, the reductions and scans, sorts, selections and VSPRS
complete, and change nothing but their destination groups, the collision mask of VPUSHL, flags that become set, and SEED by
draws. VGTOPK does when its results have room in their groups. -/
def Obligations.VectorFrames : Prop :=
  (∀ (f : RFields) (s : State) (h : Hart),
     ∀ i ∈ [Instr.vfadd f, .vfsub f, .vfmul f, .vfma f, .vfms f, .vfnma f, .vfmin f, .vfmax f, .vfclass f, .vfabs f, .vfneg f,
         .vfdiv f, .vfsqrt f, .vfrcp f, .vfrsq f, .vexp2 f, .vlog2 f, .vexp f, .vlog f, .vtanh f, .vcvt f, .vslideup f,
         .vslidedn f, .vperm f, .vexpnd f], VectorReady i s h →
       ∃ e, CompletesWith i s e ∧ WritesVector h e [groupR f f.d f.et.bits] [] ∧
         ∀ j, j * f.et.bits < groupSize f.gm * h.regBits → h.active (govR f) j = false →
           e.readElem f.d f.et.bits j = h.readElem f.d f.et.bits j) ∧
  (∀ (f : RFields) (s : State) (h : Hart),
     let w := f.et.bits
     let d := [groupR f f.d w]
     let roomy := ∀ p, gateOf h.begun (h.sreg f.b) = some p →
       h.vl / p.experts * (p.choose + 1) ≤ groupSize f.gm * h.vlmax * h.sew / 32
     ∀ x ∈ [(Instr.vpushl f, d, if f.aux.getLsbD 0 then [f.c.toNat] else []), (.vcompr f, d, []), (.vrec f, d, []),
         (.vredsum f, d, []), (.vredmax f, d, []), (.vredmin f, d, []), (.vredand f, d, []), (.vredor f, d, []),
         (.vscan f, d, []), (.vbsort f, groupR f f.c w :: d, []), (.vbmerge f, groupR f f.c w :: d, []),
         (.vtopk f, groupR f f.c (positionWidth f) :: d, []), (.vgtopk f, groupR f f.c 32 :: d, []),
         (.vsprs f, groupR f f.c 16 :: d, [])],
       VectorReady x.1 s h → (x.1 = .vgtopk f → roomy) →
       ∃ e, CompletesWith x.1 s e ∧ WritesVector h e x.2.1 x.2.2)

/-- R225 and R226 with a rounding mode that takes no draw: each active element of D is the operation on the elements' values,
rounded once at ET; a NaN among the operands of VFADD, VFSUB, VFMUL, VFDIV, VFMA, VFMS and VFNMA gives the canonical NaN; VFMIN
and VFMAX give the lesser and the greater, and pass over a single NaN; VFABS and VFNEG change the sign bit of what is no NaN,
and raise no flag. -/
def Obligations.FloatResults : Prop :=
  ∀ (f : RFields) (s : State) (h : Hart) (m : Mode), f.et.isFloat = true → f.rm ≠ .rsr → h.roundMode f.rm = (m, h) →
    let t := fmtOf f.et
    let w := f.et.bits
    let v (r : RegIdx) (i : Nat) : Fp := t.operand h.ftz (h.readElem r w i)
    let gives (i : Instr) (x : Nat → Nat) : Prop := VectorReady i s h →
      ∃ e, CompletesWith i s e ∧ WritesVector h e [groupR f f.d w] [] ∧ Elements h e (govR f) f.d (groupSize f.gm) w x ∧
        e.ar.seed = h.ar.seed
    gives (.vfadd f) (fun i => (t.add m h.ftz (v f.a i) (v f.b i)).1) ∧
    gives (.vfsub f) (fun i => (t.add m h.ftz (v f.a i) (v f.b i).neg).1) ∧
    gives (.vfmul f) (fun i => (t.mul m h.ftz (v f.a i) (v f.b i)).1) ∧
    gives (.vfdiv f) (fun i => (t.div m h.ftz (v f.a i) (v f.b i)).1) ∧
    gives (.vfma f) (fun i => (t.fma m h.ftz (v f.a i) (v f.b i) (v f.c i)).1) ∧
    gives (.vfms f) (fun i => (t.fma m h.ftz (v f.a i) (v f.b i) (v f.c i).neg).1) ∧
    gives (.vfnma f) (fun i => (t.fma m h.ftz (v f.a i).neg (v f.b i) (v f.c i)).1) ∧
    (∀ a b c : Fp, (a = .nan ∨ b = .nan → (t.add m h.ftz a b).1 = t.nan ∧ (t.mul m h.ftz a b).1 = t.nan ∧
        (t.div m h.ftz a b).1 = t.nan) ∧
      (a = .nan ∨ b = .nan ∨ c = .nan → (t.fma m h.ftz a b c).1 = t.nan)) ∧
    gives (.vfmin f) (fun i => t.minMax false (v f.a i) (v f.b i)) ∧
    gives (.vfmax f) (fun i => t.minMax true (v f.a i) (v f.b i)) ∧
    (∀ g, t.minMax g .nan .nan = t.nan) ∧
    (∀ g x, x ≠ .nan → t.minMax g .nan x = t.exact x ∧ t.minMax g x .nan = t.exact x) ∧
    gives (.vfabs f) (fun i => if t.decode (h.readElem f.a w i) = .nan then t.nan else h.readElem f.a w i % 2 ^ (w - 1)) ∧
    gives (.vfneg f) (fun i => if t.decode (h.readElem f.a w i) = .nan then t.nan
      else h.readElem f.a w i ^^^ 2 ^ (w - 1))

/-! ### Masks, permutes, reductions and sorting -/

/-- R244 and R245: the mask instructions write, at each active position, the logic of the bits of A and B there, or a mark by
the position of the reference: the lowest active set bit of A, or the highest when AUX bit 0 is set. R132, R243 and R246: with
AUX bit 0, VMPOP and VMFIRST push the count of active set bits of A, and the position of the first or VL, to the length queue;
without it element 0 of D takes them when some element takes part. VANYQ and VALLQ push to the condition queue. A push to a
queue that holds 16 entries traps QUEUE instead, with nothing changed. -/
def Obligations.MaskResults : Prop :=
  (∀ (f : RFields) (s : State) (h : Hart), f.d.toNat < 8 →
     let a := h.maskBit f.a.toNat
     let b := h.maskBit f.b.toNat
     let on (i : Nat) : Prop := h.active (govR f) i = true
     let hit (i : Nat) : Prop := on i ∧ a i = true
     let high := f.aux.getLsbD 0
     let ref (r : Nat) : Prop := hit r ∧ ∀ i, hit i → if high then i ≤ r else r ≤ i
     let gives (i : Instr) (p : Nat → Bool → Prop) : Prop := VectorReady i s h →
       ∃ e, CompletesWith i s e ∧ WritesMask h e (govR f) f.d.toNat ∧ ∀ i, on i → p i (e.maskBit f.d.toNat i)
     gives (.vmand f) (fun i x => x = (a i && b i)) ∧ gives (.vmor f) (fun i x => x = (a i || b i)) ∧
     gives (.vmxor f) (fun i x => x = (a i != b i)) ∧ gives (.vmnot f) (fun i x => x = !a i) ∧
     gives (.vmset f) (fun _ x => x = true) ∧ gives (.vmclr f) (fun _ x => x = false) ∧
     gives (.vmpre f) (fun i x => x = true ↔ ∀ r, ref r → if high then r < i else i < r) ∧
     gives (.vminc f) (fun i x => x = true ↔ ∀ r, ref r → if high then r ≤ i else i ≤ r) ∧
     gives (.vmone f) (fun i x => x = true ↔ ref i)) ∧
  (∀ (f : RFields) (s : State) (h : Hart),
     let hits := (List.range h.vl).filter fun i => h.active (govR f) i && h.maskBit f.a.toNat i
     let n := hits.length
     let first := hits.head?.getD h.vl
     let lq (x : Nat) : Hart := { h.begun.setVstart 0 with ctl := { h.ctl with lq := h.ctl.lq ++ [BitVec.ofNat 32 x] } }
     let cq (x : Bool) : Hart := { h.begun.setVstart 0 with ctl := { h.ctl with cq := h.ctl.cq ++ [x] } }
     let elem (i : Instr) (x : Nat) : Prop := VectorReady i s h → f.aux.getLsbD 0 = false → h.vstart < h.vl →
       ∃ e, CompletesWith i s e ∧ WritesGroup h e f.d (groupSize f.gm) ∧ e.ar = h.ar ∧
         Elements { h with vec := { h.vec with vstart := 0, len := 1 } } e Governing.off f.d (groupSize f.gm) f.et.bits
           (fun _ => x)
     let push (i : Instr) (x : Nat) : Prop := VectorReady i s h → f.aux.getLsbD 0 = true →
       (h.ctl.lq.length < 16 → CompletesWith i s (lq x)) ∧
       (16 ≤ h.ctl.lq.length → h.trp.prv = false → TrapsWith i s h.begun .queue 2)
     let cond (i : Instr) (x : Bool) : Prop := VectorReady i s h →
       (h.ctl.cq.length < 16 → CompletesWith i s (cq x)) ∧
       (16 ≤ h.ctl.cq.length → h.trp.prv = false → TrapsWith i s h.begun .queue 4)
     elem (.vmpop f) n ∧ elem (.vmfirst f) first ∧ push (.vmpop f) n ∧ push (.vmfirst f) first ∧
     cond (.vanyq f) (decide (n ≠ 0)) ∧
     cond (.vallq f) (decide (∀ i ∈ List.range h.vl, h.active (govR f) i = true → h.maskBit f.a.toNat i = true)))

/-- R248 and R250: the slides and VPERM take the element of A that the offset or index names, zero from VL on; VSLIDEUP keeps
elements below the offset; VCOMPR packs the active elements of A to the low positions of D and keeps the others. -/
def Obligations.PermuteResults : Prop :=
  ∀ (f : RFields) (s : State) (h : Hart),
    let w := f.et.bits
    let a := h.readElem f.a w
    let off := (h.sreg f.b).toNat
    let gives (i : Instr) (x : Nat → Nat) : Prop := VectorReady i s h →
      ∃ e, CompletesWith i s e ∧ WritesGroup h e f.d (groupSize f.gm) ∧ e.ar = h.ar ∧
        Elements h e (govR f) f.d (groupSize f.gm) w x
    let packed := (List.range h.vl).filter (h.active (govR f))
    gives (.vslideup f) (fun i => if off ≤ i then a (i - off) else h.readElem f.d w i) ∧
    gives (.vslidedn f) (fun i => if i + off < h.vl then a (i + off) else 0) ∧
    gives (.vperm f) (fun i => if h.readElem f.b w i < h.vl then a (h.readElem f.b w i) else 0) ∧
    (VectorReady (.vcompr f) s h → ∃ e, CompletesWith (.vcompr f) s e ∧ WritesGroup h e f.d (groupSize f.gm) ∧ e.ar = h.ar ∧
      ∀ j, j * w < groupSize f.gm * h.regBits →
        e.readElem f.d w j = match packed[j]? with | some i => a i | none => h.readElem f.d w j)

/-- R253 for integer types: element 0 of D takes the sum, the extremes or the logic of the active elements, and with none the
empty result of Table 10.4. R256 and R257: VBSORT and VBMERGE write to the active positions of D and C, in order, the active
keys of A with their values of B, rearranged; for integer keys they come out in order, descending when AUX bit 0 is set. -/
def Obligations.ReductionsAndSorts : Prop :=
  (∀ (f : RFields) (s : State) (h : Hart), f.et.isInt = true → f.sat = false → h.vstart < h.vl →
     let w := f.et.bits
     let rd (x : Nat) : Int := if f.et.isSigned then (BitVec.ofNat w x).toInt else x
     let xs := ((List.range h.vl).filter (h.active (govR f))).map (h.readElem f.a w)
     let gives (i : Instr) (p : Nat → Prop) : Prop := VectorReady i s h →
       ∃ e, CompletesWith i s e ∧ p (e.readElem f.d w 0)
     gives (.vredsum f) (fun x => x = xs.sum % 2 ^ w) ∧
     gives (.vredand f) (fun x => ∀ j, j < w → x.testBit j = xs.all fun y => y.testBit j) ∧
     gives (.vredor f) (fun x => ∀ j, j < w → x.testBit j = xs.any fun y => y.testBit j) ∧
     gives (.vredmax f) (fun x => (xs = [] → rd x = if f.et.isSigned then -(2 ^ (w - 1)) else 0) ∧
       (xs ≠ [] → x ∈ xs) ∧ ∀ y ∈ xs, rd y ≤ rd x) ∧
     gives (.vredmin f) (fun x => (xs = [] → rd x = if f.et.isSigned then 2 ^ (w - 1) - 1 else 2 ^ w - 1) ∧
       (xs ≠ [] → x ∈ xs) ∧ ∀ y ∈ xs, rd x ≤ rd y)) ∧
  (∀ (f : RFields) (s : State) (h : Hart),
     let w := f.et.bits
     let rd (x : Nat) : Int := if f.et.isSigned then (BitVec.ofNat w x).toInt else x
     let at_ := (List.range h.vl).filter (h.active (govR f))
     ∀ i ∈ [Instr.vbsort f, .vbmerge f], VectorReady i s h → f.et ≠ .f64 →
       ∃ e, CompletesWith i s e ∧
         (at_.map fun j => (e.readElem f.d w j, e.readElem f.c w j)).Perm
           (at_.map fun j => (h.readElem f.a w j, h.readElem f.b w j)) ∧
         (f.et.isInt = true → (at_.map fun j => rd (e.readElem f.d w j)).Pairwise
           fun x y => if f.aux.getLsbD 0 then y ≤ x else x ≤ y))

/-- R234, R236 and R332: VQUANT and VDEQ, once the core's matrix engine holds their hart's scale registers, complete where those
registers have room for the strip's block headers: VDEQ changes active elements of D, and VQUANT elements of D and headers of
the scale registers from C on; where there is no room they trap GROUP. -/
def Obligations.ScaledVectors : Prop :=
  ∀ (f : RFields) (s : State) (h : Hart),
    let s0 := (s.setHart s.cur h.begun).claimMatrix s.cur
    let room := h.vl ≤ h.vstart ∨ f.c.toNat + ((h.vl + 31) / 32 - 1) / 64 ≤ 7
    ∀ i ∈ [Instr.vquant f, .vdeq f], VectorReady i s h →
      ∃ h0, s0.hart? s.cur = some h0 ∧ { h0 with mat := h.mat } = h.begun ∧
        (room → ∃ e, Completes i s (s0.setHart s.cur e) ∧
          WritesVector h0 { e with mat := h0.mat } [groupR f f.d f.et.bits] [] ∧
          e.mat.t = h0.mat.t ∧ e.mat.acc = h0.mat.acc ∧ (i = .vdeq f → e.mat = h0.mat) ∧
          ∀ r j, r < f.c.toNat → e.header r j = h0.header r j) ∧
        (¬ room → h.trp.prv = false → Traps i s s0 .group (encodeWord i))

/-- R113 to R116: a paired word reads the operands of both slots before either writes; a scalar slot writes the value of Table
4.11 to its D, and VSTART is 0 after the word. Where both slots write one register, slot 1 is the later. R114 to R116: a paired
word of two vector slots on different registers completes when its registers keep the group rules: each active element of D
takes Table 4.11's operation on D and A, the integer ones wrapped, the floating ones rounded to nearest-even, and all else stays
but flags. A paired word of any two slots changes scalar and vector registers, flags and VSTART, which is 0, alone. -/
def Obligations.PairedWords : Prop :=
  (∀ (o0 o1 : ScalarHop) (d0 a0 d1 a1 : RegIdx) (k0 k1 : Option (BitVec 11)) (s : State) (h : Hart), s.running = some h →
     let pair (d a : RegIdx) (k : Option (BitVec 11)) : Word × Word :=
       match k with
       | none => (h.sreg d, h.sreg a)
       | some k => (h.sreg a, BitVec.ofInt 64 k.toInt)
     let value (o : ScalarHop) (p : Word × Word) : Word :=
       let x := p.1
       let y := p.2
       match o with
       | .add => x + y | .sub => x - y | .and => x &&& y | .or => x ||| y | .xor => x ^^^ y
       | .sll => x <<< (y.toNat % 64) | .srl => x >>> (y.toNat % 64) | .sra => x.sshiftRight (y.toNat % 64) | .mov => y
       | .min => if x.toInt ≤ y.toInt then x else y | .max => if x.toInt ≤ y.toInt then y else x
       | .minn => if x.toNat ≤ y.toNat then x else y | .maxn => if x.toNat ≤ y.toNat then y else x
       | .mul => x * y | .slt => if x.toInt < y.toInt then 1 else 0 | .sltn => if x.toNat < y.toNat then 1 else 0
     CompletesWith (.pairedWord (.scalar o0 d0 a0 k0) (.scalar o1 d1 a1 k1)) s
       (((h.begun.setS d0 (value o0 (pair d0 a0 k0))).setS d1 (value o1 (pair d1 a1 k1))).setVstart 0)) ∧
  (∀ (o0 o1 : VectorHop) (d0 a0 d1 a1 : RegIdx) (t0 t1 : ElemType) (m0 m1 x0 x1 : Bool) (s : State) (h : Hart),
     s.running = some h → h.VectorOk → d0 ≠ d1 →
     let p := Instr.pairedWord (.vector o0 d0 a0 t0 m0 x0) (.vector o1 d1 a1 t1 m1 x1)
     let gs := slotGroups (.vector o0 d0 a0 t0 m0 x0) ++ slotGroups (.vector o1 d1 a1 t1 m1 x1)
     let value (o : VectorHop) (t : ElemType) (x y : Nat) : Nat :=
       let rd (z : Nat) : Int := if t.isSigned then (BitVec.ofNat t.bits z).toInt else z
       let p := (fmtOf t).operand h.ftz x
       let q := (fmtOf t).operand h.ftz y
       match o with
       | .vadd => x + y | .vsub => x + 2 ^ t.bits - y | .vmul => x * y | .vand => x &&& y | .vor => x ||| y
       | .vxor => x ^^^ y | .vmin => if rd x ≤ rd y then x else y | .vmax => if rd x ≤ rd y then y else x | .vmv => y
       | .vfadd => ((fmtOf t).add .rne h.ftz p q).1 | .vfsub => ((fmtOf t).add .rne h.ftz p q.neg).1
       | .vfmul => ((fmtOf t).mul .rne h.ftz p q).1 | .vfmin => (fmtOf t).minMax false p q
       | .vfmax => (fmtOf t).minMax true p q | .vsll => x * 2 ^ (y % t.bits) | .vsrl => x / 2 ^ (y % t.bits)
     let does (e : Hart) (o : VectorHop) (d a : RegIdx) (t : ElemType) (m : Bool) : Prop :=
       Elements h e (slotGov m) d 1 t.bits fun i => value o t (h.readElem d t.bits i) (h.readElem a t.bits i)
     (¬ h.GroupsOk gs → h.trp.prv = false → TrapsWith p s h.begun .group (encodeWord p)) ∧
     (h.GroupsOk gs → ∃ e, CompletesWith p s e ∧
       WritesVector h e [{ first := d0, size := 1, width := t0.bits }, { first := d1, size := 1, width := t1.bits }] [] ∧
       does e o0 d0 a0 t0 m0 ∧ does e o1 d1 a1 t1 m1) ∧
     (∀ x y : Slot, h.GroupsOk (slotGroups x ++ slotGroups y) → ∃ e, CompletesWith (.pairedWord x y) s e ∧
       e = { h.begun with s := e.s, vec := { h.vec with v := e.vec.v, vstart := 0 }, ar := { h.ar with aflags := e.ar.aflags } }))


/-! ### Memory -/

/-- R272, R280, R283 and R284: a scalar load reads the little-endian bytes at s[A] + OFF × size from the device's storage when
its element passes its checks, and extends them into sD: nothing else of the hart changes but WSKIP, and memory does not change.
A check that fails is the trap, with sD unchanged; so is a word with an uncorrectable error (DATAERR). -/
def Obligations.ScalarLoads : Prop :=
  ∀ (f : MFields) (s : State) (h : Hart), s.running = some h → h.GuardOn f.gd f.gs → h.wait.request = none →
    h.wait.answer = none → h.wait.left = [] →
    let s0 := s.setHart s.cur h.begun
    ∀ x ∈ ([(.ldb f, 1, true), (.ldh f, 2, true), (.ldw f, 4, true), (.ldd f, 8, true), (.ldbn f, 1, false),
        (.ldhn f, 2, false), (.ldwn f, 4, false)] : List (Instr × Nat × Bool)),
      let e : Element := { va := (h.sreg f.a + BitVec.ofInt 64 (f.off.toInt * x.2.1)).toNat, size := x.2.1, lane := 0,
                           aligned := false, hint := f.ch.toNat }
      (∀ s1 ps, s0.openElement h.begun e .read = .ok s1 ps → farPieces ps = false → s1.badPieces ps = none →
        ∃ s2 h2 bs, Completes x.1 s s2 ∧ bs = (s1.readNear h.begun ps).1 ∧
          (ps.all (fun p => !p.place.phased) = true →
            bs = ps.flatMap fun p => s0.mem.readBytes p.place.addr p.size) ∧
          s2.mem = s0.mem ∧ s2.hart? s2.cur = some h2 ∧
          h2.sreg f.d = (if f.d = 0 then 0 else
            if x.2.2 then BitVec.ofInt 64 (signExt (ofBytesLE bs) (8 * x.2.1)) else BitVec.ofNat 64 (ofBytesLE bs)) ∧
          (∀ r, r ≠ f.d → h2.sreg r = h.sreg r) ∧
          { h2 with s := h.s, wait := h.wait, wp := h.wp, polled := h.polled } = h.begun) ∧
      (∀ s1 ps w, s0.openElement h.begun e .read = .ok s1 ps → farPieces ps = false → s1.badPieces ps = some w →
        h.trp.prv = false → Traps x.1 s (s1.logBad (·.of s.cur h.begun) w) .dataerr (BitVec.ofNat 64 e.va)) ∧
      (∀ s1 c t, s0.openElement h.begun e .read = .fail s1 c t → h.trp.prv = false →
        Traps x.1 s s1 c (BitVec.ofNat 64 t))

/-- R272, R280, R283 and R284: a scalar store writes the low bytes of s[D] at s[A] + OFF × size when its element passes its
checks: where they lie in one stretch of storage, none of it an ingress unit's still to write (R430), they read back from there,
and every byte outside the stretches the element's
address leads to (and outside the copy of a running compaction, R56) reads as before. No register changes but WSKIP. A check
that fails is the trap, and nothing is stored. -/
def Obligations.ScalarStores : Prop :=
  ∀ (f : MFields) (s : State) (h : Hart), s.running = some h → h.GuardOn f.gd f.gs → h.wait.request = none →
    h.wait.answer = none → h.wait.left = [] → s.MemoryOk →
    let s0 := s.setHart s.cur h.begun
    ∀ x ∈ ([(.stb f, 1), (.sth f, 2), (.stw f, 4), (.std f, 8)] : List (Instr × Nat)),
      let e : Element := { va := (h.sreg f.a + BitVec.ofInt 64 (f.off.toInt * x.2)).toNat, size := x.2, lane := 0,
                           aligned := false, hint := f.ch.toNat }
      let inside (a : Nat) (b n : Nat) : Prop := b ≤ a ∧ a < b + n
      (∀ s1 ps, s0.openElement h.begun e .write = .ok s1 ps → farPieces ps = false →
        ∃ s2 h2, Completes x.1 s s2 ∧ s2.hart? s2.cur = some h2 ∧
          { h2 with wait := h.wait, wp := h.wp } = h.begun ∧
          (∀ p, ps = [p] → s.mirror p.place.addr = none → s.contested p.place.addr x.2 = false →
            s2.mem.readBytes p.place.addr x.2 = toBytesLE x.2 (h.sreg f.d).toNat) ∧
          ∀ a, (∀ p ∈ ps, ¬ inside a p.place.addr p.size ∧
              ∀ b, s.mirror p.place.addr = some b → ¬ inside a b p.size) →
            s2.mem.read a = s.mem.read a) ∧
      (∀ s1 c t, s0.openElement h.begun e .write = .fail s1 c t → h.trp.prv = false →
        Traps x.1 s s1 c (BitVec.ofNat 64 t) ∧ s1.mem = s.mem)

/-- R299 and R323: a load that leads to the host or a peer completes with the data of the last answer behind the bytes that came
before, and a store with its last answer; a failed answer is its trap, and until it comes the hart holds. That the hart sends one
request at a time, keeps the bytes that came and repeats its instruction until it is done is the model's choice (log entry 9), and
so is that it holds, sending nothing, while every tag is taken (log entry 91). -/
def Obligations.FarScalarAccesses : Prop :=
  ∀ (f : MFields) (s : State) (h : Hart), s.running = some h → h.GuardOn f.gd f.gs →
    let ea (n : Nat) : Word := h.sreg f.a + BitVec.ofInt 64 (f.off.toInt * n)
    let settled (e : Hart) : Hart := { e.spendSkip with wait := h.wait }
    ∀ x ∈ ([(.ldb f, 1, some true), (.ldh f, 2, some true), (.ldw f, 4, some true), (.ldd f, 8, some true),
        (.ldbn f, 1, some false), (.ldhn f, 2, some false), (.ldwn f, 4, some false), (.stb f, 1, none), (.sth f, 2, none),
        (.stw f, 4, none), (.std f, 8, none)] : List (Instr × Nat × Option Bool)),
      (∀ v p, h.wait.answer = some (.data v) → h.wait.left = [p] →
        let x64 := ofBytesLE (h.wait.got ++ toBytesLE p.size v)
        match x.2.2 with
        | none => CompletesWith x.1 s (settled h.begun)
        | some signed => ∃ seen, CompletesWith x.1 s ({ settled h.begun with polled := h.polled ++ seen }.setS f.d
            (if signed then BitVec.ofInt 64 (signExt x64 (8 * x.2.1)) else BitVec.ofNat 64 x64))) ∧
      (∀ c, h.wait.answer = some (.failed c) → h.trp.prv = false →
        TrapsWith x.1 s h.begun c (ea x.2.1)) ∧
      (∀ t, h.wait.answer = none → h.wait.request = some t → Holds x.1 s (s.setHart s.cur h.begun)) ∧
      (∀ p ps, h.wait.answer = none → h.wait.request = none → h.wait.left = p :: ps → p.place.target = .peer →
        s.inGrid p.place = true → s.tagless = true → Holds x.1 s (s.setHart s.cur h.begun))

/-- R295 and R296: a scalar atomic whose element passes its checks reads its home in the device's storage, writes the operation
of Table 12.5 there, and gives the old value, sign-extended, in sD; a compare that fails writes nothing. In a launch that replays it
does so once its turn in the log has come (R476). When its launch does not replay, no other byte of memory changes. Over bytes
that an ingress unit is still to write, the unit's may stand instead (R430). A check that fails is the trap. -/
def Obligations.ScalarAtomics : Prop :=
  ∀ (f : MFields) (s : State) (h : Hart), s.running = some h → h.GuardOn f.gd f.gs → h.wait.request = none →
    h.wait.answer = none → h.wait.left = [] → s.MemoryOk →
    let s0 := s.setHart s.cur h.begun
    let n := f.et.unit
    let m := 2 ^ (8 * n)
    let e : Element := { va := (h.sreg f.a + BitVec.ofInt 64 (f.off.toInt * n)).toNat, size := n, lane := 0, aligned := true,
                         hint := f.ch.toNat, acquire := f.gm.getLsbD 1 }
    let b := (h.sreg f.b).toNat % m
    let c := (h.sreg f.d).toNat % m
    let sg (x : Nat) : Int := signExt x (8 * n)
    ∀ x ∈ ([(.aadd f, fun o => some ((o + b) % m)), (.aand f, fun o => some (o &&& b)), (.aor f, fun o => some (o ||| b)),
        (.axor f, fun o => some (o ^^^ b)), (.amin f, fun o => some (if sg o ≤ sg b then o else b)),
        (.amax f, fun o => some (if sg o ≤ sg b then b else o)), (.aminn f, fun o => some (min o b)),
        (.amaxn f, fun o => some (max o b)), (.axchg f, fun _ => some b),
        (.acas f, fun o => if o = c then some b else none)] : List (Instr × (Nat → Option Nat))),
      (∀ s1 s2 p, s0.openElement h.begun e .atomic = .ok s1 [p] → p.place.target = .memory → s1.badPieces [p] = none →
        s1.atomicTurn h.begun = (s2, true) →
        ∃ s3 h3 old, Completes x.1 s s3 ∧ s3.hart? s3.cur = some h3 ∧
          (p.place.phased = false → old = s2.mem.readLE p.place.addr n) ∧
          h3.sreg f.d = (if f.d = 0 then 0 else BitVec.ofInt 64 (sg old)) ∧ (∀ r, r ≠ f.d → h3.sreg r = h.sreg r) ∧
          { h3 with s := h.s, wait := h.wait, wp := h.wp, atomics := h.atomics, polled := h.polled } = h.begun ∧
          ((∀ l, s.launch? h.tag = some l → l.replay = none) → s.mirror p.place.addr = none →
            (∀ v, x.2 old = some v → s.contested p.place.addr n = false → s3.mem.readBytes p.place.addr n = toBytesLE n v) ∧
            (x.2 old = none → s3.mem = s.mem) ∧
            ∀ a, ¬ (p.place.addr ≤ a ∧ a < p.place.addr + n) → s3.mem.read a = s.mem.read a)) ∧
      (∀ s1 c t, s0.openElement h.begun e .atomic = .fail s1 c t → h.trp.prv = false →
        Traps x.1 s s1 c (BitVec.ofNat 64 t))

/-- R282, R203 and R273: a vector access performs its active elements in rising order, those of an indexed form or of a span of
bytes with what was translated ahead of them. When all are performed it completes with VSTART
= 0; the first that fails is the trap, with VSTART at it and every element below it performed. That the instruction holds at one
that waits, with VSTART at it, is the model's choice (log entry 9). -/
def Obligations.VectorAccessOrder : Prop :=
  ∀ (f : MFields) (s : State) (h : Hart), s.running = some h → s.stopAt = none → h.GuardOn f.gd f.gs →
    let s0 := s.setHart s.cur h.begun
    let loop (elem : Nat → Element) (k : Access) (m : Probing) (step : Assoc Probe → Nat → State → Got Unit) : LoopEnd :=
      let r := s0.probes h.begun (govM f) elem k m
      memLoop (h.active (govM f)) (step r.2) (h.vl - h.vstart) h.vstart r.1
    let single (j : Nat) : Element := { elementOf f h.begun j with aligned := true }
    let at_ (s1 t : State) (n : Nat) : Prop := ∃ h1 h2, s1.hart? s1.cur = some h1 ∧ Observed (h1.setVstart n) h2 ∧
      t = s1.setHart s1.cur h2
    let atomic (op : AtomicOp) (ps : Assoc Probe) (j : Nat) (t : State) : Got Unit :=
      (t.atomicElement ((single j).under ps j) op (h.readElem f.d f.et.bits j) 0).bind fun t _ => .ok t ()
    let atomics (op : AtomicOp) : LoopEnd := loop single .atomic (probing f) (atomic op)
    ∀ x ∈ ([(.vld f, memGroups f, f.am.toNat != 5 && !loadOverlap f,
          loop (elementOf f h.begun) .read (probing f) (loadInto f h.begun)),
        (.vst f, memGroups f, true, loop (elementOf f h.begun) .write (probing f) (storeFrom f h.begun)),
        (.vrstore f, [groupM f f.d f.et.bits], !reduceScaled f.et,
          loop (reduceElement f h.begun) .atomic .shared (reduceInto f h.begun)),
        (.vaadd f, memGroups f, true, atomics (vectorAtomicOp f.et .add .add .fadd)),
        (.vamin f, memGroups f, true, atomics (vectorAtomicOp f.et .min .minn .fmin)),
        (.vamax f, memGroups f, true, atomics (vectorAtomicOp f.et .max .maxn .fmax))] :
          List (Instr × List Group × Bool × LoopEnd)),
      h.GroupsOk x.2.1 → x.2.2.1 = true →
      (∀ s1, x.2.2.2 = .done s1 → ∃ t, at_ s1 t 0 ∧ Completes x.1 s t) ∧
      (∀ s1 i c v, x.2.2.2 = .stopped s1 i c v → h.trp.prv = false →
        ∃ t, at_ s1 t i ∧ Traps x.1 s t c (BitVec.ofNat 64 v)) ∧
      (∀ s1 i, x.2.2.2 = .held s1 i → ∃ t, at_ s1 t i ∧ Holds x.1 s t)

/-- R262, R264, R280, R285 and R287: a unit-stride VLD or VST within the core scratchpad's window. Each active element i of VLD
takes the bytes of the scratchpad at the base + i × b, and memory does not change; VST stores each active element's bytes there,
and every byte of memory that no active element covers reads as before. An element's bytes that an ingress unit is still to write
may be the unit's instead (R430). The keys of scratchpad bytes in memory are the model's
choice (log entry 10). -/
def Obligations.ScratchpadVectors : Prop :=
  ∀ (f : MFields) (s : State) (h : Hart), s.running = some h → s.stopAt = none → h.VectorOk → h.GuardOn f.gd f.gs →
    h.GroupsOk [groupM f f.d f.et.bits] → f.am = 0 → f.et.bits ≠ 4 → h.wp.cfg = 0 → h.wait.request = none →
    h.wait.answer = none → h.wait.left = [] → h.wait.probed = none → s.badWords = [] → s.MemoryOk →
    (∀ l, s.launch? h.tag = some l → l.replay = none) →
    (∀ c ∈ s.compactions.toList, c = none) →
    let b := f.et.unit
    let base := (h.sreg f.a + BitVec.ofInt 64 (f.off.toInt * b)).toNat
    let g : Governing := { masked := f.masked, reg := f.mr.toNat, inverted := false }
    let cell (i : Nat) : Nat := 2 ^ 53 + coreIndex s.cur * 2 ^ 20 + (base - 0x003FFFFF00000000) + i * b
    base % b = 0 → 0x003FFFFF00000000 ≤ base → base + h.vl * b ≤ 0x003FFFFF00100000 →
    (∃ e, CompletesWith (.vld f) s e ∧ WritesGroup h { e with polled := h.polled } f.d (groupSize f.gm) ∧
      Elements h e g f.d (groupSize f.gm) f.et.bits (fun i => s.mem.readLE (cell i) b)) ∧
    (∃ t e, Completes (.vst f) s t ∧ t.hart? t.cur = some e ∧
      { e with wait := h.wait, obs := h.obs, trp := { e.trp with irq := h.trp.irq } } = h.begun.setVstart 0 ∧
      (∀ i, h.active g i = true → s.contested (cell i) b = false → t.mem.readBytes (cell i) b = toBytesLE b (h.readElem f.d f.et.bits i)) ∧
      ∀ a, (∀ i, h.active g i = true → ¬ (cell i ≤ a ∧ a < cell i + b)) → t.mem.read a = s.mem.read a)

/-- R286: VLDFF pushes how many elements it loaded. When all are loaded that is VL; when an element past its first active one
fails by RMISS, RPERM or RCROSS, it stops short there without a trap; any other failure is its trap; and a length queue that
holds 16 entries traps QUEUE first. The first active element is that with which the instruction began, also where steps have cut
it. R292 and R293: PREF and VPREF always complete; they write no register and no memory. -/
def Obligations.TentativeLoads : Prop :=
  ∀ (f : MFields) (s : State) (h : Hart), s.running = some h → s.stopAt = none → h.GuardOn f.gd f.gs →
    let s0 := s.setHart s.cur h.begun
    let start : Option Nat := match h.wait.first with
      | some i => some i
      | none => ((List.range (h.vl - h.vstart)).map (h.vstart + ·)).find? (h.active (govM f))
    let r := (s0.onWait fun w => { w with first := start }).probes h.begun (govM f) (elementOf f h.begun) .read (probing f)
    let loop := memLoop (h.active (govM f)) (loadInto f h.begun r.2) (h.vl - h.vstart) h.vstart r.1
    let at_ (s1 t : State) (k : Hart → Hart) : Prop := ∃ h1 h2, s1.hart? s1.cur = some h1 ∧
      Observed (k h1) h2 ∧ t = s1.setHart s1.cur h2
    let push (n : Nat) (e : Hart) : Hart := { e.setVstart 0 with ctl := { e.ctl with lq := e.ctl.lq ++ [BitVec.ofNat 32 n] } }
    let first (i : Nat) : Prop :=
      match h.wait.first with
      | some j => i = j
      | none => h.active (govM f) i = true ∧ ∀ j, h.active (govM f) j = true → i ≤ j
    let same (t : State) (e : Hart) : Prop := ∃ h1, t.hart? t.cur = some h1 ∧ { h1 with obs := h.obs, trp := { h1.trp with irq := h.trp.irq } } = e ∧
      { t with rlt := s.rlt, launches := s.launches, draws := s.draws, hub := { t.hub with rangeLog := s.hub.rangeLog },
               harts := s.harts } = s
    (h.GroupsOk (memGroups f) → 16 ≤ h.ctl.lq.length → h.trp.prv = false → Traps (.vldff f) s s0 .queue 2) ∧
    (h.GroupsOk (memGroups f) → h.ctl.lq.length < 16 → (∀ s1, loop = .done s1 → ∃ t, at_ s1 t (push h.vl) ∧ Completes (.vldff f) s t) ∧
      (∀ s1 i c v, loop = .stopped s1 i c v → ¬ first i → c ∈ [Cause.rmiss, .rperm, .rcross] →
        ∃ t, at_ s1 t (push i) ∧ Completes (.vldff f) s t) ∧
      (∀ s1 i c v, loop = .stopped s1 i c v → (first i ∨ c ∉ [Cause.rmiss, .rperm, .rcross]) → h.trp.prv = false →
        ∃ t, at_ s1 t (fun e => e.setVstart i) ∧ Traps (.vldff f) s t c (BitVec.ofNat 64 v))) ∧
    (∃ t, Completes (.pref f) s t ∧ same t h.begun) ∧
    (h.GroupsOk (if f.am.toNat = 2 then [groupM f f.b (indexWidth f)] else []) →
      ∃ t, Completes (.vpref f) s t ∧ same t (h.begun.setVstart 0))

/-! ### Phases, fences and waits -/

/-- R358, R359 and R373 for a member of a launch: PHASEA arrives at the next boundary of its phase group, whose number goes to sD;
PHASEW passes once that boundary is complete and else holds, and without an arrival it does nothing; PHASE arrives and then waits,
and where it waits already it only waits (R444). An arrival that still stands is waited for first. A boundary completes once every
live member of the group has arrived, and at scope 5 of a system launch not before the other devices' members have; its clock joins
that of the last with those of the arrivals. Passing joins it to the hart's, so that the hart sees the group's writes, and renews
what its fetches see (R101). From an arrival on the hart's stores to tree memory are visible to walks (R45; how long a walk may miss
them is the model's choice, log entry 103). When other devices arrive, and what of their writes a boundary orders, is the model's
choice (log entry 46). -/
def Obligations.PhaseBoundaries : Prop :=
  ∀ (f : XFields) (s : State) (h : Hart) (l : Launch) (m : Member), s.running = some h → s.launch? h.tag = some l →
    Assoc.find l.members h.wid.toNat = some m → m.exited = false →
    let sc := f.sc.toNat
    let wid := h.wid.toNat
    let level := bit01 h.trp.prv
    let key := phaseKey sc wid m.seat
    let group (x : Launch) : Assoc Member := x.phaseGroup sc key
    let next (x : Launch) : Nat := (x.boundary key).complete + 1
    let allIn (x : Launch) : Prop := (group x).all (fun p => p.2.arrived sc (next x)) = true
    let alone := ¬ (sc = 5 ∧ s.otherDevices l = true)
    let joined (x : Launch) : Assoc Nat :=
      joinClock ((group x).foldl (fun c p => joinClock c (p.2.arrivalClock sc)) (x.boundary key).clock)
        (if sc = 5 then s.remoteClock x (next x) else [])
    let complete (x y : Launch) : Launch :=
      { y with boundaries := Assoc.put x.boundaries key { complete := next x, clock := joined x } }
    let among (x : Launch) (m : Member) : Launch := { x with members := Assoc.put x.members wid m }
    let onto (b : State) (x : Launch) (e : Hart) : State :=
      { b with launches := Assoc.put s.launches h.tag.toNat x }.setHart s.cur e
    let put (x : Launch) (e : Hart) : State := onto s x e
    let here (x : Launch) (e : Hart) : State := onto (s.settleTree (.hart s.cur)) x e
    let past (m : Member) (c : Assoc Nat) : Member :=
      { m with clock := joinClock m.clock c, arrivals := Assoc.drop m.arrivals sc }
    let held (i : Instr) (t : Hart → State) (e : Hart) : Prop := ∃ e1 d, Observed e e1 ∧ Holds i s { t e1 with draws := d }
    let fresh : Hart := { h.begun with code := s.mem }
    let waits (i : Instr) (after : Member → Member) : Prop :=
      (∀ a, Assoc.find m.arrivals sc = some a → a.number < next l →
        Completes i s (put (among l (after (past m (l.boundary key).clock))) fresh)) ∧
      (∀ a, Assoc.find m.arrivals sc = some a → next l ≤ a.number →
        (¬ allIn l → held i (put l) h.begun) ∧
        (allIn l → alone → Completes i s (put (complete l (among l (after (past m (joined l))))) fresh)) ∧
        (allIn l → held i (put l) h.begun ∨ Completes i s (put (complete l (among l (after (past m (joined l))))) fresh)))
    let ended (m : Member) : Member := { m with inPhase := Assoc.drop m.inPhase level }
    let arrives (x : Launch) (m : Member) (e : Hart) : Prop :=
      let clock := Assoc.put m.clock wid (m.epoch + 1)
      let m1 : Member :=
        { m with clock := clock, epoch := m.epoch + 1, arrivals := Assoc.put m.arrivals sc { number := next x, clock := clock } }
      let x1 := among x m1
      let e1 := e.setS f.d (BitVec.ofNat 64 (next x % 2 ^ 32))
      let m2 : Member := { m1 with inPhase := Assoc.put m.inPhase level (h.pc, sc) }
      let through := Completes (.phase f) s (here (complete x1 (among x (ended (past m2 (joined x1))))) { e with code := s.mem })
      (¬ allIn x1 → Completes (.phasea f) s (here x1 e1)) ∧
      (allIn x1 → alone → Completes (.phasea f) s (here (complete x1 x1) e1)) ∧
      (allIn x1 → Completes (.phasea f) s (here x1 e1) ∨ Completes (.phasea f) s (here (complete x1 x1) e1)) ∧
      (Assoc.find m.inPhase level ≠ some (h.pc, sc) →
        (¬ allIn x1 → held (.phase f) (here (among x m2)) e) ∧ (allIn x1 → alone → through) ∧
        (allIn x1 → held (.phase f) (here (among x m2)) e ∨ through))
    (Assoc.find m.arrivals sc = none → CompletesWith (.phasew f) s h.begun) ∧
    waits (.phasew f) id ∧
    (Assoc.find m.inPhase level = some (h.pc, sc) →
      (Assoc.find m.arrivals sc = none → Completes (.phase f) s (put (among l (ended m)) h.begun)) ∧ waits (.phase f) ended) ∧
    (Assoc.find m.arrivals sc = none → arrives l m h.begun) ∧
    (∀ a, Assoc.find m.arrivals sc = some a →
      (a.number < next l → arrives l (past m (l.boundary key).clock) fresh) ∧
      (next l ≤ a.number → ¬ allIn l → held (.phasea f) (put l) h.begun ∧
        (Assoc.find m.inPhase level ≠ some (h.pc, sc) → held (.phase f) (put l) h.begun)) ∧
      (next l ≤ a.number → allIn l → alone → arrives (complete l l) (past m (joined l)) fresh))

/-- R366, R370, R374 and R375: a FENCE completes; with ACQ the ends of the nodes whose status words the hart has read are
observed, in their order, and with REL its stores to tree memory no longer overlap walks (R45). A WAITW whose address passes the
checks of a read reads its word once: when the condition of IMM18 holds of it and s[B], it completes with the word in sD, and
else it holds. A check that fails is the trap. A FENCE changes no memory, and neither does a WAITW that completes in a launch
without a log. That COHERENT accesses have one order is the model's choice (log entry 6), and so is how long a store overlaps
walks (log entry 103). -/
def Obligations.FencesAndWaits : Prop :=
  ∀ (f : XFields) (s : State) (h : Hart), s.running = some h →
    let h1 := h.begun.issueAll
    let s0 := s.setHart s.cur h1
    let settled := if f.rel then s.settleTree (.hart s.cur) else s
    (f.acq = false → Completes (.fence f) s (settled.setHart s.cur h.begun)) ∧
    (f.acq = true → Completes (.fence f) s
      ((h.polled.foldl (fun t k => t.observe h.tag h.wid k) settled).setHart s.cur { h.begun with polled := [] })) ∧
    settled.mem = s.mem ∧ (∀ (t : State) (k : Nat), (t.observe h.tag h.wid k).mem = t.mem) ∧
    (h.wait.request = none → h.wait.answer = none → h.wait.left = [] →
      let e : Element := { va := (h.sreg f.a).toNat, size := 8, lane := 0, aligned := true, hint := 1 }
      let b := h.sreg f.b
      let meets (v : Word) : Prop :=
        match f.imm.toNat % 4 with
        | 0 => v = b | 1 => v ≠ b | 2 => b.toInt ≤ v.toInt | _ => b.toNat ≤ v.toNat
      (∀ s1 s2 p, s0.openElement h1 e .read = .ok s1 [p] → p.place.target = .memory → s1.badPieces [p] = none →
        s1.atomicTurn h1 = (s2, true) →
        let v := BitVec.ofNat 64 (ofBytesLE (s2.homeBytes p.place 8))
        (p.place.phased = false → v = s2.mem.dword p.place.addr) ∧
        (meets v → ∃ t e, Completes (.waitw f) s t ∧ t.hart? t.cur = some e ∧ e.sreg f.d = (if f.d = 0 then 0 else v) ∧
          (∀ r, r ≠ f.d → e.sreg r = h.sreg r) ∧
          { e with s := h.s, wait := h.wait, wp := h.wp, atomics := h.atomics, polled := h.polled } = h.begun ∧
          ((∀ l, s.launch? h.tag = some l → l.replay = none) → t.mem = s.mem)) ∧
        (¬ meets v → ∃ t e, Holds (.waitw f) s t ∧ t.hart? t.cur = some e ∧ e.s = h.s ∧ e.pc = h.pc)) ∧
      (∀ s1 c t, s0.openElement h1 e .read = .fail s1 c t → h.trp.prv = false →
        Traps (.waitw f) s s1 c (BitVec.ofNat 64 t)))

/-! ### The engines -/

/-- R302, R303, R312 and R313: a command is rejected for a reason of Table 13.5 that applies, with nothing changed, and where
several apply the first of them, which is the model's reading (log entry 13); or it takes a free slot of the hart's core with the
next GEN: a node of the hart's launch with the command's successors and count, released at once when it awaits none. ESUB submits
the record at s[A], which must be aligned; ECMD submits those of its span in rising order, writing each value and whether it was
accepted. Which free slot is taken, and that a slot's first node has GEN 1, are the model's choice (log entry 18). -/
def Obligations.EngineSubmission : Prop :=
  ∀ (f : XFields) (s : State) (h : Hart),
    let s0 := s.setHart s.cur h.begun
    (∀ (c : Command) (batch : List (Option Nat)), s.hart? s.cur = some h →
      let core := coreIndex s.cur
      let reject (r : Nat) : Prop := s.submit batch c = (s, BitVec.ofNat 64 (2 ^ 63 + r), none)
      let room := s.freeSlots core ≠ []
      let named := s.namedSuccessors h.tag core batch c
      (¬ room → reject 1) ∧ (room → cmdFieldsOk c = false → reject 2) ∧
      (room → cmdFieldsOk c = true → named = none → reject 3) ∧
      (room → cmdFieldsOk c = true → named ≠ none → cmdOverlaps c = true → reject 4) ∧
      (room → cmdFieldsOk c = true → named ≠ none → cmdOverlaps c = false → cmdMisplaced c = true → reject 5) ∧
      (∀ succ, room → cmdFieldsOk c = true → named = some succ → cmdOverlaps c = false → cmdMisplaced c = false →
        ∃ slot n t, slot ∈ s.freeSlots core ∧
          s.submit batch c = (t, BitVec.ofNat 64 (nodeHandle core n.gen slot), some (nodeHandle core n.gen slot)) ∧
          t.nodes = Assoc.put s.nodes (nodeKey core slot) n ∧
          n.gen = (match Assoc.find s.nodes (nodeKey core slot) with | none => 1 | some old => (old.gen + 1) % 2 ^ 16) ∧
          n.st = (if cmdPred c = 0 then .released else .waiting) ∧ n.count = cmdPred c ∧ n.succ = succ ∧ n.dwords = c ∧
          n.tag = h.tag ∧ n.wid = h.wid ∧ n.asid = h.asid ∧ n.cancelled = false ∧
          { t with nodes := s.nodes, launches := s.launches, draws := s.draws } =
            s.setHart s.cur { h with submissions := h.submissions + 1 })) ∧
    (s.running = some h → (h.sreg f.a).toNat % 64 ≠ 0 → h.trp.prv = false →
      TrapsWith (.esub f) s h.begun .misalign (h.sreg f.a)) ∧
    (∀ s1 x, s.running = some h → (h.sreg f.a).toNat % 64 = 0 →
      s0.loadElement { va := (h.sreg f.a).toNat, size := 64, lane := 0, aligned := false, hint := 1 } = .ok s1 x →
      let r := s1.submit [] (Vector.ofFn fun i => BitVec.ofNat 64 (x / 2 ^ (64 * i.val)))
      Completes (.esub f) s (r.1.onCur fun e => e.setS f.d r.2.1)) ∧
    (s.running = some h →
      let refused := f.d.toNat ≥ 8 ∨ commandSpans f h = true
      (refused → h.trp.prv = false → TrapsWith (.ecmd f) s h.begun .group (encodeWord (.ecmd f))) ∧
      (¬ refused → ∃ (st : Nat → State) (batch : Nat → List (Option Nat)),
        st h.vstart = s0 ∧ batch h.vstart = List.replicate h.vstart none ∧
        (∀ j, h.vstart ≤ j → j < h.vl →
          let r := (st j).submit (batch j) (Vector.ofFn fun i => BitVec.ofNat 64 (h.readElem f.a 64 (8 * j + i.val)))
          if h.active (govX f) j then
            st (j + 1) = r.1.onCur (fun e => (e.writeElem f.c 64 j r.2.1.toNat).setMaskBit f.d.toNat j r.2.2.isSome) ∧
            batch (j + 1) = batch j ++ [r.2.2]
          else st (j + 1) = st j ∧ batch (j + 1) = batch j ++ [none]) ∧
        Completes (.ecmd f) s ((st (max h.vstart h.vl)).onCur fun e => e.setVstart 0)))

/-- R314: EPOLL and EWAIT of a value that names no node of the hart's launch give CODE 0xFF; of a finished node, its status; of
another, EPOLL gives CODE 0xFE and EWAIT holds. R303 to R305, R308 and R310: the engine's steps. A released node begins to run;
one that runs and has delivered everything finishes with its status, releasing or cancelling its successors; nodes that can
never be released end with CODE 0x03. A decrement for which the count leaves no room beside those of nodes whose status is already
under way is discarded, with OVERDEC (log entry 38). When a node can never be released is read as log entry 39 says. -/
def Obligations.EngineNodes : Prop :=
  (∀ (f : XFields) (s : State) (h : Hart), s.running = some h →
     let x := h.sreg f.a
     let named (key : Nat) (n : Node) : Prop := s.nodeOf x.toNat = some (key, n) ∧ n.tag = h.tag
     ((∀ key n, ¬ named key n) → ∀ i ∈ [Instr.ewait f, .epoll f], CompletesWith i s (h.begun.setS f.d 0xFF00000000000000)) ∧
     (∀ key n, named key n →
       (n.st = .finished → ∀ i ∈ [Instr.ewait f, .epoll f], ∃ t : State,
         { t with launches := s.launches, writeSeq := s.writeSeq } = s ∧
         Completes i s (t.setHart s.cur (h.begun.setS f.d n.status))) ∧
       (n.st ≠ .finished → CompletesWith (.epoll f) s (h.begun.setS f.d 0xFE00000000000000) ∧
         ∃ t : State, { t with launches := s.launches } = s ∧ Holds (.ewait f) s (t.setHart s.cur h.begun)))) ∧
  (∀ (s : State) (core slot : Nat) (n : Node),
     let key := nodeKey core slot
     Assoc.find s.nodes key = some n →
     (n.st ≠ .released → exec (.engineNodeStart core slot) s = .next s) ∧
     (n.st = .released → (∀ l, s.launch? n.tag = some l → l.replay = none) →
       ∃ t n1, exec (.engineNodeStart core slot) s = .next t ∧ Assoc.find t.nodes key = some n1 ∧ n1.st = .running ∧
         n1.dwords = n.dwords ∧ n1.succ = n.succ ∧ ∀ k, k ≠ key → Assoc.find t.nodes k = Assoc.find s.nodes k) ∧
     (n.st = .running → n.plan = [] → n.closing = false → cmdStat n.dwords = 0 → s.earlierNeverReleased key n = false →
       ∃ t n1, exec (.engineNodeFinish core slot) s = .next t ∧ Assoc.find t.nodes key = some n1 ∧ n1.st = .finished ∧
         t.mem = s.mem ∧ t.harts = s.harts ∧
         n1.status = (if fieldOf n.status 56 8 = 0 ∧ s.overDecrements n.succ = true then n.status ||| BitVec.ofNat 64 (2 ^ 47)
           else n.status) ∧
         ∀ x k m, n.succ.count x = 1 → s.nodeOf x = some (k, m) → m.st = .waiting →
           ∃ m1, Assoc.find t.nodes k = some m1 ∧
             (fieldOf n.status 56 8 = 0 → s.underWayDecrements x < m.count → m1.count = m.count - 1 ∧
               m1.st = (if m.count ≤ 1 then .released else .waiting) ∧ m1.cancelled = m.cancelled) ∧
             (fieldOf n.status 56 8 = 0 → m.count ≤ s.underWayDecrements x → m1 = m) ∧
             (fieldOf n.status 56 8 = 1 ∨ fieldOf n.status 56 8 = 2 →
               m1.st = .running ∧ m1.cancelled = true ∧ m1.status = BitVec.ofNat 64 (2 * 2 ^ 56)) ∧
             (2 < fieldOf n.status 56 8 → m1 = m)) ∧
     (∀ tag, s.neverReleased tag s.vacatedPc s.vacatedReg = false → exec (.nodeNeverReleased tag) s = .next s) ∧
     (s.neverReleased n.tag s.vacatedPc s.vacatedReg = true → n.st = .waiting →
       ∃ t, exec (.nodeNeverReleased n.tag) s = .next t ∧ { t with nodes := s.nodes } = s ∧
         Assoc.find t.nodes key =
           some { n with st := .running, plan := [], status := BitVec.ofNat 64 (3 * 2 ^ 56), fval := 0 }))

/-! ### The matrix engine -/

/-- R340, R342, R350 and R351, once the core's engine holds the hart's matrix state: TZERO and MZERO clear a tile and rows of an
accumulator, ESETS and ESETV write block headers, and TLOAD takes its rows and header rows from VSTART on from a scratchpad,
latching the shape of IMM18. Base and stride of TLOAD are multiples of 16, and the stride no less than a row. R332: when another
hart's matrix instruction is next, the engine's state goes to its hart's spill slot, and that hart's comes back from its own
slot, if it stands there; no other memory changes. The layout of a spill slot, the keys of scratchpad bytes and the place of a tile's
rows and header rows within its state are the model's choice (log entries 17, 10 and 11). -/
def Obligations.MatrixStateWrites : Prop :=
  (∀ (f : XFields) (s s0 : State) (h h0 : Hart), MatrixReady s h s0 h0 →
     let gives (i : Instr) (e : Hart) : Prop := Completes i s (s0.setHart s.cur e)
     let d := f.d.toNat
     let imm := f.imm.toNat
     let header (e : Hart) (x : Nat → Nat → Nat) : Prop := ∀ r j, r < 8 → j < 64 → e.header r j = x r j
     gives (.tzero f) (h0.setTile d { data := 0, headers := 0, shape := shapeOf f.imm true }) ∧
     (∃ e, gives (.mzero f) e ∧ { e with mat := { e.mat with acc := h0.mat.acc } } = h0 ∧
       ∀ a row n, n < 128 → e.cell a row n =
         if a = d ∧ imm % 128 ≤ row ∧ row ≤ imm % 128 + imm / 128 % 128 then 0 else h0.cell a row n) ∧
     (∃ e, gives (.esets f) e ∧ { e with mat := { e.mat with e := h0.mat.e } } = h0 ∧
       header e fun r j => if r = d ∧ j = imm % 64 then (h0.sreg f.a).toNat % 65536 else h0.header r j) ∧
     (let n := min h0.vl 64
      let bad := h0.vstart < h0.vl ∧ h0.badSpan f.a (2 * n) = true
      (bad → h0.trp.prv = false → Traps (.esetv f) s s0 .group (encodeWord (.esetv f))) ∧
      (¬ bad → ∃ e, gives (.esetv f) e ∧ { e with mat := { e.mat with e := h0.mat.e } } = h0.setVstart 0 ∧
       header e fun r j => if r = d ∧ j < n ∧ h0.active (govX f) j then h0.readElem f.a 16 j else h0.header r j)) ∧
     (let base := (h0.sreg f.a).toNat
      let st := (h0.sreg f.b).toNat
      let row := 16 * (ElemType.ofCode (imm % 16)).bits
      let depth := 32 * (imm / 64 % 32 + 1)
      let heads := if f.imm.getLsbD 5 then depth / 32 else 0
      let at_ (k : Nat) : Nat := if k < depth then base + k * st else base + depth * st + 256 * (k - depth)
      let size (k : Nat) : Nat := if k < depth then row else 256
      let core := if f.imm.getLsbD 15 then coreIndex s.cur / 8 * 8 + imm / 2 ^ 12 % 8 else coreIndex s.cur
      let cell (k : Nat) : Nat := 2 ^ 53 + core * 2 ^ 20 + (at_ k - 0x003FFFFF00000000)
      (base % 16 ≠ 0 → h0.trp.prv = false → Traps (.tload f) s s0 .misalign (h0.sreg f.a)) ∧
      (base % 16 = 0 → st % 16 ≠ 0 ∨ st < row → h0.trp.prv = false → Traps (.tload f) s s0 .misalign (h0.sreg f.b)) ∧
      (base % 16 = 0 → st % 16 = 0 → row ≤ st → d < 4 → h0.vstart < depth + heads → s.stopAt = none → h0.wp.cfg = 0 →
       s0.badWords = [] →
       (∀ k, k < depth + heads → 0x003FFFFF00000000 ≤ at_ k ∧ at_ k + size k ≤ 0x003FFFFF00100000) →
       ∃ e, gives (.tload f) e ∧ { e with mat := { e.mat with t := h0.mat.t }, polled := h0.polled } = h0.setVstart 0 ∧
         (∀ j, j ≠ d → e.tile j = h0.tile j) ∧ (e.tile d).shape = shapeOf f.imm false ∧
         (∀ k, k < depth → bitsOf (e.tile d).data (8 * row * k) (8 * row) =
           if h0.vstart ≤ k then s0.mem.readLE (cell k) row else bitsOf (h0.tile d).data (8 * row * k) (8 * row)) ∧
         ∀ k, k < heads → bitsOf (e.tile d).headers (2048 * k) 2048 =
           if h0.vstart ≤ depth + k then s0.mem.readLE (cell (depth + k)) 256
           else bitsOf (h0.tile d).headers (2048 * k) 2048))) ∧
  (∀ (k : Nat) (s : State), (s.hart? k = none → exec (.matrixStateSwap k) s = .next s) ∧
    ∀ g, s.hart? k = some g →
      (Assoc.find s.owners (coreIndex k) = some k → exec (.matrixStateSwap k) s = .next s) ∧
      ∀ o g1, Assoc.find s.owners (coreIndex k) = some o → o ≠ k → s.hart? o = some g1 → s.MemoryOk →
        ∃ (t : State) (e : Hart), exec (.matrixStateSwap k) s = .next t ∧ Assoc.find t.owners (coreIndex k) = some k ∧
          o ∈ t.spilled ∧ k ∉ t.spilled ∧ t.hart? k = some e ∧ { e with mat := g.mat } = g ∧ (k ∉ s.spilled → e = g) ∧
          (k ∈ s.spilled → e.mat = readMatrix t.mem (spillSlot k) (spillSlot k + 0x88400)) ∧
          (∀ j, j ≠ k → t.hart? j = s.hart? j) ∧
          ∀ a, a < spillSlot o ∨ spillSlot o + 0x90000 ≤ a → t.mem.read a = s.mem.read a)

/-- R334, R343 to R348: MMUL and MMULS on a legal pair of types with spans in the registers. A tile of zeros leaves only VSTART
= 0. Else each row of the accumulator that takes part gains, column by column, the sums along K: for integers groups of 16
products added with saturation, for floats groups of 16 products, or blocks of 32 with their scales, each sum exact, rounded to
binary32 and added with rounding (R192, R193). An illegal pair, or a tile of the other density, traps TILE. The sign of an exact
zero sum and the bits of an FP8 header that count are the model's readings (log entries 23 and 24). -/
def Obligations.MatrixProducts : Prop :=
  ∀ (f : XFields) (s s0 : State) (h h0 : Hart), MatrixReady s h s0 h0 →
    let t := h0.tile f.b.toNat
    let type := f.imm.toNat % 16
    let count := f.imm.toNat / 16 % 128 + 1
    let row0 := f.imm.toNat / 2 ^ 11 % 128
    let scaled := decide (f.c.toNat / 8 % 2 = 1)
    let c0 := f.c.toNat % 8
    let w := codeBits type
    let legal := legalPair type t.fmt = true
    let on (r : Nat) : Prop := h0.vstart ≤ r ∧ r < count ∧ (f.masked = true → h0.maskBit 0 r = true)
    let gives (i : Instr) (byBlocks : Bool) (ha : Nat → Nat → Option Nat) (units : Nat → List RowUnit) : Prop :=
      (t.zf = true → Completes i s (s0.setHart s.cur (h0.setVstart 0))) ∧
      (t.zf = false → ∃ e, Completes i s (s0.setHart s.cur e) ∧
        { e with mat := { e.mat with acc := h0.mat.acc }, ar := { e.ar with aflags := h0.ar.aflags } } = h0.setVstart 0 ∧
        (∀ j : Nat, h0.ar.aflags.getLsbD j = true → e.ar.aflags.getLsbD j = true) ∧
        (∀ a row n, n < 128 → ¬ (a = f.d.toNat ∧ ∃ r, on r ∧ row = row0 + r) → e.cell a row n = h0.cell a row n) ∧
        ∀ r n, on r → n < 128 →
          let a (k : Nat) : Nat := h0.readElem f.a w k
          let old := h0.cell f.d.toNat (row0 + r) n
          e.cell f.d.toNat (row0 + r) n =
            if integerPair type then
              (((units r).foldl (fun (c : Int) (u : RowUnit) => max (-(2 ^ 31)) (min (2 ^ 31 - 1) (c + (u.terms.map fun (p : Nat × Nat) =>
                signExt (a p.1) w * signExt (t.element p.2 n) (codeBits t.fmt)).sum))) (signExt old 32)) % 2 ^ 32).toNat
            else
              (units r).foldl (fun c (u : RowUnit) =>
                let hx := ha r u.block
                let ht := if t.headed then some (t.header u.block n) else none
                let ps := u.terms.map fun p =>
                  ((codeValue type (hx.getD 0) (a p.1)).mulExact (codeValue t.fmt (ht.getD 0) (t.element p.2 n))).1
                addRounded c (if byBlocks then blockSum type t.fmt hx ht ps else sumExact ps)) old)
    (¬ legal ∨ t.sp = true → h0.trp.prv = false → Traps (.mmul f) s s0 .tile (pairValue type t scaled)) ∧
    (¬ legal ∨ t.sp = false → h0.trp.prv = false → Traps (.mmuls f) s s0 .tile (pairValue type t false)) ∧
    (legal → t.sp = false → s.stopAt = none → f.d.toNat < 4 →
      h0.badSpan f.a ((count * t.depth * w + 7) / 8) = false →
      (scaled = true → c0 + ((count * t.depth + 2047) / 2048 - 1) ≤ 7) →
      let byBlocks := !integerPair type && (scaled || t.headed)
      let unit := if byBlocks then 32 else 16
      gives (.mmul f) byBlocks (fun r b => if scaled then some (headerOf h0 c0 (r * (t.depth / 32) + b)) else none) fun r =>
        (List.range (t.depth / unit)).map fun u =>
          { block := u * unit / 32, terms := (List.range unit).map fun j => (r * t.depth + u * unit + j, u * unit + j) }) ∧
    (legal → t.sp = true → s.stopAt = none → f.d.toNat < 4 →
      h0.badSpan f.a ((count * (t.depth / 2) * w + 7) / 8) = false → h0.badSpan f.c (count * (t.depth / 8) * 2) = false →
      let meta' (r b : Nat) : Nat := h0.readElem f.c 16 (r * (t.depth / 8) + b)
      (∀ b, t.zf = false → on h0.vstart → b < t.depth / 8 → metadataOk (meta' h0.vstart b) = false →
        (∀ j, j < b → metadataOk (meta' h0.vstart j) = true) → h0.trp.prv = false →
        Traps (.mmuls f) s s0 .sparsemeta (BitVec.ofNat 64 (b * 65536 + meta' h0.vstart b))) ∧
      ((∀ r b, on r → b < t.depth / 8 → metadataOk (meta' r b) = true) →
        gives (.mmuls f) (!integerPair type && t.headed) (fun _ _ => none) fun r =>
          (List.range (t.depth / 32)).map fun u =>
            { block := u,
              terms := (List.range 16).map fun j =>
                let b := 4 * u + j / 4
                (r * (t.depth / 2) + 4 * b + j % 4, 8 * b + bitsOf (meta' r b) (3 * (j % 4)) 3) }))

/-- R349: MDRAIN of accumulator cells, row after row from the row of IMM18, to a span of registers: binary32 and 32-bit integers
as they stand, 8-bit integers clamped, and the narrower floats rounded, at active elements. Past row 127, past the registers, or
with no room for block headers it traps GROUP. -/
def Obligations.MatrixDrains : Prop :=
  ∀ (f : XFields) (s s0 : State) (h h0 : Hart), MatrixReady s h s0 h0 → h0.VectorOk → s.stopAt = none →
    let row0 := f.imm.toNat / 2 ^ 7 % 128
    let type := ElemType.ofCode (f.imm.toNat % 16)
    let w := type.bits
    let headed := type = .e4m3 ∨ type = .e5m2 ∨ type = .k4
    let n := (h0.vl * w + h0.regBits - 1) / h0.regBits
    let span : Group := { first := f.d, size := n, width := w }
    let x (i : Nat) : Nat := h0.cell f.a.toNat (row0 + i / 128) (i % 128)
    let bad := h0.vstart < h0.vl ∧ (128 < row0 + (h0.vl + 127) / 128 ∨ h0.badSpan f.d ((h0.vl * w + 7) / 8) = true ∨
      (headed ∧ 7 < f.c.toNat + ((h0.vl + 31) / 32 - 1) / 64))
    let gives (v : Nat → Nat) : Prop := ∃ e, Completes (.mdrain f) s (s0.setHart s.cur e) ∧ WritesVector h0 e [span] [] ∧
      e.ar.seed = h0.ar.seed ∧ Elements h0 e (govX f) f.d n w v
    (bad → h0.trp.prv = false → Traps (.mdrain f) s s0 .group (encodeWord (.mdrain f))) ∧
    (¬ bad → h0.vstart < h0.vl →
      (type = .f32 ∨ type = .i32 → gives x) ∧
      (type = .i8 → gives fun i => ((max (-128) (min 127 (signExt (x i) 32))) % 256).toNat) ∧
      (∀ m, type = .bf16 ∨ type = .f16 → drainMode f ≠ .rsr → h0.roundMode (drainMode f) = (m, h0) →
        gives fun i => ((fmtOf type).ofFp m false (fmtF32.decode (x i))).1) ∧
      (headed → ∃ e, Completes (.mdrain f) s (s0.setHart s.cur e) ∧ WritesVector h0 { e with mat := h0.mat } [span] [] ∧
        e.mat.t = h0.mat.t ∧ e.mat.acc = h0.mat.acc ∧ ∀ r j, r < f.c.toNat → e.header r j = h0.header r j))

/-! ### Exchanges -/

/-- R404 to R410 and R415 for a hart that takes part in the exchange of its XID: XFLOOR raises its floor, XROUND closes its run
and begins the next, XREBAL sets the next round's mode, XSTAT gives the counts of R411, XCLOSE leaves, and XRECV completes with
the value of an area that has ended. XSEND and XSENDQ queue the active records of the strip in order when their keys do not fall
and no more than 16 are outstanding. A hart that takes no part traps XSTATE with code 1, one without the role with 2 or 3. That
XRECV holds while writes of its area are in flight is the model's reading (log entry 51), and so is that XSEND and XSENDQ with
VSTART at or above VL complete without a check of the exchange (log entry 49). -/
def Obligations.ExchangeInstructions : Prop :=
  ∀ (f : XFields) (s : State) (h : Hart), s.running = some h →
    let xid := f.imm.toNat % 16
    let wid := h.wid.toNat
    let a := h.sreg f.a
    let traps (i : Instr) (c : Cause) (v : Nat) : Prop := h.trp.prv = false → TrapsWith i s h.begun c (BitVec.ofNat 64 v)
    (s.ownExchange h xid = none →
      (∀ i ∈ [Instr.xfloor f, .xround f, .xrecv f, .xstat f, .xsplit f, .xsample f, .xrebal f, .xclose f], traps i .xstate 1) ∧
      (h.vstart < h.vl → traps (.xsend f) .xstate 1 ∧ traps (.xsendq f) .xstate 1)) ∧
    (h.vl ≤ h.vstart → CompletesWith (.xsend f) s (h.begun.setVstart 0) ∧ CompletesWith (.xsendq f) s (h.begun.setVstart 0)) ∧
    ∀ x, s.ownExchange h xid = some x →
      let rank := x.rankOf s.hub wid
      let recv := x.recvOf s.hub wid
      let own := rank.bind fun r => Assoc.find x.senders r
      let area := (recv.bind fun r => Assoc.find x.receivers r).bind fun r => r.area
      let after (y : Exchange) (e : Hart) : State := { s with exchanges := Assoc.put s.exchanges xid y }.setHart s.cur e
      let sender (r : Nat) (y : Sender) : Exchange := { x with senders := Assoc.put x.senders r y }
      let status : Nat :=
        match f.imm.toNat / 16 % 16 with
        | 0 => x.round % 2 ^ 16 * 2 ^ 32 + (own.elim 0 fun y => y.round % 2 ^ 16) * 2 ^ 16
        | 1 => x.discarded
        | 2 => own.elim 0 fun y => y.sent
        | _ => area.elim 0 fun y => y.written
      CompletesWith (.xstat f) s (h.begun.setS f.d (BitVec.ofNat 64 status)) ∧
      Completes (.xrebal f) s (after { x with nextMode := f.imm.toNat / 16 % 4 } h.begun) ∧
      (∃ t : State, Completes (.xclose f) s (t.setHart s.cur h.begun) ∧
        { t with launches := s.launches, exchanges := s.exchanges, treeStores := s.treeStores } = s ∧
        ∀ y, Assoc.find t.exchanges xid = some y → y.takesPart s.hub wid = false) ∧
      (own = none → traps (.xfloor f) .xstate 2 ∧ traps (.xround f) .xstate 2) ∧
      (∀ r y, rank = some r → Assoc.find x.senders r = some y →
        Completes (.xround f) s (after (sender r
          { y with queue := y.queue ++ [(y.round, .close)], round := y.round + 1, floor := 0, sent := 0 }) h.begun) ∧
        (2 ^ x.keyBits ≤ a.toNat → traps (.xfloor f) .xstate 5) ∧
        (a.toNat < 2 ^ x.keyBits → a.toNat ≤ y.floor → CompletesWith (.xfloor f) s h.begun) ∧
        (a.toNat < 2 ^ x.keyBits → y.floor < a.toNat → Completes (.xfloor f) s (after (sender r
          { y with queue := y.queue ++ [(y.round, .floor a.toNat)], floor := a.toNat }) h.begun)) ∧
        (let on := (List.range h.vl).filter (h.active (govX f))
         let key := h.readElem f.a x.keyBits
         let used (quant : Bool) (i : Nat) : Nat := if x.concat && !quant then h.readElem f.c 16 i else x.payloadBytes
         let fits (i : Instr) (quant : Bool) : Prop :=
           h.vstart < h.vl → s.stopAt = none → (quant = true → x.segs.any (fun g => g.1 == 14) = true) →
           (f.b = 0 ∨ x.payloadBytes ≠ 0) → (f.c = 0 ∨ x.concat = true) → sendSpans f quant x h = false →
           (y.floor :: on.map key).Pairwise (· ≤ ·) → y.sent + on.length ≤ 16 →
           (∀ j ∈ on, x.concat = true → quant = false → x.usedOk (used quant j) = true) →
           ∃ t e y1, Completes i s t ∧ { t with exchanges := s.exchanges, harts := s.harts } = s ∧
             t.hart? t.cur = some e ∧ { e with ar := { e.ar with aflags := h.ar.aflags } } = h.begun.setVstart 0 ∧
             ((Assoc.find t.exchanges xid).bind fun x => Assoc.find x.senders r) = some y1 ∧
             y1.sent = y.sent + on.length ∧ y1.floor = (on.map key).getLastD y.floor ∧ y1.round = y.round ∧
             y1.queue = y.queue ++ on.map fun j =>
               let bytes := if quant then (recordPayload f true x h j).1
                 else (List.range x.payloadBytes).map fun o => BitVec.ofNat 8 (h.readElem f.b 8 (j * x.payloadBytes + o))
               (y.round, .record
                 { key := key j, used := used quant j, trunc := false,
                   payload := bytes.take (used quant j) ++ List.replicate (x.payloadBytes - used quant j) 0 })
         fits (.xsend f) false ∧ fits (.xsendq f) true)) ∧
      (recv = none → traps (.xrecv f) .xstate 3) ∧
      (∀ r y, recv = some r → Assoc.find x.receivers r = some y →
        let n := (h.sreg f.b).toNat
        (y.area = none → a.toNat % 8 ≠ 0 ∨ n % 8 ≠ 0 ∨ n < x.slotSize → traps (.xrecv f) .xstate 6) ∧
        (∀ z, y.area = some z → z.va ≠ a.toNat ∨ z.size ≠ n → traps (.xrecv f) .xstate 6) ∧
        (∀ z, y.area = some z → z.va = a.toNat → z.size = n →
          (z.ended = none → Holds (.xrecv f) s (s.setHart s.cur h.begun)) ∧
          (z.ended ≠ none → s.areaPending z.key = true → Holds (.xrecv f) s (s.setHart s.cur h.begun)) ∧
          (∀ last, z.ended = some last → s.areaPending z.key = false →
            let v := bit01 last * 2 ^ 63 + z.round % 2 ^ 16 * 2 ^ 32 + z.written % 2 ^ 32
            ∃ t : State, { t with launches := s.launches, writeSeq := s.writeSeq, exchanges := s.exchanges } = s ∧
              t.exchanges = Assoc.put s.exchanges xid
                { x with receivers := Assoc.put x.receivers r { y with area := none } } ∧
              Completes (.xrecv f) s (t.setHart s.cur (h.begun.setS f.d (BitVec.ofNat 64 v))))))

/-- R405, R412 and R413: XOPEN joins an exchange that is open with its plan address, opens one from a plan that passes the
checks of Table 19.5, and writes the reason when it is refused; a second XOPEN of the same hart traps XSTATE with code 8. XSPLIT
installs splitters that do not decrease and fit the key, and refuses others with 7. XSAMPLE writes the table to memory and its
round to sD; without Sieve it traps XSTATE with code 7. -/
def Obligations.ExchangeTables : Prop :=
  ∀ (f : XFields) (s : State) (h : Hart), s.running = some h →
    let s0 := s.setHart s.cur h.begun
    let va := (h.sreg f.a).toNat
    let wid := h.wid.toNat
    let reply (t : State) (v : Word) : State := t.elementDone.onCur fun e => e.setS f.d v
    let refusal (r : Nat) : Word := BitVec.ofNat 64 (2 ^ 63 + r)
    (∀ k x, s.exchanges.find? (fun p => p.2.tag == h.tag && p.2.plan == va) = some (k, x) →
      (x.hasJoined s.hub wid = true → h.trp.prv = false → TrapsWith (.xopen f) s h.begun .xstate 8) ∧
      (x.hasJoined s.hub wid = false → ∀ r, x.refuses s.hub wid s.cur = some r → Completes (.xopen f) s (reply s0 (refusal r))) ∧
      (x.hasJoined s.hub wid = false → x.refuses s.hub wid s.cur = none →
        Completes (.xopen f) s (reply (s0.onExchange k fun x => x.join s.hub wid s.cur) (x.joinValue s.hub wid)))) ∧
    (s.exchanges.find? (fun p => p.2.tag == h.tag && p.2.plan == va) = none → va % 64 = 0 →
      (∀ got, h.watchHit va (planNeed got) .read = false) →
      ∀ s1 got, s0.readSpan h.begun va planNeed = .ok s1 got → planNeed got ≤ got.length →
        let k := fieldOf (BitVec.ofNat 64 (ofBytesLE (got.take 8))) 52 4
        Assoc.find s1.exchanges k = none →
        (∀ s2 r, s1.openPlan h.begun va got = (s2, .error r) → Completes (.xopen f) s (reply s2 (refusal r))) ∧
        (∀ s2 x, s1.openPlan h.begun va got = (s2, .ok x) →
          let opened : State := { s2 with exchanges := Assoc.put s2.exchanges k (x.join s2.hub wid s2.cur) }
          Completes (.xopen f) s (reply (opened.clearRings k x) (x.joinValue s2.hub wid)))) ∧
    (∀ x, s.ownExchange h (f.imm.toNat % 16) = some x →
      let n := x.splitters.length
      (h.watchedDword va n .read = none → va % 8 = 0 → ∀ s1 got, s0.readSpan h.begun va (fun _ => 8 * n) = .ok s1 got →
        let table := (List.range n).map fun j => ofBytesLE ((got.drop (8 * j)).take 8)
        let good := table.Pairwise (· ≤ ·) ∧ ∀ v ∈ table, v < 2 ^ x.keyBits
        (good → Completes (.xsplit f) s
          (reply (s1.onExchange (f.imm.toNat % 16) fun x => { x with install := some table }) 0)) ∧
        (¬ good → Completes (.xsplit f) s (reply s1 7))) ∧
      (h.watchedDword va n .read = none → va % 8 ≠ 0 → h.trp.prv = false →
        TrapsWith (.xsplit f) s h.begun .misalign (h.sreg f.a)) ∧
      (h.wait.answer = none → h.wait.request = none → h.wait.left = [] →
        (x.mode = 0 → h.trp.prv = false → TrapsWith (.xsample f) s h.begun .xstate 7) ∧
        (x.mode ≠ 0 → h.watchedDword va n .write = none → va % 8 ≠ 0 → h.trp.prv = false →
          TrapsWith (.xsample f) s h.begun .misalign (h.sreg f.a)) ∧
        (x.mode ≠ 0 → h.watchedDword va n .write = none → va % 8 = 0 →
          let t := x.shadow.getD (0, x.splitters)
          ∀ s1, s0.writeOn h.begun va { round := t.1, data := (t.2.take n).flatMap (toBytesLE 8) } 4 0 = .seq s1 →
            Completes (.xsample f) s (s1.onCur fun e => e.setS f.d (BitVec.ofNat 64 t.1)))))

/-! ### Work -/

/-- R88 to R92: LAUNCH appends a slot at TAIL of a queue that is enabled and holds fewer than 256 positions, and gives the position,
or bit 63, its hart's stores to tree memory being visible to walks from then on (R45, R88); TNEXT gives the next entry of the core
group's schedule, and all ones at its end; TQGET takes a chunk from the head of the task queue and TQPUT adds an interval at its
end; WIDR reads a WIDSHAPE field, and with 7 the WID; HEXIT ends the hart. -/
def Obligations.WorkInstructions : Prop :=
  ∀ (f : XFields) (s : State) (h : Hart), s.running = some h →
    let s0 := s.setHart s.cur h.begun.issueAll
    let a := h.sreg f.a
    let sets (i : Instr) (x : Word) : Prop := CompletesWith i s (h.begun.setS f.d x)
    (a.toNat % 128 ≠ 0 → h.trp.prv = false → TrapsWith (.launch f) s h.begun .misalign a) ∧
    (a.toNat % 128 = 0 → ∀ s1 p, s0.translate (s0.hartAgent s.cur h.begun 0) a.toNat .read = (s1, .ok p) →
      p.target = .memory → p.addr < 0x8000000000 →
      let die := if f.imm.getLsbD 6 then dieOf s.cur else f.imm.toNat / 16 % 4
      let i := 16 * die + f.imm.toNat % 16
      let q := s.queue i
      let open_ := q.enable = true ∧ q.tail.toNat < q.head.toNat + 256
      let s2 := s1.settleTree (.hart s.cur)
      (¬ open_ → Completes (.launch f) s (s2.onCur fun e => e.setS f.d 0x8000000000000000)) ∧
      (open_ → ∃ t : State, Completes (.launch f) s (t.onCur fun e => e.setS f.d q.tail) ∧
        { t with queues := s2.queues } = s2 ∧ (t.queue i).tail = q.tail + 1 ∧ (t.queue i).head = q.head ∧
        (t.queue i).slot (q.tail.toNat % 256) = BitVec.ofNat 64 (p.addr / 128 % 2 ^ 45 * 128 + 1) ∧
        ∀ j, j ≠ i → t.queue j = s.queue j)) ∧
    (∀ l c, s.launch? h.tag = some l →
      let j := h.wid.toNat / 2 ^ recCoreBits l.dwords
      Assoc.find l.schedules j = some c → c.fault = none →
      ((∀ x, c.entries[c.cursor]? = some x → x = BitVec.allOnes 64) → sets (.tnext f) (BitVec.allOnes 64)) ∧
      (∀ x, c.entries[c.cursor]? = some x → x ≠ BitVec.allOnes 64 →
        let l1 : Launch := { l with schedules := Assoc.put l.schedules j { c with cursor := c.cursor + 1 } }
        let s1 : State := { s with launches := Assoc.put s.launches h.tag.toNat l1 }
        Completes (.tnext f) s (s1.setHart s.cur (h.begun.setS f.d x)))) ∧
    (∀ l c e v, s.launch? h.tag = some l → Assoc.find l.schedules (h.wid.toNat / 2 ^ recCoreBits l.dwords) = some c →
      c.fault = some (e, v) → h.trp.prv = false → TrapsWith (.tnext f) s h.begun e v) ∧
    (∀ l, s.launch? h.tag = some l → recTqen l.dwords = false → h.trp.prv = false →
      TrapsWith (.tqget f) s h.begun .queue 0 ∧ TrapsWith (.tqput f) s h.begun .queue 0) ∧
    (∀ l, s.launch? h.tag = some l → recTqen l.dwords = true → l.replay = none →
      let die := dieOf s.cur
      let q := l.tasks[die]?.getD []
      let gives (i : Instr) (x : Nat) (q1 : List Interval) : Prop :=
        let l1 : Launch := { l with tasks := l.tasks.setIfInBounds die q1 }
        let s1 : State := { s with launches := Assoc.put s.launches h.tag.toNat l1 }
        Completes i s (s1.setHart s.cur (h.begun.setS f.d (BitVec.ofNat 64 x)))
      (q = [] → gives (.tqget f) 0 []) ∧
      (∀ head rest, q = head :: rest →
        let pf := (recTqf l.dwords + 1) * s.liveOn h.tag die
        let c := min (min (max (recCmin l.dwords) (((q.map fun i => i.count).sum + pf - 1) / pf)) head.count) (2 ^ 24 - 1)
        gives (.tqget f) (c * 2 ^ 40 + head.start % 2 ^ 40)
          (if c = head.count then rest else { start := head.start + c, count := head.count - c } :: rest)) ∧
      (let x := a.toNat
       let n := (h.sreg f.b).toNat
       (n = 0 → gives (.tqput f) 0 q) ∧ (n ≠ 0 → 2 ^ 40 < x + n → gives (.tqput f) 2 q) ∧
       (n ≠ 0 → x + n ≤ 2 ^ 40 → ∀ r t, q = r ++ [t] → t.start + t.count = x →
         gives (.tqput f) 0 (r ++ [{ t with count := t.count + n }])) ∧
       (n ≠ 0 → x + n ≤ 2 ^ 40 → (∀ r t, q = r ++ [t] → t.start + t.count ≠ x) →
         (64 ≤ q.length → gives (.tqput f) 1 q) ∧
         (q.length < 64 → gives (.tqput f) 0 (q ++ [{ start := x, count := n }]))))) ∧
    (f.imm.toNat % 8 = 7 → sets (.widr f) h.wid) ∧
    (∀ l, s.launch? h.tag = some l → f.imm.toNat % 8 ≠ 7 →
      sets (.widr f) (BitVec.ofNat 64 (recFieldValue l.dwords (f.imm.toNat % 8) h.wid.toNat))) ∧
    (h.stripStops = false → ∃ t, exec (.hexit f) s = .next t ∧ (Assoc.wf s.harts = true → t.hart? s.cur = none) ∧
      (∀ k, k ≠ s.cur → Assoc.wf s.harts = true → t.hart? k = s.hart? k) ∧ t.mem = s.mem ∧
      ∀ l m, s.launch? h.tag = some l → Assoc.find l.members h.wid.toNat = some m →
        ∃ l1 m1, t.launch? h.tag = some l1 ∧ Assoc.find l1.members h.wid.toNat = some m1 ∧ m1.exited = true)

/-! ### Ranges -/

/-- R59 to R68 at system level, on the tree of the hart's ASID: RSPLIT with room in its leaf, RMERGE, RSEAL, RRES and RCOMPACT of a
range that meets their conditions change its descriptors as stated and give their status. RSEAL sets SEALED and clears WRITE, enters
the extent in the seal table, drops the entries of the range, and adds its entry to the attestation log, numbered by its place there
(R51); RCOMPACT sets CMPX and takes a free context for the copy. A descriptor that is written reads back, where no sealed extent
holds its slot (R50) and no ingress unit is still to write it (R430), and no other byte changes. Each edit is written whole in this
one step, so that a walk sees the tree before it or after it (R53). RINVAL drops the entries that overlap its stretch; RPROBE gives
where an address leads, or the cause, and takes no trap. At program level each traps PRIV. That an edit waits until accesses under
way are performed is the model's reading (log entry 57). -/
def Obligations.RangeInstructions : Prop :=
  ∀ (f : XFields) (s : State) (h : Hart) (root : Nat), s.running = some h →
    let s0 := s.setHart s.cur h.begun.issueAll
    let a := h.sreg f.a
    let va := a.toNat
    let b := (h.sreg f.b).toNat
    let sets (t : State) (x : Nat) : State := t.onCur fun e => e.setS f.d (BitVec.ofNat 64 x)
    (h.trp.prv = false → ∀ i ∈ [Instr.rsplit f, .rmerge f, .rinval f, .rseal f, .rres f, .rprobe f, .rcompact f],
      TrapsWith i s h.begun .priv (encodeWord i)) ∧
    (h.trp.prv = true → s0.rootOf h.asid = some root →
      (∀ s1 r, va % 256 = 0 → b % 4096 = 0 → s0.rangeAt h.begun root va = (s1, some r) → r.desc.base ≠ va →
        s1.sealedRange r.desc = false → r.desc.cmpx = false →
        let old := s1.leafDescriptors r.leaf
        old.length < 127 →
        let low := (r.desc.setLimit va).setResident (min r.desc.resident (va - r.desc.base))
        let high := (r.desc.setBase va).setResident (r.desc.resident - (va - r.desc.base))
        Completes (.rsplit f) s (sets ((s1.putLeaf r.leaf (old.take r.slot ++ [low, high] ++ old.drop (r.slot + 1))).invalidate
          h.asid 4 r.desc.base r.desc.limit) 0)) ∧
      (let g := s0.hartAgent s.cur h.begun 0
       ∀ s1 s2 l u, va ≠ 0 → s0.rawRange g root (va - 1) = (s1, some l) → l.desc.limit = va →
        s1.rawRange g root va = (s2, some u) → u.desc.base = va → s2.sealedRange l.desc = false →
        s2.sealedRange u.desc = false → l.desc.cmpx = false → u.desc.cmpx = false →
        s2.wellFormedRange h.asid l.desc = true → s2.wellFormedRange h.asid u.desc = true →
        ((l.desc.setBase 0).setLimit 0).setResident 0 = ((u.desc.setBase 0).setLimit 0).setResident 0 →
        (l.desc.resident = l.desc.size ∨ u.desc.resident = 0) → s2.underWay h.asid 4 l.desc.base u.desc.limit = false →
        Completes (.rmerge f) s (sets ((s2.joinRanges l u).invalidate h.asid 4 l.desc.base u.desc.limit) 0)) ∧
      (let lo := if b = 0 then 0 else va
       let hi := if b = 0 then 2 ^ 54 else va + b
       s0.underWay h.asid f.sc.toNat lo hi = false →
        ∃ t e, Completes (.rinval f) s t ∧ t.hart? t.cur = some e ∧
          { e with polled := h.polled, obs := h.obs, trp := { e.trp with irq := h.trp.irq } } = h.begun ∧ t.mem = s.mem ∧
          ∀ c, c ∈ t.rlt ↔ c ∈ s.rlt ∧ ¬ (c.asid = h.asid ∧ inScope f.sc.toNat (coreIndex s.cur) c.holder = true ∧
            overlapping c.desc.base c.desc.size lo (hi - lo) = true)) ∧
      (∀ s1 r, s0.rangeAt h.begun root va = (s1, some r) → r.desc.base = va → r.desc.tgt = 0 →
        r.desc.extent.1 + r.desc.size ≤ 0x8000000000 → r.desc.resident = r.desc.size → r.desc.cmpx = false →
        s1.seals.length < 256 → s1.attestation.length + (s1.seals.filter fun e => e.under.isSome).length < 256 →
        (∀ e ∈ s1.seals, ¬ (e.base = r.desc.extent.1 ∧ e.size = r.desc.size)) →
        let n := s1.attestation.length
        let s2 := s1.installSeal r
        let entry : SealEntry := { base := r.desc.extent.1, size := r.desc.size, seq := 0, under := some (s.cur, r.desc) }
        s2.underWay h.asid 4 r.desc.base r.desc.limit = false → s2.writingTo entry.base entry.size = false →
        s2.firstBad entry.base entry.size = none →
        let t := s2.attest h.begun r.desc.seal entry
        Completes (.rseal f) s (sets t (n * 2 ^ 32)) ∧ t.mem = (s1.putDescriptor (r.leaf + 32 + 32 * r.slot) r.desc.seal).mem ∧
          t.seals = s1.seals ++ [{ entry with under := none, seq := n }] ∧
          (∀ c, c ∈ t.rlt ↔ c ∈ s1.rlt ∧ ¬ (c.asid = h.asid ∧
            overlapping c.desc.base c.desc.size r.desc.base (r.desc.limit - r.desc.base) = true)) ∧
          (∃ e, t.attestation = s1.attestation ++ [e] ∧ e.seq = n ∧ e.vbase = va ∧ e.size = r.desc.size ∧
            e.pbase = r.desc.extent.1 ∧ e.asid = h.asid ∧ e.inc = s1.hub.incarnation ∧
            e.digest = sha384 (toBytesLE 8 va ++ toBytesLE 8 r.desc.size ++ t.mem.readBytes r.desc.extent.1 r.desc.size)) ∧
          { t with seals := s1.seals, attestation := s1.attestation, mem := s1.mem, rlt := s1.rlt, launches := s1.launches,
                   writeSeq := s1.writeSeq, treeStores := s1.treeStores, badWords := s1.badWords, harts := s1.harts,
                   exchanges := s1.exchanges, queues := s1.queues, draws := s1.draws } = s1) ∧
      (∀ s1 r, s0.rangeAt h.begun root va = (s1, some r) → s1.sealedRange r.desc = false → b % 256 = 0 → r.desc.base ≤ b →
        b ≤ r.desc.limit →
        let old := r.desc.base + r.desc.resident
        (b = old → Completes (.rres f) s (sets s1 old)) ∧
        (b ≠ old → (old < b ∨ s1.underWay h.asid 4 r.desc.base r.desc.limit = false) →
          Completes (.rres f) s (sets ((s1.putDescriptor (r.leaf + 32 + 32 * r.slot)
            (r.desc.setResident (b - r.desc.base))).invalidate h.asid 4 r.desc.base r.desc.limit) old))) ∧
      (let kind : Access := match f.imm.toNat % 4 with | 0 => .read | 1 => .write | 2 => .execute | _ => .atomic
       let r := s0.translateFull { s0.hartAgent s.cur h.begun 0 with root := some root } va kind
       Completes (.rprobe f) s (sets r.1 (match r.2 with
        | .error c => c.code.toNat * 2 ^ 56
        | .ok (_, none) => 3 * 2 ^ 54 + va
        | .ok (p, some _) => (match p.target with | .memory => 0 | .host => 1 | .peer => 2) * 2 ^ 54 + p.addr % 2 ^ 54))) ∧
      (∀ s1 r, s0.rangeAt h.begun root va = (s1, some r) → r.desc.base = va → s1.sealedRange r.desc = false → b % 256 = 0 →
        r.desc.tgt = 0 → r.desc.extent.1 + r.desc.size ≤ 0x8000000000 → b + r.desc.size ≤ 0x8000000000 → r.desc.cmpx = false →
        overlapping b r.desc.size r.desc.extent.1 r.desc.size = false → s1.freeContexts ≠ [] →
        ∃ ctx n, ctx ∈ s1.freeContexts ∧
          let c : Compaction := { asid := h.asid, root := root, base := va, size := r.desc.size, source := r.desc.extent.1,
                                  target := b, copied := 0, swung := false }
          let led := { s1 with draws := n }.putDescriptor (r.leaf + 32 + 32 * r.slot) (r.desc.setCmpx true)
          Completes (.rcompact f) s (sets { led with compactions := s1.compactions.setIfInBounds ctx (some c) } 0))) ∧
    (∀ (t : State) (at_ : Nat) (d : Descriptor), t.MemoryOk → t.mirror at_ = none →
      t.seals.any (fun e => overlapping at_ 32 e.base e.size) = false → t.contested at_ 32 = false →
      (t.putDescriptor at_ d).descriptorAt at_ = d ∧
      ∀ k, k < at_ ∨ at_ + 32 ≤ k → (t.putDescriptor at_ d).mem.read k = t.mem.read k) ∧
    (∀ (d : Descriptor) (j : Nat), { d.seal with d0 := d.d0, d1 := d.d1 } = d ∧ { d.setCmpx true with d1 := d.d1 } = d ∧
      d.seal.d0.getLsbD j = (d.d0.getLsbD j && decide (j ≠ 5)) ∧ d.seal.d1.getLsbD j = (d.d1.getLsbD j || decide (j = 4)) ∧
      (d.setCmpx true).d1.getLsbD j = (d.d1.getLsbD j || decide (j = 1)))

/-! ### Special registers, traps and the system instructions -/

/-- R453 and Table 24.5: CSRR writes a state register's value to sD; CSRW, CSRS and CSRC write s[A], the old value with its bits
set, or with its bits cleared, and a register whose level is system traps PRIV at program level. So do the rows that write one
register (R133, R143, R144, R181, R184, R482). A register of plain fields reads back as what was written to them; a read-only one
keeps its value. That a write of SAMPBUF traps PRIV at program level and that OVF of PMSEL reads back as an ordinary bit are the
model's reading (log entry 52), and so is that the rows of one register act as the CSR instructions (log entry 86). R480: a read of
SAMPBUF gives the next dword of the oldest record, and frees it after its dword 7. -/
def Obligations.SpecialRegisters : Prop :=
  (∀ (f : XFields) (o : CsrOp) (c : Bool) (k : BitVec 4) (d a : RegIdx) (s : State) (h : Hart), s.running = some h →
    let h1 := h.begun.issueAll
    let reads (i : Instr) (n : Nat) (d : RegIdx) : Prop :=
      let level := (0x030 ≤ n ∧ n ≤ 0x035) ∨ n = 0x051
      ((level → h.trp.prv = true) → CompletesWith i s (h.begun.setS d (h1.csr s.cur n)))
    let writes (i : Instr) (o : CsrOp) (n : Nat) (a : RegIdx) : Prop :=
      let level := (0x030 ≤ n ∧ n ≤ 0x035) ∨ n = 0x051 ∨ n = 0x023 ∨ n = 0x050 ∨ 0x060 ≤ n
      let x := match o with
        | .write => h.sreg a
        | .set => h1.csr s.cur n ||| h.sreg a
        | .clear => h1.csr s.cur n &&& ~~~(h.sreg a)
      ((level → h.trp.prv = true) → CompletesWith i s (h.begun.writeCsr n x)) ∧
      (level → h.trp.prv = false → ∃ w, TrapsWith i s h.begun .priv w)
    reads (.csrr f) f.imm.toNat f.d ∧ reads (.sampbufRead d) 0x051 d ∧
    writes (.csrw f) .write f.imm.toNat f.a ∧ writes (.csrs f) .set f.imm.toNat f.a ∧
    writes (.csrc f) .clear f.imm.toNat f.a ∧
    writes (.pmuRegisterWrite o c k a) o ((if c then 0x070 else 0x060) + k.toNat) a ∧ writes (.rotbWrite o a) o 0x003 a ∧
    writes (.gregWrite o a) o 0x004 a ∧ writes (.seedWrite o a) o 0x013 a ∧ writes (.acfgWrite o a) o 0x010 a ∧
    writes (.queueStatusWrite o c a) o (if c then 0x021 else 0x020) a ∧
    (h.trp.prv = false → ((0x030 ≤ f.imm.toNat ∧ f.imm.toNat ≤ 0x035) ∨ f.imm.toNat = 0x051) →
      TrapsWith (.csrr f) s h.begun .priv (encodeWord (.csrr f))) ∧
    (∀ r rs, h.obs.records = r :: rs → h.obs.next < 8 → h.trp.prv = true → h.obs.tagged = none →
      ∃ t e, exec (.sampbufRead d) s = .next t ∧ t.hart? s.cur = some e ∧
        e.sreg d = (if d = 0 then 0 else r[h.obs.next]?.getD 0) ∧
        (e.obs.records, e.obs.next) = (if h.obs.next = 7 then (rs, 0) else (r :: rs, h.obs.next + 1)))) ∧
  (∀ (h : Hart) (k n : Nat) (x : Word),
    let back (m : Nat) : Prop := (h.writeCsr n x).csr k n = x &&& BitVec.ofNat 64 m
    (n ∈ [0x001, 0x033, 0x023] → back (2 ^ 16 - 1)) ∧ (n ∈ [0x004, 0x030] → back 0xFF) ∧ (n = 0x011 → back 0x7F) ∧
    (n = 0x012 → back 1) ∧ (n = 0x031 → back (2 ^ 64 - 1)) ∧ (n = 0x032 → back (2 ^ 64 - 8)) ∧
    (n = 0x035 → back (2 ^ 54 - 8)) ∧ (0x040 ≤ n → n < 0x048 → back (2 ^ 54 - 1)) ∧ (n = 0x048 → back 0x1FFFF) ∧
    (0x060 ≤ n → n < 0x070 → back 0xFFFFF) ∧ (0x070 ≤ n → n < 0x080 → back (2 ^ 48 - 1)) ∧
    (n ∈ [0x000, 0x002, 0x022, 0x051] → h.writeCsr n x = h) ∧
    (n = 0x010 → (h.writeCsr n x).csr k n =
      (x &&& 8) ||| (if x.toNat % 8 < 6 then x &&& 7 else h.ar.acfg &&& 7)) ∧
    (n = 0x013 → x.toNat % 2 ^ 32 ≠ 0 → (h.writeCsr n x).csr k n = BitVec.ofNat 64 (x.toNat % 2 ^ 32)) ∧
    (n = 0x003 →
      let base := x.toNat % 64
      let size := x.toNat / 256 % 128
      let good := size ≤ h.nv ∧ (base < size ∨ (size = 0 ∧ base = 0))
      (good → (h.writeCsr n x).vec = { h.vec with rotBase := BitVec.ofNat 6 base, rotSize := BitVec.ofNat 7 size }) ∧
      (¬ good → h.writeCsr n x = h)))

/-- R136, R440, R441 and R454 to R458: TRAP enters the handler at TVEC with PC + 8 saved; TRET returns to TPC at program level, where
a source that is pending then is taken first;
a trap at system level halts the hart with its trap registers as they were and an entry of kind 3 in the error log. TSAVE writes
the hart's record and TRSTR loads one that passes its checks, or gives its status; DSTOP requests a debug stop of a hart of the
same launch. WFE completes when its wait is over and else waits, which the host's and the device's events end. TRET, TSAVE,
TRSTR and DSTOP trap PRIV at program level. The order in which TRSTR gives its statuses, and that it writes sD after the load, are
the model's reading (log entry 53). -/
def Obligations.TrapsAndSystem : Prop :=
  ∀ (f : XFields) (s : State) (h : Hart),
    let va := (h.sreg f.a).toNat
    let h1 := h.begun.issueAll
    let s1 := s.setHart s.cur h1
    let s0 := s1.claimMatrix s.cur
    let halts (i : Instr) (c : Cause) (v : Word) : Prop :=
      ∃ t e x, exec i s = .next t ∧ t.hart? s.cur = some e ∧ e.halted = true ∧ e.pc = h.pc ∧
        e.trp = { h.begun.trp with irq := e.trp.irq } ∧ e.s = h.s ∧ e.vec = h.vec ∧
        t.hub.errorLog.entries.getLast? = some x ∧ x.kind = 3 ∧ x.code = c.code ∧ x.val = v ∧ x.pc = h.pc ∧ x.wid = h.wid
    (s.running = some h →
      (h.trp.prv = false →
        (∃ t e, exec (.trap f) s = .next t ∧ t.hart? s.cur = some e ∧ e.pc = h.trp.tvec ∧ e.trp.cause = 0x11 ∧
          e.trp.tval.toNat = f.imm.toNat ∧ e.trp.tpc = h.pc + 8 ∧ e.trp.tvstart = h.vec.vstart ∧ e.trp.prv = true) ∧
        TrapsWith (.trap f) s h.begun .trapi (BitVec.ofNat 64 f.imm.toNat) ∧
        ∀ i ∈ [Instr.tret f, .tsave f, .trstr f, .dstop f], TrapsWith i s h.begun .priv (encodeWord i)) ∧
      (h.trp.prv = true →
        halts (.trap f) .trapi (BitVec.ofNat 64 f.imm.toNat) ∧
        (∃ (e : Hart) (n : Nat),
          let left : TrapState := { h.trp with prv := false, due := e.trp.irq != 0, stripDone := h.trp.stripAt == some h.trp.tpc }
          Observed { h.settle with pc := h.trp.tpc, trp := left } e ∧
          exec (.tret f) s = .next { s.onMember h.tag h.wid (Member.returnTo h.trp.tpc) with
            harts := Assoc.put s.harts s.cur e, draws := n }) ∧
        (va % 4096 ≠ 0 → halts (.tsave f) .misalign (h.sreg f.a) ∧ halts (.trstr f) .misalign (h.sreg f.a)) ∧
        (va % 4096 = 0 → ∀ h0, s0.hart? s.cur = some h0 → h0.wait.answer = none → h0.wait.request = none →
          h0.wait.left = [] →
          (∀ s2, s0.writeOn h0 va
              { round := 0, data := partBytes (contextParts h0 s.cur false h0.trp.tpc) 0 0xD2000 } 4 0 = .seq s2 →
            Completes (.tsave f) s s2) ∧
          (∀ s2 got, s0.readSpan h0 va (fun _ => 0xD2000) = .ok s2 got →
            let get := listReader got
            let good := get 0 4 = 0x31585443 ∧ get 4 2 = 1 ∧ get 6 2 / 16 = 0 ∧ get 6 2 % 2 = 0
            let class_ := get (0x400 + 8 * 0x002) 8 / 16 % 4 = h0.vec.vlclass.toNat
            let done (g : Hart → Hart) : Prop := Completes (.trstr f) s (s2.elementDone.onCur g)
            (¬ good → done fun e => e.setS f.d 1) ∧ (good → ¬ class_ → done fun e => e.setS f.d 2) ∧
            (good → class_ → get 0x20 8 ≠ h.tag.toNat → done fun e => e.setS f.d 3) ∧
            (good → class_ → get 0x20 8 = h.tag.toNat → Completes (.trstr f) s (s2.elementDone.queuesWritten.onCur fun e =>
              let r := e.loadContext get
              let loaded : Hart := { r with trp := { r.trp with tpc := BitVec.ofNat 64 (get 0x10 8 / 8 * 8) } }
              loaded.setS f.d 0)))) ∧
        (let k := va % 2 ^ 13
         (∀ g, s.hart? k = some g → g.tag = h.tag → k ≠ s.cur → Completes (.dstop f) s
            ((s.setHart k { g with trp := { g.trp with dreq := true } }).setHart s.cur (h.begun.setS f.d 0))) ∧
         (k = s.cur → CompletesWith (.dstop f) s
            ({ h.begun with trp := { h.begun.trp with dreq := true } }.setS f.d 0)) ∧
         ((∀ g, s.hart? k = some g → g.tag ≠ h.tag) → CompletesWith (.dstop f) s (h.begun.setS f.d 1)))) ∧
      (h.wait.wfeDone = true ∨ h.trp.irq ≠ 0 ∨ h.trp.dreq = true → CompletesWith (.wfe f) s h.begun) ∧
      (h.wait.wfeDone = false → h.trp.irq = 0 → h.trp.dreq = false →
        (h.wait.wfe = none → Holds (.wfe f) s (s.setHart s.cur
          { h1 with wait := { h.wait with wfe := some (s1.watchedLine h.begun va), limit := f.imm.toNat } })) ∧
        (h.wait.wfe ≠ none → Holds (.wfe f) s s1))) ∧
    (∀ k g, s.hart? k = some g →
      let past := s.setHart k { g with wait := { g.wait with wfeDone := true } }
      (g.wait.wfe ≠ none → exec (.wfeOtherEvent k) s = .next past ∧
        (g.wait.limit ≠ 0 → exec (.wfeTimeout k) s = .next past)) ∧
      (g.wait.wfe = none ∨ g.wait.limit = 0 → exec (.wfeTimeout k) s = .next (s.setHart k g)))

/-! ### Steps that befall a hart -/

/-- R209, R440, R443, R449, R479 and R481: a queued micro-operation issues; a hart that may be stopped at program level takes its
first pending source as a PREEMPT trap, the lowest counter first and the sample buffer last, and one between two instructions with
no access under way may be; a STRIPSTOP is taken before a VSETL, VSETLQ or HEXIT that has not begun; sampling tags the next
instruction, unless that one resumes after a stop (R480), or records a wrong-path one as squashed; a counter of a timing event
wraps, which sets OVF and, with OVIE, raises its interrupt. What a wrong-path record holds beside its marks is free (log entry 8).
-/
def Obligations.HartEvents : Prop :=
  ∀ (k : Nat) (n : BitVec 4) (s : State) (h : Hart), s.hart? k = some h →
    let leaves (t : State) (e : Hart) : Prop :=
      t.hart? k = some e ∧ { t with harts := s.harts, draws := s.draws } = s ∧ ∀ j, j ≠ k → t.hart? j = s.hart? j
    let stops (e : Hart) (c : BitVec 8) (tval : Word) : Prop :=
      e.pc = h.trp.tvec ∧ e.trp.cause = c ∧ e.trp.tval = tval ∧ e.trp.tpc = h.pc ∧ e.trp.prv = true ∧ e.s = h.s ∧
        e.ctl = h.ctl ∧ e.mat = h.mat ∧ e.ar = h.ar ∧ e.vec.v = h.vec.v ∧ e.vec.m = h.vec.m
    (∃ t e, exec (.vectorMicroOpIssue k) s = .next t ∧ leaves t e ∧ e.obs.ops = h.obs.ops - 1 ∧
      { e with obs := h.obs, trp := { e.trp with irq := h.trp.irq } } = h) ∧
    (h.halted = false → h.wait.word = none → h.wait.request = none → h.wait.left = [] → s.stoppable k h = true) ∧
    (h.trp.irq = 0 ∨ h.trp.prv = true ∨ s.stoppable k h = false → exec (.preemptInterrupt k) s = .next s) ∧
    (∀ q, (List.range 17).find? (fun j => h.trp.irq.getLsbD j) = some q → h.trp.prv = false → s.stoppable k h = true →
      ∃ t e, exec (.preemptInterrupt k) s = .next t ∧ leaves t e ∧ e.trp.tvstart = h.vec.vstart ∧
        stops e 0x12 (if q < 16 then BitVec.ofNat 64 (256 + q) else 512) ∧
        (h.obs.tagged = none → h.obs.ops = 0 → (∀ j : Fin 16, h.obs.pmsel[j].toNat % 2 ^ 16 ≠ 0x0D) →
          ∀ j, e.trp.irq.getLsbD j = (h.trp.irq.getLsbD j && decide (j ≠ q)))) ∧
    (∀ i, s.peek k h = some i → ((∃ f, i = .vsetl f ∨ i = .vsetlq f) ∨ ∃ f, i = .hexit f) → h.trp.prv = false →
      h.trp.dreq = true ∨ h.trp.sstop = true → h.trp.stripDone = false → h.halted = false → h.wait.word = none →
      ∃ t e, exec (.stripstop k) s = .next t ∧ leaves t e ∧ stops e 0x13 (BitVec.ofNat 64 h.vec.ord.toNat) ∧
        e.trp.tvstart = 0 ∧ e.trp.dreq = false) ∧
    (h.halted = false → h.obs.en = true → h.obs.period ≠ 0 → h.obs.tagged = none →
      ∃ t e, exec (.sampleTag k) s = .next t ∧ leaves t e ∧
        { e with obs := h.obs, trp := { e.trp with irq := h.trp.irq } } = h ∧
        let resumes := h.wait.word ≠ none ∨ h.obs.untag = some h.pc
        ((¬ resumes ∧ e.obs = { h.obs with countdown := none, tagged := some h.vstart }) ∨
          (resumes ∧ e.obs = { h.obs with countdown := none }) ∨
          (64 ≤ h.obs.records.length ∧ e.obs.records = h.obs.records) ∨
          ∃ r : Vector Word 8, h.obs.records.length < 64 ∧ e.obs.records = h.obs.records ++ [r] ∧
            r[0] = 0x1800000000000000 ∧ (e.obs.records.length = 64 → h.obs.fie = true → e.trp.irq.getLsbD 16 = true))) ∧
    (let sel := h.obs.pmsel[n.toNat]
     sel.toNat % 2 ^ 16 ∈ [0x01, 0x05, 0x06, 0x07, 0x08, 0x09, 0x0A] →
     sel.getLsbD (if h.trp.prv then 17 else 16) = true →
     ∃ t e, exec (.cycleEventOverflow k n) s = .next t ∧ leaves t e ∧ e.obs.pmsel[n.toNat].getLsbD 19 = true ∧
       (∀ j : Fin 16, j.val ≠ n.toNat → e.obs.pmsel[j] = h.obs.pmsel[j] ∧ e.obs.pmc[j] = h.obs.pmc[j]) ∧
       (sel.getLsbD 18 = true → e.trp.irq = h.trp.irq ||| BitVec.ofNat 17 (2 ^ n.toNat)) ∧
       (sel.getLsbD 18 = false → e.trp.irq = h.trp.irq) ∧
       { e with obs := h.obs, trp := { e.trp with irq := h.trp.irq } } = h)

/-- R84 and Table 3.4: a WID that may be placed on a seat starts there in the state of a new hart. R80, R445 and R448: harts
that are vacated leave their seats for records of their die's context store, and a vacated hart that may be placed again stands
on its new seat with what its record holds. When a waiting WID is held to be unplaceable, which members wait, and that a core group
wholly vacated keeps no core are the model's readings (log entries 32, 69, 100 and 101). That only the bulk harts of preemptible
launches leave a core that is vacated (log entry 110), and that the debug request and the word at which a hart holds stay beside its
record (log entry 70), are the model's choice. -/
def Obligations.PlacementEvents : Prop :=
  (∀ (tag : Word) (group wid : Nat) (x : Seat) (s : State) (l : Launch),
    let k := Seat.hartId x
    let core := coreIndex k
    let after := s.keepSeat tag.toNat group (Seat.code x)
    s.launch? tag = some l → l.waiting group = some wid → l.replay = none →
    s.canSeat tag.toNat l wid (Assoc.find l.seats group) x = true →
    s.classAllows tag.toNat l wid (Assoc.find l.seats group) core = true → s.outrankedOn after tag.toNat l core = false →
    s.resumedFirst l = false → ((Assoc.find l.started group).isNone = true → l.behind group k = false) →
    ∃ t e, exec (.hartPlacement tag group x) s = .next t ∧ t.hart? k = some e ∧ (∀ j, j ≠ k → t.hart? j = s.hart? j) ∧
      e.tag = tag ∧ e.wid = BitVec.ofNat 64 wid ∧ e.halted = false ∧ e.pc = recEntry l.dwords ∧ e.asid = recAsid l.dwords ∧
      (∀ r : Fin 64, e.s[r] = if h : 4 ≤ r.val ∧ r.val < 12 then l.dwords[r.val + 4] else 0) ∧
      (∀ r : Fin 64, e.vec.v[r] = 0) ∧ (∀ r : Fin 8, e.vec.m[r] = 0) ∧ e.vec.nvc = recNvc l.dwords ∧
      e.vec.sewc = recSewc l.dwords ∧ e.vec.vlclass = recVlclass l.dwords ∧ e.vec.lcmask = x.lanes ∧ e.vec.qtr = x.qtr ∧
      e.vec.len = 0 ∧ e.vec.ord = 0 ∧ e.vec.vstart = 0 ∧ e.vec.rotBase = 0 ∧ e.vec.rotSize = 0 ∧
      e.ar.acfg = 0 ∧ e.ar.aflags = 0 ∧ e.ar.gflags = 0 ∧
      (let seed := (wid ^^^ wid / 2 ^ 32 ^^^ 0x2545F491) % 2 ^ 32
       wid < 2 ^ 64 → e.ar.seed.toNat = if seed = 0 then 1 else seed) ∧
      e.ctl.lq = [] ∧ e.ctl.cq = [] ∧ e.ctl.loops = [] ∧ e.ctl.greg = 0 ∧ e.trp.prv = false ∧ e.wp.cfg = 0 ∧
      e.trp.tvec = (s.die x.die.toNat).tvecd ∧ e.mat = freshMatrix ∧
      ∃ l1 m, t.launch? tag = some l1 ∧ Assoc.find l1.members wid = some m ∧ m.seat = k ∧ m.exited = false) ∧
  (∀ (s : State) (k : Nat) (h : Hart), s.hart? k = some h → Assoc.wf s.harts = true → s.freeRecords (dieOf k) ≠ [] →
    ∀ ahead, ∃ i v, i ∈ s.freeRecords (dieOf k) ∧ (s.vacate k ahead).hart? k = none ∧
      (s.vacate k ahead).vacated = Assoc.put s.vacated (storeRecords * dieOf k + i) v ∧ v.tag = h.tag ∧ v.wid = h.wid ∧
      v.core = coreIndex k ∧ v.dreq = h.trp.dreq ∧ v.atomics = h.atomics ∧ v.submissions = h.submissions ∧
      v.held = h.wait.word ∧ v.ahead = ahead ∧ ∀ j, j ≠ k → (s.vacate k ahead).hart? j = s.hart? j) ∧
  (∀ (die cluster core : Nat) (s : State),
    let c := 128 * die + 8 * cluster + core
    let all := s.harts.filter fun p => coreIndex p.1 == c
    let out := all.filter fun p => s.borrowed p.2
    let after := out.foldl (fun t p => t.vacate p.1 false) s
    let waits (p : Nat × Launch) (g w : Nat) : Prop := p ∈ s.launches ∧ p.2.latency = true ∧ g < recGroups p.2.dwords ∧
      p.2.waiting g = some w ∧ s.unplaceable p.1 p.2 w die = true ∧ after.groupFits p.1 p.2 w c = true
    let may := s.reserved c = true ∧ out ≠ [] ∧ (∀ p ∈ all, p.2.halted = false) ∧ (∀ p ∈ out, s.stoppable p.1 p.2 = true) ∧
      out.length ≤ (s.freeRecords die).length ∧ ∃ p g w, waits p g w
    (may → exec (.coreVacate die cluster core) s = .next after) ∧
    (¬ may → exec (.coreVacate die cluster core) s = .next s)) ∧
  (∀ (tag : Word) (scope unit : Nat) (s : State) (l : Launch), s.launch? tag = some l →
    let key := 8 * unit + scope
    let n := (l.boundary key).complete + 1
    let group := l.phaseGroup scope key
    let waiting := s.harts.filter fun p => p.2.tag == tag &&
      (match Assoc.find group p.2.wid.toNat with
        | none => false
        | some m => !m.exited && m.arrived scope n && waitsAt p.2.wait.word scope)
    let last := ∃ p ∈ group, s.vacatedKey tag p.1 ≠ none ∧ p.2.arrived scope n = false ∧ p.2.exited = false ∧
      (∀ q ∈ group, q.1 = p.1 ∨ q.2.exited = true ∨ s.waitsOpen tag q.1 q.2 scope n = true) ∧
      ∀ d, d < 4 → s.unplaceable tag.toNat (s.unitsKept tag.toNat l p.1) p.1 d = true
    let may := 1 ≤ scope ∧ scope ≤ 5 ∧ last ∧ recReplay l.dwords = false ∧ (∀ p ∈ waiting, s.stoppable p.1 p.2 = true) ∧
      ∀ d, d < 4 → (waiting.filter fun p => dieOf p.1 == d).length ≤ (s.freeRecords d).length
    (may → exec (.phaseGroupVacate tag scope unit) s = .next (waiting.foldl (fun t p => t.vacate p.1 true) s)) ∧
    (¬ may → exec (.phaseGroupVacate tag scope unit) s = .next s)) ∧
  (∀ (tag wid : Word) (x : Seat) (s : State) (l : Launch) (key : Nat) (v : Vacated), s.launch? tag = some l →
    s.vacatedKey tag wid.toNat = some (key, v) →
    let kept := s.unitsKept tag.toNat l wid.toNat
    let k := Seat.hartId x
    s.canSeat tag.toNat kept wid.toNat none x = true →
    s.classAllows tag.toNat kept wid.toNat none (coreIndex k) = true → (∀ p ∈ s.vacated, p.1 = key) →
    (∀ p ∈ s.launches, p.2.latency = false) → l.latency = false →
      ∃ t e, exec (.hartResume tag wid x) s = .next t ∧ t.hart? k = some e ∧
        e = resumedHart s.mem key v l.dwords x.lanes x.qtr ∧ e.tag = v.tag ∧ e.wid = v.wid ∧ e.vec.lcmask = x.lanes ∧
        e.vec.qtr = x.qtr ∧ t.vacated = Assoc.drop s.vacated key ∧ ∀ j, j ≠ k → t.hart? j = s.hart? j)

/-- R56, R57, R267 and R450: a compaction copies its range's bytes to the target in ascending order; once nothing holds it back
the descriptor leads there and the entries that led to the source are dropped; then CMPX is cleared. A failing word of the
source abandons it with an entry of kind 4 in the error log. A correctable soft error is counted and logged as kind 1, and
nothing else changes; an uncorrectable one is logged as kind 2, and the word fails from then on. How the copy and what follows
it fall into steps is the model's choice (log entry 60). -/
def Obligations.CompactionAndErrors : Prop :=
  (∀ (ctx : Nat) (s : State) (c : Compaction), s.compaction ctx = some c →
    let copied := s.copyOn ctx c (c.size - c.copied)
    let swung : Option Compaction := some { c with copied := c.size, swung := true }
    (c.swung = true → exec (.compactionSwing ctx) s = .next (s.endCompaction ctx c) ∧
      (s.endCompaction ctx c).compaction ctx = none ∧ exec (.compactionAbandon ctx) s = .next s) ∧
    (∀ s1 r, s.rawRange c.agent c.root c.base = (s1, some r) → r.desc.base = c.base → s.endCompaction ctx c =
      { s1.putDescriptor (slotAddr r.leaf r.slot) (r.desc.setCmpx false) with
        compactions := s.compactions.setIfInBounds ctx none }) ∧
    (c.swung = false → s.firstUncopied c = none → s.underWayBut none c.asid 4 c.base (c.base + c.size) = false →
      ∃ t, exec (.compactionSwing ctx) s = .next t ∧ t.compaction ctx = swung ∧
        (∀ e ∈ t.rlt, e ∈ s.rlt ∧ ¬ (e.asid = c.asid ∧
          overlapping e.desc.base e.desc.size c.base c.size = true)) ∧
        ∀ s1 r, (copied.moveExtent c).rawRange c.agent c.root c.base = (s1, some r) → r.desc.base = c.base →
          let led := s1.putDescriptor (slotAddr r.leaf r.slot) (r.desc.rebase c.target)
          let done : State := { led with compactions := s.compactions.setIfInBounds ctx swung }
          t = done.invalidate c.asid 4 c.base (c.base + c.size)) ∧
    (∀ n, s.firstUncopied c = none → s.compactionStep ctx n = s.copyOn ctx c (min n (c.size - c.copied))) ∧
    (∀ n rest, s.agenda = .compactionCopy ctx n :: rest →
      step s = .next (State.compactionStep { s with agenda := rest } ctx n)) ∧
    (∀ n, n ≤ c.size - c.copied → s.seals = [] → overlapping c.target c.size c.source c.size = false → s.MemoryOk →
      (s.copyOn ctx c n).compaction ctx = some { c with copied := c.copied + n } ∧
      (∀ o, c.copied ≤ o → o < c.copied + n → (s.copyOn ctx c n).mem.read (c.target + o) = s.mem.read (c.source + o)) ∧
      ∀ a, a < c.target + c.copied ∨ c.target + c.copied + n ≤ a → (s.copyOn ctx c n).mem.read a = s.mem.read a) ∧
    (c.swung = false → s.firstUncopied c ≠ none → exec (.compactionSwing ctx) s = .next s) ∧
    (s.firstUncopied c = none → exec (.compactionAbandon ctx) s = .next s) ∧
    (∀ w, c.swung = false → s.firstUncopied c = some w →
      ∃ t x, exec (.compactionAbandon ctx) s = .next t ∧ t.compaction ctx = none ∧
        t.hub.errorLog.entries.getLast? = some x ∧ x.kind = 4 ∧ x.addr = BitVec.ofNat 64 (8 * w))) ∧
  (∀ (d : Descriptor) (q : Nat), q % 256 = 0 → q < 2 ^ 54 → ((d.rebase q).setCmpx false).extent = (q, d.size)) ∧
  (∀ (a : Nat) (s : State), storageWord a = true →
    (∃ t x, exec (.softErrorDetected (.storage a) true) s = .next t ∧ t.hub.correctable = s.hub.correctable + 1 ∧
      { t with hub := s.hub, draws := s.draws } = s ∧ t.hub.errorLog.entries.getLast? = some x ∧ x.kind = 1 ∧
      (a < 0x8000000000 → x.addr = BitVec.ofNat 64 a)) ∧
    (∃ t x, exec (.softErrorDetected (.storage a) false) s = .next t ∧ t.hub.uncorrectable = s.hub.uncorrectable + 1 ∧
      t.hub.errorLog.entries.getLast? = some x ∧ x.kind = 2 ∧ (a < 0x8000000000 → x.addr = BitVec.ofNat 64 a) ∧
      a / 8 ∈ t.badWords ∧ (∀ w, w ≠ a / 8 → (w ∈ t.badWords ↔ w ∈ s.badWords)) ∧
      { t with hub := s.hub, draws := s.draws, mem := s.mem, badWords := s.badWords } = s ∧
      (s.MemoryOk → ∀ b, b < a ∨ a + 8 ≤ b → t.mem.read b = s.mem.read b))) ∧
  (∀ (k : Nat) (w : HartWord) (s : State) (h : Hart), s.hart? k = some h → h.hasWord w = true →
    (∃ t, exec (.softErrorDetected (.hartState k w) true) s = .next t ∧ { t with hub := s.hub, draws := s.draws } = s ∧
      t.hub.correctable = s.hub.correctable + 1) ∧
    (∃ t x e, exec (.softErrorDetected (.hartState k w) false) s = .next t ∧ t.hub.uncorrectable = s.hub.uncorrectable + 1 ∧
      (k, w) ∈ t.badHarts ∧ t.hart? k = some e ∧ e = h.setStateWord w x ∧ t.mem = s.mem ∧
      ∀ j, j ≠ k → t.hart? j = s.hart? j))

/-! ### Steps of exchanges -/

/-- R388 to R391, R394 and R402: what arrives at an input of a merge point is held there and raises the input's floor, a close
closes it; a sender's record joins its receiver's tree and is a floor in the others. Under combiner none a merge point passes on
the first record of the lowest input that holds the least key, once no input before it can bring that key and none a lesser one;
under another, the fold of the records of the least key, in the order of the inputs and of their arrival, once no input can bring
one more. Else it sends its floor when that rises, and a close once every input is closed and nothing is held. The item joins the
receiver's stream, the next point's link, or leaves for another device. What comes from another device is free (log entry 46), but
no record comes where every sender behind the input has left before the round (R387). That an item of a later round waits at its
sender's leaf is the model's reading (log entry 43). -/
def Obligations.MergeSteps : Prop :=
  ∀ (xid recv : Nat) (pt : MergePt) (n : Nat) (s : State) (e : Exchange), Assoc.find s.exchanges xid = some e →
    e.holds s.hub recv pt = true →
    let key := pointKey recv pt
    let i := (e.point key).input n
    let taken (i : MergeInput) (x : XItem) : MergeInput :=
      match x with
      | .record r => { i with held := i.held ++ [r], floor := max i.floor r.key }
      | .floor f => { i with floor := max i.floor f }
      | .close => { i with closed := true }
    let put (y : Exchange) : State := { s with exchanges := Assoc.put s.exchanges xid y }
    (n ∈ e.inputsOf s.hub pt →
      ((∀ d c, pt ≠ .cluster d c) → e.fromAbroad s.hub pt n = false →
        (i.link = [] → exec (.mergeInputArrival xid recv pt n) s = .next (put (e.onInput key n fun i => i))) ∧
        ∀ x rest, i.link = x :: rest →
          ∃ y, exec (.mergeInputArrival xid recv pt n) s = .next (put y) ∧
            (y.point key).input n = taken { i with link := rest } x ∧ ∀ k, k ≠ key → y.point k = e.point k) ∧
      ((∀ d c, pt ≠ .cluster d c) → e.fromAbroad s.hub pt n = true →
        let came := s.foreignItem e recv (e.inputClosed pt n) (e.inputSends pt n) i
        ∃ y, exec (.mergeInputArrival xid recv pt n) s = .next { put y with draws := came.2.draws } ∧
          (y.point key).input n = taken i came.1 ∧
          (∀ r, came.1 = .record r → i.floor ≤ r.key ∧ e.target r.key = recv ∧ e.inputSends pt n = true) ∧ (∀ f, came.1 = .floor f → i.floor ≤ f) ∧
          (came.1 = .close → i.closed = true ∨ e.inputClosed pt n = true)) ∧
      (∀ d c z, pt = .cluster d c → Assoc.find e.senders n = some z →
        let spread (z : Sender) (x : XItem) : Prop :=
          ∃ y, exec (.mergeInputArrival xid recv pt n) s = .next (put y) ∧ Assoc.find y.senders n = some z ∧
            ∀ q, q < e.receiverList.length →
              (y.point (pointKey q pt)).input n = taken ((e.point (pointKey q pt)).input n)
                (match x with | .record r => if q = e.target r.key then x else .floor r.key | .floor _ | .close => x)
        (∀ x rest, z.queue = (e.round, x) :: rest → spread { z with queue := rest } x) ∧
        (z.queue = [] → z.gone = true → spread z .close) ∧
        (z.queue = [] → z.gone = false → exec (.mergeInputArrival xid recv pt n) s = .next s) ∧
        (∀ r x rest, z.queue = (r, x) :: rest → r ≠ e.round → exec (.mergeInputArrival xid recv pt n) s = .next s))) ∧
    (n ∉ e.inputsOf s.hub pt → exec (.mergeInputArrival xid recv pt n) s = .next s) ∧
    (let p := e.point key
     let ins := (e.inputsOf s.hub pt).map fun n => (n, p.input n)
     let passes (k m : Nat) (r : XRecord) : Prop :=
       (∃ z rest, ins[k]? = some (m, z) ∧ z.held = r :: rest) ∧ (∀ q ∈ ins, ∀ y ∈ q.2.held, r.key ≤ y.key) ∧
         ∀ j q, ins[j]? = some q → (j < k → r.key < q.2.first) ∧ (k < j → r.key ≤ q.2.first)
     let folds (h : Nat) : Prop :=
       (∃ q ∈ ins, ∃ y ∈ q.2.held, y.key = h) ∧ (∀ q ∈ ins, ∀ y ∈ q.2.held, h ≤ y.key) ∧ ∀ q ∈ ins, h < q.2.after h
     let waits : Prop := if e.comb = 0 then ∀ k m r, ¬ passes k m r else ∀ h, ¬ folds h
     let floor := (ins.map fun q => q.2.first).foldl min (2 ^ 64)
     let ended : Prop := ∀ q ∈ ins, q.2.held = [] ∧ q.2.closed = true
     ((∀ q ∈ ins, ∀ y ∈ q.2.held, y.key < 2 ^ 64) →
       (e.comb = 0 → ∀ k m r, passes k m r → e.emission p ins =
         some (.record r, ins.map fun q => if q.1 = m then (q.1, { q.2 with held := q.2.held.drop 1 }) else q)) ∧
       (e.comb ≠ 0 → ∀ h, folds h → ∃ r rs, (ins.flatMap fun q => q.2.held.filter fun y => y.key == h) = r :: rs ∧
         e.emission p ins = some (.record (rs.foldl e.fold r),
           ins.map fun q => (q.1, { q.2 with held := q.2.held.filter fun y => y.key != h }))) ∧
       (waits → ¬ ended → p.sentFloor < floor → e.emission p ins = some (.floor floor, ins)) ∧
       (waits → ¬ ended → floor ≤ p.sentFloor → e.emission p ins = none) ∧
       (ended → p.sentClose = false → e.emission p ins = some (.close, ins)) ∧
       (ended → p.sentClose = true → e.emission p ins = none)) ∧
     (e.formed = true → e.stands s.hub recv pt = true →
      (e.emission p ins = none → exec (.mergePointEmit xid recv pt) s = .next s) ∧
      (∀ x ins1, e.emission p ins = some (x, ins1) →
        (∀ r, x = .record r → ∀ q ∈ ins, r.key ≤ q.2.first) ∧
        (∀ f, x = .floor f → p.sentFloor < f ∧ ∀ q ∈ ins, f ≤ q.2.first) ∧
        (x = .close → p.sentClose = false ∧ ∀ q ∈ ins, q.2.held = [] ∧ q.2.closed = true) ∧
        ∃ t y, exec (.mergePointEmit xid recv pt) s = .next t ∧ Assoc.find t.exchanges xid = some y ∧
          { t with exchanges := s.exchanges, outputs := s.outputs, hub := s.hub, draws := s.draws } = s ∧
          (∀ q ∈ ins1, (y.point key).input q.1 = q.2) ∧
          (match x with
           | .record r => (y.point key).sentFloor = max p.sentFloor r.key
           | .floor f => (y.point key).sentFloor = f
           | .close => (y.point key).sentClose = true) ∧
          match e.nextOf s.hub recv pt with
          | .stream => t.hub = s.hub ∧ t.outputs = s.outputs ∧ ∀ r, Assoc.find e.receivers recv = some r →
              Assoc.find y.receivers recv = some { r with stream := r.stream ++ [(e.round, x)] }
          | .away row col => t.hub = (s.leave row col 0).1.hub ∧ t.outputs =
              (match (s.leave row col 0).2 with
               | none => s.outputs
               | some (port, vc) => .exchange port vc row col xid recv x :: s.outputs)
          | .point q => t.hub = s.hub ∧ t.outputs = s.outputs ∧ ∀ m, e.numberOf s.hub pt = some m →
              ((y.point (pointKey recv q)).input m).link = ((e.point (pointKey recv q)).input m).link ++ [x])) ∧
     (e.formed = false → exec (.mergePointEmit xid recv pt) s = .next s))

/-- R389, R396, R397, R410, R414 and R415: the next item of a receiver's stream is delivered: a record's slot into the area of a
hart that waits for it, or to the ingress unit of a die; a close ends the area with its round; a record that finds no room ends
it without; a receiver that has left discards its records. A round that is done gives way to the next, with the mode and the
splitters set for it (what Sieve and the harts of other devices that are members in the round set is free, log entry 46), and an
exchange that is finished is forgotten. When a round without senders closes (log entry 45), and that a record is discarded and
counted at the end of its receiver's tree, after combining (log entry 41), are the model's reading. -/
def Obligations.DeliveryAndRounds : Prop :=
  ∀ (xid recv : Nat) (s : State) (e : Exchange), Assoc.find s.exchanges xid = some e →
    let put (y : Exchange) : State := { s with exchanges := Assoc.put s.exchanges xid y }
    (∀ r round x rest, Assoc.find e.receivers recv = some r → r.stream = (round, x) :: rest →
      let after (i : Instr) (z : Receiver) : Prop :=
        exec i s = .next (put { e with receivers := Assoc.put e.receivers recv z })
      let popped : Receiver := { r with stream := rest }
      ((e.entry recv).kind ≠ 1 → r.gone = true →
        ((∀ y, x ≠ .record y) → after (.whiskDeliver xid recv) popped) ∧
        (∀ y, x = .record y → exec (.whiskDeliver xid recv) s = .next (put { e with
          receivers := Assoc.put e.receivers recv popped, discarded := min (e.discarded + 1) (2 ^ 64 - 1) }))) ∧
      ((e.entry recv).kind ≠ 1 → r.gone = false →
        (r.area = none → (∀ f, x ≠ .floor f) → exec (.whiskDeliver xid recv) s = .next s) ∧
        (∀ a f, r.area = some a → a.ended = none → x = .floor f → after (.whiskDeliver xid recv) popped) ∧
        (∀ a, r.area = some a → a.ended ≠ none → exec (.whiskDeliver xid recv) s = .next s) ∧
        (∀ a, r.area = some a → a.ended = none → x = .close →
          ∃ t y, exec (.whiskDeliver xid recv) s = .next t ∧ Assoc.find t.exchanges xid = some y ∧ t.mem = s.mem ∧
            Assoc.find y.receivers recv = some { popped with area := some { a with ended := some true, round := round } }) ∧
        (∀ a y, r.area = some a → a.ended = none → x = .record y →
          (a.size < a.written + e.slotSize →
            ∃ t z, exec (.whiskDeliver xid recv) s = .next t ∧ Assoc.find t.exchanges xid = some z ∧ t.mem = s.mem ∧
              Assoc.find z.receivers recv = some { r with area := some { a with ended := some false } }) ∧
          (a.written + e.slotSize ≤ a.size →
            ∃ t z, exec (.whiskDeliver xid recv) s = .next t ∧ Assoc.find t.exchanges xid = some z ∧
              t.mem = (s.areaWrite e.tag (e.entry recv).wid a a.written (e.slotBytes y)).mem ∧
              ∃ w, Assoc.find z.receivers recv = some w ∧
                w.area = some { a with written := a.written + e.slotSize, round := round }))) ∧
      (∀ u y, (e.entry recv).kind = 1 → s.ingress? (e.entry recv).die xid = some u → x = .record y →
        ∃ t u1, exec (.whiskDeliver xid recv) s = .next t ∧ t.ingress? (e.entry recv).die xid = some u1 ∧
          u1.inbox = u.inbox ++ [y]) ∧
      (∀ u, (e.entry recv).kind = 1 → s.ingress? (e.entry recv).die xid = some u → x = .close →
        (u.inbox = [] → u.waiting = [] → ∃ t, exec (.whiskDeliver xid recv) s = .next t ∧
          t.ingress? (e.entry recv).die xid = some (u.closeRound round)) ∧
        (u.inbox ≠ [] ∨ u.waiting ≠ [] → exec (.whiskDeliver xid recv) s = .next s))) ∧
    (e.roundDone s.hub = false → exec (.roundClose xid) s = .next s) ∧
    (e.roundDone s.hub = true → ∃ t y, exec (.roundClose xid) s = .next t ∧ Assoc.find t.exchanges xid = some y ∧
      y.round = e.round + 1 ∧ y.points = [] ∧ y.install = none ∧ y.senders = e.senders ∧ y.receivers = e.receivers ∧
      { t with exchanges := s.exchanges, draws := s.draws } = s ∧
      (e.mode = 0 → y.shadow = e.shadow) ∧
      (e.mode ≠ 0 → (∀ p ∈ e.far, p.2.sends e.round = false) → y.shadow = some (e.round, e.shadowTable)) ∧
      (e.mode ≠ 0 → ∃ w, y.shadow = some (e.round, w)) ∧
      (e.farMember = false → y.mode = e.nextMode ∧
        (∀ w, e.install = some w → y.splitters = w) ∧
        (e.install = none → e.mode ≠ 0 → e.nextMode = 1 → y.shadow = some (e.round, y.splitters)) ∧
        (e.install = none → (e.mode = 0 ∨ e.nextMode ≠ 1) → y.splitters = e.splitters))) ∧
    (e.finished = false → exec (.exchangeClose xid) s = .next s) ∧
    (e.finished = true → exec (.exchangeClose xid) s = .next { s with exchanges := Assoc.drop s.exchanges xid })

/-- R425 to R430: an ingress unit takes its next record, which it counts and drops when its group lies outside the die, and
whose chosen experts' entries else join their buffers: each takes the next place of its expert's chain, with a block more where
that is needed, and the buffer starts as a batch when it has the threshold's rows. An entry that finds no block waits, and the
fullest buffer starts short; that it does so once, and again once every batch is released, is the model's reading (log entry 42).
The unit publishes its oldest started batch once the ring entry is free, and a write to RELEASE frees blocks of its batch. -/
def Obligations.IngressSteps : Prop :=
  ∀ (die xid : Nat) (s : State) (e : Exchange) (u : Ingress), Assoc.find s.exchanges xid = some e →
    Assoc.find e.ingress die = some u →
    let rowb := match e.segs with | [] => 0 | p :: _ => p.2
    (∀ r rest, u.waiting = [] → u.inbox = r :: rest →
      (u.entriesOf rowb r = none → (r.key / 2 ^ 32 < u.glo ∨ u.glo + u.ng ≤ r.key / 2 ^ 32) ∧
        let t := (s.onIngress die xid fun u => { u with inbox := rest, dropped := u.dropped + 1 }).writeHeader die xid 0x10
          (u.dropped + 1)
        exec (.ingressRecord die xid) s = .next t ∧
        ∃ u1, t.ingress? die xid = some u1 ∧ u1.inbox = rest ∧ u1.waiting = [] ∧ u1.dropped = u.dropped + 1 ∧
          u1.buffers = u.buffers) ∧
      (∀ es m, u.entriesOf rowb r = some (es, m) → es.length ≤ u.kg ∧
        (∀ x ∈ es, x.expert / u.gs = r.key / 2 ^ 32 - u.glo ∨ u.gs = 0) ∧
        let taken := s.onIngress die xid fun u => { u with inbox := rest, waiting := es, nans := u.nans + m }
        let counted := if m = 0 then taken else taken.writeHeader die xid 0x18 (u.nans + m)
        let t := counted.appendAll die xid (es.length + 1)
        exec (.ingressRecord die xid) s = .next t ∧
        ∃ u1 k, t.ingress? die xid = some u1 ∧ u1.inbox = rest ∧ u1.waiting = es.drop k ∧ u1.nans = u.nans + m ∧
          u1.dropped = u.dropped)) ∧
    (u.waiting ≠ [] ∨ u.inbox = [] →
      exec (.ingressRecord die xid) s = .next (s.appendAll die xid (u.waiting.length + 1))) ∧
    (u.waiting = [] → s.appendEntry die xid = (s, false)) ∧
    (∀ w rest, u.waiting = w :: rest →
      let b := (Assoc.find u.buffers w.expert).getD { blocks := [], rows := 0 }
      let o := b.rows * u.entrySize
      let need := (o + u.entrySize + 4095) / 4096 - b.blocks.length
      (∀ bs, need = 0 ∧ bs = [] ∨ need ≠ 0 ∧ (∃ k, u.freeBlock w.expert = some k ∧ bs = [k]) →
        let grown : Buffer := { blocks := b.blocks ++ bs, rows := b.rows + 1 }
        let joined := Assoc.put u.buffers w.expert grown
        ∃ t u1, s.appendEntry die xid = (t, true) ∧ t.ingress? die xid = some u1 ∧ u1.waiting = rest ∧ u1.inbox = u.inbox ∧
          t.mem = ((entryParts grown.blocks o w.bytes).foldl (fun z p => z.unitWrite xid u.pool p.1 p.2) s).mem ∧
          (∀ k ∈ bs, k ∈ (if k < u.experts then u1.seedsOut else u1.taken)) ∧
          (grown.rows < u.thresh → u1.buffers = joined ∧ u1.started = u.started) ∧
          (u.thresh ≤ grown.rows → u1.buffers = Assoc.drop joined w.expert ∧ u1.nextSeq = u.nextSeq + 1 ∧ u1.started = u.started ++
            [{ seq := u.nextSeq, expert := w.expert, round := e.round, rows := grown.rows, blocks := grown.blocks,
               short := false, close := false, freed := 0 }])) ∧
      (need ≠ 0 → u.freeBlock w.expert = none →
        (u.pressed = true → u.settled = false → s.appendEntry die xid = (s, false)) ∧
        (u.pressed = false ∨ u.settled = true → ∃ t u1, s.appendEntry die xid = (t, false) ∧ t.ingress? die xid = some u1 ∧
          u1.waiting = u.waiting ∧ u1.pressed = true ∧
          (u.buffers = [] → u1.started = u.started ∧ u1.short = u.short) ∧
          ∀ k c, u.fullest = some k → Assoc.find u.buffers k = some c →
            (∀ j d, Assoc.find u.buffers j = some d → Assoc.wf u.buffers = true → d.rows ≤ c.rows) ∧
            u1.short = u.short + 1 ∧ u1.buffers = Assoc.drop u.buffers k ∧ u1.started = u.started ++
              [{ seq := u.nextSeq, expert := k, round := e.round, rows := c.rows, blocks := c.blocks,
                 short := true, close := false, freed := 0 }]))) ∧
    (∀ b rest, u.started = b :: rest →
      let q := b.seq % u.nbq
      let open_ := ∀ old, Assoc.find u.published q = some old → old.freed = old.blocks.length
      (¬ open_ → exec (.batchPublish die xid) s = .next s) ∧
      (open_ → ∃ t u1, exec (.batchPublish die xid) s = .next t ∧ t.ingress? die xid = some u1 ∧ u1.started = rest ∧
        u1.published = Assoc.put u.published q b ∧ u1.pub = u.pub + 1 ∧
        t.mem = ((s.unitWrite xid u.ring (64 + q * u.ringEntry) (u.ringBytes b)).writeHeader die xid 0 (u.pub + 1)).mem)) ∧
    (∀ seq v rest, u.releases = (seq, v) :: rest →
      ∃ u1, exec (.ringReleaseWrite die xid) s = .next (s.onIngress die xid fun _ => u1) ∧ u1.releases = rest ∧
        u1.started = u.started ∧ u1.buffers = u.buffers ∧
        ∀ b, Assoc.find u.published (seq % u.nbq) = some b → b.seq = seq →
          let k := min v b.blocks.length
          (b.freed < k → Assoc.find u1.published (seq % u.nbq) = some { b with freed := k } ∧
            ∀ x ∈ (b.blocks.drop b.freed).take (k - b.freed), x ∉ u1.seedsOut ∨ u.experts ≤ x) ∧
          (k ≤ b.freed → u1 = { u with releases := rest }))

/-! ### The fabric -/

/-- R320, R322 to R328: a load, store or atomic of a peer that is its source's next is checked as R47 says, performed where it
leads and answered: OK, accepted, refused, or data error; a store that fails is held in the fault log, or waits while the log is
full; a load that leads beyond the device goes on and waits for its answer. R299, R323, R325, R326: an answer goes to the hart that
waits for the request with its tag; one for another incarnation, or for no request in flight, is dropped and counted, and the tag
of a request that has timed out stays taken; a write or atomic that has succeeded leaves its granules dirty (R472). R316 and R317: a
whole packet that is not for this device leaves by the port of its minimal route, ports go down, and failing lanes use up spares.
The model's choices are: that the requests of one source are handled in their order (log entry 74), that a load whose range leads
beyond the device goes on (log entry 26), that a timed-out tag stays taken, and that nothing is sent while every tag is (log entry
91), that a run of bytes is one element (log entry 122), what another device's plain read sees of its own (log entry 46), and that a
port that is down delivers nothing (log entry 77). Requests behind a held store (R328) and accesses that cross a 256-byte boundary
are left out. -/
def Obligations.FabricSteps : Prop :=
  (∀ (k : Nat) (q : PeerRequest) (s s1 : State), s.peerIn[k]? = some q → s.heldStore q = none →
    (∀ p ∈ s.peerIn.take k, ¬ (p.row = q.row ∧ p.col = q.col)) →
    let here : State := if q.op = 1 then s else s.settleTree .outside
    let does (t : State) : Prop :=
      (q.op = 0 → exec (.remoteLoadRequest k) s = .next t) ∧ (q.op = 1 → exec (.remoteStoreRequest k) s = .next t) ∧
        (q.op = 2 → ∀ op, AtomicOp.ofCode q.aop.toNat = some op → exec (.remoteAtomicRequest k) s = .next t)
    let without (t : State) : State := { t with peerIn := t.peerIn.eraseIdx k }
    let failed (t : State) (c : Cause) : State := (without t).respond q (if c = .dataerr then 3 else 2) 0
    let n := q.size.toNat
    let va := q.va.toNat
    let g := outsideAgent q.asid (here.rootOf q.asid)
    let x (v : Word) : Nat := v.toNat % 2 ^ (8 * n)
    let sent (t : State) (tag : Option (BitVec 16)) (left : List Piece) : State :=
      { t with peerIn := t.peerIn.modify k fun r => { r with request := tag, answer := none, left := left, got := [] } }
    let updated (t : State) (old : Nat) (new : Option Nat) : State :=
      (t.recordExternal q.source q.asid (cellsAt va (toBytesLE n (new.getD old)))).respond q 0 (BitVec.ofNat 64 old)
    let kept (t : State) (c : BitVec 8) : Prop :=
      (t.hub.logFull = true → exec (.remoteStoreRequest k) s = .next t) ∧
        (t.hub.logFull = false → exec (.remoteStoreRequest k) s = .next (((without t).logStore q c).respond q 1 0))
    (∀ tag, q.request = some tag → q.answer = none → does here) ∧
    (∀ tag c, q.request = some tag → q.answer = some (.failed c) → q.op ≠ 1 → does (failed here c)) ∧
    (∀ tag p v, q.request = some tag → q.answer = some (.data v) → q.op = 0 → q.left = [p] →
      does ((without here).respond q 0 (BitVec.ofNat 64 (ofBytesLE (q.got ++ toBytesLE p.size v))))) ∧
    (∀ tag v op, q.request = some tag → q.answer = some (.data v) → AtomicOp.ofCode q.aop.toNat = some op → q.op = 2 →
      does (updated (without here) v (op.apply n v (x q.opb) (x q.opc)))) ∧
    (q.request = none → q.left = [] → here.replaying q.source q.asid va (if q.op = 1 then 64 else n) = false →
    (q.op = 0 →
      (∀ c a, here.outsideRoute g va n .read true = (s1, .error (c, a)) → does (failed s1 c)) ∧
      (∀ p, here.outsideRoute g va n .read true = (s1, .ok [p]) → p.place.target = .memory →
        (∀ w, s1.badWord p.place.addr p.size = some w → does (failed (s1.logBad (·.under q.asid) w) .dataerr)) ∧
        (s1.badWord p.place.addr p.size = none →
          let got := s1.sourceBytes (s1.outsideWriter q.source q.asid) p.place p.size
          does ((without got.2).respond q 0 (BitVec.ofNat 64 (ofBytesLE got.1))) ∧
          (p.place.phased = false → got = (s1.mem.readBytes p.place.addr p.size, s1)))) ∧
      (∀ p s2, here.outsideRoute g va n .read true = (s1, .ok [p]) → p.place.target ≠ .memory → p.size ∈ [1, 2, 4, 8] →
        (∀ tag, s1.issueRead .peer p.place p.size = (s2, .sent tag) → does (sent s2 (some tag) [p])) ∧
        (s1.issueRead .peer p.place p.size = (s2, .full) → does (sent s2 none [p])) ∧
        (∀ c, s1.issueRead .peer p.place p.size = (s2, .answered (.failed c)) → does (failed s2 c)))) ∧
    (q.op = 1 →
      (∀ c a, here.outsideRoute g va 1 .write true = (s1, .error (c, a)) → kept s1 c.code) ∧
      (∀ p, here.outsideRoute g va 1 .write true = (s1, .ok [p]) → p.place.target = .memory →
        (∀ r ∈ q.runs p.place, s1.badWord r.place.addr r.size = none) →
        let written := (q.runs p.place).foldl (fun t r =>
          t.writePlace (t.outsideWriter q.source q.asid) r.place (q.runBytes r) q.nibble
            (if r.size ∈ [2, 4, 8] then 8 * r.size else 8) false) s1
        does (((without written).recordExternal q.source q.asid q.cells).respond q 1 0))) ∧
    (q.op = 2 → ∀ op, AtomicOp.ofCode q.aop.toNat = some op →
      (∀ c a, here.outsideRoute g va n .atomic true = (s1, .error (c, a)) → does (failed s1 c)) ∧
      (∀ p, here.outsideRoute g va n .atomic true = (s1, .ok [p]) → p.place.target = .memory →
        (∀ w, s1.badWord p.place.addr n = some w → does (failed (s1.logBad (·.under q.asid) w) .dataerr)) ∧
        (s1.badWord p.place.addr n = none →
          let old := ofBytesLE (s1.homeBytes p.place n)
          (p.place.phased = false → old = s1.mem.readLE p.place.addr n) ∧
          (op.apply n old (x q.opb) (x q.opc) = none → does (updated ((without s1).markDirty p.place n) old none)) ∧
          ∀ new, op.apply n old (x q.opb) (x q.opc) = some new → does (updated ((without s1).writePlace
            (s1.outsideWriter q.source q.asid) p.place (toBytesLE n new) 0 (8 * n) true) old (some new))))))) ∧
  (∀ (s : State) (q : PeerRequest) (c : BitVec 8),
    let t := s.logStore q c
    t.mem = s.mem ∧ t.hub.flTail = s.hub.flTail + 1 ∧ t.hub.flHead = s.hub.flHead ∧
      t.hub.faults = s.hub.faults ++ [{ seq := s.hub.flTail, cause := c, row := q.row, col := q.col, asid := q.asid }] ∧
      (s.hub.flHead ≠ s.hub.flTail → t.outputs = s.outputs)) ∧
  (∀ (r : PeerResponse) (tag : BitVec 16) (ok : Bool) (data : List Byte) (s : State),
    let stale : State := { s with hub := { s.hub with stale := s.hub.stale + 1 } }
    let given (t : State) (k : Nat) (h : Hart) (a : Answer) : State := t.setHart k { h with wait := { h.wait with answer := some a } }
    let done (t : State) (p : Pending) (yes : Prop) [Decidable yes] : State :=
      match p.track with
      | some (asid, lo, hi) => if yes then t.markGranules asid lo (hi - lo) else t
      | none => t
    let good := r.rsp ≠ 2 ∧ r.rsp ≠ 3
    let freed (tag : BitVec 16) : State := { s with pending := Assoc.drop s.pending tag.toNat }
    (r.expinc ≠ s.hub.incarnation → exec (.remoteResponse r) s = .next stale) ∧
    (r.expinc = s.hub.incarnation → Assoc.find s.pending r.tag.toNat = none → exec (.remoteResponse r) s = .next stale) ∧
    (∀ p, r.expinc = s.hub.incarnation → Assoc.find s.pending r.tag.toNat = some p → p.peer = true → p.waiter = .gone →
      exec (.remoteResponse r) s = .next { done (freed r.tag) p good with hub := stale.hub }) ∧
    (∀ p, Assoc.find s.pending tag.toNat = some p → p.peer = false ∨ p.waiter = .gone → exec (.peerTimeout tag) s = .next s) ∧
    (Assoc.find s.pending tag.toNat = none →
      exec (.peerTimeout tag) s = .next s ∧ exec (.hostCompletion tag ok data) s = .next s) ∧
    (∀ k p h, s.hart? k = some h → p.waiter = .hart k →
      (Assoc.find s.pending r.tag.toNat = some p → p.peer = true → h.wait.request = some r.tag →
        r.expinc = s.hub.incarnation → exec (.remoteResponse r) s = .next (given (done (freed r.tag) p good) k h
          (if r.rsp = 2 then .failed .remote else if r.rsp = 3 then .failed .dataerr else .data r.data.toNat))) ∧
      (Assoc.find s.pending tag.toNat = some p → p.peer = true → h.wait.request = some tag →
        ∃ (late : Bool) (d : Nat), exec (.peerTimeout tag) s = .next { given (done { s with
          pending := Assoc.put s.pending tag.toNat { p with waiter := .gone } } p (late = true)) k h (.failed .peer) with draws := d }) ∧
      (Assoc.find s.pending tag.toNat = some p → p.peer = false → h.wait.request = some tag →
        exec (.hostCompletion tag ok data) s = .next (given (done (freed tag) p (ok = true)) k h
          (if ok then .data (ofBytesLE (data.take p.size)) else .failed .dataerr))))) ∧
  (∀ (port : Nat) (f : Flit) (s : State),
    let x := flitHead f.header
    let hub (b : Hub) : State := { s with hub := b }
    (s.hub.working port = false → exec (.flitReceive port f) s = .next s ∧ exec (.linkDown port) s = .next s ∧
      exec (.laneFailure port) s = .next s) ∧
    (s.hub.working port = true →
      exec (.linkDown port) s = .next (hub { s.hub with down := port :: s.hub.down }) ∧
      (s.hub.spares ≠ 0 → exec (.laneFailure port) s = .next (hub { s.hub with spares := s.hub.spares - 1 })) ∧
      (s.hub.spares = 0 → exec (.laneFailure port) s = .next (hub { s.hub with down := port :: s.hub.down })) ∧
      (s.hub.recovery = false → 4 ≤ x.kind → exec (.flitReceive port f) s = .next s) ∧
      (s.hub.recovery = false → x.kind = 3 → x.drow = s.hub.row.toNat → x.dcol = s.hub.col.toNat →
        x.expinc ≠ s.hub.incarnation →
        exec (.flitReceive port f) s = .next (hub { s.hub with stale := s.hub.stale + 1 })) ∧
      (∀ p, s.hub.recovery = false → x.kind = 3 → (x.drow ≠ s.hub.row.toNat ∨ x.dcol ≠ s.hub.col.toNat) →
        s.hub.outPort x = some p → exec (.flitReceive port f) s =
          .next { s with outputs := .flit p { f with header := (s.hub.onward x).word } :: s.outputs }) ∧
      (let slot := 8 * port + x.vc
       let took (m : Assoc Flow) : State := hub { s.hub with arriving := m }
       s.hub.recovery = false →
       (x.kind = 0 → exec (.flitReceive port f) s = .next (took (Assoc.put s.hub.arriving slot { head := f, body := [] }))) ∧
       (x.kind = 2 → Assoc.find s.hub.arriving slot = none → exec (.flitReceive port f) s = .next s) ∧
       ∀ c, Assoc.find s.hub.arriving slot = some c →
         (x.kind = 1 → exec (.flitReceive port f) s =
           .next (took (Assoc.put s.hub.arriving slot { c with body := c.body ++ [f] }))) ∧
         (x.kind = 2 →
           let y := flitHead c.head.header
           let kindOf (e : Flit) : FlitHead := { y with kind := (flitHead e.header).kind }
           y.drow ≠ s.hub.row.toNat ∨ y.dcol ≠ s.hub.col.toNat →
             (s.hub.outPort y = none → exec (.flitReceive port f) s = .next (took (Assoc.drop s.hub.arriving slot))) ∧
             ∀ p, s.hub.outPort y = some p → exec (.flitReceive port f) s = .next
               { took (Assoc.drop s.hub.arriving slot) with outputs := ((c.head :: (c.body ++ [f])).map fun e =>
                   .flit p { e with header := (s.hub.onward (kindOf e)).word }).reverse ++ s.outputs }))))

/-! ### Launches -/

/-- R25 to R27, R74 and R77: a die takes the position at HEAD of the queue whose turn it is: HEAD moves on and the slot is
cleared; each dword of the record's copy is the one in memory now or one that it has held since the slot was written; a record
that can be read and passes its checks becomes a launch with the next tag, another is rejected, with a completion word or, where that
cannot be written, an entry in the launch log. R465 and R466: a launch whose harts have all exited and whose nodes and exchanges are
done completes: its writes are published, its completion word written, its vector raised. R477: a replay in which every hart waits on
the log is given up. The completion is stated for a launch without hashing, a log or a successor. That what a host writes to a slot
that already holds a record comes back for the position 256 later is one of the outcomes the model allows (log entry 112); that a
dword's older values are those since the slot was written (log entry 61), and that tags are consecutive numbers (log entry 90), are
the model's choice. -/
def Obligations.LaunchSteps : Prop :=
  (∀ (q : QueueId) (s : State),
    let i := 16 * q.die.toNat + 8 * bit01 q.bulk + q.q.toNat
    let x := s.queue i
    let j := x.head.toNat % 256
    let slot := x.slot j
    let pa := slot.toNat / 128 % 2 ^ 45 * 128
    let a := Assoc.find x.appends x.head.toNat
    let turn := (s.launches.filter fun p => p.2.die == q.die.toNat).length < 64 ∧ s.nextQueue q.die.toNat = some i
    let readable := slot.toNat / 2 ^ 52 = 0 ∧ slot.toNat / 2 % 64 = 0 ∧ pa < 0x8000000000
    (¬ turn → exec (.takePosition q) s = .next s) ∧
    (turn → ∃ w : State, (w.queue i).head = x.head + 1 ∧ (w.queue i).tail = x.tail ∧ (w.queue i).enable = x.enable ∧
      (Assoc.wf x.slots = true → (w.queue i).slot j = (Assoc.find x.late j).getD 0 ∧
        ∀ k, k ≠ j → (w.queue i).slot k = x.slot k) ∧ (∀ k, k ≠ i → w.queue k = s.queue k) ∧
      { w with queues := s.queues, turns := s.turns, draws := s.draws, hub := s.hub } = s ∧ w.hub.groups = s.hub.groups ∧
      (¬ readable → exec (.takePosition q) s = .next (w.rejectLaunch pa none 1)) ∧
      (∀ b, readable → s.badWord pa 128 = some b → exec (.takePosition q) s = .next (w.rejectLaunch pa none 1)) ∧
      (readable → s.badWord pa 128 = none → w.hub = s.hub ∧ ∃ copy : Record,
        (∀ d : Fin 16, copy[d] = s.mem.dword (pa + 8 * d.val) ∨
          ∃ y held, Assoc.find x.copies j = some y ∧ y.base = pa ∧ y.values[d.val]? = some held ∧ copy[d] ∈ held) ∧
        let r := overrideRecord copy a
        (∀ n, s.recordFault r (some (bit01 q.bulk)) = some n →
          exec (.takePosition q) s = .next (w.rejectLaunch pa (some r) n)) ∧
        (s.recordFault r (some (bit01 q.bulk)) = none →
          let t := w.acceptLaunch q.die.toNat pa r a
          exec (.takePosition q) s = .next t ∧
          (recReplay r = false → recHashtrack r = false → t.nextTag = s.nextTag + 1 ∧
            ∃ l, Assoc.find t.launches s.nextTag = some l ∧ l.dwords = r ∧ l.die = q.die.toNat ∧ l.record = pa ∧
              l.members = [] ∧ l.started = [] ∧ l.ended = false ∧ l.writes = [] ∧
              ∀ k, k ≠ s.nextTag → Assoc.find t.launches k = Assoc.find s.launches k))))) ∧
  (∀ (s : State) (record n : Nat) (r : Record),
    let noted (t : State) (asid : BitVec 16) : State := t.log .launch (launchEntry 1 n record asid 0 0)
    let word : Word := BitVec.ofNat 64 (0x80 * 2 ^ 56 + n * 2 ^ 48)
    s.rejectLaunch record none n = noted s 0 ∧ (recCaddr r = 0 → s.rejectLaunch record (some r) n = noted s (recAsid r)) ∧
    (∀ t o, recCaddr r ≠ 0 → s.deviceDword (.reject record n) (recordAgent r) (recCaddr r) word = (t, o) →
      s.rejectLaunch record (some r) n = match o with
        | .failed _ => noted t (recAsid r)
        | .done | .sent _ => t) ∧
    ∀ asid, ∃ y, (noted s asid).hub.launchLog.entries.getLast? = some y ∧ y.kind = 1 ∧ y.code = BitVec.ofNat 8 n ∧
      y.addr = BitVec.ofNat 64 record) ∧
  (∀ (tag : Word) (s : State) (l : Launch), s.launch? tag = some l →
    let past := (∀ p ∈ l.members, p.2.exited = true) ∧ (l.ended = true ∨ l.members.length = recWidcount l.dwords) ∧
      (∀ p ∈ s.nodes, p.2.tag = tag → p.2.st = .finished) ∧ ∀ p ∈ s.exchanges, p.2.tag ≠ tag
    let ends (t : State) : State :=
      (if recMsien l.dwords then t.raiseMsi (recMsivec l.dwords) else t).dropLaunch tag.toNat l
    (l.closing = none → ¬ past → exec (.launchComplete tag) s = .next s) ∧
    (l.closing = none → past → l.replay = none → recSucc l.dwords = 0 →
      let word : Word := BitVec.ofNat 64 ((if l.ended then 3 else 1) * 2 ^ 56)
      let c : Closing := { word := word, written := false, copy := none, next := none, request := none, answer := none }
      let s1 := (s.publish tag.toNat l).onLaunch tag fun l => { l with closing := some c }
      (s1.quiet tag = false → exec (.launchComplete tag) s = .next s1) ∧
      (s1.quiet tag = true → recCaddr l.dwords = 0 → exec (.launchComplete tag) s = .next (ends s1)) ∧
      (∀ t o, s1.quiet tag = true → recCaddr l.dwords ≠ 0 →
        s1.deviceDword (.completion tag) l.agent (recCaddr l.dwords) word = (t, o) →
        exec (.launchComplete tag) s = .next (match o with
          | .done => ends t
          | .failed e => ends (t.logCompletion tag l e)
          | .sent q => t.onLaunch tag fun l => { l with closing := some { c with written := true, request := some q } }))) ∧
    (∀ c, l.closing = some c →
      (s.quiet tag = false → exec (.launchComplete tag) s = .next s) ∧
      (s.quiet tag = true → c.written = true → c.next = none → recSucc l.dwords = 0 →
        (∀ e, c.answer = some (.failed e) → exec (.launchComplete tag) s = .next (ends (s.logCompletion tag l e))) ∧
        ((∀ e, c.answer ≠ some (.failed e)) → exec (.launchComplete tag) s = .next (ends s)))) ∧
    (∀ r, l.replay = some r → r.constrains = true → (∃ p ∈ s.harts, p.2.tag = tag) →
      (∀ p ∈ s.harts, p.2.tag = tag → s.waitsOnLog p.1 p.2 = true) →
      exec (.replayAbandon tag) s = .next { s with
        launches := Assoc.put s.launches tag.toNat { l with replay := some { r with rdiv := true } } }) ∧
    (l.replay = none → exec (.replayAbandon tag) s = .next s))

/-! ### The windows of the host -/

/-- R69, R71 to R73, R75, R94, R329 and R468: what the host's accesses at Window A do, outside recovery, in which none of these
answers: FetchAdd on TAIL, slots, QCTL, LATLO and LATHI, TVECD, the registers of Window B, the fault log's head, and the mask of
a vector, whose pending message is sent once nothing else masks it. A write of another size is dropped and logged. Each follows the
host's posted writes, which walks see from then on (R45; how long they may miss them, log entry 103), what a write to a slot that
already holds a record comes to (log entry 112), and that a FetchAdd in recovery gets an Unsupported Request (log entry 108), are the
model's choice; MSI-X Enable and Function Mask are presumed to be those of PCI Express (log entry 21). -/
def Obligations.WindowRegisters : Prop :=
  ∀ (q : QueueId) (op : HostAtomic) (wide : Bool) (n value : Word) (slot : BitVec 8) (die : BitVec 2) (v : BitVec 6)
    (head : BitVec 32) (s : State),
    let i := 16 * q.die.toNat + 8 * bit01 q.bulk + q.q.toNat
    let x := s.queue i
    let d := s.die die.toNat
    let here : State := s.settleTree .outside
    let out (t : State) (o : Output) : State := { t with outputs := o :: t.outputs }
    let writes := [Instr.slotWrite q slot value, .qctlWrite q value, .latloWrite die value, .lathiWrite die value,
      .tvecdWrite die value, .msixVectorUnmask v, .flheadWrite head]
    (s.hub.recovery = true → (∀ e ∈ writes, exec e s = .next s) ∧ exec (.tailFetchadd q op wide n) s = .next (out s .unsupported)) ∧
    (s.hub.recovery = false →
      let adds := op = .fetchAdd ∧ wide = true ∧ x.enable = true ∧ n.toNat ≤ 256
      (adds → exec (.tailFetchadd q op wide n) s =
        .next (out (here.onQueue i fun y => { y with tail := y.tail + n }) (.completion (toBytesLE 8 x.tail.toNat)))) ∧
      (¬ adds → exec (.tailFetchadd q op wide n) s = .next (out here .completerAbort)) ∧
      (let pa := value.toNat / 128 % 2 ^ 45 * 128
       let j := slot.toNat
       let copied (y : LaunchQueue) (key : Nat) : Assoc RecordCopy :=
         if value.getLsbD 0 = true ∧ pa < 0x8000000000 then
           Assoc.put y.copies key { base := pa, values := (List.range 16).map fun d => [s.mem.dword (pa + 8 * d)] }
         else Assoc.drop y.copies key
       let put (y : LaunchQueue) : LaunchQueue := { y.setSlot j value with copies := copied y j }
       let later (y : LaunchQueue) : LaunchQueue :=
         { y with late := Assoc.put y.late j (y.slot j), copies := match Assoc.find y.copies j with
             | none => Assoc.drop y.copies (256 + j)
             | some c => Assoc.put y.copies (256 + j) c }
       ((x.slot j).getLsbD 0 = false → exec (.slotWrite q slot value) s = .next (here.onQueue i put)) ∧
       ((x.slot j).getLsbD 0 = true → ∃ t m, exec (.slotWrite q slot value) s = .next { t with draws := m } ∧
         (t = here.onQueue i put ∨ t = here ∨
          t = (here.onQueue i fun y => { y with late := Assoc.put y.late j value, copies := copied y (256 + j) }) ∨
          t = here.onQueue i fun y => put (later y)))) ∧
      exec (.qctlWrite q value) s = .next (here.onQueue i fun y => { y with enable := value.getLsbD 0 }) ∧
      exec (.latloWrite die value) s = .next (here.onDie die.toNat fun c => { c with pendingLo := some value }) ∧
      (let lo := d.pendingLo.getD d.latLo
       let ones (w : Word) : Nat := (List.range 64).countP fun j => w.getLsbD j
       let good := value.toNat / 2 ^ 32 = 0 ∧ ones lo + ones value = 8 ∧
         ∀ j, j < 16 → (s.queue (16 * die.toNat + j)).enable = false
       (good → exec (.lathiWrite die value) s =
         .next (here.onDie die.toNat fun c => { c with latLo := lo, latHi := value, pendingLo := none })) ∧
       (¬ good → exec (.lathiWrite die value) s = .next (here.onDie die.toNat fun c => { c with pendingLo := none }))) ∧
      exec (.tvecdWrite die value) s =
        .next (here.onDie die.toNat fun c => { c with tvecd := value &&& 0x003FFFFFFFFFFFF8 }) ∧
      ((head - s.hub.flHead).toNat ≤ (s.hub.flTail - s.hub.flHead).toNat → ∃ fs, exec (.flheadWrite head) s =
        .next { here with hub := { s.hub with flHead := head, faults := fs } } ∧ ∀ e ∈ fs, e ∈ s.hub.faults) ∧
      ((s.hub.flTail - s.hub.flHead).toNat < (head - s.hub.flHead).toNat → exec (.flheadWrite head) s = .next here) ∧
      (∃ t, exec (.msixVectorUnmask v) s = .next t ∧ t.hub.msix.control[v.toNat] = 0 ∧
        { t with outputs := s.outputs, hub := { t.hub with msix := s.hub.msix } } = here ∧
        let sends := s.hub.msix.pending.getLsbD v.toNat = true ∧ s.hub.msix.enabled = true ∧ s.hub.msix.masked = false
        (sends → t.outputs = .message v.toNat s.hub.msix.addr[v.toNat] s.hub.msix.data[v.toNat] :: s.outputs ∧
          t.hub.msix.pending.getLsbD v.toNat = false) ∧
        (¬ sends → t.outputs = s.outputs ∧ t.hub.msix.pending = s.hub.msix.pending)) ∧
      (let write (off : Nat) : Instr := .registerWrite off (toBytesLE 8 value.toNat)
       let hub (b : Hub) : State := { here with hub := b }
       exec (write 0x144000) s = .next (hub { s.hub with wbctl := value &&& 0xFFFF000000000001 }) ∧
       exec (write 0x144008) s = .next (hub { s.hub with wbbase := value &&& 0x003FFFFFFFFFFFFF }) ∧
       exec (write 0x144010) s = .next (hub { s.hub with wbroot := value &&& 0x000FFFFFFFFFF000 }) ∧
       exec (write 0x1FF010) s = .next (hub { s.hub with flCtl := value &&& 0x7F }) ∧
       exec (write 0x1FF008) s = .next here ∧ exec (write 0x150000) s = .next here ∧
       (s.hub.box.stage = .idle → exec (write 0) s =
         .next (hub { s.hub with box := { s.hub.box with cmd := value &&& 0xFFFF00FF, isDone := false, stage := .started } })) ∧
       (s.hub.box.stage ≠ .idle → ∃ t, exec (write 0) s = .next t ∧ t.hub.box = s.hub.box ∧
         t.hub.boxDrops = s.hub.boxDrops + 1) ∧
       ∃ t y, exec (.registerWrite 0x144008 (toBytesLE 2 value.toNat)) s = .next t ∧ t.hub.wbbase = s.hub.wbbase ∧
         t.hub.errorLog.entries.getLast? = some y ∧ y.kind = 7 ∧ y.addr = 0x144008))

/-- R93 and R95: the host's reads, writes and AtomicOps at Window B are accesses in the address space of WBASID at WBBASE plus
the offset, with the checks of R47. A failing read gets an Unsupported Request, and a failing access of any kind, a misaligned
AtomicOp among them, an entry of kind 2 in the range error log, with WBASID in WHO; with WBEN = 0 a read gets an Unsupported Request
and a write has no effect. That an AtomicOp then has none either (log entry 106), that a read which meets an uncorrectable error gets
one of two completions (log entry 28), that a request beyond the window has no effect (log entry 114), and how one goes on whose range
leads to the host or a peer (log entry 115), are the model's choice. -/
def Obligations.WindowAccesses : Prop :=
  ∀ (off n : Nat) (data : List Byte) (op : HostAtomic) (operand compare : Word) (s s1 : State),
    let out (t : State) (o : Output) : State := { t with outputs := o :: t.outputs }
    let va := (s.hub.wbbase.toNat + off) % 2 ^ 54
    let asid : BitVec 16 := BitVec.ofNat 16 (s.hub.wbctl.toNat / 2 ^ 48)
    let g := outsideAgent asid (some s.hub.wbroot.toNat)
    let on := s.hub.wbctl.getLsbD 0 = true ∧ s.hub.recovery = false
    let here : State := s.settleTree .outside
    let asked (op' : Option (HostAtomic × Word × Word)) (p : Piece) (tag : Option (BitVec 16)) : WindowRequest :=
      { asid := asid, va := va, op := op', left := [p], got := [], request := tag, answer := none }
    let through (t : State) (qs : List WindowRequest) : State := { t with hub := { t.hub with windowIn := qs } }
    let reads := Instr.windowBRead off n
    let writes := Instr.windowBWrite off data
    let atomic := Instr.windowBAtomic off op n operand compare
    let fails (i : Instr) (s1 : State) (c : Cause) (a : Nat) (outs : List Output) : Prop :=
      ∃ t y, exec i s = .next t ∧ t.outputs = outs ∧ { t with outputs := s1.outputs, hub := s1.hub } = s1 ∧
        t.hub.rangeLog.entries.getLast? = some y ∧ y.kind = 2 ∧ y.code = c.code ∧ y.addr = BitVec.ofNat 64 a ∧
        y.who = BitVec.ofNat 64 (asid.toNat * 2 ^ 48)
    (s.hub.sizeB < off + n → exec reads s = .next s ∧ exec atomic s = .next s) ∧
    (s.hub.sizeB < off + data.length → exec writes s = .next s) ∧
    (off + n ≤ s.hub.sizeB → off + data.length ≤ s.hub.sizeB →
    (¬ on → exec reads s = .next (out s .unsupported) ∧ exec writes s = .next s ∧ (n = 4 ∨ n = 8 → exec atomic s = .next s)) ∧
    (n ≠ 4 → n ≠ 8 → exec atomic s = .next (out s .unsupported)) ∧
    (on →
      (∀ c a, here.routeRow g va n .read = (s1, .error (c, a)) → fails reads s1 c a (.unsupported :: s1.outputs)) ∧
      (∀ p, here.routeRow g va n .read = (s1, .ok [p]) → p.place.target ≠ .memory → p.size ∈ [1, 2, 4, 8] →
        let qs := s1.hub.windowIn
        ∀ s2 i, (through s1 (qs ++ [asked none p none])).issueRead .window p.place p.size = (s2, i) →
          (∀ tag, i = .sent tag → exec reads s = .next (through s2 (qs ++ [asked none p (some tag)]))) ∧
          (i = .full → exec reads s = .next (through s2 (qs ++ [asked none p none]))) ∧
          (∀ v, i = .answered (.data v) → exec reads s = .next (out (through s2 qs) (.completion (toBytesLE p.size v)))) ∧
          (∀ c, i = .answered (.failed c) → c ≠ .dataerr → fails reads s2 c va (.unsupported :: s2.outputs))) ∧
      (∀ ps w, here.routeRow g va n .read = (s1, .ok ps) → farPieces ps = false → s1.badPieces ps = some w →
        ∃ t, exec reads s = .next t ∧ t.mem = s1.mem ∧ t.hub.uncorrectable = (s1.logBad (·.under asid) w).hub.uncorrectable ∧
          (t.outputs = .unsupported :: s1.outputs ∨ t.outputs = .completerAbort :: s1.outputs)) ∧
      (∀ ps, here.routeRow g va n .read = (s1, .ok ps) → farPieces ps = false → s1.badPieces ps = none →
        exec reads s = .next (out (s1.outsidePieces ps).2 (.completion (s1.outsidePieces ps).1))) ∧
      (∀ p, p.place.phased = false → s1.outsidePieces [p] = (s1.mem.readBytes p.place.addr p.size, s1)) ∧
      (s.replaying .host asid va data.length = false →
        (∀ c a, s.routeRow g va data.length .write = (s1, .error (c, a)) → fails writes s1 c a s1.outputs) ∧
        (∀ p, s.routeRow g va data.length .write = (s1, .ok [p]) → p.place.target = .host → s1.ownWindowA p.place.addr = none →
          p.size = data.length → exec writes s = .next ((out (s1.markDirty p.place data.length)
            (.hostWrite p.place.addr data 0)).recordExternal .host asid (cellsAt va data))) ∧
        (∀ ps, s.routeRow g va data.length .write = (s1, .ok ps) → farPieces ps = false → exec writes s =
          .next ((s1.outsideWrite ps data).recordExternal .host asid (cellsAt va data)))) ∧
      (here.replaying .host asid va n = false →
        (n = 4 ∨ n = 8 →
          (va % n ≠ 0 → fails atomic here .misalign va s.outputs) ∧
          (∀ c a, va % n = 0 → here.routeRow g va n .atomic = (s1, .error (c, a)) → fails atomic s1 c a s1.outputs) ∧
          (∀ p, va % n = 0 → here.routeRow g va n .atomic = (s1, .ok [p]) → p.place.target ≠ .memory → p.size = n →
            let qs := s1.hub.windowIn
            let q := asked (some (op, operand, compare)) p
            ∀ s2 tag, (through s1 (qs ++ [q none])).issueAtomic .window p.place n (hostOp op) (operand.toNat % 2 ^ (8 * n))
                (compare.toNat % 2 ^ (8 * n)) = (s2, .sent tag) →
              exec atomic s = .next (through s2 (qs ++ [q (some tag)]))) ∧
          ∀ p, va % n = 0 → here.routeRow g va n .atomic = (s1, .ok [p]) → farPieces [p] = false → s1.badPieces [p] = none →
            let old := ofBytesLE (s1.homeBytes p.place n)
            (p.place.phased = false → old = s1.mem.readLE p.place.addr n) ∧
            let a := operand.toNat % 2 ^ (8 * n)
            let new : Option Nat := match op with
              | .fetchAdd => some ((old + a) % 2 ^ (8 * n))
              | .swap => some a
              | .cas => if old = compare.toNat % 2 ^ (8 * n) then some a else none
            let answer (t : State) (v : Nat) : State :=
              out (t.recordExternal .host asid (cellsAt va (toBytesLE n v))) (.completion (toBytesLE n old))
            (new = none → exec atomic s = .next (answer (s1.markDirty p.place n) old)) ∧
            ∀ x, new = some x →
              exec atomic s = .next (answer (s1.writePlace Writer.outside p.place (toBytesLE n x) 0 (8 * n) true) x))))) ∧
    (∀ (k : Nat) (q : WindowRequest) (p : Piece) (tag : BitVec 16) (v : Nat), s.hub.windowIn[k]? = some q →
      q.request = some tag → q.left = [p] →
      (q.answer = none → s.windowTurn k = s) ∧
      (q.answer = some (.data v) → q.op = none →
        s.windowTurn k = out (through s (s.hub.windowIn.eraseIdx k)) (.completion (q.got ++ toBytesLE p.size v))))

/-! ### The management controller -/

/-- R69, R96 to R98 and Table 3.10: each command of the mailbox, outside recovery, with its arguments, results and code; in
recovery all but IDENT and FWLOAD end with code 3. A command that has been executed is reported with its result and tag, and
BUSY ends. R69: a reset restarts the device with the next incarnation when its boot ROM accepts the image, and else in recovery;
FWLOAD's last chunk does the same with the loaded image when it is accepted, and else ends with code 2. How a hart that is never
vacated answers VACATE, that ENDLAUNCH goes on until every hart can be stopped, the grid after FWLOAD, and that a restart leaves
memory with nothing listed and a refused image the incarnation as it is, are the model's choices (log entries 29, 71, 22 and 76). -/
def Obligations.ManagementCommands : Prop :=
  ∀ (code : Nat) (image : List Byte) (s : State),
    let b := s.hub
    let a (i : Fin 32) : Word := b.box.args[i]
    let w (n : Nat) : Word := BitVec.ofNat 64 n
    let ends (i : Instr) (c : Nat) : Prop :=
      exec i s = .next { s with hub := { b with box := { b.box with stage := .executed c } } }
    let gives (i : Instr) (xs : List Word) (data : List Byte) : Prop := ∃ t, exec i s = .next t ∧
      { t with hub := { t.hub with box := b.box } } = s ∧ t.hub.box.stage = .executed 0 ∧ t.hub.box.cmd = b.box.cmd ∧
      (∀ i : Fin 32, t.hub.box.args[i] = xs[i.val]?.getD (a i)) ∧ t.hub.box.data = b.box.data.writeBytes 0 data
    let started (c : Nat) (p : Prop) : Prop := b.box.stage = .started → b.box.cmd.toNat % 256 = c → p
    let named := [(Instr.ident, 0x01), (.areas, 0x02), (.readlog, 0x03), (.counters, 0x04), (.attlog, 0x05), (.quote, 0x06),
      (.vacate, 0x07), (.endlaunch, 0x08), (.debug, 0x09), (.sysgrp, 0x0A), (.launches, 0x0B), (.fwload, 0x10)]
    (∀ p ∈ named, (b.box.stage = .started ∧ b.box.cmd.toNat % 256 = p.2) ∨ exec p.1 s = .next s) ∧
    (∀ p ∈ named, b.recovery = true → p.2 ≠ 0x01 → p.2 ≠ 0x10 → started p.2 (ends p.1 3)) ∧
    started 0x01 (gives .ident
      [w (bit01 b.recovery * 2 ^ 63 + b.incarnation.toNat),
       w (b.nr.toNat + 16 * b.nc.toNat + 256 * b.row.toNat + 4096 * b.col.toNat)]
      (if b.recovery then List.replicate 96 0 else identityKey b.incarnation)) ∧
    (code ∉ named.map Prod.snd → started code (ends .unknownCommand (if b.recovery then 3 else 1))) ∧
    (code ∈ named.map Prod.snd → started code (exec .unknownCommand s = .next s)) ∧
    (b.recovery = false →
      started 0x02 ((4 ≤ (a 0).toNat → ends .areas 2) ∧
        ((a 0).toNat < 4 → gives .areas
          [w (spillBase (a 0).toNat), w slotArea, w (storeBase (a 0).toNat), w storeRecords] [])) ∧
      started 0x03 ((4 ≤ (a 0).toNat → ends .readlog 2) ∧
        (∀ l, [b.errorLog, b.launchLog, b.rangeLog, b.engineLog][(a 0).toNat]? = some l →
          let es := (l.entries.filter fun e => (a 1).toNat ≤ e.seq.toNat).take 960
          gives .readlog [w es.length, w (match l.entries with | [] => l.next.toNat | e :: _ => e.seq.toNat), w l.next.toNat]
            (es.flatMap LogEntry.bytes))) ∧
      started 0x04 (gives .counters [b.stale, b.correctable, b.uncorrectable, b.boxDrops] []) ∧
      started 0x05 ((480 < (a 1).toNat → ends .attlog 2) ∧
        ((a 1).toNat ≤ 480 →
          let es := (s.attestation.drop (a 0).toNat).take (a 1).toNat
          gives .attlog [w es.length] (es.flatMap AttEntry.bytes))) ∧
      started 0x06 (gives .quote [w s.attestation.length]
        (quoteOf b.incarnation (sha384 (b.box.data.readBytes 0 48 ++ s.attestation.flatMap AttEntry.bytes)) 64)) ∧
      started 0x07 ((s.hart? (a 0).toNat = none → ends .vacate 4) ∧
        (∀ h, s.hart? (a 0).toNat = some h → h.halted = false → (∀ l, s.launch? h.tag = some l → recReplay l.dwords = false) →
          (s.freeRecords (dieOf (a 0).toNat) = [] → ends .vacate 5) ∧
          (s.freeRecords (dieOf (a 0).toNat) ≠ [] → s.stoppable (a 0).toNat h = true →
            exec .vacate s = .next ((s.vacate (a 0).toNat false).endCommand 0)) ∧
          (s.freeRecords (dieOf (a 0).toNat) ≠ [] → s.stoppable (a 0).toNat h = false → exec .vacate s = .next s)) ∧
        (∀ h, s.hart? (a 0).toNat = some h → (h.halted = true ∨ ∃ l, s.launch? h.tag = some l ∧ recReplay l.dwords = true) →
          ∃ c m, (c = 2 ∨ c = 6) ∧ exec .vacate s =
            .next { s with draws := m, hub := { b with box := { b.box with stage := .executed c } } })) ∧
      started 0x08 ((s.launch? (a 0) = none → ends .endlaunch 4) ∧
        (∀ l, s.launch? (a 0) = some l → s.allStoppable (a 0) = false → exec .endlaunch s = .next s) ∧
        (∀ l, s.launch? (a 0) = some l → s.allStoppable (a 0) = true → ∃ t l1, exec .endlaunch s = .next t ∧ t.hub.box.stage = .executed 0 ∧
          t.launch? (a 0) = some l1 ∧ l1.ended = true ∧ (∀ p ∈ l1.members, p.2.exited = true) ∧
          (Assoc.wf s.harts = true → ∀ k h, t.hart? k = some h → h.tag ≠ a 0) ∧
          (∀ p ∈ t.exchanges, p.2.tag ≠ a 0) ∧ (∀ p ∈ t.vacated, p.2.tag ≠ a 0) ∧ t.mem = s.mem)) ∧
      started 0x09 ((s.hart? (a 0).toNat = none → ends .debug 4) ∧
        (∀ h, s.hart? (a 0).toNat = some h → exec .debug s =
          .next ((s.setHart (a 0).toNat { h with trp := { h.trp with dreq := true } }).endCommand 0))) ∧
      started 0x0A (
        let g := (a 0).toNat % 2 ^ 12
        let map : Nat := (a 1).toNat + 2 ^ 64 * (a 2).toNat + 2 ^ 128 * (a 3).toNat + 2 ^ 192 * (a 4).toNat
        let joined := g = 0 ∨ ∃ p ∈ s.launches, recGroup p.2.dwords = g
        let groups (m : Assoc (BitVec 256)) : Prop :=
          exec .sysgrp s = .next ({ s with hub := { b with groups := m } }.endCommand 0)
        let good := map.testBit (16 * b.row.toNat + b.col.toNat) = true ∧
          ∀ j, j < 256 → map.testBit j = true → j / 16 ≤ b.nr.toNat ∧ j % 16 ≤ b.nc.toNat
        (joined → ends .sysgrp 2) ∧ (¬ joined → map = 0 → groups (Assoc.drop b.groups g)) ∧
        (¬ joined → map ≠ 0 → good → groups (Assoc.put b.groups g (BitVec.ofNat 256 map))) ∧
        (¬ joined → map ≠ 0 → ¬ good → ends .sysgrp 2)) ∧
      started 0x0B ((4 ≤ (a 0).toNat → (a 0).toNat ≠ 0xFF → ends .launches 2) ∧
        ((a 0).toNat < 4 ∨ (a 0).toNat = 0xFF →
          let ls := (s.launches.filter fun p => (a 0).toNat == 0xFF || p.2.die == (a 0).toNat).take 256
          gives .launches [w ls.length] (ls.flatMap fun p => s.launchRow p.1 p.2)))) ∧
    started 0x10 ((61440 < (a 1).toNat → ends .fwload 2) ∧
      ((a 1).toNat ≤ 61440 → (a 2).getLsbD 0 = false → ∃ m, exec .fwload s = .next { s with hub := { b with
        image := m, imageEnd := max b.imageEnd ((a 0).toNat + (a 1).toNat), box := { b.box with stage := .executed 0 } } } ∧
        m = b.image.writeBytes (a 0).toNat (b.box.data.readBytes 0 (a 1).toNat)) ∧
      ((a 1).toNat ≤ 61440 → (a 2).getLsbD 0 = true →
        let loaded := (b.image.writeBytes (a 0).toNat (b.box.data.readBytes 0 (a 1).toNat)).readBytes 0
          (max b.imageEnd ((a 0).toNat + (a 1).toNat))
        (firmwareAccepted loaded = false → exec .fwload s = .next { s with hub := { b with
          image := [], imageEnd := 0, box := { b.box with stage := .executed 2 } } }) ∧
        (firmwareAccepted loaded = true → ∃ g m, gridValid g = true ∧
          exec .fwload s = .next (State.restart { s with draws := m } loaded g)))) ∧
    (∀ c, b.box.stage = .executed c →
      let told : State := { s with hub := { b with box := { b.box with
        stage := .idle, isDone := true, result := BitVec.ofNat 16 c, doneTag := BitVec.ofNat 16 (b.box.cmd.toNat / 2 ^ 16) } } }
      let v := b.box.msi.toNat / 2 % 64
      (b.box.msi.getLsbD 0 = false → exec .mailboxCommandDone s = .next told) ∧
      (b.box.msi.getLsbD 0 = true → exec .mailboxCommandDone s = .next (told.raiseMsi v))) ∧
    ((∀ c, b.box.stage ≠ .executed c) → exec .mailboxCommandDone s = .next s) ∧
    (∀ v : Fin 64, (b.msiMasked v = false → s.raiseMsi v = { s with
        outputs := .message v b.msix.addr[v] b.msix.data[v] :: s.outputs }) ∧
      (b.msiMasked v = true → s.raiseMsi v = { s with hub := { b with msix := { b.msix with
        pending := b.msix.pending ||| BitVec.ofNat 64 (2 ^ v.val) } } })) ∧
    (∀ g, gridValid g = false → exec (.deviceReset { bytes := image, grid := g }) s = .next s) ∧
    (∀ g, gridValid g = true → let t := s.restart image g
      exec (.deviceReset { bytes := image, grid := g }) s = .next t ∧ t.harts = [] ∧ t.mem = [] ∧ t.launches = [] ∧
      t.nodes = [] ∧ t.exchanges = [] ∧ t.seals = [] ∧ t.attestation = [] ∧ t.vacated = [] ∧ t.queues = State.reset.queues ∧
      t.dies = State.reset.dies ∧
      t.hub.nr = g.nr ∧ t.hub.nc = g.nc ∧ t.hub.row = g.row ∧ t.hub.col = g.col ∧
      (if firmwareAccepted image then t.hub.recovery = false ∧ t.hub.incarnation = b.incarnation + 1
       else t.hub.recovery = true ∧ t.hub.incarnation = b.incarnation))

/-! ### Reset, decoding and the step -/

/-- R69, R70, R98 and Tables 3.2 and 3.6: the state the spec gives a device after a reset whose boot ROM check passed: no launch
and no hart, every launch queue disabled and empty, LATMASK and TVECD at their reset values, the seal table and the attestation
log empty, Window B off. It is in order. That memory reads as zero before anything is written is the model's choice (log entry
5). -/
def Obligations.ResetState : Prop :=
  let s := State.reset
  s.harts = [] ∧ s.launches = [] ∧ s.seals = [] ∧ s.attestation = [] ∧ s.exchanges = [] ∧ s.nodes = [] ∧ s.vacated = [] ∧
  s.hub.recovery = false ∧ s.hub.wbctl = 0 ∧ (∀ a, s.mem.read a = 0) ∧
  (∀ i, i < 64 → (s.queue i).enable = false ∧ (s.queue i).tail = 0 ∧ (s.queue i).head = 0 ∧ ∀ j, (s.queue i).slot j = 0) ∧
  (∀ d, d < 4 → (s.die d).latLo = 0x0101010101010101 ∧ (s.die d).latHi = 0 ∧ (s.die d).tvecd = 0) ∧ s.Ordered

/-- Every step keeps memory in its canonical form, which is the model's own choice (log entry 5), and the seats (R81) in order,
whatever the state before it, scheduled events and instructions of every kind among its steps. -/
def Obligations.StepKeepsOrder : Prop := ∀ s t : State, s.Ordered → step s = .next t → t.Ordered

/-- Decoding a word that the encoder gives a well-formed instruction gives that instruction, for every instruction that has an
encoding: no field of R117 to R122 and of the layouts of Tables 4.2 to 4.9 is lost. -/
def Obligations.DecodeEncode : Prop :=
  ∀ (i : Instr) (w : Word), i.wellFormed = true → encode i = some w → decodeWord w = .ok i

/-- With nothing scheduled, a step of a hart that can execute takes a source that was pending at its TRET (R441), or fetches at the
PC, and where the word decodes, and no word of a hart's state fails, it executes the decoded instruction (R99, R119, R120); a word
that is no instruction traps ILLOP with the word in TVAL. The word is that at the place the PC leads to, when the hart's fetches see
what stands in memory (R100, R101). A scheduled event of the device is executed in its turn. That an agenda orders what the agents
do, and that with an empty one the hart `cur` executes, is the model's choice (log entry 1). -/
def Obligations.StepRunsDecoded : Prop :=
  (∀ (s : State) (h : Hart) (n : Nat), s.agenda = [] → s.running = some h → s.dueSource s.cur h = some n →
    step s = .next (s.preempt s.cur h n)) ∧
  (∀ (s : State) (h : Hart), (s.dueSource s.cur h).isSome = true → h.trp.due = true ∧ h.trp.prv = false ∧ h.trp.irq ≠ 0) ∧
  (∀ (s s1 : State) (w : Word) (h : Hart), s.agenda = [] → s.running = some h → s.dueSource s.cur h = none →
    s.nextWord h = (s1, .word w) →
    (∀ i, decodeWord w = .ok i → s1.badHarts = [] → step s = exec i s1) ∧
    ((∀ i, decodeWord w ≠ .ok i) → step s = .next (s1.refuseWord w))) ∧
  (∀ (s s1 : State) (h : Hart) (p : Place), h.wait.word = none → h.wp.cfg = 0 → h.obs.en = false →
    s.translate (s.hartAgent s.cur h 0) h.pc.toNat .execute = (s1, .ok p) → p.target = .memory → s1.badWord p.addr 8 = none →
    h.code.dword p.addr = s1.mem.dword p.addr → s.nextWord h = (s1, .word (s1.mem.dword p.addr))) ∧
  (∀ (s : State) (i : Instr) (rest : List Action), s.agenda = .event i :: rest → Instr.isEvent i = true →
    step s = exec i { s with agenda := rest })

/-- Words of the spec's own examples decode to the instructions their text gives, one of each format (Tables 4.1 to 4.10), an
ADDI word composed field by field after Table 4.3 decodes to its ADDI, and the four changed words of the example after R121 that
are no instruction are refused by the check that stands there. -/
def Obligations.DecodedWords : Prop :=
  decodeWord 0x101083009A480020 =
    .ok (.vadd { d := 4, a := 8, b := 12, c := 0, masked := true, mr := 1, xa := true, xb := false, gd := true, et := .i32,
                 gm := 1, rm := .rne, sat := false, gs := 1, aux4 := false, aux := 0 }) ∧
  decodeWord (0#1 ++ 0x02#7 ++ 4#6 ++ 5#6 ++ 0#4 ++ 0#8 ++ 0xFFFFFFFE#32) = .ok (.addi { d := 4, a := 5, imm := 0xFFFFFFFE }) ∧
  decodeWord 0x03006001FFFFFFF9 = .ok (.bne { d := 0, a := 6, b := 0, off := 0xFFFFFFF9 }) ∧
  decodeWord 0x2251804101C01000 =
    .ok (.vrstore { d := 20, a := 24, b := 1, masked := false, mr := 0, xb := false, xd := false, gd := false, et := .k4,
                    gm := 0, am := 0, ch := 1, gs := 0, off := 0 }) ∧
  decodeWord 0x3430000002100000 =
    .ok (.tqget { d := 12, a := 0, b := 0, c := 0, sc := 0, acq := true, rel := false, masked := false, imm := 0 }) ∧
  decodeWord 0x3901454002800000 =
    .ok (.rinval { d := 0, a := 20, b := 21, c := 0, sc := 4, acq := false, rel := false, masked := false, imm := 0 }) ∧
  decodeWord 0x8010500080412580 = .ok (.pairedWord (.scalar .add 4 5 none) (.vector .vadd 8 9 .i32 true true)) ∧
  decodeWord 0x7C00000000000000 = .ok (.nop 0 0) ∧
  decodeWord 0x101083009A480E20 = .error .illegalField ∧ decodeWord 0x0F1083009A580020 = .error .unallocated ∧
  decodeWord 0x101083001A480020 = .error .illegalField ∧ decodeWord 0x8010500080412581 = .error .unallocated
end

