-- ==== Sys2Proof/Laws/Maps.lean ====
section
/-! SUPPORT. Finite maps and memory: reading what was written, and the canonical form, which every operation keeps. -/

namespace Sys2Proof.Machine

variable {α : Type}

/-! ### Finite maps -/

@[simp] theorem Assoc.find_put_self (m : Assoc α) (i : Nat) (x : α) : Assoc.find (Assoc.put m i x) i = some x := by
  induction m with
  | nil => simp [Assoc.put, Assoc.find]
  | cons c r ih =>
    obtain ⟨k, v⟩ := c
    simp only [Assoc.put]
    split
    · simp [Assoc.find]
    · split
      · simp [Assoc.find]
      · simp only [Assoc.find, ih]
        split <;> simp_all

theorem Assoc.find_put_ne (m : Assoc α) {i j : Nat} (x : α) (h : j ≠ i) :
    Assoc.find (Assoc.put m i x) j = Assoc.find m j := by
  induction m with
  | nil => simp [Assoc.put, Assoc.find, h]
  | cons c r ih =>
    obtain ⟨k, v⟩ := c
    simp only [Assoc.put]
    split
    · rename_i e
      subst e
      simp [Assoc.find, h]
    · split
      · simp only [Assoc.find, h, if_false]
        rename_i e f
        by_cases g : j < i
        · have : j ≠ k := by omega
          have : j < k := by omega
          simp [*]
        · simp [g]
      · simp only [Assoc.find, ih]

@[simp] theorem Assoc.put_put (m : Assoc α) (i : Nat) (x y : α) : Assoc.put (Assoc.put m i x) i y = Assoc.put m i y := by
  induction m with
  | nil => simp [Assoc.put]
  | cons c r ih =>
    obtain ⟨k, v⟩ := c
    simp only [Assoc.put]
    split
    · simp [Assoc.put]
    · split
      · simp [Assoc.put]
      · simp [Assoc.put, *]

/-- Every key of the map is at least `n`. -/
theorem Assoc.wf_tail {k : Nat} {v : α} {r : Assoc α} (h : Assoc.wf ((k, v) :: r) = true) : Assoc.wf r = true := by
  cases r with
  | nil => rfl
  | cons c r => simpa [Assoc.wf] using (by simpa [Assoc.wf] using h : _ ∧ _).2

theorem Assoc.wf_cons {k : Nat} {v : α} {r : Assoc α} :
    Assoc.wf ((k, v) :: r) = true ↔ (∀ c ∈ r, k < c.1) ∧ Assoc.wf r = true := by
  induction r generalizing k v with
  | nil => simp [Assoc.wf]
  | cons c r ih =>
    obtain ⟨l, w⟩ := c
    simp only [Assoc.wf, Bool.and_eq_true, decide_eq_true_eq, List.mem_cons, forall_eq_or_imp]
    constructor
    · rintro ⟨h, g⟩
      exact ⟨⟨h, fun c hc => lt_trans h ((ih.1 g).1 c hc)⟩, g⟩
    · rintro ⟨⟨h, -⟩, g⟩
      exact ⟨h, g⟩

theorem Assoc.mem_put {m : Assoc α} {i : Nat} {x : α} {c : Nat × α} (h : c ∈ Assoc.put m i x) : c = (i, x) ∨ c ∈ m := by
  induction m with
  | nil => simpa [Assoc.put] using h
  | cons d r ih =>
    obtain ⟨k, v⟩ := d
    simp only [Assoc.put] at h
    split at h
    · simp at h ⊢; tauto
    · split at h
      · simp at h ⊢; tauto
      · simp only [List.mem_cons] at h ⊢
        rcases h with h | h
        · tauto
        · rcases ih h with h | h <;> tauto

theorem Assoc.mem_drop {m : Assoc α} {i : Nat} {c : Nat × α} (h : c ∈ Assoc.drop m i) : c ∈ m := by
  induction m with
  | nil => simp [Assoc.drop] at h
  | cons d r ih =>
    obtain ⟨k, v⟩ := d
    simp only [Assoc.drop] at h
    split at h
    · simp [h]
    · split at h
      · exact h
      · simp only [List.mem_cons] at h ⊢
        exact h.imp id ih

/-- A put keeps the keys rising. -/
theorem Assoc.wf_put {m : Assoc α} (i : Nat) (x : α) (h : Assoc.wf m = true) : Assoc.wf (Assoc.put m i x) = true := by
  induction m with
  | nil => rfl
  | cons c r ih =>
    obtain ⟨k, v⟩ := c
    have hc := Assoc.wf_cons.1 h
    simp only [Assoc.put]
    split
    · rename_i e; subst e
      exact Assoc.wf_cons.2 hc
    · split
      · refine Assoc.wf_cons.2 ⟨?_, h⟩
        rintro c hm
        simp only [List.mem_cons] at hm
        rcases hm with rfl | hm
        · assumption
        · have := hc.1 c hm; omega
      · refine Assoc.wf_cons.2 ⟨?_, ih hc.2⟩
        intro c hm
        rcases Assoc.mem_put hm with rfl | hm
        · simp; omega
        · exact hc.1 c hm

/-- A drop keeps the keys rising. -/
theorem Assoc.wf_drop {m : Assoc α} (i : Nat) (h : Assoc.wf m = true) : Assoc.wf (Assoc.drop m i) = true := by
  induction m with
  | nil => rfl
  | cons c r ih =>
    obtain ⟨k, v⟩ := c
    have hc := Assoc.wf_cons.1 h
    simp only [Assoc.drop]
    split
    · exact hc.2
    · split
      · exact h
      · exact Assoc.wf_cons.2 ⟨fun c hm => hc.1 c (Assoc.mem_drop hm), ih hc.2⟩

/-- Leaving entries out keeps the keys rising. -/
theorem Assoc.wf_filter {m : Assoc α} (p : Nat × α → Bool) (h : Assoc.wf m = true) : Assoc.wf (m.filter p) = true := by
  induction m with
  | nil => rfl
  | cons c r ih =>
    obtain ⟨k, v⟩ := c
    have hc := Assoc.wf_cons.1 h
    simp only [List.filter_cons]
    split
    · exact Assoc.wf_cons.2 ⟨fun c hm => hc.1 c (List.mem_filter.1 hm).1, ih hc.2⟩
    · exact ih hc.2

theorem Assoc.find_none_of_lt {m : Assoc α} {i : Nat} (h : ∀ c ∈ m, i < c.1) : Assoc.find m i = none := by
  cases m with
  | nil => rfl
  | cons c r =>
    obtain ⟨k, v⟩ := c
    have : i < k := h (k, v) (by simp)
    simp [Assoc.find, Nat.ne_of_lt this, this]

theorem Assoc.find_drop_self {m : Assoc α} (i : Nat) (h : Assoc.wf m = true) : Assoc.find (Assoc.drop m i) i = none := by
  induction m with
  | nil => rfl
  | cons c r ih =>
    obtain ⟨k, v⟩ := c
    have hc := Assoc.wf_cons.1 h
    simp only [Assoc.drop]
    split
    · rename_i e; subst e
      exact Assoc.find_none_of_lt hc.1
    · split
      · simp [Assoc.find, *]
      · simp [Assoc.find, *]

theorem Assoc.find_drop_ne {m : Assoc α} {i j : Nat} (h : Assoc.wf m = true) (n : j ≠ i) :
    Assoc.find (Assoc.drop m i) j = Assoc.find m j := by
  induction m with
  | nil => rfl
  | cons c r ih =>
    obtain ⟨k, v⟩ := c
    have hc := Assoc.wf_cons.1 h
    simp only [Assoc.drop]
    split
    · rename_i e; subst e
      simp only [Assoc.find, n, if_false]
      split
      · rename_i lt
        exact Assoc.find_none_of_lt fun c hm => lt_trans lt (hc.1 c hm)
      · rfl
    · split
      · rfl
      · simp [Assoc.find, ih hc.2]

/-! ### Memory -/

/-- Reading a byte after writing it. -/
theorem Mem.read_write_self {m : Mem} (a : Nat) (b : Byte) (h : Mem.wf m = true) : (m.write a b).read a = b := by
  have hw : Assoc.wf m = true := by simp [Mem.wf] at h; exact h.1
  unfold Mem.write Mem.read
  split
  · rename_i e
    rw [Assoc.find_drop_self a hw, e]; rfl
  · simp

/-- Writing a byte leaves every other byte alone. -/
theorem Mem.read_write_ne {m : Mem} {a c : Nat} (b : Byte) (h : Mem.wf m = true) (n : c ≠ a) :
    (m.write a b).read c = m.read c := by
  have hw : Assoc.wf m = true := by simp [Mem.wf] at h; exact h.1
  unfold Mem.write Mem.read
  split
  · rw [Assoc.find_drop_ne hw n]
  · rw [Assoc.find_put_ne _ _ n]

theorem Mem.wf_iff {m : Mem} : Mem.wf m = true ↔ Assoc.wf m = true ∧ ∀ c ∈ m, c.2 ≠ Config.unlistedByte := by
  simp [Mem.wf]

/-- The empty memory is in canonical form. -/
@[simp] theorem Mem.wf_nil : Mem.wf [] = true := rfl

/-- A write keeps the canonical form. -/
theorem Mem.wf_write {m : Mem} (a : Nat) (b : Byte) (h : Mem.wf m = true) : Mem.wf (m.write a b) = true := by
  rw [Mem.wf_iff] at h ⊢
  unfold Mem.write
  split
  · exact ⟨Assoc.wf_drop a h.1, fun c hc => h.2 c (Assoc.mem_drop hc)⟩
  · refine ⟨Assoc.wf_put a b h.1, fun c hc => ?_⟩
    rcases Assoc.mem_put hc with rfl | hc
    · assumption
    · exact h.2 c hc

/-- Writing bytes keeps the canonical form. -/
theorem Mem.wf_writeBytes {m : Mem} (a : Nat) (bs : List Byte) (h : Mem.wf m = true) : Mem.wf (m.writeBytes a bs) = true := by
  induction bs generalizing m a with
  | nil => exact h
  | cons b bs ih => exact ih (a + 1) (Mem.wf_write a b h)

/-- Leaving cells out keeps the canonical form. -/
theorem Mem.wf_filter {m : Mem} (p : Nat × Byte → Bool) (h : Mem.wf m = true) : Mem.wf (m.filter p) = true := by
  rw [Mem.wf_iff] at h ⊢
  exact ⟨Assoc.wf_filter p h.1, fun c hc => h.2 c (List.mem_filter.1 hc).1⟩

/-- The cells of a stretch are in canonical form. -/
theorem Mem.wf_cells {m : Mem} (lo size : Nat) (h : Mem.wf m = true) : Mem.wf (m.cells lo size) = true := Mem.wf_filter _ h

/-- Clearing a stretch keeps the canonical form. -/
theorem Mem.wf_clear {m : Mem} (lo size : Nat) (h : Mem.wf m = true) : Mem.wf (m.clear lo size) = true := Mem.wf_filter _ h

/-- A fold of writes keeps the canonical form. -/
theorem Mem.wf_foldl {β : Type} (f : Mem → β → Mem) (hf : ∀ m b, Mem.wf m = true → Mem.wf (f m b) = true) (xs : List β)
    {m : Mem} (h : Mem.wf m = true) : Mem.wf (xs.foldl f m) = true := by
  induction xs generalizing m with
  | nil => exact h
  | cons x xs ih => exact ih (hf m x h)

/-- Copying a stretch keeps the canonical form. -/
theorem Mem.wf_copy {m : Mem} (src dst size : Nat) (h : Mem.wf m = true) : Mem.wf (m.copy src dst size) = true :=
  Mem.wf_foldl _ (fun _ _ h => Mem.wf_write _ _ h) _ (Mem.wf_clear dst size h)

/-- A byte outside the bytes written reads as before. -/
theorem Mem.read_writeBytes_outside {m : Mem} {a c : Nat} {bs : List Byte} (h : Mem.wf m = true)
    (o : c < a ∨ a + bs.length ≤ c) : (m.writeBytes a bs).read c = m.read c := by
  induction bs generalizing m a with
  | nil => rfl
  | cons b bs ih =>
    simp only [List.length_cons] at o
    simp only [Mem.writeBytes]
    rw [ih (Mem.wf_write a b h) (by omega), Mem.read_write_ne b h (by omega)]

/-- The bytes written read back. -/
theorem Mem.readBytes_writeBytes {m : Mem} (a : Nat) (bs : List Byte) (h : Mem.wf m = true) :
    (m.writeBytes a bs).readBytes a bs.length = bs := by
  induction bs generalizing m a with
  | nil => rfl
  | cons b bs ih =>
    simp only [List.length_cons, Mem.readBytes, Mem.writeBytes]
    rw [ih (a + 1) (Mem.wf_write a b h), Mem.read_writeBytes_outside (Mem.wf_write a b h) (by omega),
      Mem.read_write_self a b h]

/-- Memory at reset is in canonical form. -/
theorem Mem.wf_reset : Mem.wf State.reset.mem = true := rfl

end Sys2Proof.Machine
end

