-- ==== Sys2Proof/Laws/State.lean ====
section
/-! SUPPORT. What each named update changes and what it leaves alone: one lemma per field. -/

namespace Sys2Proof.Machine

/-! `Hart.setVstart` -/

@[simp] theorem Hart.setVstart_tag (h : Hart) (n : Nat) : (h.setVstart n).tag = h.tag := rfl
@[simp] theorem Hart.setVstart_wid (h : Hart) (n : Nat) : (h.setVstart n).wid = h.wid := rfl
@[simp] theorem Hart.setVstart_halted (h : Hart) (n : Nat) : (h.setVstart n).halted = h.halted := rfl
@[simp] theorem Hart.setVstart_pc (h : Hart) (n : Nat) : (h.setVstart n).pc = h.pc := rfl
@[simp] theorem Hart.setVstart_asid (h : Hart) (n : Nat) : (h.setVstart n).asid = h.asid := rfl
@[simp] theorem Hart.setVstart_s (h : Hart) (n : Nat) : (h.setVstart n).s = h.s := rfl
@[simp] theorem Hart.setVstart_ctl (h : Hart) (n : Nat) : (h.setVstart n).ctl = h.ctl := rfl
@[simp] theorem Hart.setVstart_mat (h : Hart) (n : Nat) : (h.setVstart n).mat = h.mat := rfl
@[simp] theorem Hart.setVstart_ar (h : Hart) (n : Nat) : (h.setVstart n).ar = h.ar := rfl
@[simp] theorem Hart.setVstart_trp (h : Hart) (n : Nat) : (h.setVstart n).trp = h.trp := rfl
@[simp] theorem Hart.setVstart_wp (h : Hart) (n : Nat) : (h.setVstart n).wp = h.wp := rfl
@[simp] theorem Hart.setVstart_obs (h : Hart) (n : Nat) : (h.setVstart n).obs = h.obs := rfl
@[simp] theorem Hart.setVstart_wait (h : Hart) (n : Nat) : (h.setVstart n).wait = h.wait := rfl
@[simp] theorem Hart.setVstart_code (h : Hart) (n : Nat) : (h.setVstart n).code = h.code := rfl
@[simp] theorem Hart.setVstart_atomics (h : Hart) (n : Nat) : (h.setVstart n).atomics = h.atomics := rfl
@[simp] theorem Hart.setVstart_submissions (h : Hart) (n : Nat) : (h.setVstart n).submissions = h.submissions := rfl
@[simp] theorem Hart.setVstart_polled (h : Hart) (n : Nat) : (h.setVstart n).polled = h.polled := rfl
@[simp] theorem Hart.setVstart_vec_v (h : Hart) (n : Nat) : (h.setVstart n).vec.v = h.vec.v := rfl
@[simp] theorem Hart.setVstart_vec_m (h : Hart) (n : Nat) : (h.setVstart n).vec.m = h.vec.m := rfl
@[simp] theorem Hart.setVstart_vec_len (h : Hart) (n : Nat) : (h.setVstart n).vec.len = h.vec.len := rfl
@[simp] theorem Hart.setVstart_vec_ord (h : Hart) (n : Nat) : (h.setVstart n).vec.ord = h.vec.ord := rfl
@[simp] theorem Hart.setVstart_vec_vstart (h : Hart) (n : Nat) : (h.setVstart n).vec.vstart = BitVec.ofNat 16 n := rfl
@[simp] theorem Hart.setVstart_vec_nvc (h : Hart) (n : Nat) : (h.setVstart n).vec.nvc = h.vec.nvc := rfl
@[simp] theorem Hart.setVstart_vec_sewc (h : Hart) (n : Nat) : (h.setVstart n).vec.sewc = h.vec.sewc := rfl
@[simp] theorem Hart.setVstart_vec_vlclass (h : Hart) (n : Nat) : (h.setVstart n).vec.vlclass = h.vec.vlclass := rfl
@[simp] theorem Hart.setVstart_vec_qtr (h : Hart) (n : Nat) : (h.setVstart n).vec.qtr = h.vec.qtr := rfl
@[simp] theorem Hart.setVstart_vec_lcmask (h : Hart) (n : Nat) : (h.setVstart n).vec.lcmask = h.vec.lcmask := rfl
@[simp] theorem Hart.setVstart_vec_rotBase (h : Hart) (n : Nat) : (h.setVstart n).vec.rotBase = h.vec.rotBase := rfl
@[simp] theorem Hart.setVstart_vec_rotSize (h : Hart) (n : Nat) : (h.setVstart n).vec.rotSize = h.vec.rotSize := rfl

/-! `Hart.setVreg` -/

@[simp] theorem Hart.setVreg_tag (h : Hart) (p : Nat) (x : Bits) : (h.setVreg p x).tag = h.tag := rfl
@[simp] theorem Hart.setVreg_wid (h : Hart) (p : Nat) (x : Bits) : (h.setVreg p x).wid = h.wid := rfl
@[simp] theorem Hart.setVreg_halted (h : Hart) (p : Nat) (x : Bits) : (h.setVreg p x).halted = h.halted := rfl
@[simp] theorem Hart.setVreg_pc (h : Hart) (p : Nat) (x : Bits) : (h.setVreg p x).pc = h.pc := rfl
@[simp] theorem Hart.setVreg_asid (h : Hart) (p : Nat) (x : Bits) : (h.setVreg p x).asid = h.asid := rfl
@[simp] theorem Hart.setVreg_s (h : Hart) (p : Nat) (x : Bits) : (h.setVreg p x).s = h.s := rfl
@[simp] theorem Hart.setVreg_ctl (h : Hart) (p : Nat) (x : Bits) : (h.setVreg p x).ctl = h.ctl := rfl
@[simp] theorem Hart.setVreg_mat (h : Hart) (p : Nat) (x : Bits) : (h.setVreg p x).mat = h.mat := rfl
@[simp] theorem Hart.setVreg_ar (h : Hart) (p : Nat) (x : Bits) : (h.setVreg p x).ar = h.ar := rfl
@[simp] theorem Hart.setVreg_trp (h : Hart) (p : Nat) (x : Bits) : (h.setVreg p x).trp = h.trp := rfl
@[simp] theorem Hart.setVreg_wp (h : Hart) (p : Nat) (x : Bits) : (h.setVreg p x).wp = h.wp := rfl
@[simp] theorem Hart.setVreg_obs (h : Hart) (p : Nat) (x : Bits) : (h.setVreg p x).obs = h.obs := rfl
@[simp] theorem Hart.setVreg_wait (h : Hart) (p : Nat) (x : Bits) : (h.setVreg p x).wait = h.wait := rfl
@[simp] theorem Hart.setVreg_code (h : Hart) (p : Nat) (x : Bits) : (h.setVreg p x).code = h.code := rfl
@[simp] theorem Hart.setVreg_atomics (h : Hart) (p : Nat) (x : Bits) : (h.setVreg p x).atomics = h.atomics := rfl
@[simp] theorem Hart.setVreg_submissions (h : Hart) (p : Nat) (x : Bits) : (h.setVreg p x).submissions = h.submissions := rfl
@[simp] theorem Hart.setVreg_polled (h : Hart) (p : Nat) (x : Bits) : (h.setVreg p x).polled = h.polled := rfl
@[simp] theorem Hart.setVreg_vec_v (h : Hart) (p : Nat) (x : Bits) : (h.setVreg p x).vec.v = h.vec.v.setIfInBounds p x := rfl
@[simp] theorem Hart.setVreg_vec_m (h : Hart) (p : Nat) (x : Bits) : (h.setVreg p x).vec.m = h.vec.m := rfl
@[simp] theorem Hart.setVreg_vec_len (h : Hart) (p : Nat) (x : Bits) : (h.setVreg p x).vec.len = h.vec.len := rfl
@[simp] theorem Hart.setVreg_vec_ord (h : Hart) (p : Nat) (x : Bits) : (h.setVreg p x).vec.ord = h.vec.ord := rfl
@[simp] theorem Hart.setVreg_vec_vstart (h : Hart) (p : Nat) (x : Bits) : (h.setVreg p x).vec.vstart = h.vec.vstart := rfl
@[simp] theorem Hart.setVreg_vec_nvc (h : Hart) (p : Nat) (x : Bits) : (h.setVreg p x).vec.nvc = h.vec.nvc := rfl
@[simp] theorem Hart.setVreg_vec_sewc (h : Hart) (p : Nat) (x : Bits) : (h.setVreg p x).vec.sewc = h.vec.sewc := rfl
@[simp] theorem Hart.setVreg_vec_vlclass (h : Hart) (p : Nat) (x : Bits) : (h.setVreg p x).vec.vlclass = h.vec.vlclass := rfl
@[simp] theorem Hart.setVreg_vec_qtr (h : Hart) (p : Nat) (x : Bits) : (h.setVreg p x).vec.qtr = h.vec.qtr := rfl
@[simp] theorem Hart.setVreg_vec_lcmask (h : Hart) (p : Nat) (x : Bits) : (h.setVreg p x).vec.lcmask = h.vec.lcmask := rfl
@[simp] theorem Hart.setVreg_vec_rotBase (h : Hart) (p : Nat) (x : Bits) : (h.setVreg p x).vec.rotBase = h.vec.rotBase := rfl
@[simp] theorem Hart.setVreg_vec_rotSize (h : Hart) (p : Nat) (x : Bits) : (h.setVreg p x).vec.rotSize = h.vec.rotSize := rfl

/-! `Hart.setMask` -/

@[simp] theorem Hart.setMask_tag (h : Hart) (r : Nat) (x : Bits) : (h.setMask r x).tag = h.tag := rfl
@[simp] theorem Hart.setMask_wid (h : Hart) (r : Nat) (x : Bits) : (h.setMask r x).wid = h.wid := rfl
@[simp] theorem Hart.setMask_halted (h : Hart) (r : Nat) (x : Bits) : (h.setMask r x).halted = h.halted := rfl
@[simp] theorem Hart.setMask_pc (h : Hart) (r : Nat) (x : Bits) : (h.setMask r x).pc = h.pc := rfl
@[simp] theorem Hart.setMask_asid (h : Hart) (r : Nat) (x : Bits) : (h.setMask r x).asid = h.asid := rfl
@[simp] theorem Hart.setMask_s (h : Hart) (r : Nat) (x : Bits) : (h.setMask r x).s = h.s := rfl
@[simp] theorem Hart.setMask_ctl (h : Hart) (r : Nat) (x : Bits) : (h.setMask r x).ctl = h.ctl := rfl
@[simp] theorem Hart.setMask_mat (h : Hart) (r : Nat) (x : Bits) : (h.setMask r x).mat = h.mat := rfl
@[simp] theorem Hart.setMask_ar (h : Hart) (r : Nat) (x : Bits) : (h.setMask r x).ar = h.ar := rfl
@[simp] theorem Hart.setMask_trp (h : Hart) (r : Nat) (x : Bits) : (h.setMask r x).trp = h.trp := rfl
@[simp] theorem Hart.setMask_wp (h : Hart) (r : Nat) (x : Bits) : (h.setMask r x).wp = h.wp := rfl
@[simp] theorem Hart.setMask_obs (h : Hart) (r : Nat) (x : Bits) : (h.setMask r x).obs = h.obs := rfl
@[simp] theorem Hart.setMask_wait (h : Hart) (r : Nat) (x : Bits) : (h.setMask r x).wait = h.wait := rfl
@[simp] theorem Hart.setMask_code (h : Hart) (r : Nat) (x : Bits) : (h.setMask r x).code = h.code := rfl
@[simp] theorem Hart.setMask_atomics (h : Hart) (r : Nat) (x : Bits) : (h.setMask r x).atomics = h.atomics := rfl
@[simp] theorem Hart.setMask_submissions (h : Hart) (r : Nat) (x : Bits) : (h.setMask r x).submissions = h.submissions := rfl
@[simp] theorem Hart.setMask_polled (h : Hart) (r : Nat) (x : Bits) : (h.setMask r x).polled = h.polled := rfl
@[simp] theorem Hart.setMask_vec_v (h : Hart) (r : Nat) (x : Bits) : (h.setMask r x).vec.v = h.vec.v := rfl
@[simp] theorem Hart.setMask_vec_m (h : Hart) (r : Nat) (x : Bits) : (h.setMask r x).vec.m = h.vec.m.setIfInBounds r x := rfl
@[simp] theorem Hart.setMask_vec_len (h : Hart) (r : Nat) (x : Bits) : (h.setMask r x).vec.len = h.vec.len := rfl
@[simp] theorem Hart.setMask_vec_ord (h : Hart) (r : Nat) (x : Bits) : (h.setMask r x).vec.ord = h.vec.ord := rfl
@[simp] theorem Hart.setMask_vec_vstart (h : Hart) (r : Nat) (x : Bits) : (h.setMask r x).vec.vstart = h.vec.vstart := rfl
@[simp] theorem Hart.setMask_vec_nvc (h : Hart) (r : Nat) (x : Bits) : (h.setMask r x).vec.nvc = h.vec.nvc := rfl
@[simp] theorem Hart.setMask_vec_sewc (h : Hart) (r : Nat) (x : Bits) : (h.setMask r x).vec.sewc = h.vec.sewc := rfl
@[simp] theorem Hart.setMask_vec_vlclass (h : Hart) (r : Nat) (x : Bits) : (h.setMask r x).vec.vlclass = h.vec.vlclass := rfl
@[simp] theorem Hart.setMask_vec_qtr (h : Hart) (r : Nat) (x : Bits) : (h.setMask r x).vec.qtr = h.vec.qtr := rfl
@[simp] theorem Hart.setMask_vec_lcmask (h : Hart) (r : Nat) (x : Bits) : (h.setMask r x).vec.lcmask = h.vec.lcmask := rfl
@[simp] theorem Hart.setMask_vec_rotBase (h : Hart) (r : Nat) (x : Bits) : (h.setMask r x).vec.rotBase = h.vec.rotBase := rfl
@[simp] theorem Hart.setMask_vec_rotSize (h : Hart) (r : Nat) (x : Bits) : (h.setMask r x).vec.rotSize = h.vec.rotSize := rfl

/-! `Hart.raise` -/

@[simp] theorem Hart.raise_tag (h : Hart) (fs : FlagSet) : (h.raise fs).tag = h.tag := rfl
@[simp] theorem Hart.raise_wid (h : Hart) (fs : FlagSet) : (h.raise fs).wid = h.wid := rfl
@[simp] theorem Hart.raise_halted (h : Hart) (fs : FlagSet) : (h.raise fs).halted = h.halted := rfl
@[simp] theorem Hart.raise_pc (h : Hart) (fs : FlagSet) : (h.raise fs).pc = h.pc := rfl
@[simp] theorem Hart.raise_asid (h : Hart) (fs : FlagSet) : (h.raise fs).asid = h.asid := rfl
@[simp] theorem Hart.raise_s (h : Hart) (fs : FlagSet) : (h.raise fs).s = h.s := rfl
@[simp] theorem Hart.raise_ctl (h : Hart) (fs : FlagSet) : (h.raise fs).ctl = h.ctl := rfl
@[simp] theorem Hart.raise_vec (h : Hart) (fs : FlagSet) : (h.raise fs).vec = h.vec := rfl
@[simp] theorem Hart.raise_mat (h : Hart) (fs : FlagSet) : (h.raise fs).mat = h.mat := rfl
@[simp] theorem Hart.raise_trp (h : Hart) (fs : FlagSet) : (h.raise fs).trp = h.trp := rfl
@[simp] theorem Hart.raise_wp (h : Hart) (fs : FlagSet) : (h.raise fs).wp = h.wp := rfl
@[simp] theorem Hart.raise_obs (h : Hart) (fs : FlagSet) : (h.raise fs).obs = h.obs := rfl
@[simp] theorem Hart.raise_wait (h : Hart) (fs : FlagSet) : (h.raise fs).wait = h.wait := rfl
@[simp] theorem Hart.raise_code (h : Hart) (fs : FlagSet) : (h.raise fs).code = h.code := rfl
@[simp] theorem Hart.raise_atomics (h : Hart) (fs : FlagSet) : (h.raise fs).atomics = h.atomics := rfl
@[simp] theorem Hart.raise_submissions (h : Hart) (fs : FlagSet) : (h.raise fs).submissions = h.submissions := rfl
@[simp] theorem Hart.raise_polled (h : Hart) (fs : FlagSet) : (h.raise fs).polled = h.polled := rfl
@[simp] theorem Hart.raise_ar_acfg (h : Hart) (fs : FlagSet) : (h.raise fs).ar.acfg = h.ar.acfg := rfl
@[simp] theorem Hart.raise_ar_aflags (h : Hart) (fs : FlagSet) : (h.raise fs).ar.aflags = h.ar.aflags ||| BitVec.ofNat 64 fs := rfl
@[simp] theorem Hart.raise_ar_gflags (h : Hart) (fs : FlagSet) : (h.raise fs).ar.gflags = h.ar.gflags := rfl
@[simp] theorem Hart.raise_ar_seed (h : Hart) (fs : FlagSet) : (h.raise fs).ar.seed = h.ar.seed := rfl

/-! `Hart.settle` -/

@[simp] theorem Hart.settle_tag (h : Hart) : (h.settle).tag = h.tag := rfl
@[simp] theorem Hart.settle_wid (h : Hart) : (h.settle).wid = h.wid := rfl
@[simp] theorem Hart.settle_halted (h : Hart) : (h.settle).halted = h.halted := rfl
@[simp] theorem Hart.settle_pc (h : Hart) : (h.settle).pc = h.pc := rfl
@[simp] theorem Hart.settle_asid (h : Hart) : (h.settle).asid = h.asid := rfl
@[simp] theorem Hart.settle_s (h : Hart) : (h.settle).s = h.s := rfl
@[simp] theorem Hart.settle_ctl (h : Hart) : (h.settle).ctl = h.ctl := rfl
@[simp] theorem Hart.settle_vec (h : Hart) : (h.settle).vec = h.vec := rfl
@[simp] theorem Hart.settle_mat (h : Hart) : (h.settle).mat = h.mat := rfl
@[simp] theorem Hart.settle_ar (h : Hart) : (h.settle).ar = h.ar := rfl
@[simp] theorem Hart.settle_trp (h : Hart) : (h.settle).trp = h.trp := rfl
@[simp] theorem Hart.settle_wp (h : Hart) : (h.settle).wp = h.wp := rfl
@[simp] theorem Hart.settle_obs_period (h : Hart) : h.settle.obs.period = h.obs.period := rfl
@[simp] theorem Hart.settle_obs_fie (h : Hart) : h.settle.obs.fie = h.obs.fie := rfl
@[simp] theorem Hart.settle_obs_ven (h : Hart) : h.settle.obs.ven = h.obs.ven := rfl
@[simp] theorem Hart.settle_obs_en (h : Hart) : h.settle.obs.en = h.obs.en := rfl
@[simp] theorem Hart.settle_obs_lost (h : Hart) : h.settle.obs.lost = h.obs.lost := rfl
@[simp] theorem Hart.settle_obs_records (h : Hart) : h.settle.obs.records = h.obs.records := rfl
@[simp] theorem Hart.settle_obs_next (h : Hart) : h.settle.obs.next = h.obs.next := rfl
@[simp] theorem Hart.settle_obs_countdown (h : Hart) : h.settle.obs.countdown = h.obs.countdown := rfl
@[simp] theorem Hart.settle_obs_tagged (h : Hart) : h.settle.obs.tagged = h.obs.tagged := rfl
@[simp] theorem Hart.settle_obs_untag (h : Hart) : h.settle.obs.untag = h.obs.untag := rfl
@[simp] theorem Hart.settle_obs_strip (h : Hart) : h.settle.obs.strip = h.obs.strip := rfl
@[simp] theorem Hart.settle_obs_pmsel (h : Hart) : h.settle.obs.pmsel = h.obs.pmsel := rfl
@[simp] theorem Hart.settle_obs_pmc (h : Hart) : h.settle.obs.pmc = h.obs.pmc := rfl
@[simp] theorem Hart.settle_obs_ops (h : Hart) : h.settle.obs.ops = h.obs.ops := rfl
@[simp] theorem Hart.settle_obs_bands (h : Hart) : h.settle.obs.bands = 0 := rfl
@[simp] theorem Hart.settle_code (h : Hart) : (h.settle).code = h.code := rfl
@[simp] theorem Hart.settle_atomics (h : Hart) : (h.settle).atomics = h.atomics := rfl
@[simp] theorem Hart.settle_submissions (h : Hart) : (h.settle).submissions = h.submissions := rfl
@[simp] theorem Hart.settle_polled (h : Hart) : (h.settle).polled = h.polled := rfl

/-! `Hart.begun` -/

@[simp] theorem Hart.begun_tag (h : Hart) : (h.begun).tag = h.tag := rfl
@[simp] theorem Hart.begun_wid (h : Hart) : (h.begun).wid = h.wid := rfl
@[simp] theorem Hart.begun_halted (h : Hart) : (h.begun).halted = h.halted := rfl
@[simp] theorem Hart.begun_pc (h : Hart) : (h.begun).pc = h.pc := rfl
@[simp] theorem Hart.begun_asid (h : Hart) : (h.begun).asid = h.asid := rfl
@[simp] theorem Hart.begun_s (h : Hart) : (h.begun).s = h.s := rfl
@[simp] theorem Hart.begun_ctl (h : Hart) : (h.begun).ctl = h.ctl := rfl
@[simp] theorem Hart.begun_vec (h : Hart) : (h.begun).vec = h.vec := rfl
@[simp] theorem Hart.begun_mat (h : Hart) : (h.begun).mat = h.mat := rfl
@[simp] theorem Hart.begun_ar (h : Hart) : (h.begun).ar = h.ar := rfl
@[simp] theorem Hart.begun_wp (h : Hart) : (h.begun).wp = h.wp := rfl
@[simp] theorem Hart.begun_obs (h : Hart) : (h.begun).obs = h.obs := rfl
@[simp] theorem Hart.begun_wait (h : Hart) : (h.begun).wait = h.wait := rfl
@[simp] theorem Hart.begun_code (h : Hart) : (h.begun).code = h.code := rfl
@[simp] theorem Hart.begun_atomics (h : Hart) : (h.begun).atomics = h.atomics := rfl
@[simp] theorem Hart.begun_submissions (h : Hart) : (h.begun).submissions = h.submissions := rfl
@[simp] theorem Hart.begun_polled (h : Hart) : (h.begun).polled = h.polled := rfl
@[simp] theorem Hart.begun_trp_prv (h : Hart) : h.begun.trp.prv = h.trp.prv := rfl
@[simp] theorem Hart.begun_trp_cause (h : Hart) : h.begun.trp.cause = h.trp.cause := rfl
@[simp] theorem Hart.begun_trp_tval (h : Hart) : h.begun.trp.tval = h.trp.tval := rfl
@[simp] theorem Hart.begun_trp_tpc (h : Hart) : h.begun.trp.tpc = h.trp.tpc := rfl
@[simp] theorem Hart.begun_trp_tvstart (h : Hart) : h.begun.trp.tvstart = h.trp.tvstart := rfl
@[simp] theorem Hart.begun_trp_tvec (h : Hart) : h.begun.trp.tvec = h.trp.tvec := rfl
@[simp] theorem Hart.begun_trp_sstop (h : Hart) : h.begun.trp.sstop = h.trp.sstop := rfl
@[simp] theorem Hart.begun_trp_dreq (h : Hart) : h.begun.trp.dreq = h.trp.dreq := rfl
@[simp] theorem Hart.begun_trp_irq (h : Hart) : h.begun.trp.irq = h.trp.irq := rfl
@[simp] theorem Hart.begun_trp_stripDone (h : Hart) : h.begun.trp.stripDone = false := rfl

/-! `Hart.setS` -/

@[simp] theorem Hart.setS_tag (h : Hart) (r : RegIdx) (x : Word) : (h.setS r x).tag = h.tag := by unfold Hart.setS; split <;> rfl
@[simp] theorem Hart.setS_wid (h : Hart) (r : RegIdx) (x : Word) : (h.setS r x).wid = h.wid := by unfold Hart.setS; split <;> rfl
@[simp] theorem Hart.setS_halted (h : Hart) (r : RegIdx) (x : Word) : (h.setS r x).halted = h.halted := by unfold Hart.setS; split <;> rfl
@[simp] theorem Hart.setS_pc (h : Hart) (r : RegIdx) (x : Word) : (h.setS r x).pc = h.pc := by unfold Hart.setS; split <;> rfl
@[simp] theorem Hart.setS_asid (h : Hart) (r : RegIdx) (x : Word) : (h.setS r x).asid = h.asid := by unfold Hart.setS; split <;> rfl
@[simp] theorem Hart.setS_ctl (h : Hart) (r : RegIdx) (x : Word) : (h.setS r x).ctl = h.ctl := by unfold Hart.setS; split <;> rfl
@[simp] theorem Hart.setS_vec (h : Hart) (r : RegIdx) (x : Word) : (h.setS r x).vec = h.vec := by unfold Hart.setS; split <;> rfl
@[simp] theorem Hart.setS_mat (h : Hart) (r : RegIdx) (x : Word) : (h.setS r x).mat = h.mat := by unfold Hart.setS; split <;> rfl
@[simp] theorem Hart.setS_ar (h : Hart) (r : RegIdx) (x : Word) : (h.setS r x).ar = h.ar := by unfold Hart.setS; split <;> rfl
@[simp] theorem Hart.setS_trp (h : Hart) (r : RegIdx) (x : Word) : (h.setS r x).trp = h.trp := by unfold Hart.setS; split <;> rfl
@[simp] theorem Hart.setS_wp (h : Hart) (r : RegIdx) (x : Word) : (h.setS r x).wp = h.wp := by unfold Hart.setS; split <;> rfl
@[simp] theorem Hart.setS_obs (h : Hart) (r : RegIdx) (x : Word) : (h.setS r x).obs = h.obs := by unfold Hart.setS; split <;> rfl
@[simp] theorem Hart.setS_wait (h : Hart) (r : RegIdx) (x : Word) : (h.setS r x).wait = h.wait := by unfold Hart.setS; split <;> rfl
@[simp] theorem Hart.setS_code (h : Hart) (r : RegIdx) (x : Word) : (h.setS r x).code = h.code := by unfold Hart.setS; split <;> rfl
@[simp] theorem Hart.setS_atomics (h : Hart) (r : RegIdx) (x : Word) : (h.setS r x).atomics = h.atomics := by unfold Hart.setS; split <;> rfl
@[simp] theorem Hart.setS_submissions (h : Hart) (r : RegIdx) (x : Word) : (h.setS r x).submissions = h.submissions := by unfold Hart.setS; split <;> rfl
@[simp] theorem Hart.setS_polled (h : Hart) (r : RegIdx) (x : Word) : (h.setS r x).polled = h.polled := by unfold Hart.setS; split <;> rfl

/-! `Hart.doubleTrap` -/

@[simp] theorem Hart.doubleTrap_tag (h : Hart) : (h.doubleTrap).tag = h.tag := rfl
@[simp] theorem Hart.doubleTrap_wid (h : Hart) : (h.doubleTrap).wid = h.wid := rfl
@[simp] theorem Hart.doubleTrap_pc (h : Hart) : (h.doubleTrap).pc = h.pc := rfl
@[simp] theorem Hart.doubleTrap_asid (h : Hart) : (h.doubleTrap).asid = h.asid := rfl
@[simp] theorem Hart.doubleTrap_s (h : Hart) : (h.doubleTrap).s = h.s := rfl
@[simp] theorem Hart.doubleTrap_ctl (h : Hart) : (h.doubleTrap).ctl = h.ctl := rfl
@[simp] theorem Hart.doubleTrap_vec (h : Hart) : (h.doubleTrap).vec = h.vec := rfl
@[simp] theorem Hart.doubleTrap_mat (h : Hart) : (h.doubleTrap).mat = h.mat := rfl
@[simp] theorem Hart.doubleTrap_ar (h : Hart) : (h.doubleTrap).ar = h.ar := rfl
@[simp] theorem Hart.doubleTrap_trp (h : Hart) : (h.doubleTrap).trp = h.trp := rfl
@[simp] theorem Hart.doubleTrap_wp (h : Hart) : (h.doubleTrap).wp = h.wp := rfl
@[simp] theorem Hart.doubleTrap_obs (h : Hart) : (h.doubleTrap).obs = h.obs := rfl
@[simp] theorem Hart.doubleTrap_wait (h : Hart) : (h.doubleTrap).wait = h.wait := rfl
@[simp] theorem Hart.doubleTrap_code (h : Hart) : (h.doubleTrap).code = h.code := rfl
@[simp] theorem Hart.doubleTrap_atomics (h : Hart) : (h.doubleTrap).atomics = h.atomics := rfl
@[simp] theorem Hart.doubleTrap_submissions (h : Hart) : (h.doubleTrap).submissions = h.submissions := rfl
@[simp] theorem Hart.doubleTrap_polled (h : Hart) : (h.doubleTrap).polled = h.polled := rfl

/-! `Hart.enterTrap` -/

@[simp] theorem Hart.enterTrap_tag (h : Hart) (c : Cause) (tval : Word) : (h.enterTrap c tval).tag = h.tag := rfl
@[simp] theorem Hart.enterTrap_wid (h : Hart) (c : Cause) (tval : Word) : (h.enterTrap c tval).wid = h.wid := rfl
@[simp] theorem Hart.enterTrap_halted (h : Hart) (c : Cause) (tval : Word) : (h.enterTrap c tval).halted = h.halted := rfl
@[simp] theorem Hart.enterTrap_asid (h : Hart) (c : Cause) (tval : Word) : (h.enterTrap c tval).asid = h.asid := rfl
@[simp] theorem Hart.enterTrap_s (h : Hart) (c : Cause) (tval : Word) : (h.enterTrap c tval).s = h.s := rfl
@[simp] theorem Hart.enterTrap_ctl (h : Hart) (c : Cause) (tval : Word) : (h.enterTrap c tval).ctl = h.ctl := rfl
@[simp] theorem Hart.enterTrap_vec (h : Hart) (c : Cause) (tval : Word) : (h.enterTrap c tval).vec = h.vec := rfl
@[simp] theorem Hart.enterTrap_mat (h : Hart) (c : Cause) (tval : Word) : (h.enterTrap c tval).mat = h.mat := rfl
@[simp] theorem Hart.enterTrap_ar (h : Hart) (c : Cause) (tval : Word) : (h.enterTrap c tval).ar = h.ar := rfl
@[simp] theorem Hart.enterTrap_wp (h : Hart) (c : Cause) (tval : Word) : (h.enterTrap c tval).wp = h.wp := rfl
@[simp] theorem Hart.enterTrap_obs (h : Hart) (c : Cause) (tval : Word) : (h.enterTrap c tval).obs = h.obs := rfl
@[simp] theorem Hart.enterTrap_wait (h : Hart) (c : Cause) (tval : Word) : (h.enterTrap c tval).wait = h.wait := rfl
@[simp] theorem Hart.enterTrap_code (h : Hart) (c : Cause) (tval : Word) : (h.enterTrap c tval).code = h.code := rfl
@[simp] theorem Hart.enterTrap_atomics (h : Hart) (c : Cause) (tval : Word) : (h.enterTrap c tval).atomics = h.atomics := rfl
@[simp] theorem Hart.enterTrap_submissions (h : Hart) (c : Cause) (tval : Word) : (h.enterTrap c tval).submissions = h.submissions := rfl
@[simp] theorem Hart.enterTrap_polled (h : Hart) (c : Cause) (tval : Word) : (h.enterTrap c tval).polled = h.polled := rfl

/-! `Hart.leaveTrap` -/

@[simp] theorem Hart.leaveTrap_tag (h : Hart) : (h.leaveTrap).tag = h.tag := rfl
@[simp] theorem Hart.leaveTrap_wid (h : Hart) : (h.leaveTrap).wid = h.wid := rfl
@[simp] theorem Hart.leaveTrap_halted (h : Hart) : (h.leaveTrap).halted = h.halted := rfl
@[simp] theorem Hart.leaveTrap_asid (h : Hart) : (h.leaveTrap).asid = h.asid := rfl
@[simp] theorem Hart.leaveTrap_s (h : Hart) : (h.leaveTrap).s = h.s := rfl
@[simp] theorem Hart.leaveTrap_ctl (h : Hart) : (h.leaveTrap).ctl = h.ctl := rfl
@[simp] theorem Hart.leaveTrap_vec (h : Hart) : (h.leaveTrap).vec = h.vec := rfl
@[simp] theorem Hart.leaveTrap_mat (h : Hart) : (h.leaveTrap).mat = h.mat := rfl
@[simp] theorem Hart.leaveTrap_ar (h : Hart) : (h.leaveTrap).ar = h.ar := rfl
@[simp] theorem Hart.leaveTrap_wp (h : Hart) : (h.leaveTrap).wp = h.wp := rfl
@[simp] theorem Hart.leaveTrap_obs (h : Hart) : (h.leaveTrap).obs = h.obs := rfl
@[simp] theorem Hart.leaveTrap_wait (h : Hart) : (h.leaveTrap).wait = h.wait := rfl
@[simp] theorem Hart.leaveTrap_code (h : Hart) : (h.leaveTrap).code = h.code := rfl
@[simp] theorem Hart.leaveTrap_atomics (h : Hart) : (h.leaveTrap).atomics = h.atomics := rfl
@[simp] theorem Hart.leaveTrap_submissions (h : Hart) : (h.leaveTrap).submissions = h.submissions := rfl
@[simp] theorem Hart.leaveTrap_polled (h : Hart) : (h.leaveTrap).polled = h.polled := rfl

/-! `State.setHart` -/

@[simp] theorem State.setHart_agenda (s : State) (k : Nat) (h : Hart) : (s.setHart k h).agenda = s.agenda := rfl
@[simp] theorem State.setHart_cur (s : State) (k : Nat) (h : Hart) : (s.setHart k h).cur = s.cur := rfl
@[simp] theorem State.setHart_stopAt (s : State) (k : Nat) (h : Hart) : (s.setHart k h).stopAt = s.stopAt := rfl
@[simp] theorem State.setHart_draws (s : State) (k : Nat) (h : Hart) : (s.setHart k h).draws = s.draws := rfl
@[simp] theorem State.setHart_writeSeq (s : State) (k : Nat) (h : Hart) : (s.setHart k h).writeSeq = s.writeSeq := rfl
@[simp] theorem State.setHart_harts (s : State) (k : Nat) (h : Hart) : (s.setHart k h).harts = Assoc.put s.harts k h := rfl
@[simp] theorem State.setHart_mem (s : State) (k : Nat) (h : Hart) : (s.setHart k h).mem = s.mem := rfl
@[simp] theorem State.setHart_badWords (s : State) (k : Nat) (h : Hart) : (s.setHart k h).badWords = s.badWords := rfl
@[simp] theorem State.setHart_badHarts (s : State) (k : Nat) (h : Hart) : (s.setHart k h).badHarts = s.badHarts := rfl
@[simp] theorem State.setHart_owners (s : State) (k : Nat) (h : Hart) : (s.setHart k h).owners = s.owners := rfl
@[simp] theorem State.setHart_spilled (s : State) (k : Nat) (h : Hart) : (s.setHart k h).spilled = s.spilled := rfl
@[simp] theorem State.setHart_rlt (s : State) (k : Nat) (h : Hart) : (s.setHart k h).rlt = s.rlt := rfl
@[simp] theorem State.setHart_seals (s : State) (k : Nat) (h : Hart) : (s.setHart k h).seals = s.seals := rfl
@[simp] theorem State.setHart_treeStores (s : State) (k : Nat) (h : Hart) : (s.setHart k h).treeStores = s.treeStores := rfl
@[simp] theorem State.setHart_attestation (s : State) (k : Nat) (h : Hart) : (s.setHart k h).attestation = s.attestation := rfl
@[simp] theorem State.setHart_compactions (s : State) (k : Nat) (h : Hart) : (s.setHart k h).compactions = s.compactions := rfl
@[simp] theorem State.setHart_queues (s : State) (k : Nat) (h : Hart) : (s.setHart k h).queues = s.queues := rfl
@[simp] theorem State.setHart_dies (s : State) (k : Nat) (h : Hart) : (s.setHart k h).dies = s.dies := rfl
@[simp] theorem State.setHart_launches (s : State) (k : Nat) (h : Hart) : (s.setHart k h).launches = s.launches := rfl
@[simp] theorem State.setHart_nextTag (s : State) (k : Nat) (h : Hart) : (s.setHart k h).nextTag = s.nextTag := rfl
@[simp] theorem State.setHart_turns (s : State) (k : Nat) (h : Hart) : (s.setHart k h).turns = s.turns := rfl
@[simp] theorem State.setHart_vacated (s : State) (k : Nat) (h : Hart) : (s.setHart k h).vacated = s.vacated := rfl
@[simp] theorem State.setHart_nodes (s : State) (k : Nat) (h : Hart) : (s.setHart k h).nodes = s.nodes := rfl
@[simp] theorem State.setHart_exchanges (s : State) (k : Nat) (h : Hart) : (s.setHart k h).exchanges = s.exchanges := rfl
@[simp] theorem State.setHart_pending (s : State) (k : Nat) (h : Hart) : (s.setHart k h).pending = s.pending := rfl
@[simp] theorem State.setHart_peerIn (s : State) (k : Nat) (h : Hart) : (s.setHart k h).peerIn = s.peerIn := rfl
@[simp] theorem State.setHart_hub (s : State) (k : Nat) (h : Hart) : (s.setHart k h).hub = s.hub := rfl
@[simp] theorem State.setHart_outputs (s : State) (k : Nat) (h : Hart) : (s.setHart k h).outputs = s.outputs := rfl

/-! `State.onHart` -/

@[simp] theorem State.onHart_agenda (s : State) (k : Nat) (f : Hart → Hart) : (s.onHart k f).agenda = s.agenda := rfl
@[simp] theorem State.onHart_cur (s : State) (k : Nat) (f : Hart → Hart) : (s.onHart k f).cur = s.cur := rfl
@[simp] theorem State.onHart_stopAt (s : State) (k : Nat) (f : Hart → Hart) : (s.onHart k f).stopAt = s.stopAt := rfl
@[simp] theorem State.onHart_draws (s : State) (k : Nat) (f : Hart → Hart) : (s.onHart k f).draws = s.draws := rfl
@[simp] theorem State.onHart_writeSeq (s : State) (k : Nat) (f : Hart → Hart) : (s.onHart k f).writeSeq = s.writeSeq := rfl
@[simp] theorem State.onHart_harts (s : State) (k : Nat) (f : Hart → Hart) : (s.onHart k f).harts = Assoc.change s.harts k f := rfl
@[simp] theorem State.onHart_mem (s : State) (k : Nat) (f : Hart → Hart) : (s.onHart k f).mem = s.mem := rfl
@[simp] theorem State.onHart_badWords (s : State) (k : Nat) (f : Hart → Hart) : (s.onHart k f).badWords = s.badWords := rfl
@[simp] theorem State.onHart_badHarts (s : State) (k : Nat) (f : Hart → Hart) : (s.onHart k f).badHarts = s.badHarts := rfl
@[simp] theorem State.onHart_owners (s : State) (k : Nat) (f : Hart → Hart) : (s.onHart k f).owners = s.owners := rfl
@[simp] theorem State.onHart_spilled (s : State) (k : Nat) (f : Hart → Hart) : (s.onHart k f).spilled = s.spilled := rfl
@[simp] theorem State.onHart_rlt (s : State) (k : Nat) (f : Hart → Hart) : (s.onHart k f).rlt = s.rlt := rfl
@[simp] theorem State.onHart_seals (s : State) (k : Nat) (f : Hart → Hart) : (s.onHart k f).seals = s.seals := rfl
@[simp] theorem State.onHart_treeStores (s : State) (k : Nat) (f : Hart → Hart) : (s.onHart k f).treeStores = s.treeStores := rfl
@[simp] theorem State.onHart_attestation (s : State) (k : Nat) (f : Hart → Hart) : (s.onHart k f).attestation = s.attestation := rfl
@[simp] theorem State.onHart_compactions (s : State) (k : Nat) (f : Hart → Hart) : (s.onHart k f).compactions = s.compactions := rfl
@[simp] theorem State.onHart_queues (s : State) (k : Nat) (f : Hart → Hart) : (s.onHart k f).queues = s.queues := rfl
@[simp] theorem State.onHart_dies (s : State) (k : Nat) (f : Hart → Hart) : (s.onHart k f).dies = s.dies := rfl
@[simp] theorem State.onHart_launches (s : State) (k : Nat) (f : Hart → Hart) : (s.onHart k f).launches = s.launches := rfl
@[simp] theorem State.onHart_nextTag (s : State) (k : Nat) (f : Hart → Hart) : (s.onHart k f).nextTag = s.nextTag := rfl
@[simp] theorem State.onHart_turns (s : State) (k : Nat) (f : Hart → Hart) : (s.onHart k f).turns = s.turns := rfl
@[simp] theorem State.onHart_vacated (s : State) (k : Nat) (f : Hart → Hart) : (s.onHart k f).vacated = s.vacated := rfl
@[simp] theorem State.onHart_nodes (s : State) (k : Nat) (f : Hart → Hart) : (s.onHart k f).nodes = s.nodes := rfl
@[simp] theorem State.onHart_exchanges (s : State) (k : Nat) (f : Hart → Hart) : (s.onHart k f).exchanges = s.exchanges := rfl
@[simp] theorem State.onHart_pending (s : State) (k : Nat) (f : Hart → Hart) : (s.onHart k f).pending = s.pending := rfl
@[simp] theorem State.onHart_peerIn (s : State) (k : Nat) (f : Hart → Hart) : (s.onHart k f).peerIn = s.peerIn := rfl
@[simp] theorem State.onHart_hub (s : State) (k : Nat) (f : Hart → Hart) : (s.onHart k f).hub = s.hub := rfl
@[simp] theorem State.onHart_outputs (s : State) (k : Nat) (f : Hart → Hart) : (s.onHart k f).outputs = s.outputs := rfl

/-! `State.onLaunch` -/

@[simp] theorem State.onLaunch_agenda (s : State) (tag : Word) (f : Launch → Launch) : (s.onLaunch tag f).agenda = s.agenda := rfl
@[simp] theorem State.onLaunch_cur (s : State) (tag : Word) (f : Launch → Launch) : (s.onLaunch tag f).cur = s.cur := rfl
@[simp] theorem State.onLaunch_stopAt (s : State) (tag : Word) (f : Launch → Launch) : (s.onLaunch tag f).stopAt = s.stopAt := rfl
@[simp] theorem State.onLaunch_draws (s : State) (tag : Word) (f : Launch → Launch) : (s.onLaunch tag f).draws = s.draws := rfl
@[simp] theorem State.onLaunch_writeSeq (s : State) (tag : Word) (f : Launch → Launch) : (s.onLaunch tag f).writeSeq = s.writeSeq := rfl
@[simp] theorem State.onLaunch_harts (s : State) (tag : Word) (f : Launch → Launch) : (s.onLaunch tag f).harts = s.harts := rfl
@[simp] theorem State.onLaunch_mem (s : State) (tag : Word) (f : Launch → Launch) : (s.onLaunch tag f).mem = s.mem := rfl
@[simp] theorem State.onLaunch_badWords (s : State) (tag : Word) (f : Launch → Launch) : (s.onLaunch tag f).badWords = s.badWords := rfl
@[simp] theorem State.onLaunch_badHarts (s : State) (tag : Word) (f : Launch → Launch) : (s.onLaunch tag f).badHarts = s.badHarts := rfl
@[simp] theorem State.onLaunch_owners (s : State) (tag : Word) (f : Launch → Launch) : (s.onLaunch tag f).owners = s.owners := rfl
@[simp] theorem State.onLaunch_spilled (s : State) (tag : Word) (f : Launch → Launch) : (s.onLaunch tag f).spilled = s.spilled := rfl
@[simp] theorem State.onLaunch_rlt (s : State) (tag : Word) (f : Launch → Launch) : (s.onLaunch tag f).rlt = s.rlt := rfl
@[simp] theorem State.onLaunch_seals (s : State) (tag : Word) (f : Launch → Launch) : (s.onLaunch tag f).seals = s.seals := rfl
@[simp] theorem State.onLaunch_treeStores (s : State) (tag : Word) (f : Launch → Launch) : (s.onLaunch tag f).treeStores = s.treeStores := rfl
@[simp] theorem State.onLaunch_attestation (s : State) (tag : Word) (f : Launch → Launch) : (s.onLaunch tag f).attestation = s.attestation := rfl
@[simp] theorem State.onLaunch_compactions (s : State) (tag : Word) (f : Launch → Launch) : (s.onLaunch tag f).compactions = s.compactions := rfl
@[simp] theorem State.onLaunch_queues (s : State) (tag : Word) (f : Launch → Launch) : (s.onLaunch tag f).queues = s.queues := rfl
@[simp] theorem State.onLaunch_dies (s : State) (tag : Word) (f : Launch → Launch) : (s.onLaunch tag f).dies = s.dies := rfl
@[simp] theorem State.onLaunch_launches (s : State) (tag : Word) (f : Launch → Launch) : (s.onLaunch tag f).launches = Assoc.change s.launches tag.toNat f := rfl
@[simp] theorem State.onLaunch_nextTag (s : State) (tag : Word) (f : Launch → Launch) : (s.onLaunch tag f).nextTag = s.nextTag := rfl
@[simp] theorem State.onLaunch_turns (s : State) (tag : Word) (f : Launch → Launch) : (s.onLaunch tag f).turns = s.turns := rfl
@[simp] theorem State.onLaunch_vacated (s : State) (tag : Word) (f : Launch → Launch) : (s.onLaunch tag f).vacated = s.vacated := rfl
@[simp] theorem State.onLaunch_nodes (s : State) (tag : Word) (f : Launch → Launch) : (s.onLaunch tag f).nodes = s.nodes := rfl
@[simp] theorem State.onLaunch_exchanges (s : State) (tag : Word) (f : Launch → Launch) : (s.onLaunch tag f).exchanges = s.exchanges := rfl
@[simp] theorem State.onLaunch_pending (s : State) (tag : Word) (f : Launch → Launch) : (s.onLaunch tag f).pending = s.pending := rfl
@[simp] theorem State.onLaunch_peerIn (s : State) (tag : Word) (f : Launch → Launch) : (s.onLaunch tag f).peerIn = s.peerIn := rfl
@[simp] theorem State.onLaunch_hub (s : State) (tag : Word) (f : Launch → Launch) : (s.onLaunch tag f).hub = s.hub := rfl
@[simp] theorem State.onLaunch_outputs (s : State) (tag : Word) (f : Launch → Launch) : (s.onLaunch tag f).outputs = s.outputs := rfl

end Sys2Proof.Machine
end

