-- ==== Sys2Proof/Laws/Finish.lean ====
section
/-! SUPPORT. How an instruction's effect becomes the next state: what counting, sampling, completing, trapping and holding change
(`Observed`), and from there one lemma for each way an instruction comes out. -/

namespace Sys2Proof.Machine

/-! ### Observation -/

theorem Observed.refl (a : Hart) : Observed a a := by
  constructor <;> simp

theorem Observed.trans {a b c : Hart} (h : Observed a b) (g : Observed b c) : Observed a c := by
  refine ⟨?_, g.strip.trans h.strip, g.period.trans h.period, g.fie.trans h.fie, g.ven.trans h.ven, g.en.trans h.en,
    fun n j hj => (g.select n j hj).trans (h.select n j hj), fun j hj => g.pending j (h.pending j hj)⟩
  have e := g.rest
  rw [e, h.rest]

/-- A bit of a number outside the field replaced. -/
theorem testBit_setBits (x lo n v i : Nat) :
    (setBits x lo n v).testBit i = if lo ≤ i ∧ i < lo + n then v.testBit (i - lo) else x.testBit i := by
  have h0 : x = x % 2 ^ lo + 2 ^ lo * (x / 2 ^ lo % 2 ^ n) + 2 ^ (lo + n) * (x / 2 ^ (lo + n)) := by
    have h1 := Nat.mod_add_div x (2 ^ lo)
    have h2 := Nat.mod_add_div (x / 2 ^ lo) (2 ^ n)
    have h3 : x / 2 ^ (lo + n) = x / 2 ^ lo / 2 ^ n := by rw [pow_add, Nat.div_div_eq_div_mul]
    rw [h3, pow_add]
    conv => lhs; rw [← h1, ← h2]
    ring
  have e : setBits x lo n v = 2 ^ lo * (2 ^ n * (x / 2 ^ (lo + n)) + v % 2 ^ n) + x % 2 ^ lo := by
    unfold setBits bitsOf
    have : x - x / 2 ^ lo % 2 ^ n * 2 ^ lo = x % 2 ^ lo + 2 ^ (lo + n) * (x / 2 ^ (lo + n)) := by
      conv => lhs; lhs; rw [h0]
      have : x / 2 ^ lo % 2 ^ n * 2 ^ lo = 2 ^ lo * (x / 2 ^ lo % 2 ^ n) := by ring
      omega
    rw [this, pow_add]
    ring
  rw [e, Nat.testBit_two_pow_mul_add _ (Nat.mod_lt _ (by positivity)), Nat.testBit_mod_two_pow]
  by_cases h1 : i < lo
  · simp [h1, Nat.not_le.2 h1]
  · simp only [h1, if_false, decide_false, Bool.false_and]
    rw [Nat.testBit_two_pow_mul_add _ (Nat.mod_lt _ (by positivity)), Nat.testBit_mod_two_pow]
    by_cases h2 : i - lo < n
    · have : lo ≤ i ∧ i < lo + n := by omega
      simp [h2, this]
    · have : ¬ (lo ≤ i ∧ i < lo + n) := by omega
      simp only [h2, this, if_false, Nat.testBit_div_two_pow]
      congr 1
      omega

theorem getLsbD_setField (x : Word) (lo n v i : Nat) (h : lo + n ≤ 64) :
    (setField x lo n v).getLsbD i = if lo ≤ i ∧ i < lo + n then v.testBit (i - lo) else x.getLsbD i := by
  unfold setField
  rw [BitVec.getLsbD_ofNat, testBit_setBits]
  by_cases hi : i < 64
  · simp only [hi, decide_true, Bool.true_and]; rfl
  · have : ¬ (lo ≤ i ∧ i < lo + n) := by omega
    have hx : x.getLsbD i = false := BitVec.getLsbD_of_ge x i (by omega)
    simp [hi, this, hx]

theorem foldl_or_keeps {β : Type} (p : β → Bool) (x : β → BitVec 17) (xs : List β) (q : BitVec 17) (j : Nat)
    (h : q.getLsbD j = true) : (xs.foldl (fun q i => if p i then q ||| x i else q) q).getLsbD j = true := by
  induction xs generalizing q with
  | nil => exact h
  | cons y ys ih =>
    apply ih
    show (if p y then q ||| x y else q).getLsbD j = true
    split <;> simp [h]

theorem countEvent_observed (h : Hart) (ev n : Nat) : Observed h (h.countEvent ev n) := by
  constructor
  · rfl
  · rfl
  · rfl
  · rfl
  · rfl
  · rfl
  · intro i j hj
    have keep (x : Word) (c : Bool) : (if c then setField x 19 1 1 else x).getLsbD j = x.getLsbD j := by
      cases c
      · rfl
      · simp only [if_true]
        rw [getLsbD_setField _ _ _ _ _ (by omega)]
        have : ¬ (19 ≤ j ∧ j < 19 + 1) := by omega
        simp [this]
    simp only [Hart.countEvent, Fin.getElem_fin, Vector.getElem_ofFn]
    exact keep _ _
  · intro j hj
    exact foldl_or_keeps _ _ _ _ _ hj

theorem addSample_observed (h : Hart) (r : Vector Word 8) : Observed h (h.addSample r) := by
  unfold Hart.addSample
  split
  · constructor <;> simp
  · constructor <;> simp only [Fin.getElem_fin, implies_true]
    intro j hj
    split <;> simp [hj]

theorem issueAll_observed (h : Hart) : Observed h h.issueAll := by
  refine (countEvent_observed h 0x04 h.obs.ops).trans ?_
  constructor <;> simp [Hart.issueAll]

theorem countBands_observed (h before : Hart) (g : Governing) (hi made : Nat) :
    Observed h (h.countBands before g hi made) := by
  refine (countEvent_observed h 0x03 (countElems (before.active g) (hi - before.vstart) before.vstart)).trans ?_
  constructor <;> simp [Hart.countBands]

theorem countVector_observed (h before : Hart) (g : Governing) (hi : Nat) : Observed h (h.countVector before g hi) :=
  countBands_observed h before g hi hi

theorem Observed.fallThrough {a b : Hart} (h : Observed a b) : Observed a.fallThrough b.fallThrough := by
  obtain ⟨rest, h1, h2, h3, h4, h5, h6, h7⟩ := h
  have hp : b.trp.prv = a.trp.prv := by rw [rest]
  have hc : b.pc = a.pc := by rw [rest]
  have hl : b.ctl = a.ctl := by rw [rest]
  have hv : b.vec = a.vec := by rw [rest]
  have key : b.fallThrough = { a.fallThrough with obs := b.obs, trp := { a.trp with irq := b.trp.irq } } ∧
      a.fallThrough.obs = a.obs ∧ a.fallThrough.trp = a.trp := by
    unfold Hart.fallThrough
    rw [hp, hc, hl]
    split
    · refine ⟨?_, rfl, rfl⟩; rw [rest]
    · generalize loopBack (a.pc + 8) a.ctl.loops = t
      obtain ⟨ls, pc, nn⟩ := t
      cases nn with
      | none => refine ⟨?_, rfl, rfl⟩; simp only; rw [rest]
      | some n => refine ⟨?_, rfl, rfl⟩; simp only [Hart.rotate]; rw [rest]
  obtain ⟨kb, ko, kt⟩ := key
  have eo : b.fallThrough.obs = b.obs := by rw [kb]
  have et : b.fallThrough.trp.irq = b.trp.irq := by rw [kb]
  refine ⟨?_, ?_, ?_, ?_, ?_, ?_, ?_, ?_⟩
  · rw [eo, et, kt]; exact kb
  · rw [eo, ko]; exact h1
  · rw [eo, ko]; exact h2
  · rw [eo, ko]; exact h3
  · rw [eo, ko]; exact h4
  · rw [eo, ko]; exact h5
  · rw [eo, ko]; exact h6
  · rw [et, kt]; exact h7

theorem Observed.withPc {a b : Hart} (h : Observed a b) (pc : Word) : Observed { a with pc := pc } { b with pc := pc } :=
  ⟨(congrArg (fun x : Hart => { x with pc := pc }) h.rest).trans rfl, h.strip, h.period, h.fie, h.ven, h.en, h.select,
    h.pending⟩

theorem Observed.settle {a b : Hart} (h : Observed a b) : Observed a.settle b.settle :=
  ⟨(congrArg Hart.settle h.rest).trans rfl, h.strip, h.period, h.fie, h.ven, h.en, h.select, h.pending⟩

theorem Observed.enterTrap {a b : Hart} (h : Observed a b) (c : Cause) (tval : Word) :
    Observed (a.enterTrap c tval) (b.enterTrap c tval) :=
  ⟨(congrArg (fun x : Hart => x.enterTrap c tval) h.rest).trans rfl, h.strip, h.period, h.fie, h.ven, h.en, h.select,
    h.pending⟩

/-! ### The executing hart of a state -/

/-- `t` is `s` but for its executing hart, `b`, which observation may have made of `a`, and for free values drawn. -/
def Steps (s t : State) (a : Hart) : Prop :=
  ∃ b n, Observed a b ∧ t = { s with harts := Assoc.put s.harts s.cur b, draws := n }

theorem Assoc.put_find {α : Type} {m : Assoc α} {i : Nat} {x : α} (h : Assoc.find m i = some x) : Assoc.put m i x = m := by
  induction m with
  | nil => simp [Assoc.find] at h
  | cons c r ih =>
    obtain ⟨k, v⟩ := c
    simp only [Assoc.find] at h
    simp only [Assoc.put]
    split at h
    · simp_all
    · split at h
      · simp at h
      · simp_all

theorem Steps.refl {s : State} {a : Hart} (h : s.hart? s.cur = some a) : Steps s s a := by
  refine ⟨a, s.draws, Observed.refl a, ?_⟩
  rw [Assoc.put_find h]

theorem Steps.hart {s t : State} {a : Hart} (h : Steps s t a) : ∃ b, t.hart? t.cur = some b ∧ Observed a b := by
  obtain ⟨b, n, o, rfl⟩ := h
  exact ⟨b, by simp [State.hart?], o⟩

theorem Steps.trans {s t u : State} {a b : Hart} (h : Steps s t a) (hb : t.hart? t.cur = some b) (g : Steps t u b) :
    Steps s u a := by
  obtain ⟨b', n, o, rfl⟩ := h
  obtain ⟨c, m, p, rfl⟩ := g
  simp [State.hart?] at hb
  subst hb
  exact ⟨c, m, o.trans p, by simp⟩


theorem countTiming_steps {s : State} {a : Hart} (h : s.hart? s.cur = some a) : Steps s s.countTiming a := by
  unfold State.countTiming
  generalize timingEvents = evs
  suffices H : ∀ t, Steps s t a → Steps s (evs.foldl (fun s ev =>
      match s.hart? s.cur with
      | none => s
      | some h =>
        if h.selects ev then
          let (n, s) := s.draw
          s.setHart s.cur (h.countEvent ev (n % 2 ^ 48))
        else s) t) a from H s (Steps.refl h)
  induction evs with
  | nil => exact fun t ht => ht
  | cons ev evs ih =>
    intro t ht
    apply ih
    obtain ⟨b, hb, o⟩ := ht.hart
    simp only [hb]
    split
    · refine ht.trans hb ⟨b.countEvent ev (Config.freeNat t.draws % 2 ^ 48), t.draws + 1, countEvent_observed _ _ _, rfl⟩
    · exact ht

theorem sample_steps {s : State} {a : Hart} (w : Word) (how : Ending) (el : Option (Nat → Nat))
    (h : s.hart? s.cur = some a) : Steps s (s.sample w how el) a := by
  unfold State.sample
  rw [h]
  simp only
  split
  · exact Steps.refl h
  · simp only [State.draw]
    generalize (if (a.obs.ven && el.isSome) = true then a.clusters else []) = reports
    generalize hr : (#v[_, _, _, _, _, _, _, _] : Vector Word 8) = r
    clear hr
    generalize how.untag a = u
    have first : Steps s (({ s with draws := s.draws + 1 } : State).setHart s.cur
        (({ a with obs := { a.obs with tagged := none, untag := u } } : Hart).addSample r)) a := by
      refine ⟨_, s.draws + 1, ?_, rfl⟩
      exact Observed.trans (b := { a with obs := { a.obs with tagged := none, untag := u } }) (by constructor <;> simp)
        (addSample_observed _ _)
    revert first
    generalize (({ s with draws := s.draws + 1 } : State).setHart s.cur
        (({ a with obs := { a.obs with tagged := none, untag := u } } : Hart).addSample r)) = t
    intro first
    induction reports generalizing t with
    | nil => exact first
    | cons lc reports ih =>
      apply ih
      obtain ⟨b, hb, o⟩ := first.hart
      refine first.trans hb ?_
      have hb' : Assoc.find t.harts t.cur = some b := hb
      simp only [State.onCur, State.onHart, Assoc.change, hb']
      exact ⟨_, t.draws + 1 + 1 + 1, addSample_observed _ _, rfl⟩

theorem onCur_steps {s : State} {a : Hart} (f : Hart → Hart) (h : s.hart? s.cur = some a) :
    s.onCur f = s.setHart s.cur (f a) := by
  have h' : Assoc.find s.harts s.cur = some a := h
  simp [State.onCur, State.onHart, Assoc.change, h', State.setHart]

/-- Completing changes the executing hart as settling and observation do. -/
theorem retire_steps {s : State} {a : Hart} (i : Instr) (counted : Bool) (el : Option (Nat → Nat))
    (h : s.hart? s.cur = some a) : Steps s (s.retire i counted el) a.settle := by
  cases counted with
  | true =>
    unfold State.retire
    simp only [if_true]
    rw [onCur_steps _ h]
    have h1 : (s.setHart s.cur a.settle).hart? (s.setHart s.cur a.settle).cur = some a.settle := by simp [State.hart?]
    have s1 : Steps s (s.setHart s.cur a.settle) a.settle := ⟨a.settle, s.draws, Observed.refl _, rfl⟩
    exact s1.trans h1 (sample_steps _ _ _ h1)
  | false =>
    obtain ⟨b, n, o, e⟩ := countTiming_steps h
    have hb : s.countTiming.hart? s.countTiming.cur = some b := by rw [e]; simp [State.hart?]
    unfold State.retire
    simp only [Bool.false_eq_true, if_false]
    rw [onCur_steps _ hb]
    set c := (b.countEvent 0x02 1).settle with hc
    have s1 : Steps s (s.countTiming.setHart s.countTiming.cur c) a.settle := by
      refine ⟨c, n, (o.trans (countEvent_observed _ _ _)).settle, ?_⟩
      rw [e]; simp [State.setHart]
    have hc1 : (s.countTiming.setHart s.countTiming.cur c).hart? (s.countTiming.setHart s.countTiming.cur c).cur = some c := by
      simp [State.hart?]
    exact s1.trans hc1 (sample_steps _ _ _ hc1)

/-! ### How an instruction comes out -/

theorem finish_seq {s : State} {a : Hart} (i : Instr) (counted : Bool) (el : Option (Nat → Nat))
    (h : s.hart? s.cur = some a) :
    ∃ h' n, Observed a.settle.fallThrough h' ∧
      State.finish i counted el (.seq s) = { s with harts := Assoc.put s.harts s.cur h', draws := n } := by
  obtain ⟨b, n, o, e⟩ := retire_steps i counted el h
  refine ⟨b.fallThrough, n, o.fallThrough, ?_⟩
  simp only [State.finish]
  rw [e, onCur_steps (a := b) _ (by simp [State.hart?])]
  simp [State.setHart]

theorem finish_jump {s : State} {a : Hart} (i : Instr) (counted : Bool) (el : Option (Nat → Nat)) (pc : Word)
    (h : s.hart? s.cur = some a) :
    ∃ h' n, Observed { a.settle with pc := pc } h' ∧
      State.finish i counted el (.jump s pc) = { s with harts := Assoc.put s.harts s.cur h', draws := n } := by
  obtain ⟨b, n, o, e⟩ := retire_steps i counted el h
  refine ⟨{ b with pc := pc }, n, o.withPc pc, ?_⟩
  simp only [State.finish]
  rw [e, onCur_steps (a := b) _ (by simp [State.hart?])]
  simp [State.setHart]

theorem finish_stop {s : State} {a : Hart} (i : Instr) (counted : Bool) (el : Option (Nat → Nat)) (c : Cause) (tval : Word)
    (h : s.hart? s.cur = some a) (hp : a.trp.prv = false) :
    ∃ h' n, Observed (a.settle.enterTrap c tval) h' ∧
      State.finish i counted el (.stop s c tval) = { s with harts := Assoc.put s.harts s.cur h', draws := n } := by
  obtain ⟨b, n, o, e⟩ := countTiming_steps h
  have h1 : (s.countTiming.onCur Hart.settle) = { s with harts := Assoc.put s.harts s.cur b.settle, draws := n } := by
    rw [e, onCur_steps (a := b) _ (by simp [State.hart?])]; simp [State.setHart]
  have h2 : (s.countTiming.onCur Hart.settle).hart? (s.countTiming.onCur Hart.settle).cur = some b.settle := by
    rw [h1]; simp [State.hart?]
  obtain ⟨d, m, p, g⟩ := sample_steps (encodeWord i) (.stopped c.code) el h2
  have hd : Observed a.settle d := o.settle.trans p
  refine ⟨(d.issueAll.countEvent 0x0D 1).enterTrap c tval, m,
    ((hd.trans (issueAll_observed d)).trans (countEvent_observed _ _ _)).enterTrap c tval, ?_⟩
  have hdp : (d.issueAll.countEvent 0x0D 1).trp.prv = false := by
    have := ((hd.trans (issueAll_observed d)).trans (countEvent_observed _ 0x0D 1)).rest
    rw [this]; exact hp
  simp only [State.finish]
  rw [g, h1]
  simp [State.takeTrap, State.hart?, hdp, State.setHart]

/-- The running hart is seated and not halted. -/
theorem running_hart {s : State} {h : Hart} (r : s.running = some h) : s.hart? s.cur = some h := by
  unfold State.running at r
  split at r
  · simp at r
  · split at r <;> simp_all

/-- What `performWith` answers when its effect completes. -/
theorem completes_of_seq {i : Instr} {s s1 : State} {h h1 : Hart} {counted : Bool} {el : Hart → Option (Nat → Nat → Nat)}
    {effect : State → Hart → Eff State} (x : exec i s = performWith i s counted el effect) (r : s.running = some h)
    (e : effect (s.setHart s.cur h.begun) h.begun = .seq s1) (c : s1.hart? s1.cur = some h1) : Completes i s s1 := by
  refine ⟨h1, c, ?_⟩
  rw [Ends, x]
  unfold performWith
  simp only [r]
  change ∃ h' n, _ ∧ Host.Outcome.next (State.finish i counted ((effect (s.setHart s.cur h.begun) h.begun).reports h (el h.atTag)) (effect (s.setHart s.cur h.begun) h.begun)) = _
  rw [e]
  obtain ⟨h', n, o, g⟩ := finish_seq i counted ((Eff.seq s1).reports h (el h.atTag)) c
  exact ⟨h', n, o, by rw [g]⟩

/-- What it answers when its effect jumps. -/
theorem jumps_of_jump {i : Instr} {s s1 : State} {h h1 : Hart} {pc : Word} {counted : Bool}
    {el : Hart → Option (Nat → Nat → Nat)} {effect : State → Hart → Eff State}
    (x : exec i s = performWith i s counted el effect) (r : s.running = some h)
    (e : effect (s.setHart s.cur h.begun) h.begun = .jump s1 pc) (c : s1.hart? s1.cur = some h1) : Jumps i s s1 pc := by
  refine ⟨h1, c, ?_⟩
  rw [Ends, x]
  unfold performWith
  simp only [r]
  change ∃ h' n, _ ∧ Host.Outcome.next (State.finish i counted ((effect (s.setHart s.cur h.begun) h.begun).reports h (el h.atTag)) (effect (s.setHart s.cur h.begun) h.begun)) = _
  rw [e]
  obtain ⟨h', n, o, g⟩ := finish_jump i counted ((Eff.jump s1 pc).reports h (el h.atTag)) pc c
  exact ⟨h', n, o, by rw [g]⟩

/-- What it answers when its effect stops at program level. -/
theorem traps_of_stop {i : Instr} {s s1 : State} {h h1 : Hart} {c : Cause} {tval : Word} {counted : Bool}
    {el : Hart → Option (Nat → Nat → Nat)} {effect : State → Hart → Eff State}
    (x : exec i s = performWith i s counted el effect) (r : s.running = some h)
    (e : effect (s.setHart s.cur h.begun) h.begun = .stop s1 c tval) (k : s1.hart? s1.cur = some h1)
    (p : h1.trp.prv = false) : Traps i s s1 c tval := by
  refine ⟨h1, k, p, ?_⟩
  rw [Ends, x]
  unfold performWith
  simp only [r]
  change ∃ h' n, _ ∧ Host.Outcome.next (State.finish i counted ((effect (s.setHart s.cur h.begun) h.begun).reports h (el h.atTag)) (effect (s.setHart s.cur h.begun) h.begun)) = _
  rw [e]
  obtain ⟨h', n, o, g⟩ := finish_stop i counted ((Eff.stop s1 c tval).reports h (el h.atTag)) c tval k p
  exact ⟨h', n, o, by rw [g]⟩

/-- What it answers when its effect holds. -/
theorem holds_of_hold {i : Instr} {s s1 : State} {h h1 : Hart} {counted : Bool} {el : Hart → Option (Nat → Nat → Nat)}
    {effect : State → Hart → Eff State} (x : exec i s = performWith i s counted el effect) (r : s.running = some h)
    (e : effect (s.setHart s.cur h.begun) h.begun = .hold s1) (c : s1.hart? s1.cur = some h1) : Holds i s s1 := by
  refine ⟨h1, c, ?_⟩
  rw [x]
  unfold performWith
  simp only [r]
  change Host.Outcome.next (State.finish i counted ((effect (s.setHart s.cur h.begun) h.begun).reports h (el h.atTag)) (effect (s.setHart s.cur h.begun) h.begun)) = _
  rw [e]
  simp only [State.finish]
  rw [onCur_steps _ c]

/-- An instruction whose effect is on its hart alone, and completes. -/
theorem completesWith_of_seq {i : Instr} {s : State} {h e : Hart} {counted : Bool}
    {el : Hart → Option (Nat → Nat → Nat)} {effect : State → Hart → Eff State}
    (x : exec i s = performWith i s counted el effect) (r : s.running = some h)
    (g : effect (s.setHart s.cur h.begun) h.begun = .seq ((s.setHart s.cur h.begun).setHart s.cur e)) :
    CompletesWith i s e := by
  have : (s.setHart s.cur h.begun).setHart s.cur e = s.setHart s.cur e := by simp [State.setHart]
  rw [this] at g
  exact completes_of_seq x r g (h1 := e) (by simp [State.hart?])

/-- An instruction whose effect is on its hart alone, and jumps. -/
theorem jumpsWith_of_jump {i : Instr} {s : State} {h e : Hart} {pc : Word} {counted : Bool}
    {el : Hart → Option (Nat → Nat → Nat)} {effect : State → Hart → Eff State}
    (x : exec i s = performWith i s counted el effect) (r : s.running = some h)
    (g : effect (s.setHart s.cur h.begun) h.begun = .jump ((s.setHart s.cur h.begun).setHart s.cur e) pc) :
    JumpsWith i s e pc := by
  have : (s.setHart s.cur h.begun).setHart s.cur e = s.setHart s.cur e := by simp [State.setHart]
  rw [this] at g
  exact jumps_of_jump x r g (h1 := e) (by simp [State.hart?])

/-- An instruction whose effect is on its hart alone, and traps. -/
theorem trapsWith_of_stop {i : Instr} {s : State} {h e : Hart} {c : Cause} {tval : Word} {counted : Bool}
    {el : Hart → Option (Nat → Nat → Nat)} {effect : State → Hart → Eff State}
    (x : exec i s = performWith i s counted el effect) (r : s.running = some h)
    (g : effect (s.setHart s.cur h.begun) h.begun = .stop ((s.setHart s.cur h.begun).setHart s.cur e) c tval)
    (p : e.trp.prv = false) : TrapsWith i s e c tval := by
  have : (s.setHart s.cur h.begun).setHart s.cur e = s.setHart s.cur e := by simp [State.setHart]
  rw [this] at g
  exact traps_of_stop x r g (h1 := e) (by simp [State.hart?]) p

/-- What an instruction completes with may be any hart that observation accounts for. -/
theorem CompletesWith.observed {i : Instr} {s : State} {a e : Hart} (h : CompletesWith i s e) (o : Observed a e) :
    CompletesWith i s a := by
  obtain ⟨b, hb, h', n, ob, x⟩ := h
  simp [State.hart?, State.setHart] at hb
  subst hb
  refine ⟨a, by simp [State.hart?, State.setHart], h', n, o.settle.fallThrough.trans ob, ?_⟩
  rw [x]
  simp [State.setHart]

/-! ### The frames of Operands.lean -/

theorem performHart_eq (i : Instr) (s : State) (effect : Hart → Eff Hart) :
    performHart i s effect = performWith i s false (fun _ => none) fun s h => s.lift (effect h) := rfl

/-- An instruction on its hart alone (`performHart`) that completes. -/
theorem hart_seq {i : Instr} {s : State} {h e : Hart} {effect : Hart → Eff Hart} (x : exec i s = performHart i s effect)
    (r : s.running = some h) (g : effect h.begun = .seq e) : CompletesWith i s e :=
  completesWith_of_seq (h := h) (x.trans (performHart_eq i s effect)) r (by simp only [State.lift, g, Eff.map]; rfl)

/-- The same that jumps. -/
theorem hart_jump {i : Instr} {s : State} {h e : Hart} {pc : Word} {effect : Hart → Eff Hart}
    (x : exec i s = performHart i s effect) (r : s.running = some h) (g : effect h.begun = .jump e pc) : JumpsWith i s e pc :=
  jumpsWith_of_jump (h := h) (x.trans (performHart_eq i s effect)) r (by simp only [State.lift, g, Eff.map]; rfl)

/-- The same that stops at program level. -/
theorem hart_stop {i : Instr} {s : State} {h e : Hart} {c : Cause} {tval : Word} {effect : Hart → Eff Hart}
    (x : exec i s = performHart i s effect) (r : s.running = some h) (g : effect h.begun = .stop e c tval)
    (p : e.trp.prv = false) : TrapsWith i s e c tval :=
  trapsWith_of_stop (h := h) (x.trans (performHart_eq i s effect)) r (by simp only [State.lift, g, Eff.map]; rfl) p

/-- A vector instruction on registers (`performVector`) whose groups are right and whose guard lets it run. -/
theorem vector_seq {i : Instr} {s : State} {f : RFields} {groups : List Group} {overlap : Bool} {h e : Hart}
    {effect : Hart → Option Nat → Eff Hart} (x : exec i s = performVector i s f groups overlap effect)
    (r : s.running = some h) (ok : h.GroupsOk groups) (no : overlap = false) (on : h.GuardOn f.gd f.gs)
    (g : effect h.begun s.stopAt = .seq e) : CompletesWith i s e := by
  refine completesWith_of_seq (h := h) x r ?_
  have h1 : groups.any h.begun.badGroup = false := ok
  have h2 : h.begun.guardedOff f.gd f.gs = false := on
  have h3 : (s.setHart s.cur h.begun).stopAt = s.stopAt := rfl
  simp only [h1, no, h2, h3, State.lift, g, Eff.map, Bool.or_self, Bool.false_eq_true, if_false]
  rfl

/-- Guarded off, it only sets VSTART to 0 (R111). -/
theorem vector_off {i : Instr} {s : State} {f : RFields} {groups : List Group} {overlap : Bool} {h : Hart}
    {effect : Hart → Option Nat → Eff Hart} (x : exec i s = performVector i s f groups overlap effect)
    (r : s.running = some h) (ok : h.GroupsOk groups) (no : overlap = false) (off : h.guardedOff f.gd f.gs = true) :
    CompletesWith i s (h.begun.setVstart 0) := by
  refine completesWith_of_seq (h := h) x r ?_
  have h1 : groups.any h.begun.badGroup = false := ok
  have h2 : h.begun.guardedOff f.gd f.gs = true := off
  simp only [h1, no, h2, Bool.or_self, Bool.false_eq_true, if_false, if_true]
  rw [onCur_steps (a := h.begun) _ (by simp [State.hart?])]
  rfl

/-- Groups that break a rule, or overlap where they may not, trap GROUP before anything else happens (Table 4.12). -/
theorem vector_group {i : Instr} {s : State} {f : RFields} {groups : List Group} {overlap : Bool} {h : Hart}
    {effect : Hart → Option Nat → Eff Hart} (x : exec i s = performVector i s f groups overlap effect)
    (r : s.running = some h) (p : h.trp.prv = false) (bad : (groups.any h.badGroup || overlap) = true) :
    TrapsWith i s h.begun .group (encodeWord i) := by
  refine trapsWith_of_stop (h := h) x r ?_ p
  have h1 : (groups.any h.begun.badGroup || overlap) = true := bad
  simp only [h1, if_true]
  simp [State.setHart]

/-- It stops in its effect. -/
theorem vector_stop {i : Instr} {s : State} {f : RFields} {groups : List Group} {overlap : Bool} {h e : Hart} {c : Cause}
    {tval : Word} {effect : Hart → Option Nat → Eff Hart} (x : exec i s = performVector i s f groups overlap effect)
    (r : s.running = some h) (ok : h.GroupsOk groups) (no : overlap = false) (on : h.GuardOn f.gd f.gs)
    (g : effect h.begun s.stopAt = .stop e c tval) (p : e.trp.prv = false) : TrapsWith i s e c tval := by
  refine trapsWith_of_stop (h := h) x r ?_ p
  have h1 : groups.any h.begun.badGroup = false := ok
  have h2 : h.begun.guardedOff f.gd f.gs = false := on
  have h3 : (s.setHart s.cur h.begun).stopAt = s.stopAt := rfl
  simp only [h1, no, h2, h3, State.lift, g, Eff.map, Bool.or_self, Bool.false_eq_true, if_false]
  rfl

end Sys2Proof.Machine
end

