-- ==== Sys2Proof/Laws/Elements.lean ====
section
/-! SUPPORT. Elements of register groups: where they lie, that writing one leaves the others alone, and what a loop over the
elements of a group does. -/

namespace Sys2Proof.Machine

/-! ### Positions -/

theorem nv_le (h : Hart) : h.nv ≤ 64 ∧ 8 ≤ h.nv := by
  have : h.vec.nvc.toNat < 4 := h.vec.nvc.isLt
  unfold Hart.nv
  interval_cases h.vec.nvc.toNat <;> simp

theorem mapReg_lt {h : Hart} (v : h.vec.rotSize.toNat ≤ h.nv) {r : Nat} (hr : r < h.nv) : h.mapReg r < h.nv := by
  unfold Hart.mapReg
  simp only
  split
  · rename_i c
    simp only [Bool.and_eq_true, decide_eq_true_eq] at c
    have := Nat.mod_lt (r - (h.nv - h.vec.rotSize.toNat) + h.vec.rotBase.toNat) (Nat.pos_of_ne_zero c.1)
    omega
  · exact hr

theorem mod_add_inj {a b c n : Nat} (ha : a < n) (hb : b < n) (e : (a + c) % n = (b + c) % n) : a = b := by
  have : (a + c) ≡ (b + c) [MOD n] := e
  have := Nat.ModEq.add_right_cancel' c this
  exact Nat.ModEq.eq_of_lt_of_lt this ha hb

theorem mapReg_inj {h : Hart} (v : h.vec.rotSize.toNat ≤ h.nv) {r q : Nat} (hr : r < h.nv) (hq : q < h.nv)
    (e : h.mapReg r = h.mapReg q) : r = q := by
  unfold Hart.mapReg at e
  simp only [Bool.and_eq_true, decide_eq_true_eq] at e
  split at e <;> split at e
  · rename_i c d
    have := mod_add_inj (c := h.vec.rotBase.toNat) (n := h.vec.rotSize.toNat)
      (a := r - (h.nv - h.vec.rotSize.toNat)) (b := q - (h.nv - h.vec.rotSize.toNat)) (by omega) (by omega) (by omega)
    omega
  · rename_i c d
    have hz : h.vec.rotSize.toNat ≠ 0 := c.1
    have : q < h.nv - h.vec.rotSize.toNat := by
      by_contra hh
      exact d ⟨hz, by omega⟩
    omega
  · rename_i c d
    have hz : h.vec.rotSize.toNat ≠ 0 := d.1
    have : r < h.nv - h.vec.rotSize.toNat := by
      by_contra hh
      exact c ⟨hz, by omega⟩
    omega
  · exact e

theorem elemBits (t : ElemType) : t.bits = 4 ∨ t.bits = 8 ∨ t.bits = 16 ∨ t.bits = 32 ∨ t.bits = 64 := by
  cases t <;> simp [ElemType.bits]

theorem lanes_vals (h : Hart) : h.lanes = 16 ∨ h.lanes = 32 ∨ h.lanes = 64 := by
  unfold Hart.lanes lanesOf
  have : h.vec.vlclass.toNat < 4 := h.vec.vlclass.isLt
  split
  · simp
  · rename_i c
    have hc : h.vec.vlclass.toNat ≠ 0 := fun e => c (BitVec.eq_of_toNat_eq e)
    interval_cases h.vec.vlclass.toNat <;> simp at hc ⊢

theorem sew_vals (h : Hart) : h.sew = 8 ∨ h.sew = 16 ∨ h.sew = 32 ∨ h.sew = 64 := by
  unfold Hart.sew
  have : h.vec.sewc.toNat < 4 := h.vec.sewc.isLt
  interval_cases h.vec.sewc.toNat <;> simp

/-- VLMAX is a positive multiple of the granted lanes (R165). -/
theorem vlmax_lanes (h : Hart) : h.lanes ∣ h.vlmax ∧ 0 < h.vlmax := by
  have h1 : h.vec.vlclass.toNat < 4 := h.vec.vlclass.isLt
  have h2 : h.vec.sewc.toNat < 4 := h.vec.sewc.isLt
  have h3 : h.vec.nvc.toNat < 4 := h.vec.nvc.isLt
  have hz : (h.vec.vlclass = 0) ↔ h.vec.vlclass.toNat = 0 :=
    ⟨fun e => by rw [e]; rfl, fun e => BitVec.eq_of_toNat_eq e⟩
  unfold Hart.lanes Hart.vlmax Hart.lanes Hart.sew Hart.nv lanesOf partitionOf
  simp only [hz]
  interval_cases h.vec.vlclass.toNat <;> interval_cases h.vec.sewc.toNat <;> interval_cases h.vec.nvc.toNat <;> decide

theorem regBits_facts (h : Hart) : 128 ∣ h.regBits ∧ 0 < h.regBits := by
  obtain ⟨⟨k, hk⟩, hp⟩ := vlmax_lanes h
  unfold Hart.regBits
  rw [hk] at hp ⊢
  obtain ⟨m, hm⟩ : 16 ∣ h.lanes := by rcases lanes_vals h with e | e | e <;> rw [e] <;> decide
  obtain ⟨n, hn⟩ : 8 ∣ h.sew := by rcases sew_vals h with e | e | e | e <;> rw [e] <;> decide
  have hs : 0 < h.sew := by rcases sew_vals h with e | e | e | e <;> rw [e] <;> decide
  refine ⟨⟨m * k * n, by rw [hm, hn]; ring⟩, Nat.mul_pos hp hs⟩

/-- A width of elements divides a register's length. -/
theorem width_dvd {h : Hart} {w : Nat} (hw : w ∣ 128) : w ∣ h.regBits := dvd_trans hw (regBits_facts h).1

theorem bits_dvd (t : ElemType) : t.bits ∣ 128 := by
  rcases elemBits t with e | e | e | e | e <;> rw [e] <;> decide

theorem bits_pos (t : ElemType) : 0 < t.bits := by
  rcases elemBits t with e | e | e | e | e <;> rw [e] <;> decide

/-! ### One element -/

theorem bitsOf_setBits_self (x lo n v : Nat) : bitsOf (setBits x lo n v) lo n = v % 2 ^ n := by
  apply Nat.eq_of_testBit_eq
  intro i
  unfold bitsOf
  rw [Nat.testBit_mod_two_pow, Nat.testBit_div_two_pow, testBit_setBits, Nat.testBit_mod_two_pow]
  by_cases hi : i < n
  · simp [hi, Nat.add_comm]
  · simp [hi]

theorem bitsOf_setBits_ne {x lo n v lo' n' : Nat} (d : lo' + n' ≤ lo ∨ lo + n ≤ lo') :
    bitsOf (setBits x lo n v) lo' n' = bitsOf x lo' n' := by
  apply Nat.eq_of_testBit_eq
  intro i
  unfold bitsOf
  rw [Nat.testBit_mod_two_pow, Nat.testBit_div_two_pow, testBit_setBits, Nat.testBit_mod_two_pow, Nat.testBit_div_two_pow]
  by_cases hi : i < n'
  · have : ¬ (lo ≤ lo' + i ∧ lo' + i < lo + n) := by omega
    simp [hi, this, Nat.add_comm]
  · simp [hi]

/-- A group lies within the registers of the configuration. -/
structure Hart.GroupIn (h : Hart) (first : RegIdx) (n w : Nat) : Prop where
  inside : first.toNat + n ≤ h.nv
  width : w ∣ 128
  rot : h.vec.rotSize.toNat ≤ h.nv

theorem div_lt_group {i w n b : Nat} (hi : i * w < n * b) : i * w / b < n :=
  Nat.div_lt_of_lt_mul (by rw [Nat.mul_comm b n]; exact hi)

theorem vreg_setVreg_self {h : Hart} {p : Nat} (x : Bits) (hp : p < 64) : (h.setVreg p x).vreg p = x := by
  simp [Hart.setVreg, Hart.vreg, hp]

theorem vreg_setVreg_ne {h : Hart} {p q : Nat} (x : Bits) (n : q ≠ p) : (h.setVreg p x).vreg q = h.vreg q := by
  unfold Hart.setVreg Hart.vreg
  split
  · simp [Ne.symm n]
  · rfl

/-- Same configuration and rotation: elements lie at the same places. -/
def SameLayout (h r : Hart) : Prop :=
  r.vec.nvc = h.vec.nvc ∧ r.vec.sewc = h.vec.sewc ∧ r.vec.vlclass = h.vec.vlclass ∧ r.vec.rotBase = h.vec.rotBase ∧
    r.vec.rotSize = h.vec.rotSize

theorem SameLayout.mapReg {h r : Hart} (e : SameLayout h r) (n : Nat) : r.mapReg n = h.mapReg n := by
  obtain ⟨h1, h2, h3, h4, h5⟩ := e
  simp [Hart.mapReg, Hart.nv, h1, h4, h5]

theorem SameLayout.regBits {h r : Hart} (e : SameLayout h r) : r.regBits = h.regBits := by
  obtain ⟨h1, h2, h3, h4, h5⟩ := e
  simp [Hart.regBits, Hart.vlmax, Hart.lanes, Hart.nv, Hart.sew, h1, h2, h3]

theorem SameLayout.writeElem (h : Hart) (first : RegIdx) (w i x : Nat) : SameLayout h (h.writeElem first w i x) :=
  ⟨rfl, rfl, rfl, rfl, rfl⟩

/-- An element reads as it was written. -/
theorem readElem_writeElem_self {h : Hart} {first : RegIdx} {n w : Nat} (g : h.GroupIn first n w) {i : Nat} (x : Nat)
    (hi : i * w < n * h.regBits) : (h.writeElem first w i x).readElem first w i = x % 2 ^ w := by
  have e := SameLayout.writeElem h first w i x
  unfold Hart.readElem
  rw [e.mapReg, e.regBits]
  unfold Hart.writeElem
  have hlt : h.mapReg (first.toNat + i * w / h.regBits) < 64 := by
    have := div_lt_group hi
    have := mapReg_lt g.rot (r := first.toNat + i * w / h.regBits) (by have := g.inside; omega)
    have := (nv_le h).1
    omega
  simp only
  rw [vreg_setVreg_self _ hlt, bitsOf_setBits_self]

theorem slots_disjoint {i j w b : Nat} (hw : w ∣ b) (hb : 0 < b) (e : i * w / b = j * w / b) (n : i ≠ j) :
    i * w % b + w ≤ j * w % b ∨ j * w % b + w ≤ i * w % b := by
  obtain ⟨k, rfl⟩ := hw
  have hi := Nat.mod_add_div (i * w) (w * k)
  have hj := Nat.mod_add_div (j * w) (w * k)
  rw [e] at hi
  rcases Nat.lt_or_gt_of_ne n with l | l
  · left
    have : (i + 1) * w ≤ j * w := Nat.mul_le_mul_right w l
    rw [Nat.add_mul, Nat.one_mul] at this
    omega
  · right
    have : (j + 1) * w ≤ i * w := Nat.mul_le_mul_right w l
    rw [Nat.add_mul, Nat.one_mul] at this
    omega

/-- Writing an element leaves the others of its group alone. -/
theorem readElem_writeElem_ne {h : Hart} {first : RegIdx} {n w : Nat} (g : h.GroupIn first n w) {i j : Nat} (x : Nat)
    (hi : i * w < n * h.regBits) (hj : j * w < n * h.regBits) (ne : j ≠ i) :
    (h.writeElem first w i x).readElem first w j = h.readElem first w j := by
  have e := SameLayout.writeElem h first w i x
  unfold Hart.readElem
  rw [e.mapReg, e.regBits]
  unfold Hart.writeElem
  have di := div_lt_group hi
  have dj := div_lt_group hj
  have := g.inside
  have hlt : h.mapReg (first.toNat + i * w / h.regBits) < 64 := by
    have := mapReg_lt g.rot (r := first.toNat + i * w / h.regBits) (by omega)
    have := (nv_le h).1
    omega
  by_cases q : i * w / h.regBits = j * w / h.regBits
  · simp only [← q]
    rw [vreg_setVreg_self _ hlt, bitsOf_setBits_ne]
    exact slots_disjoint (width_dvd g.width) (regBits_facts h).2 q.symm ne
  · simp only
    rw [vreg_setVreg_ne]
    intro c
    have := mapReg_inj g.rot (by omega) (by omega) c
    omega

/-- Writing an element leaves every register outside its group alone. -/
theorem vreg_writeElem_outside {h : Hart} {first : RegIdx} {n w : Nat} {i p : Nat} (x : Nat)
    (hi : i * w < n * h.regBits) (o : ¬ h.inGroup first n p) : (h.writeElem first w i x).vreg p = h.vreg p := by
  unfold Hart.writeElem
  exact vreg_setVreg_ne _ fun c => o ⟨_, div_lt_group hi, c⟩

/-! ### Loops over elements -/

/-- `r` is `h` but for vector registers of a group and the flags and draws of arithmetic, flags only rising. -/
structure InLoop (h r : Hart) (first : RegIdx) (n : Nat) : Prop where
  rest : r = { h with vec := { h.vec with v := r.vec.v }, ar := { h.ar with aflags := r.ar.aflags, seed := r.ar.seed } }
  others : ∀ p, ¬ h.inGroup first n p → r.vreg p = h.vreg p
  sticky : ∀ j : Nat, h.ar.aflags.getLsbD j = true → r.ar.aflags.getLsbD j = true

theorem InLoop.refl (h : Hart) (first : RegIdx) (n : Nat) : InLoop h h first n := ⟨rfl, fun _ _ => rfl, fun _ c => c⟩

theorem InLoop.layout {h r : Hart} {first : RegIdx} {n : Nat} (e : InLoop h r first n) : SameLayout h r := by
  have := e.rest
  constructor
  · rw [this]
  · refine ⟨?_, ?_, ?_, ?_⟩ <;> rw [this]

theorem InLoop.groupIn {h r : Hart} {first : RegIdx} {n w : Nat} (e : InLoop h r first n) (g : h.GroupIn first n w) :
    r.GroupIn first n w := by
  obtain ⟨h1, h2, h3⟩ := g
  have l := e.layout
  refine ⟨?_, h2, ?_⟩
  · simpa [Hart.nv, l.1] using h1
  · simpa [Hart.nv, l.1, l.2.2.2.2] using h3

theorem InLoop.inGroup {h r : Hart} {first : RegIdx} {n : Nat} (e : InLoop h r first n) (p : Nat) :
    r.inGroup first n p ↔ h.inGroup first n p := by
  simp [Hart.inGroup, e.layout.mapReg]

/-- What the body of an element loop may do at element `i`: write that element, set flags and take draws. -/
def Writes (r r' : Hart) (first : RegIdx) (w i : Nat) (x : Nat) : Prop :=
  ∃ fl sd, r' = ({ r with ar := { r.ar with aflags := fl, seed := sd } } : Hart).writeElem first w i x ∧
    ∀ j : Nat, r.ar.aflags.getLsbD j = true → fl.getLsbD j = true

theorem InLoop.step {h r r' : Hart} {first : RegIdx} {n w i x : Nat} (e : InLoop h r first n)
    (hi : i * w < n * h.regBits) (s : Writes r r' first w i x) : InLoop h r' first n := by
  obtain ⟨fl, sd, rfl, st⟩ := s
  refine ⟨?_, ?_, fun j c => st j (e.sticky j c)⟩
  · have := e.rest
    generalize hv : (({ r with ar := { r.ar with aflags := fl, seed := sd } } : Hart).writeElem first w i x) = q at *
    have h1 : q = { r with vec := { r.vec with v := q.vec.v }, ar := { r.ar with aflags := fl, seed := sd } } := by
      rw [← hv]; rfl
    have h2 : q.ar.aflags = fl := by rw [h1]
    have h3 : q.ar.seed = sd := by rw [h1]
    rw [h2, h3]
    rw [h1]
    simp only
    rw [this]
  · intro p hp
    rw [← e.others p hp]
    have hi' : i * w < n * r.regBits := by rw [e.layout.regBits]; exact hi
    have hp' : ¬ ({ r with ar := { r.ar with aflags := fl, seed := sd } } : Hart).inGroup first n p := by
      intro c; exact hp ((e.inGroup p).1 c)
    exact vreg_writeElem_outside x hi' hp'

/-- A loop over elements that writes only its group. -/
theorem forElems_inLoop {h : Hart} {first : RegIdx} {n w : Nat} {act : Nat → Bool} {body : Nat → Hart → Hart}
    (hb : ∀ i r, InLoop h r first n → act i = true → ∃ x, Writes r (body i r) first w i x) :
    ∀ (k lo : Nat) (r : Hart), InLoop h r first n → (∀ i, lo ≤ i → i < lo + k → i * w < n * h.regBits) →
      InLoop h (forElems (fun i r => if act i then body i r else r) k lo r) first n := by
  intro k
  induction k with
  | zero => exact fun lo r e _ => e
  | succ k ih =>
    intro lo r e hr
    simp only [forElems]
    apply ih (lo + 1)
    · split
      · rename_i c
        obtain ⟨x, hx⟩ := hb lo r e c
        exact e.step (hr lo (le_refl lo) (by omega)) hx
      · exact e
    · exact fun i h1 h2 => hr i (by omega) (by omega)

/-- And which writes values of its own to the active elements: what its elements read after it. -/
theorem forElems_elements {h : Hart} {first : RegIdx} {n w : Nat} {act : Nat → Bool} {body : Nat → Hart → Hart}
    {val : Nat → Nat} (g : h.GroupIn first n w)
    (hb : ∀ i r, InLoop h r first n → act i = true → Writes r (body i r) first w i (val i)) :
    ∀ (k lo : Nat) (r : Hart), InLoop h r first n → (∀ i, lo ≤ i → i < lo + k → i * w < n * h.regBits) →
      ∀ j, j * w < n * h.regBits →
        (forElems (fun i r => if act i then body i r else r) k lo r).readElem first w j =
          if (decide (lo ≤ j) && decide (j < lo + k) && act j) = true then val j % 2 ^ w else r.readElem first w j := by
  intro k
  induction k with
  | zero =>
    intro lo r e hr j hj
    have : (decide (lo ≤ j) && decide (j < lo + 0)) = false := by
      simp
    simp only [forElems, this, Bool.false_and, Bool.false_eq_true, if_false]
  | succ k ih =>
    intro lo r e hr j hj
    simp only [forElems]
    have one : InLoop h (if act lo then body lo r else r) first n := by
      split
      · rename_i c
        exact e.step (hr lo (le_refl lo) (by omega)) (hb lo r e c)
      · exact e
    rw [ih (lo + 1) _ one (fun i h1 h2 => hr i (by omega) (by omega)) j hj]
    by_cases hlt : lo + 1 ≤ j ∧ j < lo + 1 + k
    · have h2 : lo ≤ j ∧ j < lo + (k + 1) := by omega
      have ne : j ≠ lo := by omega
      simp only [hlt.1, hlt.2, h2.1, h2.2, decide_true, Bool.true_and]
      split
      · rfl
      · split
        · rename_i c
          obtain ⟨fl, sd, hx, st⟩ := hb lo r e c
          rw [hx]
          have := readElem_writeElem_ne (h := ({ r with ar := { r.ar with aflags := fl, seed := sd } } : Hart)) (n := n)
            (first := first) (w := w) (i := lo) (j := j) ⟨(e.groupIn g).inside, g.width, (e.groupIn g).rot⟩ (val lo)
            (by have := e.layout.regBits; change lo * w < n * r.regBits; rw [this]; exact hr lo (le_refl lo) (by omega))
            (by have := e.layout.regBits; change j * w < n * r.regBits; rw [this]; exact hj) ne
          rw [this]; rfl
        · rfl
    · by_cases hl : j = lo
      · subst hl
        have : ¬ (j + 1 ≤ j) := by omega
        simp only [this, decide_false, Bool.false_and, le_refl, decide_true, Bool.true_and,
          show j < j + (k + 1) by omega]
        by_cases c : act j = true
        · simp only [c, if_true, Bool.false_eq_true, if_false]
          obtain ⟨fl, sd, hx, st⟩ := hb j r e c
          rw [hx]
          exact readElem_writeElem_self (h := ({ r with ar := { r.ar with aflags := fl, seed := sd } } : Hart)) (n := n)
            ⟨(e.groupIn g).inside, g.width, (e.groupIn g).rot⟩ (val j)
            (by have := e.layout.regBits; change j * w < n * r.regBits; rw [this]; exact hj)
        · simp [c]
      · have h2 : ¬ (lo ≤ j ∧ j < lo + (k + 1)) := by omega
        have e1 : (decide (lo + 1 ≤ j) && decide (j < lo + 1 + k) && act j) = false := by
          by_contra q
          simp at q
          omega
        have e2 : (decide (lo ≤ j) && decide (j < lo + (k + 1)) && act j) = false := by
          by_contra q
          simp at q
          omega
        rw [e1, e2]
        simp only [Bool.false_eq_true, if_false]
        split
        · rename_i c
          obtain ⟨fl, sd, hx, st⟩ := hb lo r e c
          rw [hx]
          have := readElem_writeElem_ne (h := ({ r with ar := { r.ar with aflags := fl, seed := sd } } : Hart)) (n := n)
            (first := first) (w := w) (i := lo) (j := j) ⟨(e.groupIn g).inside, g.width, (e.groupIn g).rot⟩ (val lo)
            (by have := e.layout.regBits; change lo * w < n * r.regBits; rw [this]; exact hr lo (le_refl lo) (by omega))
            (by have := e.layout.regBits; change j * w < n * r.regBits; rw [this]; exact hj) hl
          rw [this]; rfl
        · rfl

/-- An instruction that is not cut ends at VL. -/
theorem loopEnd_none (h : Hart) : h.loopEnd none = h.vl := rfl

theorem vl_mul_lt {h : Hart} {n w i : Nat} (ok : h.vl ≤ h.vlmax) (hw : w ≤ n * h.sew) (hw0 : 0 < w) (hi : i < h.vl) :
    i * w < n * h.regBits := by
  unfold Hart.regBits
  have : i < h.vlmax := by omega
  calc i * w < h.vlmax * w := Nat.mul_lt_mul_of_pos_right this hw0
    _ ≤ h.vlmax * (n * h.sew) := Nat.mul_le_mul_left _ hw
    _ = n * (h.vlmax * h.sew) := by ring

theorem badGroup_false {h : Hart} {g : Group} (b : h.badGroup g = false) :
    g.first.toNat + g.size ≤ h.nv ∧ g.width ≤ g.size * h.sew := by
  simp only [Hart.badGroup, Bool.or_eq_false_iff, decide_eq_false_iff_not, not_lt] at b
  obtain ⟨⟨⟨b1, b2⟩, b3⟩, b4⟩ := b
  exact ⟨by omega, by omega⟩

/-- The element loop (R216) of an instruction that is not cut and completes: what it leaves in its group's elements. -/
theorem elementLoop_elements {h : Hart} {g : Governing} {first : RegIdx} {n w : Nat} {body : Nat → Hart → Hart}
    {val : Nat → Nat} (ok : h.VectorOk) (b : h.badGroup { first := first, size := n, width := w } = false)
    (hw : w ∣ 128) (hw0 : 0 < w)
    (hb : ∀ i r, InLoop h r first n → h.active g i = true → Writes r (body i r) first w i (val i)) :
    ∃ e o, elementLoop g h none body = .seq o ∧ Observed e o ∧ InLoop (h.setVstart 0) e first n ∧
      Elements h e g first n w val := by
  obtain ⟨b1, b2⟩ := badGroup_false b
  have gi : h.GroupIn first n w := ⟨b1, hw, ok.2⟩
  have rng : ∀ i, h.vstart ≤ i → i < h.vstart + (h.vl - h.vstart) → i * w < n * h.regBits :=
    fun i h1 h2 => vl_mul_lt ok.1 b2 hw0 (by omega)
  set r := forElems (fun i r => if h.active g i then body i r else r) (h.vl - h.vstart) h.vstart h with hr
  have il : InLoop h r first n := forElems_inLoop (fun i r a c => ⟨_, hb i r a c⟩) _ _ _ (InLoop.refl h first n) rng
  have el := forElems_elements gi hb (h.vl - h.vstart) h.vstart h (InLoop.refl h first n) rng
  refine ⟨r.setVstart 0, (r.countVector h g h.vl).setVstart 0, ?_, ?_, ?_, ?_⟩
  · unfold elementLoop
    simp only [loopEnd_none, lt_irrefl, if_false]
    rw [← hr]
  · have := countVector_observed r h g h.vl
    exact ⟨(congrArg (fun x : Hart => x.setVstart 0) this.rest).trans rfl, this.strip, this.period, this.fie, this.ven,
      this.en, this.select, this.pending⟩
  · exact ⟨(congrArg (fun x : Hart => x.setVstart 0) il.rest).trans rfl, il.others, il.sticky⟩
  · intro i hi
    have := el i hi
    rw [← hr] at this
    have e2 : (r.setVstart 0).readElem first w i = r.readElem first w i := rfl
    rw [e2, this]
    by_cases ha : h.active g i = true
    · have : h.vstart ≤ i ∧ i < h.vstart + (h.vl - h.vstart) := by
        simp only [Hart.active, Bool.and_eq_true, decide_eq_true_eq] at ha
        omega
      simp [ha, this]
    · simp [ha]

/-- The same for a loop whose values depend on draws: its frame. -/
theorem elementLoop_inLoop {h : Hart} {g : Governing} {first : RegIdx} {n w : Nat} {body : Nat → Hart → Hart}
    (ok : h.VectorOk) (b : h.badGroup { first := first, size := n, width := w } = false) (hw0 : 0 < w)
    (hb : ∀ i r, InLoop h r first n → h.active g i = true → ∃ x, Writes r (body i r) first w i x) :
    ∃ e o, elementLoop g h none body = .seq o ∧ Observed e o ∧ InLoop (h.setVstart 0) e first n := by
  obtain ⟨b1, b2⟩ := badGroup_false b
  have rng : ∀ i, h.vstart ≤ i → i < h.vstart + (h.vl - h.vstart) → i * w < n * h.regBits :=
    fun i h1 h2 => vl_mul_lt ok.1 b2 hw0 (by omega)
  set r := forElems (fun i r => if h.active g i then body i r else r) (h.vl - h.vstart) h.vstart h with hr
  have il : InLoop h r first n := forElems_inLoop hb _ _ _ (InLoop.refl h first n) rng
  refine ⟨r.setVstart 0, (r.countVector h g h.vl).setVstart 0, ?_, ?_, ?_⟩
  · unfold elementLoop
    simp only [loopEnd_none, lt_irrefl, if_false]
    rw [← hr]
  · have := countVector_observed r h g h.vl
    exact ⟨(congrArg (fun x : Hart => x.setVstart 0) this.rest).trans rfl, this.strip, this.period, this.fie, this.ven,
      this.en, this.select, this.pending⟩
  · exact ⟨(congrArg (fun x : Hart => x.setVstart 0) il.rest).trans rfl, il.others, il.sticky⟩

end Sys2Proof.Machine
end

