-- ==== Sys2Proof/Laws/Memory.lean ====
section
/-! SUPPORT. Every operation that changes memory keeps its canonical form. -/

namespace Sys2Proof.Machine

/-- A loop over elements keeps what each of its turns keeps. -/
theorem forElems_keeps {α : Type} (p : α → Prop) (f : Nat → α → α) (hf : ∀ i x, p x → p (f i x)) (n i : Nat) (x : α)
    (h : p x) : p (forElems f n i x) := by
  induction n generalizing i x with
  | zero => exact h
  | succ n ih => exact ih (i + 1) (f i x) (hf i x h)

/-- A store of bytes or of a half byte keeps the canonical form. -/
theorem Mem.wf_store {m : Mem} (a : Nat) (bs : List Byte) (nibble : Nat) (h : Mem.wf m = true) :
    Mem.wf (m.store a bs nibble) = true := by
  unfold Mem.store
  split
  · exact Mem.wf_writeBytes a bs h
  · cases bs with
    | nil => exact h
    | cons b r => exact Mem.wf_write a _ h

theorem Mem.wf_putImage {m : Mem} (a n x : Nat) (h : Mem.wf m = true) : Mem.wf (m.putImage a n x) = true := by
  unfold Mem.putImage
  split
  · exact Mem.wf_clear a n h
  · exact Mem.wf_writeBytes a _ h

theorem Matrix.wf_write (x : Matrix) (a : Nat) {m : Mem} (h : Mem.wf m = true) : Mem.wf (x.write a m) = true :=
  Mem.wf_foldl _ (fun _ p hm => Mem.wf_putImage (a + p.1) p.2.1 p.2.2 hm) _ h

theorem Matrix.wf_writeShapes (x : Matrix) (a : Nat) {m : Mem} (h : Mem.wf m = true) : Mem.wf (x.writeShapes a m) = true :=
  Mem.wf_foldl _ (fun _ _ hm => Mem.wf_putImage _ _ _ hm) _ h

/-- Laying nibbles over memory keeps the canonical form. -/
theorem Mem.wf_lay {m : Mem} (a : Nat) (bs : List Byte) (mine : Nat → Nat → Bool) (h : Mem.wf m = true) :
    Mem.wf (m.lay a bs mine) = true := by
  refine forElems_keeps (fun x => Mem.wf x = true) _ (fun i x hx => ?_) _ _ _ h
  dsimp only
  split <;> first | exact Mem.wf_write _ _ hx | exact hx

theorem wf_setTouched (f : Nat → Byte) {m : Mem} (ws : List WriteRec) (h : Mem.wf m = true) :
    Mem.wf (setTouched f m ws) = true :=
  Mem.wf_foldl _ (fun _ _ hm => Mem.wf_lay _ _ _ hm) _ h

/-- Clearing the lane slices of a seat keeps the canonical form. -/
theorem State.freshSlices_wf {s : State} (cls : BitVec 2) (core lanes qtr : Nat) (h : Mem.wf s.mem = true) :
    Mem.wf (s.freshSlices cls core lanes qtr).mem = true :=
  Mem.wf_foldl _ (fun _ _ hm => Mem.wf_clear _ _ hm) _ h

/-- Keeping the bytes of sealed extents keeps the canonical form. -/
theorem State.keepSealed_wf (s : State) {m : Mem} (h : Mem.wf m = true) : Mem.wf (s.keepSealed m) = true :=
  Mem.wf_foldl _ (fun _ _ hm => Mem.wf_foldl _ (fun _ c hy => Mem.wf_write c.1 c.2 hy) _ (Mem.wf_clear _ _ hm)) _ h

theorem wf_putContext {m : Mem} (a : Nat) (parts : List (Nat × Nat × Nat)) (h : Mem.wf m = true) :
    Mem.wf (putContext m a parts) = true :=
  Mem.wf_foldl _ (fun _ p hm => Mem.wf_putImage (a + p.1) p.2.1 p.2.2 hm) _ (Mem.wf_clear a recordBytes h)

theorem wf_copyUnsealed (seals : List SealEntry) {m : Mem} (src dst size : Nat) (h : Mem.wf m = true) :
    Mem.wf (copyUnsealed seals m src dst size) = true := by
  refine Mem.wf_foldl _ (fun x e hx => ?_) _ (Mem.wf_copy src dst size h)
  split
  · exact Mem.wf_foldl _ (fun _ c hy => Mem.wf_write c.1 c.2 hy) _ (Mem.wf_clear _ _ hx)
  · exact hx

/-- Bringing the copies of compactions up to date keeps the canonical form. -/
theorem State.recopy_wf (s : State) {m : Mem} (h : Mem.wf m = true) : Mem.wf (s.recopy m) = true := by
  refine Mem.wf_foldl _ (fun x c hx => ?_) _ h
  split
  · split
    · exact hx
    · exact wf_copyUnsealed _ _ _ _ hx
  · exact hx

/-- A compaction's copying keeps the canonical form. -/
theorem State.copyOn_wf {s : State} (ctx : Nat) (c : Compaction) (n : Nat) (h : Mem.wf s.mem = true) :
    Mem.wf (s.copyOn ctx c n).mem = true := wf_copyUnsealed _ _ _ _ h

/-- A write that reaches its home keeps the canonical form. -/
theorem State.storeHome_wf {s : State} (writer : Option Nat) (a : Nat) (bs : List Byte) (nibble : Nat)
    (h : Mem.wf s.mem = true) : Mem.wf (s.storeHome writer a bs nibble).mem = true := by
  simp only [State.storeHome]
  cases s.mirror a with
  | none => exact Mem.wf_store a bs nibble h
  | some b => exact Mem.wf_store b bs nibble (Mem.wf_store a bs nibble h)

/-- Swapping matrix state out keeps the canonical form. -/
theorem State.spill_wf {s : State} (k : Nat) (h : Mem.wf s.mem = true) : Mem.wf (s.spill k).mem = true := by
  unfold State.spill
  split
  · exact h
  · exact State.keepSealed_wf s (Matrix.wf_writeShapes _ _ (Matrix.wf_write _ _ h))

theorem State.unspill_mem (s : State) (k : Nat) : (s.unspill k).mem = s.mem := by
  unfold State.unspill
  split <;> rfl

theorem State.claimMatrix_wf {s : State} (k : Nat) (h : Mem.wf s.mem = true) : Mem.wf (s.claimMatrix k).mem = true := by
  unfold State.claimMatrix
  dsimp only
  split
  · split
    · exact h
    · simpa [State.unspill_mem] using State.spill_wf _ h
  · simpa [State.unspill_mem] using h

end Sys2Proof.Machine
end

