-- ==== Sys2Proof/Laws/PerInstr.lean ====
section
/-! SUPPORT. What holds of every instruction as syntax, one lemma per constructor: the word that the encoder gives is allocated
(Table 4.12, order 1): its MAJ and function, or its HOPs, stand in the opcode map. -/

namespace Sys2Proof.Laws

/-- The check of order 1 lets any field check through: what is allocated is not refused as unallocated. -/
theorem decodeFields_allocated {α : Type} (op : α → Instr) (x : Option α) :
    decodeFields (some op) x ≠ .error .unallocated := by
  cases x with
  | none => simp [decodeFields]
  | some f => simp only [decodeFields, checked]; split <;> simp

/-- An allocated MAJ is no hint. -/
theorem format_noHint {maj : Nat} {fmt : Format} (h : formatOf maj = some fmt) : ¬ 0x7C ≤ maj := by
  intro c
  simp only [formatOf, beq_iff_eq, Bool.or_eq_true, Bool.and_eq_true, decide_eq_true_eq] at h
  rw [if_neg (by omega), if_neg (by omega), if_neg (by omega), if_neg (by omega), if_neg (by omega)] at h
  cases h

/-- The bits of a word of format R (Tables 4.1 to 4.6a), place by place. -/
theorem packR_bit (maj : BitVec 7) (fn : BitVec 7) (f : RFields) (i : Nat) : (packR maj fn f).getLsbD i =
    BitVec.getLsbD (BitVec.ofBool false ++ maj ++ f.d ++ f.a ++ f.b ++ f.c ++ BitVec.ofBool f.masked ++ f.mr ++
      BitVec.ofBool f.xa ++ BitVec.ofBool f.xb ++ BitVec.ofBool f.gd ++ BitVec.ofNat 4 f.et.code ++ f.gm ++ fn ++
      BitVec.ofNat 3 f.rm.code ++ BitVec.ofBool f.sat ++ f.gs ++ BitVec.ofBool f.aux4 ++ f.aux) i := rfl

theorem packR_plain (maj : BitVec 7) (fn : BitVec 7) (f : RFields) : bitAt (packR maj fn f) 63 = false := by
  rw [bitAt, packR_bit]
  simp only [BitVec.getLsbD_append, -Nat.reduceAdd]
  simp

theorem packR_maj (maj : BitVec 7) (fn : BitVec 7) (f : RFields) : bitsAt (packR maj fn f) 56 7 = maj := by
  ext i hi
  have : i < 7 := hi
  simp only [bitsAt, BitVec.getElem_extractLsb', packR_bit]
  simp only [BitVec.getLsbD_append, -Nat.reduceAdd]
  interval_cases i <;> simp

theorem packR_fn (maj : BitVec 7) (fn : BitVec 7) (f : RFields) : bitsAt (packR maj fn f) 12 7 = fn := by
  ext i hi
  have : i < 7 := hi
  simp only [bitsAt, BitVec.getElem_extractLsb', packR_bit]
  simp only [BitVec.getLsbD_append, -Nat.reduceAdd]
  interval_cases i <;> simp

theorem packR_allocated {maj : BitVec 7} {fn : BitVec 7} {op : RFields → Instr} (f : RFields)
    (hf : formatOf maj.toNat = some .r) (ho : opcodeR maj.toNat fn.toNat = some op) :
    decodeWord (packR maj fn f) ≠ .error .unallocated := by
  have h := format_noHint hf
  simp only [decodeWord, packR_plain, packR_maj, packR_fn, h, hf, ho, if_false, Bool.false_eq_true]
  exact decodeFields_allocated op _

/-- The bits of a word of format I (Tables 4.1 to 4.6a), place by place. -/
theorem packI_bit (maj : BitVec 7) (fn : BitVec 4) (f : IFields) (i : Nat) : (packI maj fn f).getLsbD i =
    BitVec.getLsbD (BitVec.ofBool false ++ maj ++ f.d ++ f.a ++ fn ++ (0 : BitVec 8) ++ f.imm) i := rfl

theorem packI_plain (maj : BitVec 7) (fn : BitVec 4) (f : IFields) : bitAt (packI maj fn f) 63 = false := by
  rw [bitAt, packI_bit]
  simp only [BitVec.getLsbD_append, -Nat.reduceAdd]
  simp

theorem packI_maj (maj : BitVec 7) (fn : BitVec 4) (f : IFields) : bitsAt (packI maj fn f) 56 7 = maj := by
  ext i hi
  have : i < 7 := hi
  simp only [bitsAt, BitVec.getElem_extractLsb', packI_bit]
  simp only [BitVec.getLsbD_append, -Nat.reduceAdd]
  interval_cases i <;> simp

theorem packI_fn (maj : BitVec 7) (fn : BitVec 4) (f : IFields) : bitsAt (packI maj fn f) 40 4 = fn := by
  ext i hi
  have : i < 4 := hi
  simp only [bitsAt, BitVec.getElem_extractLsb', packI_bit]
  simp only [BitVec.getLsbD_append, -Nat.reduceAdd]
  interval_cases i <;> simp

theorem packI_allocated {maj : BitVec 7} {fn : BitVec 4} {op : IFields → Instr} (f : IFields)
    (hf : formatOf maj.toNat = some .i) (ho : opcodeI maj.toNat fn.toNat = some op) :
    decodeWord (packI maj fn f) ≠ .error .unallocated := by
  have h := format_noHint hf
  simp only [decodeWord, packI_plain, packI_maj, packI_fn, h, hf, ho, if_false, Bool.false_eq_true]
  exact decodeFields_allocated op _

/-- The bits of a word of format M (Tables 4.1 to 4.6a), place by place. -/
theorem packM_bit (maj : BitVec 7) (fn : BitVec 6) (f : MFields) (i : Nat) : (packM maj fn f).getLsbD i =
    BitVec.getLsbD (BitVec.ofBool false ++ maj ++ f.d ++ f.a ++ f.b ++ fn ++ BitVec.ofBool f.masked ++ f.mr ++
      BitVec.ofBool f.xb ++ BitVec.ofBool f.xd ++ BitVec.ofBool f.gd ++ BitVec.ofNat 4 f.et.code ++ f.gm ++ f.am ++ f.ch ++
      f.gs ++ f.off) i := rfl

theorem packM_plain (maj : BitVec 7) (fn : BitVec 6) (f : MFields) : bitAt (packM maj fn f) 63 = false := by
  rw [bitAt, packM_bit]
  simp only [BitVec.getLsbD_append, -Nat.reduceAdd]
  simp

theorem packM_maj (maj : BitVec 7) (fn : BitVec 6) (f : MFields) : bitsAt (packM maj fn f) 56 7 = maj := by
  ext i hi
  have : i < 7 := hi
  simp only [bitsAt, BitVec.getElem_extractLsb', packM_bit]
  simp only [BitVec.getLsbD_append, -Nat.reduceAdd]
  interval_cases i <;> simp

theorem packM_fn (maj : BitVec 7) (fn : BitVec 6) (f : MFields) : bitsAt (packM maj fn f) 32 6 = fn := by
  ext i hi
  have : i < 6 := hi
  simp only [bitsAt, BitVec.getElem_extractLsb', packM_bit]
  simp only [BitVec.getLsbD_append, -Nat.reduceAdd]
  interval_cases i <;> simp

theorem packM_allocated {maj : BitVec 7} {fn : BitVec 6} {op : MFields → Instr} (f : MFields)
    (hf : formatOf maj.toNat = some .m) (ho : opcodeM maj.toNat fn.toNat = some op) :
    decodeWord (packM maj fn f) ≠ .error .unallocated := by
  have h := format_noHint hf
  simp only [decodeWord, packM_plain, packM_maj, packM_fn, h, hf, ho, if_false, Bool.false_eq_true]
  exact decodeFields_allocated op _

/-- The bits of a word of format J (Tables 4.1 to 4.6a), place by place. -/
theorem packJ_bit (maj : BitVec 7) (fn : BitVec 4) (f : JFields) (i : Nat) : (packJ maj fn f).getLsbD i =
    BitVec.getLsbD (BitVec.ofBool false ++ maj ++ f.d ++ f.a ++ f.b ++ (0 : BitVec 2) ++ fn ++ f.off) i := rfl

theorem packJ_plain (maj : BitVec 7) (fn : BitVec 4) (f : JFields) : bitAt (packJ maj fn f) 63 = false := by
  rw [bitAt, packJ_bit]
  simp only [BitVec.getLsbD_append, -Nat.reduceAdd]
  simp

theorem packJ_maj (maj : BitVec 7) (fn : BitVec 4) (f : JFields) : bitsAt (packJ maj fn f) 56 7 = maj := by
  ext i hi
  have : i < 7 := hi
  simp only [bitsAt, BitVec.getElem_extractLsb', packJ_bit]
  simp only [BitVec.getLsbD_append, -Nat.reduceAdd]
  interval_cases i <;> simp

theorem packJ_fn (maj : BitVec 7) (fn : BitVec 4) (f : JFields) : bitsAt (packJ maj fn f) 32 4 = fn := by
  ext i hi
  have : i < 4 := hi
  simp only [bitsAt, BitVec.getElem_extractLsb', packJ_bit]
  simp only [BitVec.getLsbD_append, -Nat.reduceAdd]
  interval_cases i <;> simp

theorem packJ_allocated {maj : BitVec 7} {fn : BitVec 4} {op : JFields → Instr} (f : JFields)
    (hf : formatOf maj.toNat = some .j) (ho : opcodeJ maj.toNat fn.toNat = some op) :
    decodeWord (packJ maj fn f) ≠ .error .unallocated := by
  have h := format_noHint hf
  simp only [decodeWord, packJ_plain, packJ_maj, packJ_fn, h, hf, ho, if_false, Bool.false_eq_true]
  exact decodeFields_allocated op _

/-- The bits of a word of format X (Tables 4.1 to 4.6a), place by place. -/
theorem packX_bit (maj : BitVec 7) (fn : BitVec 8) (f : XFields) (i : Nat) : (packX maj fn f).getLsbD i =
    BitVec.getLsbD (BitVec.ofBool false ++ maj ++ f.d ++ f.a ++ f.b ++ f.c ++ fn ++ f.sc ++ BitVec.ofBool f.acq ++
      BitVec.ofBool f.rel ++ BitVec.ofBool f.masked ++ f.imm) i := rfl

theorem packX_plain (maj : BitVec 7) (fn : BitVec 8) (f : XFields) : bitAt (packX maj fn f) 63 = false := by
  rw [bitAt, packX_bit]
  simp only [BitVec.getLsbD_append, -Nat.reduceAdd]
  simp

theorem packX_maj (maj : BitVec 7) (fn : BitVec 8) (f : XFields) : bitsAt (packX maj fn f) 56 7 = maj := by
  ext i hi
  have : i < 7 := hi
  simp only [bitsAt, BitVec.getElem_extractLsb', packX_bit]
  simp only [BitVec.getLsbD_append, -Nat.reduceAdd]
  interval_cases i <;> simp

theorem packX_fn (maj : BitVec 7) (fn : BitVec 8) (f : XFields) : bitsAt (packX maj fn f) 24 8 = fn := by
  ext i hi
  have : i < 8 := hi
  simp only [bitsAt, BitVec.getElem_extractLsb', packX_bit]
  simp only [BitVec.getLsbD_append, -Nat.reduceAdd]
  interval_cases i <;> simp

theorem packX_allocated {maj : BitVec 7} {fn : BitVec 8} {op : XFields → Instr} (f : XFields)
    (hf : formatOf maj.toNat = some .x) (ho : opcodeX maj.toNat fn.toNat = some op) :
    decodeWord (packX maj fn f) ≠ .error .unallocated := by
  have h := format_noHint hf
  simp only [decodeWord, packX_plain, packX_maj, packX_fn, h, hf, ho, if_false, Bool.false_eq_true]
  exact decodeFields_allocated op _

/-- The bits of a paired word (Table 4.9), place by place. -/
theorem packPaired_bit (x y : Slot) (i : Nat) : (packPaired x y).getLsbD i =
    BitVec.getLsbD (BitVec.ofBool true ++ packSlot x ++ packSlot y ++ BitVec.ofBool false) i := rfl

theorem packPaired_paired (x y : Slot) : bitAt (packPaired x y) 63 = true := by
  rw [bitAt, packPaired_bit]
  simp only [BitVec.getLsbD_append, -Nat.reduceAdd]
  simp

theorem packPaired_zero (x y : Slot) : bitAt (packPaired x y) 0 = false := by
  rw [bitAt, packPaired_bit]
  simp only [BitVec.getLsbD_append, -Nat.reduceAdd]
  simp

theorem packPaired_slot0 (x y : Slot) : bitsAt (packPaired x y) 32 31 = packSlot x := by
  ext i hi
  have : i < 31 := hi
  simp only [bitsAt, BitVec.getElem_extractLsb', packPaired_bit]
  simp only [BitVec.getLsbD_append, -Nat.reduceAdd]
  interval_cases i <;> simp

theorem packPaired_slot1 (x y : Slot) : bitsAt (packPaired x y) 1 31 = packSlot y := by
  ext i hi
  have : i < 31 := hi
  simp only [bitsAt, BitVec.getElem_extractLsb', packPaired_bit]
  simp only [BitVec.getLsbD_append, -Nat.reduceAdd]
  interval_cases i <;> simp

/-- A slot's class bit and HOP (Table 4.10). -/
theorem packSlot_scalar (hop : ScalarHop) (d a : RegIdx) (imm : Option (BitVec 11)) :
    (packSlot (.scalar hop d a imm)).getLsbD 30 = false ∧ (packSlot (.scalar hop d a imm)).extractLsb' 24 6 = hop.code := by
  have h (b : Bool) (z : BitVec 11) (i : Nat) : BitVec.getLsbD (w := 31) (BitVec.ofBool false ++ hop.code ++ d ++ a ++
      BitVec.ofBool b ++ z) i = BitVec.getLsbD (BitVec.ofBool false ++ hop.code ++ d ++ a ++ BitVec.ofBool b ++ z) i := rfl
  constructor
  · cases imm <;> simp only [packSlot, h] <;> simp only [BitVec.getLsbD_append, -Nat.reduceAdd] <;> simp
  · ext i hi
    have : i < 6 := hi
    cases imm <;> simp only [packSlot, BitVec.getElem_extractLsb', h] <;>
      simp only [BitVec.getLsbD_append, -Nat.reduceAdd] <;> interval_cases i <;> simp

theorem packSlot_vector (hop : VectorHop) (d a : RegIdx) (et : ElemType) (mk xa : Bool) :
    (packSlot (.vector hop d a et mk xa)).getLsbD 30 = true ∧
    (packSlot (.vector hop d a et mk xa)).extractLsb' 24 6 = hop.code := by
  have h (i : Nat) : BitVec.getLsbD (w := 31) (BitVec.ofBool true ++ hop.code ++ d ++ a ++ BitVec.ofNat 4 et.code ++
      BitVec.ofBool mk ++ BitVec.ofBool xa ++ (0 : BitVec 6)) i = BitVec.getLsbD (BitVec.ofBool true ++ hop.code ++ d ++ a ++
      BitVec.ofNat 4 et.code ++ BitVec.ofBool mk ++ BitVec.ofBool xa ++ (0 : BitVec 6)) i := rfl
  constructor
  · simp only [packSlot, h]
    simp only [BitVec.getLsbD_append, -Nat.reduceAdd]
    simp
  · ext i hi
    have : i < 6 := hi
    simp only [packSlot, BitVec.getElem_extractLsb', h]
    simp only [BitVec.getLsbD_append, -Nat.reduceAdd]
    interval_cases i <;> simp

theorem scalarHopOf_code (hop : ScalarHop) : scalarHopOf hop.code.toNat = some hop := by cases hop <;> rfl

theorem vectorHopOf_code (hop : VectorHop) : vectorHopOf hop.code.toNat = some hop := by cases hop <;> rfl

theorem decodeSlot_allocated (x : Slot) : decodeSlot (packSlot x) ≠ .error .unallocated := by
  cases x with
  | scalar hop d a imm =>
    have h := packSlot_scalar hop d a imm
    simp only [decodeSlot, h, scalarHopOf_code, Bool.false_eq_true, if_false]
    split
    · simp
    · split <;> simp
  | vector hop d a et mk xa =>
    have h := packSlot_vector hop d a et mk xa
    simp only [decodeSlot, h, vectorHopOf_code, if_true]
    split <;> simp

theorem packPaired_allocated (x y : Slot) : decodeWord (packPaired x y) ≠ .error .unallocated := by
  have hx := decodeSlot_allocated x
  have hy := decodeSlot_allocated y
  simp only [decodeWord, packPaired_paired, decodePaired, packPaired_zero, packPaired_slot0, packPaired_slot1, if_true,
    Bool.false_eq_true, if_false]
  split
  · contradiction
  · contradiction
  · simp only [checked]; split <;> simp
  · simp

/-- The bits of a hint (R118), place by place. -/
theorem packHint_bit (h : BitVec 2) (b : BitVec 56) (i : Nat) : (packHint h b).getLsbD i =
    BitVec.getLsbD (BitVec.ofBool false ++ (31 : BitVec 5) ++ h ++ b) i := rfl

theorem packHint_maj (h : BitVec 2) (b : BitVec 56) (x : BitVec 7)
    (e : ∀ i, i < 7 → x.getLsbD i = if i < 2 then h.getLsbD i else (31 : BitVec 5).getLsbD (i - 2)) :
    bitsAt (packHint h b) 56 7 = x := by
  apply BitVec.eq_of_getLsbD_eq
  intro i t
  rw [e i t]
  simp only [bitsAt, BitVec.getLsbD_extractLsb', packHint_bit]
  simp only [BitVec.getLsbD_append, -Nat.reduceAdd]
  interval_cases i <;> simp

theorem packHint_allocated (h : BitVec 2) (b : BitVec 56) : decodeWord (packHint h b) ≠ .error .unallocated := by
  have p : bitAt (packHint h b) 63 = false := by
    rw [bitAt, packHint_bit]
    simp only [BitVec.getLsbD_append, -Nat.reduceAdd]
    simp
  have m : 0x7C ≤ (bitsAt (packHint h b) 56 7).toNat := by
    have c : h = 0 ∨ h = 1 ∨ h = 2 ∨ h = 3 := (by decide : ∀ x : BitVec 2, x = 0 ∨ x = 1 ∨ x = 2 ∨ x = 3) h
    have e (x : BitVec 7) (g : 0x7C ≤ x.toNat) (hx : bitsAt (packHint h b) 56 7 = x) :
        0x7C ≤ (bitsAt (packHint h b) 56 7).toNat := by rw [hx]; exact g
    rcases c with rfl | rfl | rfl | rfl
    · exact e 0x7C (by decide) (packHint_maj 0 b 0x7C (by decide))
    · exact e 0x7D (by decide) (packHint_maj 1 b 0x7D (by decide))
    · exact e 0x7E (by decide) (packHint_maj 2 b 0x7E (by decide))
    · exact e 0x7F (by decide) (packHint_maj 3 b 0x7F (by decide))
  simp only [decodeWord, p, m, if_true, Bool.false_eq_true, if_false]
  simp

namespace Encoding

/-- The word that the encoder gives an instruction, if it gives one, passes the first check of Table 4.12. -/
def Statement (i : Instr) : Prop := ∀ w, encode i = some w → decodeWord w ≠ .error .unallocated

theorem add (f : RFields) : Statement (.add f) := by
  rintro w ⟨⟩
  exact packR_allocated f rfl rfl

theorem sub (f : RFields) : Statement (.sub f) := by
  rintro w ⟨⟩
  exact packR_allocated f rfl rfl

theorem and (f : RFields) : Statement (.and f) := by
  rintro w ⟨⟩
  exact packR_allocated f rfl rfl

theorem or (f : RFields) : Statement (.or f) := by
  rintro w ⟨⟩
  exact packR_allocated f rfl rfl

theorem xor (f : RFields) : Statement (.xor f) := by
  rintro w ⟨⟩
  exact packR_allocated f rfl rfl

theorem sll (f : RFields) : Statement (.sll f) := by
  rintro w ⟨⟩
  exact packR_allocated f rfl rfl

theorem srl (f : RFields) : Statement (.srl f) := by
  rintro w ⟨⟩
  exact packR_allocated f rfl rfl

theorem sra (f : RFields) : Statement (.sra f) := by
  rintro w ⟨⟩
  exact packR_allocated f rfl rfl

theorem slt (f : RFields) : Statement (.slt f) := by
  rintro w ⟨⟩
  exact packR_allocated f rfl rfl

theorem sltn (f : RFields) : Statement (.sltn f) := by
  rintro w ⟨⟩
  exact packR_allocated f rfl rfl

theorem min (f : RFields) : Statement (.min f) := by
  rintro w ⟨⟩
  exact packR_allocated f rfl rfl

theorem max (f : RFields) : Statement (.max f) := by
  rintro w ⟨⟩
  exact packR_allocated f rfl rfl

theorem minn (f : RFields) : Statement (.minn f) := by
  rintro w ⟨⟩
  exact packR_allocated f rfl rfl

theorem maxn (f : RFields) : Statement (.maxn f) := by
  rintro w ⟨⟩
  exact packR_allocated f rfl rfl

theorem mul (f : RFields) : Statement (.mul f) := by
  rintro w ⟨⟩
  exact packR_allocated f rfl rfl

theorem mulh (f : RFields) : Statement (.mulh f) := by
  rintro w ⟨⟩
  exact packR_allocated f rfl rfl

theorem mulhn (f : RFields) : Statement (.mulhn f) := by
  rintro w ⟨⟩
  exact packR_allocated f rfl rfl

theorem clz (f : RFields) : Statement (.clz f) := by
  rintro w ⟨⟩
  exact packR_allocated f rfl rfl

theorem ctz (f : RFields) : Statement (.ctz f) := by
  rintro w ⟨⟩
  exact packR_allocated f rfl rfl

theorem popc (f : RFields) : Statement (.popc f) := by
  rintro w ⟨⟩
  exact packR_allocated f rfl rfl

theorem brev (f : RFields) : Statement (.brev f) := by
  rintro w ⟨⟩
  exact packR_allocated f rfl rfl

theorem sel (f : RFields) : Statement (.sel f) := by
  rintro w ⟨⟩
  exact packR_allocated f rfl rfl

theorem div (f : RFields) : Statement (.div f) := by
  rintro w ⟨⟩
  exact packR_allocated f rfl rfl

theorem rem (f : RFields) : Statement (.rem f) := by
  rintro w ⟨⟩
  exact packR_allocated f rfl rfl

theorem divn (f : RFields) : Statement (.divn f) := by
  rintro w ⟨⟩
  exact packR_allocated f rfl rfl

theorem remn (f : RFields) : Statement (.remn f) := by
  rintro w ⟨⟩
  exact packR_allocated f rfl rfl

theorem addi (f : IFields) : Statement (.addi f) := by
  rintro w ⟨⟩
  exact packI_allocated f rfl rfl

theorem andi (f : IFields) : Statement (.andi f) := by
  rintro w ⟨⟩
  exact packI_allocated f rfl rfl

theorem ori (f : IFields) : Statement (.ori f) := by
  rintro w ⟨⟩
  exact packI_allocated f rfl rfl

theorem xori (f : IFields) : Statement (.xori f) := by
  rintro w ⟨⟩
  exact packI_allocated f rfl rfl

theorem slli (f : IFields) : Statement (.slli f) := by
  rintro w ⟨⟩
  exact packI_allocated f rfl rfl

theorem srli (f : IFields) : Statement (.srli f) := by
  rintro w ⟨⟩
  exact packI_allocated f rfl rfl

theorem srai (f : IFields) : Statement (.srai f) := by
  rintro w ⟨⟩
  exact packI_allocated f rfl rfl

theorem slti (f : IFields) : Statement (.slti f) := by
  rintro w ⟨⟩
  exact packI_allocated f rfl rfl

theorem li (f : IFields) : Statement (.li f) := by
  rintro w ⟨⟩
  exact packI_allocated f rfl rfl

theorem lih (f : IFields) : Statement (.lih f) := by
  rintro w ⟨⟩
  exact packI_allocated f rfl rfl

theorem beq (f : JFields) : Statement (.beq f) := by
  rintro w ⟨⟩
  exact packJ_allocated f rfl rfl

theorem bne (f : JFields) : Statement (.bne f) := by
  rintro w ⟨⟩
  exact packJ_allocated f rfl rfl

theorem blt (f : JFields) : Statement (.blt f) := by
  rintro w ⟨⟩
  exact packJ_allocated f rfl rfl

theorem bge (f : JFields) : Statement (.bge f) := by
  rintro w ⟨⟩
  exact packJ_allocated f rfl rfl

theorem bltn (f : JFields) : Statement (.bltn f) := by
  rintro w ⟨⟩
  exact packJ_allocated f rfl rfl

theorem bgen (f : JFields) : Statement (.bgen f) := by
  rintro w ⟨⟩
  exact packJ_allocated f rfl rfl

theorem jmp (f : JFields) : Statement (.jmp f) := by
  rintro w ⟨⟩
  exact packJ_allocated f rfl rfl

theorem jal (f : JFields) : Statement (.jal f) := by
  rintro w ⟨⟩
  exact packJ_allocated f rfl rfl

theorem jr (f : JFields) : Statement (.jr f) := by
  rintro w ⟨⟩
  exact packJ_allocated f rfl rfl

theorem ret (f : JFields) : Statement (.ret f) := by
  rintro w ⟨⟩
  exact packJ_allocated f rfl rfl

theorem loop (f : JFields) : Statement (.loop f) := by
  rintro w ⟨⟩
  exact packJ_allocated f rfl rfl

theorem loopp (f : JFields) : Statement (.loopp f) := by
  rintro w ⟨⟩
  exact packJ_allocated f rfl rfl

theorem lcnt (f : JFields) : Statement (.lcnt f) := by
  rintro w ⟨⟩
  exact packJ_allocated f rfl rfl

theorem bcq (f : JFields) : Statement (.bcq f) := by
  rintro w ⟨⟩
  exact packJ_allocated f rfl rfl

theorem vdecl (f : RFields) : Statement (.vdecl f) := by
  rintro w ⟨⟩
  exact packR_allocated f rfl rfl

theorem vsetl (f : RFields) : Statement (.vsetl f) := by
  rintro w ⟨⟩
  exact packR_allocated f rfl rfl

theorem vsetlq (f : RFields) : Statement (.vsetlq f) := by
  rintro w ⟨⟩
  exact packR_allocated f rfl rfl

theorem vgetmax (f : RFields) : Statement (.vgetmax f) := by
  rintro w ⟨⟩
  exact packR_allocated f rfl rfl

theorem lqpop (f : RFields) : Statement (.lqpop f) := by
  rintro w ⟨⟩
  exact packR_allocated f rfl rfl

theorem cqpop (f : RFields) : Statement (.cqpop f) := by
  rintro w ⟨⟩
  exact packR_allocated f rfl rfl

theorem vadd (f : RFields) : Statement (.vadd f) := by
  rintro w ⟨⟩
  exact packR_allocated f rfl rfl

theorem vsub (f : RFields) : Statement (.vsub f) := by
  rintro w ⟨⟩
  exact packR_allocated f rfl rfl

theorem vmul (f : RFields) : Statement (.vmul f) := by
  rintro w ⟨⟩
  exact packR_allocated f rfl rfl

theorem vmulh (f : RFields) : Statement (.vmulh f) := by
  rintro w ⟨⟩
  exact packR_allocated f rfl rfl

theorem vmac (f : RFields) : Statement (.vmac f) := by
  rintro w ⟨⟩
  exact packR_allocated f rfl rfl

theorem vwmac (f : RFields) : Statement (.vwmac f) := by
  rintro w ⟨⟩
  exact packR_allocated f rfl rfl

theorem vwmul (f : RFields) : Statement (.vwmul f) := by
  rintro w ⟨⟩
  exact packR_allocated f rfl rfl

theorem vadds (f : RFields) : Statement (.vadds f) := by
  rintro w ⟨⟩
  exact packR_allocated f rfl rfl

theorem vsubs (f : RFields) : Statement (.vsubs f) := by
  rintro w ⟨⟩
  exact packR_allocated f rfl rfl

theorem vmin (f : RFields) : Statement (.vmin f) := by
  rintro w ⟨⟩
  exact packR_allocated f rfl rfl

theorem vmax (f : RFields) : Statement (.vmax f) := by
  rintro w ⟨⟩
  exact packR_allocated f rfl rfl

theorem vabs (f : RFields) : Statement (.vabs f) := by
  rintro w ⟨⟩
  exact packR_allocated f rfl rfl

theorem vneg (f : RFields) : Statement (.vneg f) := by
  rintro w ⟨⟩
  exact packR_allocated f rfl rfl

theorem vand (f : RFields) : Statement (.vand f) := by
  rintro w ⟨⟩
  exact packR_allocated f rfl rfl

theorem vor (f : RFields) : Statement (.vor f) := by
  rintro w ⟨⟩
  exact packR_allocated f rfl rfl

theorem vxor (f : RFields) : Statement (.vxor f) := by
  rintro w ⟨⟩
  exact packR_allocated f rfl rfl

theorem vsll (f : RFields) : Statement (.vsll f) := by
  rintro w ⟨⟩
  exact packR_allocated f rfl rfl

theorem vsrl (f : RFields) : Statement (.vsrl f) := by
  rintro w ⟨⟩
  exact packR_allocated f rfl rfl

theorem vsra (f : RFields) : Statement (.vsra f) := by
  rintro w ⟨⟩
  exact packR_allocated f rfl rfl

theorem vclz (f : RFields) : Statement (.vclz f) := by
  rintro w ⟨⟩
  exact packR_allocated f rfl rfl

theorem vpopc (f : RFields) : Statement (.vpopc f) := by
  rintro w ⟨⟩
  exact packR_allocated f rfl rfl

theorem vsel (f : RFields) : Statement (.vsel f) := by
  rintro w ⟨⟩
  exact packR_allocated f rfl rfl

theorem vmv (f : RFields) : Statement (.vmv f) := by
  rintro w ⟨⟩
  exact packR_allocated f rfl rfl

theorem vbcast (f : RFields) : Statement (.vbcast f) := by
  rintro w ⟨⟩
  exact packR_allocated f rfl rfl

theorem vid (f : RFields) : Statement (.vid f) := by
  rintro w ⟨⟩
  exact packR_allocated f rfl rfl

theorem vcmp (f : RFields) : Statement (.vcmp f) := by
  rintro w ⟨⟩
  exact packR_allocated f rfl rfl

theorem vdiv (f : RFields) : Statement (.vdiv f) := by
  rintro w ⟨⟩
  exact packR_allocated f rfl rfl

theorem vrem (f : RFields) : Statement (.vrem f) := by
  rintro w ⟨⟩
  exact packR_allocated f rfl rfl

theorem vfadd (f : RFields) : Statement (.vfadd f) := by
  rintro w ⟨⟩
  exact packR_allocated f rfl rfl

theorem vfsub (f : RFields) : Statement (.vfsub f) := by
  rintro w ⟨⟩
  exact packR_allocated f rfl rfl

theorem vfmul (f : RFields) : Statement (.vfmul f) := by
  rintro w ⟨⟩
  exact packR_allocated f rfl rfl

theorem vfma (f : RFields) : Statement (.vfma f) := by
  rintro w ⟨⟩
  exact packR_allocated f rfl rfl

theorem vfms (f : RFields) : Statement (.vfms f) := by
  rintro w ⟨⟩
  exact packR_allocated f rfl rfl

theorem vfnma (f : RFields) : Statement (.vfnma f) := by
  rintro w ⟨⟩
  exact packR_allocated f rfl rfl

theorem vfmin (f : RFields) : Statement (.vfmin f) := by
  rintro w ⟨⟩
  exact packR_allocated f rfl rfl

theorem vfmax (f : RFields) : Statement (.vfmax f) := by
  rintro w ⟨⟩
  exact packR_allocated f rfl rfl

theorem vfcmp (f : RFields) : Statement (.vfcmp f) := by
  rintro w ⟨⟩
  exact packR_allocated f rfl rfl

theorem vfclass (f : RFields) : Statement (.vfclass f) := by
  rintro w ⟨⟩
  exact packR_allocated f rfl rfl

theorem vfabs (f : RFields) : Statement (.vfabs f) := by
  rintro w ⟨⟩
  exact packR_allocated f rfl rfl

theorem vfneg (f : RFields) : Statement (.vfneg f) := by
  rintro w ⟨⟩
  exact packR_allocated f rfl rfl

theorem vfdiv (f : RFields) : Statement (.vfdiv f) := by
  rintro w ⟨⟩
  exact packR_allocated f rfl rfl

theorem vfsqrt (f : RFields) : Statement (.vfsqrt f) := by
  rintro w ⟨⟩
  exact packR_allocated f rfl rfl

theorem vfrcp (f : RFields) : Statement (.vfrcp f) := by
  rintro w ⟨⟩
  exact packR_allocated f rfl rfl

theorem vfrsq (f : RFields) : Statement (.vfrsq f) := by
  rintro w ⟨⟩
  exact packR_allocated f rfl rfl

theorem vexp2 (f : RFields) : Statement (.vexp2 f) := by
  rintro w ⟨⟩
  exact packR_allocated f rfl rfl

theorem vlog2 (f : RFields) : Statement (.vlog2 f) := by
  rintro w ⟨⟩
  exact packR_allocated f rfl rfl

theorem vexp (f : RFields) : Statement (.vexp f) := by
  rintro w ⟨⟩
  exact packR_allocated f rfl rfl

theorem vlog (f : RFields) : Statement (.vlog f) := by
  rintro w ⟨⟩
  exact packR_allocated f rfl rfl

theorem vtanh (f : RFields) : Statement (.vtanh f) := by
  rintro w ⟨⟩
  exact packR_allocated f rfl rfl

theorem vcvt (f : RFields) : Statement (.vcvt f) := by
  rintro w ⟨⟩
  exact packR_allocated f rfl rfl

theorem vquant (f : RFields) : Statement (.vquant f) := by
  rintro w ⟨⟩
  exact packR_allocated f rfl rfl

theorem vdeq (f : RFields) : Statement (.vdeq f) := by
  rintro w ⟨⟩
  exact packR_allocated f rfl rfl

theorem vmand (f : RFields) : Statement (.vmand f) := by
  rintro w ⟨⟩
  exact packR_allocated f rfl rfl

theorem vmor (f : RFields) : Statement (.vmor f) := by
  rintro w ⟨⟩
  exact packR_allocated f rfl rfl

theorem vmxor (f : RFields) : Statement (.vmxor f) := by
  rintro w ⟨⟩
  exact packR_allocated f rfl rfl

theorem vmnot (f : RFields) : Statement (.vmnot f) := by
  rintro w ⟨⟩
  exact packR_allocated f rfl rfl

theorem vmpre (f : RFields) : Statement (.vmpre f) := by
  rintro w ⟨⟩
  exact packR_allocated f rfl rfl

theorem vminc (f : RFields) : Statement (.vminc f) := by
  rintro w ⟨⟩
  exact packR_allocated f rfl rfl

theorem vmone (f : RFields) : Statement (.vmone f) := by
  rintro w ⟨⟩
  exact packR_allocated f rfl rfl

theorem vmpop (f : RFields) : Statement (.vmpop f) := by
  rintro w ⟨⟩
  exact packR_allocated f rfl rfl

theorem vmfirst (f : RFields) : Statement (.vmfirst f) := by
  rintro w ⟨⟩
  exact packR_allocated f rfl rfl

theorem vanyq (f : RFields) : Statement (.vanyq f) := by
  rintro w ⟨⟩
  exact packR_allocated f rfl rfl

theorem vallq (f : RFields) : Statement (.vallq f) := by
  rintro w ⟨⟩
  exact packR_allocated f rfl rfl

theorem vmset (f : RFields) : Statement (.vmset f) := by
  rintro w ⟨⟩
  exact packR_allocated f rfl rfl

theorem vmclr (f : RFields) : Statement (.vmclr f) := by
  rintro w ⟨⟩
  exact packR_allocated f rfl rfl

theorem vslideup (f : RFields) : Statement (.vslideup f) := by
  rintro w ⟨⟩
  exact packR_allocated f rfl rfl

theorem vslidedn (f : RFields) : Statement (.vslidedn f) := by
  rintro w ⟨⟩
  exact packR_allocated f rfl rfl

theorem vperm (f : RFields) : Statement (.vperm f) := by
  rintro w ⟨⟩
  exact packR_allocated f rfl rfl

theorem vpushl (f : RFields) : Statement (.vpushl f) := by
  rintro w ⟨⟩
  exact packR_allocated f rfl rfl

theorem vcompr (f : RFields) : Statement (.vcompr f) := by
  rintro w ⟨⟩
  exact packR_allocated f rfl rfl

theorem vexpnd (f : RFields) : Statement (.vexpnd f) := by
  rintro w ⟨⟩
  exact packR_allocated f rfl rfl

theorem vrec (f : RFields) : Statement (.vrec f) := by
  rintro w ⟨⟩
  exact packR_allocated f rfl rfl

theorem vredsum (f : RFields) : Statement (.vredsum f) := by
  rintro w ⟨⟩
  exact packR_allocated f rfl rfl

theorem vredmax (f : RFields) : Statement (.vredmax f) := by
  rintro w ⟨⟩
  exact packR_allocated f rfl rfl

theorem vredmin (f : RFields) : Statement (.vredmin f) := by
  rintro w ⟨⟩
  exact packR_allocated f rfl rfl

theorem vredand (f : RFields) : Statement (.vredand f) := by
  rintro w ⟨⟩
  exact packR_allocated f rfl rfl

theorem vredor (f : RFields) : Statement (.vredor f) := by
  rintro w ⟨⟩
  exact packR_allocated f rfl rfl

theorem vscan (f : RFields) : Statement (.vscan f) := by
  rintro w ⟨⟩
  exact packR_allocated f rfl rfl

theorem vbsort (f : RFields) : Statement (.vbsort f) := by
  rintro w ⟨⟩
  exact packR_allocated f rfl rfl

theorem vbmerge (f : RFields) : Statement (.vbmerge f) := by
  rintro w ⟨⟩
  exact packR_allocated f rfl rfl

theorem vtopk (f : RFields) : Statement (.vtopk f) := by
  rintro w ⟨⟩
  exact packR_allocated f rfl rfl

theorem vgtopk (f : RFields) : Statement (.vgtopk f) := by
  rintro w ⟨⟩
  exact packR_allocated f rfl rfl

theorem vsprs (f : RFields) : Statement (.vsprs f) := by
  rintro w ⟨⟩
  exact packR_allocated f rfl rfl

theorem ldb (f : MFields) : Statement (.ldb f) := by
  rintro w ⟨⟩
  exact packM_allocated f rfl rfl

theorem ldh (f : MFields) : Statement (.ldh f) := by
  rintro w ⟨⟩
  exact packM_allocated f rfl rfl

theorem ldw (f : MFields) : Statement (.ldw f) := by
  rintro w ⟨⟩
  exact packM_allocated f rfl rfl

theorem ldd (f : MFields) : Statement (.ldd f) := by
  rintro w ⟨⟩
  exact packM_allocated f rfl rfl

theorem ldbn (f : MFields) : Statement (.ldbn f) := by
  rintro w ⟨⟩
  exact packM_allocated f rfl rfl

theorem ldhn (f : MFields) : Statement (.ldhn f) := by
  rintro w ⟨⟩
  exact packM_allocated f rfl rfl

theorem ldwn (f : MFields) : Statement (.ldwn f) := by
  rintro w ⟨⟩
  exact packM_allocated f rfl rfl

theorem stb (f : MFields) : Statement (.stb f) := by
  rintro w ⟨⟩
  exact packM_allocated f rfl rfl

theorem sth (f : MFields) : Statement (.sth f) := by
  rintro w ⟨⟩
  exact packM_allocated f rfl rfl

theorem stw (f : MFields) : Statement (.stw f) := by
  rintro w ⟨⟩
  exact packM_allocated f rfl rfl

theorem std (f : MFields) : Statement (.std f) := by
  rintro w ⟨⟩
  exact packM_allocated f rfl rfl

theorem vld (f : MFields) : Statement (.vld f) := by
  rintro w ⟨⟩
  exact packM_allocated f rfl rfl

theorem vldff (f : MFields) : Statement (.vldff f) := by
  rintro w ⟨⟩
  exact packM_allocated f rfl rfl

theorem vst (f : MFields) : Statement (.vst f) := by
  rintro w ⟨⟩
  exact packM_allocated f rfl rfl

theorem vrstore (f : MFields) : Statement (.vrstore f) := by
  rintro w ⟨⟩
  exact packM_allocated f rfl rfl

theorem pref (f : MFields) : Statement (.pref f) := by
  rintro w ⟨⟩
  exact packM_allocated f rfl rfl

theorem vpref (f : MFields) : Statement (.vpref f) := by
  rintro w ⟨⟩
  exact packM_allocated f rfl rfl

theorem aadd (f : MFields) : Statement (.aadd f) := by
  rintro w ⟨⟩
  exact packM_allocated f rfl rfl

theorem aand (f : MFields) : Statement (.aand f) := by
  rintro w ⟨⟩
  exact packM_allocated f rfl rfl

theorem aor (f : MFields) : Statement (.aor f) := by
  rintro w ⟨⟩
  exact packM_allocated f rfl rfl

theorem axor (f : MFields) : Statement (.axor f) := by
  rintro w ⟨⟩
  exact packM_allocated f rfl rfl

theorem amin (f : MFields) : Statement (.amin f) := by
  rintro w ⟨⟩
  exact packM_allocated f rfl rfl

theorem amax (f : MFields) : Statement (.amax f) := by
  rintro w ⟨⟩
  exact packM_allocated f rfl rfl

theorem aminn (f : MFields) : Statement (.aminn f) := by
  rintro w ⟨⟩
  exact packM_allocated f rfl rfl

theorem amaxn (f : MFields) : Statement (.amaxn f) := by
  rintro w ⟨⟩
  exact packM_allocated f rfl rfl

theorem axchg (f : MFields) : Statement (.axchg f) := by
  rintro w ⟨⟩
  exact packM_allocated f rfl rfl

theorem acas (f : MFields) : Statement (.acas f) := by
  rintro w ⟨⟩
  exact packM_allocated f rfl rfl

theorem vaadd (f : MFields) : Statement (.vaadd f) := by
  rintro w ⟨⟩
  exact packM_allocated f rfl rfl

theorem vamin (f : MFields) : Statement (.vamin f) := by
  rintro w ⟨⟩
  exact packM_allocated f rfl rfl

theorem vamax (f : MFields) : Statement (.vamax f) := by
  rintro w ⟨⟩
  exact packM_allocated f rfl rfl

theorem phase (f : XFields) : Statement (.phase f) := by
  rintro w ⟨⟩
  exact packX_allocated f rfl rfl

theorem phasea (f : XFields) : Statement (.phasea f) := by
  rintro w ⟨⟩
  exact packX_allocated f rfl rfl

theorem phasew (f : XFields) : Statement (.phasew f) := by
  rintro w ⟨⟩
  exact packX_allocated f rfl rfl

theorem fence (f : XFields) : Statement (.fence f) := by
  rintro w ⟨⟩
  exact packX_allocated f rfl rfl

theorem waitw (f : XFields) : Statement (.waitw f) := by
  rintro w ⟨⟩
  exact packX_allocated f rfl rfl

theorem esub (f : XFields) : Statement (.esub f) := by
  rintro w ⟨⟩
  exact packX_allocated f rfl rfl

theorem ecmd (f : XFields) : Statement (.ecmd f) := by
  rintro w ⟨⟩
  exact packX_allocated f rfl rfl

theorem ewait (f : XFields) : Statement (.ewait f) := by
  rintro w ⟨⟩
  exact packX_allocated f rfl rfl

theorem epoll (f : XFields) : Statement (.epoll f) := by
  rintro w ⟨⟩
  exact packX_allocated f rfl rfl

theorem tload (f : XFields) : Statement (.tload f) := by
  rintro w ⟨⟩
  exact packX_allocated f rfl rfl

theorem tzero (f : XFields) : Statement (.tzero f) := by
  rintro w ⟨⟩
  exact packX_allocated f rfl rfl

theorem mmul (f : XFields) : Statement (.mmul f) := by
  rintro w ⟨⟩
  exact packX_allocated f rfl rfl

theorem mmuls (f : XFields) : Statement (.mmuls f) := by
  rintro w ⟨⟩
  exact packX_allocated f rfl rfl

theorem mdrain (f : XFields) : Statement (.mdrain f) := by
  rintro w ⟨⟩
  exact packX_allocated f rfl rfl

theorem mzero (f : XFields) : Statement (.mzero f) := by
  rintro w ⟨⟩
  exact packX_allocated f rfl rfl

theorem esets (f : XFields) : Statement (.esets f) := by
  rintro w ⟨⟩
  exact packX_allocated f rfl rfl

theorem esetv (f : XFields) : Statement (.esetv f) := by
  rintro w ⟨⟩
  exact packX_allocated f rfl rfl

theorem matrixStateSwap (hart : Nat) : Statement (.matrixStateSwap hart) := by
  rintro w ⟨⟩

theorem xopen (f : XFields) : Statement (.xopen f) := by
  rintro w ⟨⟩
  exact packX_allocated f rfl rfl

theorem xsplit (f : XFields) : Statement (.xsplit f) := by
  rintro w ⟨⟩
  exact packX_allocated f rfl rfl

theorem xsend (f : XFields) : Statement (.xsend f) := by
  rintro w ⟨⟩
  exact packX_allocated f rfl rfl

theorem xsendq (f : XFields) : Statement (.xsendq f) := by
  rintro w ⟨⟩
  exact packX_allocated f rfl rfl

theorem xfloor (f : XFields) : Statement (.xfloor f) := by
  rintro w ⟨⟩
  exact packX_allocated f rfl rfl

theorem xround (f : XFields) : Statement (.xround f) := by
  rintro w ⟨⟩
  exact packX_allocated f rfl rfl

theorem xrecv (f : XFields) : Statement (.xrecv f) := by
  rintro w ⟨⟩
  exact packX_allocated f rfl rfl

theorem xstat (f : XFields) : Statement (.xstat f) := by
  rintro w ⟨⟩
  exact packX_allocated f rfl rfl

theorem xsample (f : XFields) : Statement (.xsample f) := by
  rintro w ⟨⟩
  exact packX_allocated f rfl rfl

theorem xrebal (f : XFields) : Statement (.xrebal f) := by
  rintro w ⟨⟩
  exact packX_allocated f rfl rfl

theorem xclose (f : XFields) : Statement (.xclose f) := by
  rintro w ⟨⟩
  exact packX_allocated f rfl rfl

theorem mergeInputArrival (xid recv : Nat) (pt : MergePt) (input : Nat) : Statement (.mergeInputArrival xid recv pt input) := by
  rintro w ⟨⟩

theorem mergePointEmit (xid recv : Nat) (pt : MergePt) : Statement (.mergePointEmit xid recv pt) := by
  rintro w ⟨⟩

theorem whiskDeliver (xid recv : Nat) : Statement (.whiskDeliver xid recv) := by
  rintro w ⟨⟩

theorem roundClose (xid : Nat) : Statement (.roundClose xid) := by
  rintro w ⟨⟩

theorem exchangeClose (xid : Nat) : Statement (.exchangeClose xid) := by
  rintro w ⟨⟩

theorem ingressRecord (die xid : Nat) : Statement (.ingressRecord die xid) := by
  rintro w ⟨⟩

theorem batchPublish (die xid : Nat) : Statement (.batchPublish die xid) := by
  rintro w ⟨⟩

theorem ringReleaseWrite (die xid : Nat) : Statement (.ringReleaseWrite die xid) := by
  rintro w ⟨⟩

theorem launch (f : XFields) : Statement (.launch f) := by
  rintro w ⟨⟩
  exact packX_allocated f rfl rfl

theorem tnext (f : XFields) : Statement (.tnext f) := by
  rintro w ⟨⟩
  exact packX_allocated f rfl rfl

theorem tqget (f : XFields) : Statement (.tqget f) := by
  rintro w ⟨⟩
  exact packX_allocated f rfl rfl

theorem tqput (f : XFields) : Statement (.tqput f) := by
  rintro w ⟨⟩
  exact packX_allocated f rfl rfl

theorem widr (f : XFields) : Statement (.widr f) := by
  rintro w ⟨⟩
  exact packX_allocated f rfl rfl

theorem hexit (f : XFields) : Statement (.hexit f) := by
  rintro w ⟨⟩
  exact packX_allocated f rfl rfl

theorem trap (f : XFields) : Statement (.trap f) := by
  rintro w ⟨⟩
  exact packX_allocated f rfl rfl

theorem tret (f : XFields) : Statement (.tret f) := by
  rintro w ⟨⟩
  exact packX_allocated f rfl rfl

theorem csrr (f : XFields) : Statement (.csrr f) := by
  rintro w ⟨⟩
  exact packX_allocated f rfl rfl

theorem csrw (f : XFields) : Statement (.csrw f) := by
  rintro w ⟨⟩
  exact packX_allocated f rfl rfl

theorem csrs (f : XFields) : Statement (.csrs f) := by
  rintro w ⟨⟩
  exact packX_allocated f rfl rfl

theorem csrc (f : XFields) : Statement (.csrc f) := by
  rintro w ⟨⟩
  exact packX_allocated f rfl rfl

theorem tsave (f : XFields) : Statement (.tsave f) := by
  rintro w ⟨⟩
  exact packX_allocated f rfl rfl

theorem trstr (f : XFields) : Statement (.trstr f) := by
  rintro w ⟨⟩
  exact packX_allocated f rfl rfl

theorem wfe (f : XFields) : Statement (.wfe f) := by
  rintro w ⟨⟩
  exact packX_allocated f rfl rfl

theorem dstop (f : XFields) : Statement (.dstop f) := by
  rintro w ⟨⟩
  exact packX_allocated f rfl rfl

theorem wfeTimeout (hart : Nat) : Statement (.wfeTimeout hart) := by
  rintro w ⟨⟩

theorem rsplit (f : XFields) : Statement (.rsplit f) := by
  rintro w ⟨⟩
  exact packX_allocated f rfl rfl

theorem rmerge (f : XFields) : Statement (.rmerge f) := by
  rintro w ⟨⟩
  exact packX_allocated f rfl rfl

theorem rinval (f : XFields) : Statement (.rinval f) := by
  rintro w ⟨⟩
  exact packX_allocated f rfl rfl

theorem rseal (f : XFields) : Statement (.rseal f) := by
  rintro w ⟨⟩
  exact packX_allocated f rfl rfl

theorem rres (f : XFields) : Statement (.rres f) := by
  rintro w ⟨⟩
  exact packX_allocated f rfl rfl

theorem rprobe (f : XFields) : Statement (.rprobe f) := by
  rintro w ⟨⟩
  exact packX_allocated f rfl rfl

theorem rcompact (f : XFields) : Statement (.rcompact f) := by
  rintro w ⟨⟩
  exact packX_allocated f rfl rfl

theorem compactionSwing (ctx : Nat) : Statement (.compactionSwing ctx) := by
  rintro w ⟨⟩

theorem compactionAbandon (ctx : Nat) : Statement (.compactionAbandon ctx) := by
  rintro w ⟨⟩

theorem nop (h : BitVec 2) (b : BitVec 56) : Statement (.nop h b) := by
  rintro w ⟨⟩
  exact packHint_allocated h b

theorem pairedWord (x y : Slot) : Statement (.pairedWord x y) := by
  rintro w ⟨⟩
  exact packPaired_allocated x y

theorem vectorMicroOpIssue (hart : Nat) : Statement (.vectorMicroOpIssue hart) := by
  rintro w ⟨⟩

theorem preemptInterrupt (hart : Nat) : Statement (.preemptInterrupt hart) := by
  rintro w ⟨⟩

theorem stripstop (hart : Nat) : Statement (.stripstop hart) := by
  rintro w ⟨⟩

theorem sampleTag (hart : Nat) : Statement (.sampleTag hart) := by
  rintro w ⟨⟩

theorem sampbufRead (d : RegIdx) : Statement (.sampbufRead d) := by
  rintro w ⟨⟩

theorem pmuRegisterWrite (op : CsrOp) (count : Bool) (n : BitVec 4) (a : RegIdx) : Statement (.pmuRegisterWrite op count n a) := by
  rintro w ⟨⟩

theorem rotbWrite (op : CsrOp) (a : RegIdx) : Statement (.rotbWrite op a) := by
  rintro w ⟨⟩

theorem gregWrite (op : CsrOp) (a : RegIdx) : Statement (.gregWrite op a) := by
  rintro w ⟨⟩

theorem seedWrite (op : CsrOp) (a : RegIdx) : Statement (.seedWrite op a) := by
  rintro w ⟨⟩

theorem acfgWrite (op : CsrOp) (a : RegIdx) : Statement (.acfgWrite op a) := by
  rintro w ⟨⟩

theorem queueStatusWrite (op : CsrOp) (cond : Bool) (a : RegIdx) : Statement (.queueStatusWrite op cond a) := by
  rintro w ⟨⟩

theorem hartPlacement (tag : Word) (group : Nat) (seat : Seat) : Statement (.hartPlacement tag group seat) := by
  rintro w ⟨⟩

theorem coreVacate (die cluster core : Nat) : Statement (.coreVacate die cluster core) := by
  rintro w ⟨⟩

theorem phaseGroupVacate (tag : Word) (scope unit : Nat) : Statement (.phaseGroupVacate tag scope unit) := by
  rintro w ⟨⟩

theorem hartResume (tag wid : Word) (seat : Seat) : Statement (.hartResume tag wid seat) := by
  rintro w ⟨⟩

theorem engineNodeStart (core slot : Nat) : Statement (.engineNodeStart core slot) := by
  rintro w ⟨⟩

theorem engineNodeFinish (core slot : Nat) : Statement (.engineNodeFinish core slot) := by
  rintro w ⟨⟩

theorem nodeNeverReleased (tag : Word) : Statement (.nodeNeverReleased tag) := by
  rintro w ⟨⟩

theorem deviceReset (image : Firmware) : Statement (.deviceReset image) := by
  rintro w ⟨⟩

theorem tailFetchadd (q : QueueId) (op : HostAtomic) (wide : Bool) (addend : Word) : Statement (.tailFetchadd q op wide addend) := by
  rintro w ⟨⟩

theorem slotWrite (q : QueueId) (slot : BitVec 8) (value : Word) : Statement (.slotWrite q slot value) := by
  rintro w ⟨⟩

theorem qctlWrite (q : QueueId) (value : Word) : Statement (.qctlWrite q value) := by
  rintro w ⟨⟩

theorem latloWrite (die : BitVec 2) (value : Word) : Statement (.latloWrite die value) := by
  rintro w ⟨⟩

theorem lathiWrite (die : BitVec 2) (value : Word) : Statement (.lathiWrite die value) := by
  rintro w ⟨⟩

theorem tvecdWrite (die : BitVec 2) (value : Word) : Statement (.tvecdWrite die value) := by
  rintro w ⟨⟩

theorem registerWrite (offset : Nat) (data : List Byte) : Statement (.registerWrite offset data) := by
  rintro w ⟨⟩

theorem takePosition (q : QueueId) : Statement (.takePosition q) := by
  rintro w ⟨⟩

theorem launchComplete (tag : Word) : Statement (.launchComplete tag) := by
  rintro w ⟨⟩

theorem replayAbandon (tag : Word) : Statement (.replayAbandon tag) := by
  rintro w ⟨⟩

theorem msixVectorUnmask (vector : BitVec 6) : Statement (.msixVectorUnmask vector) := by
  rintro w ⟨⟩

theorem windowBRead (offset size : Nat) : Statement (.windowBRead offset size) := by
  rintro w ⟨⟩

theorem windowBWrite (offset : Nat) (data : List Byte) : Statement (.windowBWrite offset data) := by
  rintro w ⟨⟩

theorem windowBAtomic (offset : Nat) (op : HostAtomic) (size : Nat) (operand compare : Word) : Statement (.windowBAtomic offset op size operand compare) := by
  rintro w ⟨⟩

theorem ident : Statement (.ident) := by
  rintro w ⟨⟩

theorem areas : Statement (.areas) := by
  rintro w ⟨⟩

theorem readlog : Statement (.readlog) := by
  rintro w ⟨⟩

theorem counters : Statement (.counters) := by
  rintro w ⟨⟩

theorem attlog : Statement (.attlog) := by
  rintro w ⟨⟩

theorem quote : Statement (.quote) := by
  rintro w ⟨⟩

theorem vacate : Statement (.vacate) := by
  rintro w ⟨⟩

theorem endlaunch : Statement (.endlaunch) := by
  rintro w ⟨⟩

theorem debug : Statement (.debug) := by
  rintro w ⟨⟩

theorem sysgrp : Statement (.sysgrp) := by
  rintro w ⟨⟩

theorem launches : Statement (.launches) := by
  rintro w ⟨⟩

theorem fwload : Statement (.fwload) := by
  rintro w ⟨⟩

theorem unknownCommand : Statement (.unknownCommand) := by
  rintro w ⟨⟩

theorem mailboxCommandDone : Statement (.mailboxCommandDone) := by
  rintro w ⟨⟩

theorem flheadWrite (value : BitVec 32) : Statement (.flheadWrite value) := by
  rintro w ⟨⟩

theorem remoteLoadRequest (k : Nat) : Statement (.remoteLoadRequest k) := by
  rintro w ⟨⟩

theorem remoteStoreRequest (k : Nat) : Statement (.remoteStoreRequest k) := by
  rintro w ⟨⟩

theorem remoteAtomicRequest (k : Nat) : Statement (.remoteAtomicRequest k) := by
  rintro w ⟨⟩

theorem remoteResponse (r : PeerResponse) : Statement (.remoteResponse r) := by
  rintro w ⟨⟩

theorem peerTimeout (tag : BitVec 16) : Statement (.peerTimeout tag) := by
  rintro w ⟨⟩

theorem hostCompletion (tag : BitVec 16) (ok : Bool) (data : List Byte) : Statement (.hostCompletion tag ok data) := by
  rintro w ⟨⟩

theorem flitReceive (port : Nat) (flit : Flit) : Statement (.flitReceive port flit) := by
  rintro w ⟨⟩

theorem linkDown (port : Nat) : Statement (.linkDown port) := by
  rintro w ⟨⟩

theorem laneFailure (port : Nat) : Statement (.laneFailure port) := by
  rintro w ⟨⟩

theorem softErrorDetected (site : ErrorSite) (correctable : Bool) : Statement (.softErrorDetected site correctable) := by
  rintro w ⟨⟩

theorem cycleEventOverflow (hart : Nat) (n : BitVec 4) : Statement (.cycleEventOverflow hart n) := by
  rintro w ⟨⟩

theorem wfeOtherEvent (hart : Nat) : Statement (.wfeOtherEvent hart) := by
  rintro w ⟨⟩

end Encoding

end Sys2Proof.Laws
end

