-- ==== Sys2Proof/Tests/Slice0.lean ====
section
/-! SUPPORT. Tests: words of the spec's encodings decode, ill-formed terms are refused, single steps give what the spec's
examples and tables give, and for each statement a state and operands that meet its hypotheses. -/

namespace Sys2Proof.Tests

open Sys2Proof Sys2Proof.Machine

set_option maxRecDepth 100000

/-! ### Helpers -/

/-- Fields of a word with the four register fields and the element type given and every other field 0. -/
def rf (d a b c : RegIdx) (et : ElemType) : RFields :=
  { d := d, a := a, b := b, c := c, masked := false, mr := 0, xa := false, xb := false, gd := false, et := et, gm := 0,
    rm := .rne, sat := false, gs := 0, aux4 := false, aux := 0 }

def mf (d a b : RegIdx) (et : ElemType) : MFields :=
  { d := d, a := a, b := b, masked := false, mr := 0, xb := false, xd := false, gd := false, et := et, gm := 0, am := 0,
    ch := 0, gs := 0, off := 0 }

def xf (d a b c : RegIdx) : XFields :=
  { d := d, a := a, b := b, c := c, sc := 0, acq := false, rel := false, masked := false, imm := 0 }

def jf (d a b : RegIdx) (off : BitVec 32) : JFields := { d := d, a := a, b := b, off := off }

/-- One hart, at the start of a launch of one WID, about to fetch a NOP (log 31). -/
def world : State := State.reset.withFetchWord 64 0x7C00000000000000

theorem world_runs : world.running.isSome = true := by decide

/-- That hart. -/
def tester : Hart := world.running.get world_runs

/-- The world with its hart changed. -/
def seated (f : Hart → Hart) : State := world.onCur f

/-- A hart with a strip of `n` elements. -/
def strip (n : Nat) (h : Hart) : Hart := { h with vec := { h.vec with len := BitVec.ofNat 16 n } }

/-- A hart with elements of 32 bits in its vector registers. -/
def words (h : Hart) : Hart := { h with vec := { h.vec with sewc := 2 } }

/-- A hart at system level. -/
def system (h : Hart) : Hart := { h with trp := { h.trp with prv := true } }

/-- The next state, if there is one. -/
def after (r : Host.Outcome State Fault Refusal) : Option State :=
  match r with
  | .next t => some t
  | _ => none

/-- A value of the first hart after an instruction. -/
def shows {α : Type} (i : Instr) (s : State) (g : Hart → α) : Option α :=
  (after (exec i s)).bind fun t => (t.hart? s.cur).map g

/-! ### Decoding -/

theorem test_decode_maj_00 : ∀ p ∈ ([
    (0x0010518000000000, .add (rf 4 5 6 0 .i8)),
    (0x0010518000001101, .sub { rf 4 5 6 0 .i8 with sat := true, aux := 1 }),
    (0x00105180020020A0, .and { rf 4 5 6 0 .i8 with gd := true, gs := 5 }),
    (0x0010518000003000, .or (rf 4 5 6 0 .i8)),
    (0x0010518000004000, .xor (rf 4 5 6 0 .i8)),
    (0x0010518000005000, .sll (rf 4 5 6 0 .i8)),
    (0x0010518000006000, .srl (rf 4 5 6 0 .i8)),
    (0x0010518000007000, .sra (rf 4 5 6 0 .i8)),
    (0x0010518000008000, .slt (rf 4 5 6 0 .i8)),
    (0x0010518000009000, .sltn (rf 4 5 6 0 .i8)),
    (0x001051800000A000, .min (rf 4 5 6 0 .i8)),
    (0x001051800200B0A0, .max { rf 4 5 6 0 .i8 with gd := true, gs := 5 }),
    (0x001051800000C000, .minn (rf 4 5 6 0 .i8)),
    (0x001051800000D000, .maxn (rf 4 5 6 0 .i8)),
    (0x001051800000E101, .mul { rf 4 5 6 0 .i8 with sat := true, aux := 1 }),
    (0x001051800000F000, .mulh (rf 4 5 6 0 .i8)),
    (0x0010518000010000, .mulhn (rf 4 5 6 0 .i8)),
    (0x00FC500000011000, .clz (rf 63 5 0 0 .i8)),
    (0x00FC500000012000, .ctz (rf 63 5 0 0 .i8)),
    (0x00FC500000013000, .popc (rf 63 5 0 0 .i8)),
    (0x00FC500000014000, .brev (rf 63 5 0 0 .i8)),
    (0x0010518700015000, .sel (rf 4 5 6 7 .i8))] : List (Word × Instr)), decodeWord p.1 = .ok p.2 := by decide

theorem test_decode_maj_01 : ∀ p ∈ ([
    (0x0110584000000000, .div (rf 4 5 33 0 .i8)),
    (0x01105840020010E0, .rem { rf 4 5 33 0 .i8 with gd := true, gs := 7 }),
    (0x0110584000002000, .divn (rf 4 5 33 0 .i8)),
    (0x0110584000003000, .remn (rf 4 5 33 0 .i8))] : List (Word × Instr)), decodeWord p.1 = .ok p.2 := by decide

theorem test_decode_maj_02 : ∀ p ∈ ([
    (0x02105000FFFFFF80, .addi { d := 4, a := 5, imm := 0xFFFFFF80 }),
    (0x02105100FFFFFF81, .andi { d := 4, a := 5, imm := 0xFFFFFF81 }),
    (0x02105200FFFFFF82, .ori { d := 4, a := 5, imm := 0xFFFFFF82 }),
    (0x02105300FFFFFF83, .xori { d := 4, a := 5, imm := 0xFFFFFF83 }),
    (0x021054000000003F, .slli { d := 4, a := 5, imm := 0x3F }),
    (0x021055000000003E, .srli { d := 4, a := 5, imm := 0x3E }),
    (0x021056000000003D, .srai { d := 4, a := 5, imm := 0x3D }),
    (0x0210570080000000, .slti { d := 4, a := 5, imm := 0x80000000 }),
    (0x0210080012345678, .li { d := 4, a := 0, imm := 0x12345678 }),
    (0x021059009ABCDEF0, .lih { d := 4, a := 5, imm := 0x9ABCDEF0 })] : List (Word × Instr)), decodeWord p.1 = .ok p.2 := by decide

theorem test_decode_maj_03 : ∀ p ∈ ([
    (0x03005180FFFFFFFE, .beq { d := 0, a := 5, b := 6, off := 0xFFFFFFFE }),
    (0x03005181FFFFFFFE, .bne { d := 0, a := 5, b := 6, off := 0xFFFFFFFE }),
    (0x03005182FFFFFFFE, .blt { d := 0, a := 5, b := 6, off := 0xFFFFFFFE }),
    (0x03005183FFFFFFFE, .bge { d := 0, a := 5, b := 6, off := 0xFFFFFFFE }),
    (0x03005184FFFFFFFE, .bltn { d := 0, a := 5, b := 6, off := 0xFFFFFFFE }),
    (0x03005185FFFFFFFE, .bgen { d := 0, a := 5, b := 6, off := 0xFFFFFFFE })] : List (Word × Instr)), decodeWord p.1 = .ok p.2 := by decide

theorem test_decode_maj_04 : ∀ p ∈ ([
    (0x0400000000000010, .jmp { d := 0, a := 0, b := 0, off := 0x10 }),
    (0x04040001FFFFFFF0, .jal { d := 1, a := 0, b := 0, off := 0xFFFFFFF0 }),
    (0x0404500200000002, .jr { d := 1, a := 5, b := 0, off := 0x2 }),
    (0x0400000300000000, .ret { d := 0, a := 0, b := 0, off := 0x0 }),
    (0x0400500400000004, .loop { d := 0, a := 5, b := 0, off := 0x4 }),
    (0x040C530500000009, .loopp { d := 3, a := 5, b := 12, off := 0x9 }),
    (0x0410000600000000, .lcnt { d := 4, a := 0, b := 0, off := 0x0 }),
    (0x04001007FFFFFFFD, .bcq { d := 0, a := 1, b := 0, off := 0xFFFFFFFD })] : List (Word × Instr)), decodeWord p.1 = .ok p.2 := by decide

theorem test_decode_maj_05 : ∀ p ∈ ([
    (0x0500000000000009, .vdecl { rf 0 0 0 0 .i8 with aux := 9 }),
    (0x0534600000001000, .vsetl (rf 13 6 0 0 .i8)),
    (0x0500000000002000, .vsetlq (rf 0 0 0 0 .i8)),
    (0x0510000000003000, .vgetmax (rf 4 0 0 0 .i8)),
    (0x0510000000004000, .lqpop (rf 4 0 0 0 .i8)),
    (0x0510000000005000, .cqpop (rf 4 0 0 0 .i8))] : List (Word × Instr)), decodeWord p.1 = .ok p.2 := by decide

theorem test_decode_maj_10 : ∀ p ∈ ([
    (0x101083009A480020, .vadd { rf 4 8 12 0 .i32 with masked := true, mr := 1, xa := true, gd := true, gm := 1, gs := 1 }),
    (0x1010830004E01100, .vsub { rf 4 8 12 0 .n64 with xb := true, sat := true }),
    (0x10108300B0202010, .vmul { rf 4 8 12 0 .i16 with masked := true, mr := 3, aux4 := true }),
    (0x1010830000603000, .vmulh (rf 4 8 12 0 .i64)),
    (0x1010830000004100, .vmac { rf 4 8 12 0 .i8 with sat := true }),
    (0x1010830000405100, .vwmac { rf 4 8 12 0 .i32 with sat := true }),
    (0x1010830000806000, .vwmul (rf 4 8 12 0 .n8)),
    (0x1010830000A07100, .vadds { rf 4 8 12 0 .n16 with sat := true }),
    (0x1010830000C08000, .vsubs (rf 4 8 12 0 .n32)),
    (0x1010830000509000, .vmin { rf 4 8 12 0 .i32 with gm := 2 }),
    (0x101083000058A000, .vmax { rf 4 8 12 0 .i32 with gm := 3 }),
    (0x101080000020B100, .vabs { rf 4 8 0 0 .i16 with sat := true }),
    (0x101080000040C000, .vneg (rf 4 8 0 0 .i32)),
    (0x101083000000D000, .vand (rf 4 8 12 0 .i8)),
    (0x101083000020E000, .vor (rf 4 8 12 0 .i16)),
    (0x101083000040F000, .vxor (rf 4 8 12 0 .i32)),
    (0x1010830000610000, .vsll (rf 4 8 12 0 .i64)),
    (0x1010830000811000, .vsrl (rf 4 8 12 0 .n8)),
    (0x1010830000A12000, .vsra (rf 4 8 12 0 .n16)),
    (0x1010800000613000, .vclz (rf 4 8 0 0 .i64)),
    (0x1010800000E14000, .vpopc (rf 4 8 0 0 .n64)),
    (0x10108300A1A15000, .vsel { rf 4 8 12 0 .e5m2 with masked := true, mr := 2 }),
    (0x1010800001816000, .vmv (rf 4 8 0 0 .e4m3)),
    (0x1010800001617000, .vbcast (rf 4 8 0 0 .f64)),
    (0x1010000000418000, .vid (rf 4 0 0 0 .i32)),
    (0x1014830000419005, .vcmp { rf 5 8 12 0 .i32 with aux := 5 })] : List (Word × Instr)), decodeWord p.1 = .ok p.2 := by decide

theorem test_decode_maj_11 : ∀ p ∈ ([
    (0x1110830000600000, .vdiv (rf 4 8 12 0 .i64)),
    (0x1110830000C01000, .vrem (rf 4 8 12 0 .n32))] : List (Word × Instr)), decodeWord p.1 = .ok p.2 := by decide

theorem test_decode_maj_12 : ∀ p ∈ ([
    (0x1210830001400200, .vfadd { rf 4 8 12 0 .f32 with rm := .rtz }),
    (0x1210830001401400, .vfsub { rf 4 8 12 0 .f32 with rm := .rdn }),
    (0x1210830001402600, .vfmul { rf 4 8 12 0 .f32 with rm := .rup }),
    (0x1210831001203800, .vfma { rf 4 8 12 16 .f16 with rm := .rna }),
    (0x1210831001204A00, .vfms { rf 4 8 12 16 .f16 with rm := .rsr }),
    (0x1210831001205C00, .vfnma { rf 4 8 12 16 .f16 with rm := .dyn }),
    (0x1210830001606000, .vfmin (rf 4 8 12 0 .f64)),
    (0x1210830001007000, .vfmax (rf 4 8 12 0 .bf16)),
    (0x121C830001408007, .vfcmp { rf 7 8 12 0 .f32 with aux := 7 }),
    (0x1210800001409000, .vfclass (rf 4 8 0 0 .f32)),
    (0x121080000140A000, .vfabs (rf 4 8 0 0 .f32)),
    (0x121080000140B000, .vfneg (rf 4 8 0 0 .f32))] : List (Word × Instr)), decodeWord p.1 = .ok p.2 := by decide

theorem test_decode_maj_13 : ∀ p ∈ ([
    (0x1310830001400C00, .vfdiv { rf 4 8 12 0 .f32 with rm := .dyn }),
    (0x1310800001601000, .vfsqrt (rf 4 8 0 0 .f64)),
    (0x1310800001402000, .vfrcp (rf 4 8 0 0 .f32)),
    (0x1310800001003000, .vfrsq (rf 4 8 0 0 .bf16)),
    (0x1310800001204000, .vexp2 (rf 4 8 0 0 .f16)),
    (0x1310800001405000, .vlog2 (rf 4 8 0 0 .f32)),
    (0x1310800001006000, .vexp (rf 4 8 0 0 .bf16)),
    (0x1310800001207000, .vlog (rf 4 8 0 0 .f16)),
    (0x1310800001408000, .vtanh (rf 4 8 0 0 .f32))] : List (Word × Instr)), decodeWord p.1 = .ok p.2 := by decide

theorem test_decode_maj_14 : ∀ p ∈ ([
    (0x1410800001000A0A, .vcvt { rf 4 8 0 0 .bf16 with rm := .rsr, aux := 10 }),
    (0x1451800101C01000, .vquant (rf 20 24 0 1 .k4)),
    (0x145180070140200E, .vdeq { rf 20 24 0 7 .f32 with aux := 14 })] : List (Word × Instr)), decodeWord p.1 = .ok p.2 := by decide

theorem test_decode_maj_15 : ∀ p ∈ ([
    (0x150420C000000000, .vmand (rf 1 2 3 0 .i8)),
    (0x150420C000001000, .vmor (rf 1 2 3 0 .i8)),
    (0x150420C000002000, .vmxor (rf 1 2 3 0 .i8)),
    (0x1504200000003000, .vmnot (rf 1 2 0 0 .i8)),
    (0x1504200000004000, .vmpre (rf 1 2 0 0 .i8)),
    (0x1504200000005001, .vminc { rf 1 2 0 0 .i8 with aux := 1 }),
    (0x1504200000006000, .vmone (rf 1 2 0 0 .i8)),
    (0x1510200000407000, .vmpop (rf 4 2 0 0 .i32)),
    (0x1500200000008001, .vmfirst { rf 0 2 0 0 .i8 with aux := 1 }),
    (0x1500200000009000, .vanyq (rf 0 2 0 0 .i8)),
    (0x150020000000A000, .vallq (rf 0 2 0 0 .i8)),
    (0x150400000000B000, .vmset (rf 1 0 0 0 .i8)),
    (0x150400000000C000, .vmclr (rf 1 0 0 0 .i8))] : List (Word × Instr)), decodeWord p.1 = .ok p.2 := by decide

theorem test_decode_maj_16 : ∀ p ∈ ([
    (0x1610830001400000, .vslideup (rf 4 8 12 0 .f32)),
    (0x1610830001A01000, .vslidedn (rf 4 8 12 0 .e5m2)),
    (0x1610830000402000, .vperm (rf 4 8 12 0 .i32)),
    (0x1621060200403001, .vpushl { rf 8 16 24 2 .i32 with aux := 1 }),
    (0x1610800080404000, .vcompr { rf 4 8 0 0 .i32 with masked := true }),
    (0x1610800080405000, .vexpnd { rf 4 8 0 0 .i32 with masked := true }),
    (0x1610830001406200, .vrec { rf 4 8 12 0 .f32 with rm := .rtz })] : List (Word × Instr)), decodeWord p.1 = .ok p.2 := by decide

theorem test_decode_maj_17 : ∀ p ∈ ([
    (0x1710800001400400, .vredsum { rf 4 8 0 0 .f32 with rm := .rdn }),
    (0x1710800000401000, .vredmax (rf 4 8 0 0 .i32)),
    (0x1710800001602000, .vredmin (rf 4 8 0 0 .f64)),
    (0x1710800000403000, .vredand (rf 4 8 0 0 .i32)),
    (0x1710800000404000, .vredor (rf 4 8 0 0 .i32)),
    (0x1710800000405004, .vscan { rf 4 8 0 0 .i32 with aux := 4 })] : List (Word × Instr)), decodeWord p.1 = .ok p.2 := by decide

theorem test_decode_maj_18 : ∀ p ∈ ([
    (0x1810831001400001, .vbsort { rf 4 8 12 16 .f32 with aux := 1 }),
    (0x1810831000401000, .vbmerge (rf 4 8 12 16 .i32)),
    (0x1851814801402001, .vtopk { rf 20 24 5 8 .f32 with aux := 1 }),
    (0x1851814801403000, .vgtopk (rf 20 24 5 8 .f32)),
    (0x1810800C01004000, .vsprs (rf 4 8 0 12 .bf16))] : List (Word × Instr)), decodeWord p.1 = .ok p.2 := by decide

theorem test_decode_maj_20 : ∀ p ∈ ([
    (0x20105000000001F0, .ldb { mf 4 5 0 .i8 with off := 0x1F0 }),
    (0x20105001000011F1, .ldh { mf 4 5 0 .i8 with ch := 1, off := 0x1F1 }),
    (0x20105002000021F2, .ldw { mf 4 5 0 .i8 with ch := 2, off := 0x1F2 }),
    (0x20105003000031F3, .ldd { mf 4 5 0 .i8 with ch := 3, off := 0x1F3 }),
    (0x20105004000041F4, .ldbn { mf 4 5 0 .i8 with ch := 4, off := 0x1F4 }),
    (0x20105005000051F5, .ldhn { mf 4 5 0 .i8 with ch := 5, off := 0x1F5 }),
    (0x20105006000061F6, .ldwn { mf 4 5 0 .i8 with ch := 6, off := 0x1F6 }),
    (0x20105007020000F0, .stb { mf 4 5 0 .i8 with gd := true, off := 0xF0 }),
    (0x20105008020002F1, .sth { mf 4 5 0 .i8 with gd := true, gs := 1, off := 0xF1 }),
    (0x20105009020004F2, .stw { mf 4 5 0 .i8 with gd := true, gs := 2, off := 0xF2 }),
    (0x2010500A020006F3, .std { mf 4 5 0 .i8 with gd := true, gs := 3, off := 0xF3 })] : List (Word × Instr)), decodeWord p.1 = .ok p.2 := by decide

theorem test_decode_maj_21 : ∀ p ∈ ([
    (0x21204240A94A0000, .vld { mf 8 4 9 .f32 with masked := true, xb := true, mr := 2, gm := 1, am := 2 }),
    (0x2120400100030000, .vldff { mf 8 4 0 .i8 with am := 3 })] : List (Word × Instr)), decodeWord p.1 = .ok p.2 := by decide

theorem test_decode_maj_22 : ∀ p ∈ ([
    (0x2220518005410000, .vst { mf 8 5 6 .f32 with xd := true, am := 1 }),
    (0x2251804101C01000, .vrstore { mf 20 24 1 .k4 with ch := 1 })] : List (Word × Instr)), decodeWord p.1 = .ok p.2 := by decide

theorem test_decode_maj_23 : ∀ p ∈ ([
    (0x2300500000000008, .pref { mf 0 5 0 .i8 with off := 0x8 }),
    (0x2300524100420000, .vpref { mf 0 5 9 .i32 with am := 2 })] : List (Word × Instr)), decodeWord p.1 = .ok p.2 := by decide

theorem test_decode_maj_24 : ∀ p ∈ ([
    (0x2410518000480000, .aadd { mf 4 5 6 .i32 with gm := 1 }),
    (0x2410518100710000, .aand { mf 4 5 6 .i64 with gm := 2, am := 1 }),
    (0x24105182005A0000, .aor { mf 4 5 6 .i32 with gm := 3, am := 2 }),
    (0x24105183006B0000, .axor { mf 4 5 6 .i64 with gm := 1, am := 3 }),
    (0x2410518400540000, .amin { mf 4 5 6 .i32 with gm := 2, am := 4 }),
    (0x24105185007D0000, .amax { mf 4 5 6 .i64 with gm := 3, am := 5 }),
    (0x2410518600480000, .aminn { mf 4 5 6 .i32 with gm := 1 }),
    (0x2410518700710000, .amaxn { mf 4 5 6 .i64 with gm := 2, am := 1 }),
    (0x24105188005A0000, .axchg { mf 4 5 6 .i32 with gm := 3, am := 2 }),
    (0x24105189006B0000, .acas { mf 4 5 6 .i64 with gm := 1, am := 3 })] : List (Word × Instr)), decodeWord p.1 = .ok p.2 := by decide

theorem test_decode_maj_25 : ∀ p ∈ ([
    (0x2520524005420000, .vaadd { mf 8 5 9 .f32 with xd := true, am := 2 }),
    (0x2520524104620000, .vamin { mf 8 5 9 .i64 with xd := true, am := 2 }),
    (0x2520524204C20000, .vamax { mf 8 5 9 .n32 with xd := true, am := 2 })] : List (Word × Instr)), decodeWord p.1 = .ok p.2 := by decide

theorem test_decode_maj_30 : ∀ p ∈ ([
    (0x3000000000A00000, .phase { xf 0 0 0 0 with sc := 5 }),
    (0x3010000001600000, .phasea { xf 4 0 0 0 with sc := 3 }),
    (0x3000000002600000, .phasew { xf 0 0 0 0 with sc := 3 }),
    (0x3000000003580000, .fence { xf 0 0 0 0 with sc := 2, acq := true, rel := true }),
    (0x3010518004900003, .waitw { xf 4 5 6 0 with sc := 4, acq := true, imm := 0x3 })] : List (Word × Instr)), decodeWord p.1 = .ok p.2 := by decide

theorem test_decode_maj_31 : ∀ p ∈ ([
    (0x3131400000000000, .esub (xf 12 20 0 0)),
    (0x310C801001040000, .ecmd { xf 3 8 0 16 with masked := true }),
    (0x3134C00002000000, .ewait (xf 13 12 0 0)),
    (0x3134C00003000000, .epoll (xf 13 12 0 0))] : List (Word × Instr)), decodeWord p.1 = .ok p.2 := by decide

theorem test_decode_maj_32 : ∀ p ∈ ([
    (0x32045180000000C8, .tload { xf 1 5 6 0 with imm := 0xC8 }),
    (0x32080000010000FC, .tzero { xf 2 0 0 0 with imm := 0xFC }),
    (0x320480C0020010F8, .mmul { xf 1 8 3 0 with imm := 0x10F8 }),
    (0x320480D80300287C, .mmuls { xf 1 8 3 24 with imm := 0x287C }),
    (0x322020000400048A, .mdrain { xf 8 2 0 0 with imm := 0x48A }),
    (0x3204000005000483, .mzero { xf 1 0 0 0 with imm := 0x483 }),
    (0x321C50000600003F, .esets { xf 7 5 0 0 with imm := 0x3F }),
    (0x321C900007040000, .esetv { xf 7 9 0 0 with masked := true })] : List (Word × Instr)), decodeWord p.1 = .ok p.2 := by decide

theorem test_decode_maj_33 : ∀ p ∈ ([
    (0x3310500000000000, .xopen (xf 4 5 0 0)),
    (0x3310500001000003, .xsplit { xf 4 5 0 0 with imm := 0x3 }),
    (0x3300824A02040003, .xsend { xf 0 8 9 10 with masked := true, imm := 0x3 }),
    (0x330082400300000F, .xsendq { xf 0 8 9 0 with imm := 0xF }),
    (0x3300500004000002, .xfloor { xf 0 5 0 0 with imm := 0x2 }),
    (0x3300000005000002, .xround { xf 0 0 0 0 with imm := 0x2 }),
    (0x3310518006000001, .xrecv { xf 4 5 6 0 with imm := 0x1 }),
    (0x3310000007000031, .xstat { xf 4 0 0 0 with imm := 0x31 }),
    (0x3310500008000001, .xsample { xf 4 5 0 0 with imm := 0x1 }),
    (0x3300000009000021, .xrebal { xf 0 0 0 0 with imm := 0x21 }),
    (0x330000000A000001, .xclose { xf 0 0 0 0 with imm := 0x1 })] : List (Word × Instr)), decodeWord p.1 = .ok p.2 := by decide

theorem test_decode_maj_34 : ∀ p ∈ ([
    (0x3410500000000049, .launch { xf 4 5 0 0 with imm := 0x49 }),
    (0x3410000001000000, .tnext (xf 4 0 0 0)),
    (0x3430000002100000, .tqget { xf 12 0 0 0 with acq := true }),
    (0x3410518003080000, .tqput { xf 4 5 6 0 with rel := true }),
    (0x3410000004000007, .widr { xf 4 0 0 0 with imm := 0x7 }),
    (0x3400000005000000, .hexit (xf 0 0 0 0))] : List (Word × Instr)), decodeWord p.1 = .ok p.2 := by decide

theorem test_decode_maj_38 : ∀ p ∈ ([
    (0x3800000000000005, .trap { xf 0 0 0 0 with imm := 0x5 }),
    (0x3800000001000000, .tret (xf 0 0 0 0)),
    (0x38C0000002000031, .csrr { xf 48 0 0 0 with imm := 0x31 }),
    (0x3803100003000001, .csrw { xf 0 49 0 0 with imm := 0x1 }),
    (0x3800C00004000034, .csrs { xf 0 12 0 0 with imm := 0x34 }),
    (0x3800C00005000012, .csrc { xf 0 12 0 0 with imm := 0x12 }),
    (0x3800300006000000, .tsave (xf 0 3 0 0)),
    (0x3830300007000000, .trstr (xf 12 3 0 0)),
    (0x3801400008000064, .wfe { xf 0 20 0 0 with imm := 0x64 }),
    (0x3830D00009000000, .dstop (xf 12 13 0 0))] : List (Word × Instr)), decodeWord p.1 = .ok p.2 := by decide

theorem test_decode_maj_39 : ∀ p ∈ ([
    (0x3910518000000000, .rsplit (xf 4 5 6 0)),
    (0x3910500001000000, .rmerge (xf 4 5 0 0)),
    (0x3901454002800000, .rinval { xf 0 20 21 0 with sc := 4 }),
    (0x3910500003000000, .rseal (xf 4 5 0 0)),
    (0x3910518004000000, .rres (xf 4 5 6 0)),
    (0x3910500005000003, .rprobe { xf 4 5 0 0 with imm := 0x3 }),
    (0x3910518006000000, .rcompact (xf 4 5 6 0))] : List (Word × Instr)), decodeWord p.1 = .ok p.2 := by decide

theorem test_decode_paired : ∀ p ∈ ([
    (0x8010500080412580, .pairedWord (.scalar .add 4 5 none) (.vector .vadd 8 9 .i32 true true)),
    (0x8F147FF894495000, .pairedWord (.scalar .sltn 5 7 (some 0x7F8)) (.vector .vfsub 9 10 .bf16 false false))] :
      List (Word × Instr)), decodeWord p.1 = .ok p.2 := by decide

theorem test_decode_hints :
    decodeWord 0x7C00000000000000 = .ok (.nop 0 0) ∧ decodeWord 0x7D1083009A480020 = .ok (.nop 1 0x1083009A480020) ∧
    decodeWord 0x7FFFFFFFFFFFFFFF = .ok (.nop 3 0xFFFFFFFFFFFFFF) := by decide

/-- The words of the example after R121 that are no instruction, and unallocated codes of each format. -/
theorem test_decode_refusals :
    ([0x0F1083009A580020, 0x8010500080412581, 0x0000000000016000, 0x020A0A0000000000, 0x0310000600000000, 0x0400000800000000,
      0x2010000B00000000, 0x3100000004000000, 0x7B00000000000000, 0x9010500080412580] : List Word).map decodeWord =
        List.replicate 10 (.error .unallocated) ∧
    ([0x101083009A480E20, 0x101083001A480020, 0x0200000100000000, 0x0300001000000000, 0x0000000000000001] : List Word).map
        decodeWord = List.replicate 5 (.error .illegalField) := by decide

/-- The little-endian bytes of a word in memory (R99), and a word of the opcode table. -/
theorem test_decode_bytes :
    decodeBytes [0x20, 0x00, 0x48, 0x9A, 0x00, 0x83, 0x10, 0x10] =
      .ok (.vadd { rf 4 8 12 0 .i32 with masked := true, mr := 1, xa := true, gd := true, gm := 1, gs := 1 }, []) ∧
    decodeBytes [0, 0, 0, 0, 0, 0, 0x7C] = .error .short ∧
    decodeTableWord 64 0x3430000002100000 = some (.tqget { xf 12 0 0 0 with acq := true }) := by decide

/-! ### Ill-formed terms -/

/-- Fields that an entry does not name (R104), masks and MR (R106), element types (R108), guards (R111), chain bits (R112),
saturation, rounding and AUX of R-format entries. -/
theorem test_illformed_r : ∀ i ∈ ([.add (rf 4 5 6 7 .i8), .clz (rf 4 5 6 0 .i8), .add { rf 4 5 6 0 .i8 with masked := true },
    .add { rf 4 5 6 0 .i8 with aux := 1 }, .and { rf 4 5 6 0 .i8 with sat := true }, .add (rf 4 5 6 0 .i16),
    .add { rf 4 5 6 0 .i8 with rm := .rtz }, .add { rf 4 5 6 0 .i8 with gs := 1 }, .add { rf 4 5 6 0 .i8 with gm := 1 },
    .add { rf 4 5 6 0 .i8 with xa := true }, .vadds { rf 4 5 6 0 .i8 with xb := true },
    .vsetl { rf 4 5 0 0 .i8 with gd := true }, .vadd { rf 4 8 12 0 .i8 with mr := 1 },
    .vadd { rf 4 8 12 0 .i8 with aux4 := true }, .vadd (rf 4 8 12 0 .f32), .vcmp (rf 8 8 12 0 .i32),
    .vcmp { rf 7 8 12 0 .i32 with aux := 6 }, .vsel (rf 4 8 12 0 .i32), .vrec { rf 4 8 12 0 .i32 with masked := true },
    .vredmax { rf 4 8 0 0 .f32 with rm := .rtz }, .vredsum { rf 4 8 0 0 .f32 with rm := .rsr }, .vabs (rf 4 8 0 0 .n8),
    .vwmul (rf 4 8 12 0 .i64), .vexp (rf 4 8 0 0 .f64), .vcvt { rf 4 8 0 0 .f32 with aux := 14 },
    .vcvt { rf 4 8 0 0 .i32 with rm := .rtz }, .vquant (rf 4 8 0 8 .k4), .vdeq (rf 4 8 0 0 .f32),
    .vmpop { rf 4 2 0 0 .i32 with aux := 1 }, .vscan { rf 4 8 0 0 .i32 with aux := 5 }, .vgtopk (rf 4 8 5 12 .f16)] : List Instr),
    i.wellFormed = false := by decide

/-- The limits of the I and J formats (R155, R158). -/
theorem test_illformed_ij : ∀ i ∈ ([.slli { d := 4, a := 5, imm := 64 }, .li { d := 4, a := 5, imm := 0 }, .beq (jf 1 2 3 4),
    .jmp (jf 1 0 0 4), .jal (jf 1 2 0 4), .jr (jf 1 2 3 4), .ret (jf 0 0 0 1), .loop (jf 1 2 0 4), .loopp (jf 16 2 0 4),
    .loopp (jf 8 2 1 4), .lcnt (jf 1 0 0 1), .bcq (jf 0 2 0 1)] : List Instr), i.wellFormed = false := by decide

/-- The field use of the M format (R281, R289, R294, Tables 12.1 and 12.4). -/
theorem test_illformed_m : ∀ i ∈ ([.ldd (mf 4 5 6 .i8), .ldd { mf 4 5 0 .i8 with am := 1 }, .ldd { mf 4 5 0 .i8 with gs := 1 },
    .vld { mf 4 5 0 .i8 with am := 3 }, .vld { mf 4 5 0 .i8 with am := 6 }, .vld { mf 4 5 6 .i8 with am := 4 },
    .vld { mf 4 5 0 .i8 with xb := true }, .vld { mf 4 5 0 .i8 with xd := true }, .vld { mf 4 5 0 .q4 with am := 1 },
    .vld { mf 4 5 0 .i8 with mr := 1 }, .vst { mf 4 5 0 .i8 with am := 5 }, .vldff (mf 4 5 0 .i8), .pref (mf 4 5 0 .i8),
    .aadd (mf 4 5 6 .i8), .aadd { mf 4 5 6 .i32 with am := 1 }, .aadd { mf 4 5 6 .i32 with gm := 1, am := 6 },
    .vaadd (mf 4 5 0 .i8), .vrstore (mf 4 5 8 .k4), .vrstore (mf 4 5 1 .f32), .vrstore (mf 4 5 0 .i16)] : List Instr),
    i.wellFormed = false := by decide

/-- The field use of the X format (R87, R343, R349, R375, R403, R452, Tables 15.6 and 24.5). -/
theorem test_illformed_x : ∀ i ∈ ([.phase { xf 0 0 0 0 with sc := 6 }, .phase (xf 1 0 0 0), .fence (xf 0 0 0 0),
    .waitw { xf 4 5 6 0 with imm := 4 }, .waitw { xf 4 5 6 0 with sc := 1 }, .esub (xf 4 5 6 0),
    .ewait { xf 4 5 0 0 with masked := true }, .tload { xf 4 5 6 0 with imm := 8 }, .tload { xf 1 5 6 0 with imm := 1 },
    .tload { xf 1 5 6 0 with imm := 0x1008 }, .tzero { xf 1 0 0 0 with imm := 0x20808 }, .tzero { xf 1 0 0 0 with imm := 0x148 },
    .mmul { xf 1 8 4 0 with imm := 8 }, .mmul { xf 1 8 3 9 with imm := 8 }, .mmul { xf 1 8 3 0 with imm := 0x3F818 },
    .mmuls { xf 1 8 3 24 with imm := 14 }, .mdrain { xf 8 4 0 0 with imm := 10 }, .mdrain { xf 8 2 0 0 with imm := 1 },
    .mdrain { xf 8 2 0 0 with imm := 0x1A }, .mdrain { xf 8 2 0 8 with imm := 12 }, .mzero { xf 1 0 0 0 with imm := 0x3FFF },
    .esets { xf 8 5 0 0 with imm := 0 }, .xfloor { xf 0 5 0 0 with imm := 16 }, .xrebal { xf 0 0 0 0 with imm := 48 },
    .launch { xf 4 5 0 0 with imm := 0x50 }, .widr { xf 4 0 0 0 with imm := 6 }, .tqput { xf 4 5 6 0 with acq := true },
    .csrr { xf 4 0 0 0 with imm := 0x005 }, .wfe { xf 0 4 0 0 with imm := 0x10000 }, .rprobe { xf 4 5 0 0 with imm := 4 },
    .rinval { xf 0 4 5 0 with sc := 6 }, .hexit (xf 0 1 0 0)] : List Instr), i.wellFormed = false := by decide

/-- The rules of paired words (R114, R115), and the ranges of the arguments of device steps. -/
theorem test_illformed_other : ∀ i ∈ ([.pairedWord (.scalar .mov 4 1 (some 0)) (.vector .vadd 4 8 .i8 false false),
    .pairedWord (.scalar .add 4 5 none) (.vector .vfadd 4 8 .i32 false false),
    .pairedWord (.scalar .add 4 5 none) (.scalar .add 8 6 none), .pairedWord (.scalar .add 4 5 none) (.scalar .add 7 9 none),
    .pairedWord (.vector .vadd 4 5 .i8 false false) (.vector .vadd 8 6 .i8 false false),
    .hartPlacement 1 0 { die := 0, cluster := 12, core := 0, ctx := 0, lanes := 1, qtr := 0 },
    .hartResume 1 0 { die := 0, cluster := 0, core := 0, ctx := 0, lanes := 0, qtr := 0 }, .coreVacate 4 0 0,
    .phaseGroupVacate 1 0 0, .windowBRead 0 0, .windowBWrite 0 [], .windowBAtomic 0 .swap 2 0 0, .roundClose 16,
    .ingressRecord 4 0, .compactionSwing 4] : List Instr), i.wellFormed = false := by decide


/-! ### Single steps -/

/-- The image of elements of width `w`. -/
def elems (w : Nat) (xs : List Nat) : Nat := xs.foldr (fun x a => x % 2 ^ w + 2 ^ w * a) 0

/-- A hart of NV 32 and SEW 32. -/
def wide (h : Hart) : Hart := { h with vec := { h.vec with nvc := 2, sewc := 2 } }

/-- A hart of class L1, NV 32 and SEW 32. -/
def long (h : Hart) : Hart := { wide h with vec := { (wide h).vec with vlclass := 1 } }

/-- Elements 0 to `n - 1` of a register group. -/
def listOf (h : Hart) (r : RegIdx) (w n : Nat) : List Nat := (List.range n).map (h.readElem r w)

/-- The table of section 6, "division at its edges": results, and AFLAGS with DZ = bit 1, OF = bit 2. -/
theorem test_division :
    let go (i : Instr) (a b : Word) := shows i (seated fun h => (h.setS 5 a).setS 6 b) fun e => (e.sreg 4, e.ar.aflags)
    let f := rf 4 5 6 0 .i8
    go (.div f) 7 (-2) = some (-3, 0) ∧ go (.rem f) (-7) 2 = some (-1, 0) ∧ go (.div f) 5 0 = some (-1, 2) ∧
    go (.remn f) 5 0 = some (5, 2) ∧ go (.div f) 0x8000000000000000 (-1) = some (0x8000000000000000, 4) ∧
    go (.rem f) 0x8000000000000000 (-1) = some (0, 4) ∧ go (.divn f) (-1) 2 = some (0x7FFFFFFFFFFFFFFF, 0) := by decide

/-- R153: `sub.sat.n s4, s5, s6` with s5 < s6 writes 0 and sets OF; R152: an add wraps, and the source may be the destination. -/
theorem test_scalar_edges :
    shows (.sub { rf 4 5 6 0 .i8 with sat := true, aux := 1 }) (seated fun h => (h.setS 5 3).setS 6 5)
      (fun e => (e.sreg 4, e.ar.aflags)) = some (0, 4) ∧
    shows (.add (rf 5 5 6 0 .i8)) (seated fun h => (h.setS 5 (-1)).setS 6 3) (fun e => (e.sreg 5, e.ar.aflags)) = some (2, 0) ∧
    shows (.add (rf 0 5 6 0 .i8)) (seated fun h => h.setS 5 7) (fun e => e.sreg 0) = some 0 ∧
    shows (.mulh (rf 4 5 6 0 .i8)) (seated fun h => (h.setS 5 (-1)).setS 6 2) (fun e => e.sreg 4) = some (-1) ∧
    shows (.lih { d := 4, a := 5, imm := 0x9ABCDEF0 }) (seated fun h => h.setS 5 0x11112222) (fun e => e.sreg 4) =
      some 0x9ABCDEF011112222 := by decide

/-- Section 4's paired word: s4 = 10, s5 = 3, VL = 2, m0 = 0b01, v8 = (1, 1), v9 = (5, 7) leaves s4 = 13 and v8 = (6, 1). -/
theorem test_paired :
    shows (.pairedWord (.scalar .add 4 5 none) (.vector .vadd 8 9 .i32 true true))
      (seated fun h => ((((wide (strip 2 h)).setS 4 10).setS 5 3).setMask 0 1).setVreg 8 (elems 32 [1, 1]) |>.setVreg 9
        (elems 32 [5, 7])) (fun e => (e.sreg 4, listOf e 8 32 2, e.vstart)) = some (13, [6, 1], 0) := by decide

/-- The rows of section 9's ".i8 and .n8 elements". -/
theorem test_vector_bytes :
    let go (i : Instr) (a b : Nat) := shows i (seated fun h => (((strip 1 h).setVreg 1 a).setVreg 2 b))
      fun e => (e.readElem 3 8 0, e.ar.aflags)
    let f := rf 3 1 2 0 .i8
    let n := rf 3 1 2 0 .n8
    let u := rf 3 1 0 0 .i8
    go (.vadd f) 127 1 = some (0x80, 0) ∧ go (.vadd { f with sat := true }) 127 1 = some (127, 4) ∧
    go (.vsub { n with sat := true }) 3 5 = some (0, 4) ∧ go (.vabs u) 0x80 0 = some (0x80, 0) ∧
    go (.vabs { u with sat := true }) 0x80 0 = some (127, 4) ∧ go (.vmulh f) 0x80 0x80 = some (64, 0) ∧
    go (.vsll f) 1 9 = some (2, 0) ∧ go (.vdiv f) 0x80 0xFF = some (0x80, 4) ∧ go (.vrem n) 200 0 = some (200, 2) := by decide

/-- Section 10's "first-set masks". -/
theorem test_mask_marks :
    let go (i : Instr) := shows i (seated fun h => (((strip 8 h).setMask 2 0x28).setMask 1 0xF7))
      fun e => (e.mask 4, e.ctl.lq, e.readElem 6 32 0)
    let f := { rf 4 2 0 0 .i8 with masked := true, mr := 1 }
    let q := { rf 0 2 0 0 .i8 with masked := true, mr := 1, aux := 1 }
    go (.vmpre f) = some (0x17, [], 0) ∧ go (.vminc f) = some (0x37, [], 0) ∧ go (.vmone f) = some (0x20, [], 0) ∧
    go (.vmpre { f with aux := 1 }) = some (0xC0, [], 0) ∧ go (.vmfirst q) = some (0, [5], 0) := by decide

theorem test_mask_count :
    shows (.vmpop { rf 6 2 0 0 .n32 with masked := true, mr := 1 })
      (seated fun h => (((words (strip 8 h)).setMask 2 0x28).setMask 1 0xF7)) (fun e => e.readElem 6 32 0) = some 1 := by decide

/-- Section 10's "collisions". -/
theorem test_push_collisions :
    shows (.vpushl { rf 8 16 24 2 .i32 with masked := true, mr := 1, aux := 1 })
      (seated fun h => (((wide (strip 6 h)).setMask 1 0x3B).setVreg 16 (elems 32 [10, 11, 12, 13, 14, 15])).setVreg 24
        (elems 32 [2, 0, 2, 5, 7, 2]) |>.setVreg 8 (elems 32 [90, 91, 92, 93, 94, 95]))
      (fun e => (listOf e 8 32 6, e.mask 2 % 64)) = some ([11, 91, 15, 93, 94, 13], 4) := by decide

/-- Section 10's "one token, four groups". -/
theorem test_group_choice :
    shows (.vgtopk (rf 20 8 5 24 .f32))
      (seated fun h => ((wide (strip 8 h)).setS 5 0x02020008).setVreg 8
        (elems 32 [0x3F000000, 0x7FC00000, 0x40000000, 0xBF800000, 0x7F800000, 0x3E800000, 0x40000000, 0x3FC00000]))
      (fun e => (listOf e 20 32 3, listOf e 24 32 2, e.ar.gflags)) =
        some ([2, 1, 0x7F7FFFFF], [0x7F7FFFFF, 0x40000000], 1) := by decide

/-- Section 10's "a tie at the cut". -/
theorem test_sparse_tie :
    shows (.vsprs (rf 4 8 0 12 .i8)) (seated fun h => (wide (strip 8 h)).setVreg 8 (elems 8 [5, 249, 7, 0, 251, 3, 7, 254]))
      (fun e => (listOf e 4 8 4, e.readElem 12 16 0)) = some ([5, 249, 7, 7], 0x0C88) := by decide

/-- Section 7's "ranking six scores": the indices and keys of the top four, and GNAN. -/
theorem test_topk_ranks :
    shows (.vtopk { rf 20 8 5 24 .f32 with aux := 1 })
      (seated fun h => ((wide (strip 6 h)).setS 5 4).setVreg 8
        (elems 32 [0x40000000, 0x7FC00000, 0x7F800000, 0x7F7FFFFF, 0xFF800000, 0x40000000]))
      (fun e => (listOf e 24 32 4, listOf e 20 32 4, e.ar.gflags)) =
        some ([2, 3, 0, 5], [0x7F7FFFFF, 0x7F7FFFFF, 0x40000000, 0x40000000], 1) := by decide

/-- Section 7's "tree order": 2^24, 1, 1, 1 summed with and without element 1; NX is bit 4 of AFLAGS. -/
theorem test_sum_tree :
    let f := rf 4 8 0 0 .f32
    let go (f : RFields) := shows (.vredsum f) (seated fun h => (((wide (strip 4 h)).setMask 0 13).setVreg 8
      (elems 32 [0x4B800000, 0x3F800000, 0x3F800000, 0x3F800000]))) fun e => (e.readElem 4 32 0, e.ar.aflags)
    go f = some (0x4B800001, 16) ∧ go { f with masked := true } = some (0x4B800001, 0) := by decide

/-- Section 7's "two stochastic roundings". -/
theorem test_stochastic :
    shows (.vcvt { rf 4 8 0 0 .bf16 with rm := .rsr, aux := 10 })
      (seated fun h => { (wide (strip 2 h)).setVreg 8 (elems 32 [0x3F80FC00, 0x3F80FC00]) with
        ar := { h.ar with seed := 1 } })
      (fun e => (listOf e 4 16 2, e.ar.seed, e.ar.aflags)) = some ([0x3F80, 0x3F81], 0x04080601, 16) := by decide +kernel

/-- Section 9's "a K4 round trip": codes, header and NX of VQUANT. -/
theorem test_quantise :
    shows (.vquant (rf 20 8 0 1 .k4))
      (seated fun h => (wide (strip 32 h)).setVreg 8 (elems 32 [0x40400000, 0xBF8CCCCD, 0x3E99999A, 0x40266666]))
      (fun e => (listOf e 20 8 3, e.header 1 0, e.ar.aflags)) = some ([0xC7, 0x81, 0], 0x7E05, 16) := by decide +kernel

/-- The second half of that round trip. -/
theorem test_dequantise :
    shows (.vdeq { rf 24 20 0 1 .f32 with aux := 14 })
      (seated fun h => ((wide (strip 32 h)).setVreg 20 0x81C7).setHeader 1 0 0x7E05)
      (fun e => (listOf e 24 32 5, e.ar.aflags)) =
        some ([0x40400000, 0xBF800000, 0x3E800000, 0x40200000, 0], 0) := by decide +kernel

/-- Section 5's loop: N in s5, and the state at the loop's last word in its first execution. -/
def loopStart : Hart := { (wide tester).setS 5 3 with pc := 0x10000 }

def loopFirst : Hart :=
  { loopStart with
    pc := 0x10030,
    ctl := { loopStart.ctl with
      greg := 1, loops := [{ start := 0x10008, stop := 0x10038, count := 4, pipe := some (3, 2) }] },
    vec := { loopStart.vec with rotBase := 0, rotSize := 4 } }

/-- The loop's last word again, one execution later. -/
def loopNext (h : Hart) : Hart := { h.fallThrough with pc := 0x10030 }

/-- LCNT, GREG bits 1 to 0, BASE, and the registers that v28 and v29 name. -/
def loopView (h : Hart) : List Word × Nat × Nat × Nat × Nat :=
  (h.ctl.loops.map fun l => l.count, h.ctl.greg.toNat % 4, h.vec.rotBase.toNat, h.mapReg 28, h.mapReg 29)

/-- Section 5's "three iterations in two stages": the loop-back steps of a LOOPP with N = 3, St = 2 and rb = 4. -/
theorem test_pipelined_enter :
    shows (.loopp (jf 1 5 4 7)) (seated fun _ => loopStart) loopView = some ([4], 1, 0, 28, 29) := by decide

theorem test_pipelined_back :
    loopView (loopNext loopFirst) = ([3], 3, 3, 31, 28) ∧
    loopView (loopNext (loopNext loopFirst)) = ([2], 3, 2, 30, 31) ∧
    loopView (loopNext (loopNext (loopNext loopFirst))) = ([1], 2, 1, 29, 30) ∧
    (loopView (loopNext (loopNext (loopNext (loopNext loopFirst))))).2.2.1 = 1 := by decide

/-- R157 and section 6: `bne s6, s0, copy` seven words after `copy` branches back by 56 bytes. -/
theorem test_branch :
    shows (.bne (jf 0 6 0 0xFFFFFFF9)) (seated fun h => h.setS 6 1000) (fun e => e.pc) = some 0xFFC8 ∧
    shows (.bne (jf 0 6 0 0xFFFFFFF9)) world (fun e => e.pc) = some 0x10008 := by decide

/-- R131, R162, R172: pops of empty queues. QCHK is set when a hart starts, so they trap QUEUE (cause 0x14). -/
theorem test_empty_queues :
    let traps (i : Instr) := shows i world fun e => (e.trp.cause, e.trp.tval, e.trp.prv)
    traps (.lqpop (rf 4 0 0 0 .i8)) = some (Cause.queue.code, 1, true) ∧
    traps (.cqpop (rf 4 0 0 0 .i8)) = some (Cause.queue.code, 3, true) ∧
    shows (.lqpop (rf 4 0 0 0 .i8)) (seated fun h => { h with ctl := { h.ctl with lq := [7, 9] } })
      (fun e => (e.sreg 4, e.ctl.lq)) = some (7, [9]) := by decide

/-- Section 8's declaration: class L1 with NV 32 and SEW 32 has VLMAX 400; VSETL opens the strip of the lesser. -/
theorem test_strip :
    shows (.vgetmax (rf 4 0 0 0 .i8)) (seated long) (fun e => e.sreg 4) = some 400 ∧
    shows (.vsetl (rf 13 6 0 0 .i8)) (seated fun h => (long h).setS 6 1000) (fun e => (e.sreg 13, e.vl, e.vec.ord)) =
      some (400, 400, 1) := by decide

/-- R284 and R5: a store writes little-endian bytes, which a load sign-extends or zero-extends. -/
theorem test_store_bytes :
    ((after (exec (.stw { mf 4 5 0 .i8 with off := 2 }) (seated fun h => (h.setS 4 0x8000000180AABBCC).setS 5 0x11000))).map
      fun t => t.mem.readBytes 0x11008 5) = some [0xCC, 0xBB, 0xAA, 0x80, 0] := by decide

theorem test_load_extends :
    let s := { seated fun h => h.setS 5 0x11000 with mem := world.mem.write 0x11001 0x80 }
    shows (.ldb { mf 4 5 0 .i8 with off := 1 }) s (fun e => e.sreg 4) = some (-128) ∧
    shows (.ldbn { mf 4 5 0 .i8 with off := 1 }) s (fun e => e.sreg 4) = some 128 ∧
    shows (.ldhn (mf 4 5 0 .i8)) s (fun e => e.sreg 4) = some 0x8000 ∧
    shows (.ldd (mf 4 6 0 .i8)) s (fun e => (e.trp.cause, e.trp.tval)) = some (Cause.rmiss.code, 0) := by decide

/-- Section 12's load that runs off its range: elements 0 to 7 are loaded and 8 is pushed; from the end on it traps RMISS. -/
theorem test_load_first_fault :
    shows (.vldff { mf 8 5 0 .f32 with am := 3 }) (seated fun h => (wide (strip 16 h)).setS 5 0x1FFE0)
      (fun e => (e.ctl.lq, e.trp.prv, e.vstart)) = some ([8], false, 0) ∧
    shows (.vldff { mf 8 5 0 .f32 with am := 3 }) (seated fun h => (wide (strip 16 h)).setS 5 0x20000)
      (fun e => (e.ctl.lq, e.trp.cause, e.trp.tval, e.vstart)) = some ([], Cause.rmiss.code, 0x20000, 0) := by decide

/-- Section 12's two harts, the lone AADD first: the old value comes back and the sum stands in memory. -/
theorem test_atomic :
    let s := { seated fun h => (h.setS 21 0x11000).setS 13 100 with mem := world.mem.write 0x11000 10 }
    shows (.aadd (mf 12 21 13 .i32)) s (fun e => e.sreg 12) = some 10 ∧
    ((after (exec (.aadd (mf 12 21 13 .i32)) s)).map fun t => t.mem.readLE 0x11000 8) = some 110 ∧
    shows (.aadd (mf 12 21 13 .i32)) (seated fun h => h.setS 21 0x11002) (fun e => (e.trp.cause, e.trp.tval)) =
      some (Cause.misalign.code, 0x11002) := by decide

/-- R440, R454 and R455: `trap 5` saves the next word's address; TRET is a system instruction. -/
theorem test_trap :
    shows (.trap { xf 0 0 0 0 with imm := 5 }) (seated fun h => { h with trp := { h.trp with tvec := 0x18000 } })
      (fun e => (e.pc, e.trp.cause, e.trp.tval, e.trp.tpc, e.trp.prv)) = some (0x18000, 0x11, 5, 0x10008, true) ∧
    shows (.tret (xf 0 0 0 0)) (seated fun h => { system h with trp := { (system h).trp with tpc := 0x10010 } })
      (fun e => (e.pc, e.trp.prv)) = some (0x10010, false) ∧
    shows (.tret (xf 0 0 0 0)) world (fun e => (e.trp.cause, e.trp.tval)) =
      some (Cause.priv.code, 0x3800000001000000) := by decide

/-- R453: CSRS sets bits of GREG; a write of TSTAT at program level traps PRIV. -/
theorem test_csr :
    shows (.csrs { xf 0 12 0 0 with imm := 4 }) (seated fun h => { h.setS 12 6 with ctl := { h.ctl with greg := 1 } })
      (fun e => e.ctl.greg) = some 7 ∧
    shows (.csrs { xf 0 12 0 0 with imm := 0x34 }) world (fun e => e.trp.cause) = some Cause.priv.code := by decide

/-- R91: WIDR 7 gives the WID. R118: a hint only moves the PC. -/
theorem test_small : shows (.widr { xf 4 0 0 0 with imm := 7 }) world (fun e => (e.sreg 4, e.pc)) = some (0, 0x10008) ∧
    shows (.nop 3 5) world (fun e => e.pc) = some 0x10008 := by decide

/-- A step fetches the word at the PC and executes it; a word that is no instruction traps ILLOP with the word in TVAL (R120). -/
theorem test_step :
    ((after (step (State.reset.withFetchWord 64 0x0210000000000007))).bind fun t => (t.hart? 0).map fun e => (e.sreg 4, e.pc)) =
      some (7, 0x10008) ∧
    ((after (step (State.reset.withFetchWord 64 0x0F1083009A580020))).bind fun t => (t.hart? 0).map fun e =>
      (e.trp.cause, e.trp.tval, e.trp.tpc)) = some (Cause.illop.code, 0x0F1083009A580020, 0x10000) := by decide

/-- Section 3's host side: FetchAdd on the TAIL of an enabled queue answers the old position (R71). -/
theorem test_tail :
    let q : QueueId := { die := 1, bulk := true, q := 2 }
    ((after (exec (.qctlWrite q 1) State.reset)).bind fun s => (after (exec (.tailFetchadd q .fetchAdd true 3) s)).map fun t =>
      ((t.queue 26).tail, t.outputs)) = some (3, [.completion [0, 0, 0, 0, 0, 0, 0, 0]]) := by decide

/-- Section 14's route: device (2, 5) of a 16 × 16 grid, asked for (9, 11), sends along its row to column 11 first (R319). -/
theorem test_row_first :
    let hub (row col : BitVec 4) : Hub := { Hub.reset with nr := 15, nc := 15, row := row, col := col }
    (hub 2 5).nextHop 9 11 = (2, 11) ∧ (hub 2 11).nextHop 9 11 = (9, 11) := by decide

/-- Section 15's "an integer row that saturates": the first cells of row 0, and OF. -/
theorem test_matrix_saturates :
    let t : Tile := { data := (List.range 32).foldl (fun x r => x + 0xFF7F * 2 ^ (1024 * r)) 0, headers := 0, shape := shapeOf 0 false }
    let acc : Vector Bits 4 := (tester.mat.acc.set 0 0x7FFF0000)
    (shows (.mmul { xf 0 8 0 0 with imm := 0 })
      (seated fun h => { ((wide (strip 1 h)).setVreg 8 (elems 8 (List.replicate 32 127))).setTile 0 t with
        mat := { (h.setTile 0 t).mat with acc := acc } })
      fun e => (e.cell 0 0 0, e.cell 0 0 1, e.cell 0 0 2, e.ar.aflags)) = some (0x7FFFFFFF, 0xFFFFF020, 0, 4) := by
  decide +kernel

/-- The world's launch with a task queue on die 0: F = 8, CMIN = 4, and what the queue holds (Table 1.3, R86). -/
def queueLaunch (q : List Interval) : Launch :=
  { loadLaunch State.reset 0 with
    dwords := loadRecord.set 2 (loadRecord[2] ||| BitVec.ofNat 64 (2 + 7 * 2 ^ 7 + 4 * 2 ^ 11)),
    tasks := (Vector.replicate 4 []).set 0 q }

def queueWorld (q : List Interval) : State := { world with launches := [(1, queueLaunch q)] }

/-- Section 3's "shrinking chunks": with F × P = 8 and CMIN = 4, [0, 100) gives 13 positions from 0, [93, 97) gives 4. -/
theorem test_chunks :
    shows (.tqget (xf 4 0 0 0)) (queueWorld [{ start := 0, count := 100 }]) (fun e => e.sreg 4) = some (13 * 2 ^ 40) ∧
    shows (.tqget (xf 4 0 0 0)) (queueWorld [{ start := 93, count := 7 }]) (fun e => e.sreg 4) = some (4 * 2 ^ 40 + 93) ∧
    shows (.tqget (xf 4 0 0 0)) (queueWorld []) (fun e => e.sreg 4) = some 0 := by decide

/-! ### Hypotheses that can be met

For each statement, states and operands that meet its hypotheses, clause by clause. -/

/-- What a theorem below needs of a vector instruction on the world's hart. -/
theorem ready {i : Instr} {g : Hart → Hart} {f : RFields} {gs : List Group} (r : (seated g).running = some (g tester))
    (o : vectorOperands i = some (f, gs, false)) (n : (g tester).vl ≤ (g tester).vlmax)
    (z : (g tester).vec.rotSize.toNat ≤ (g tester).nv) (k : gs.any (g tester).badGroup = false)
    (q : (g tester).guardedOff f.gd f.gs = false) : VectorReady i (seated g) (g tester) :=
  ⟨r, rfl, ⟨n, z⟩, f, gs, o, k, q⟩

theorem witness_ScalarResults : ∃ (f : RFields) (s : State) (h : Hart),
    s.running = some h ∧ h.GuardOn f.gd f.gs ∧ f.sat = false :=
  ⟨rf 4 5 6 7 .i8, world, tester, rfl, rfl, rfl⟩

/-- A guarded form whose guard bit is 1. -/
theorem witness_ScalarResults_guarded : ∃ (f : RFields) (s : State) (h : Hart),
    s.running = some h ∧ f.gd = true ∧ h.GuardOn f.gd f.gs ∧ f.sat = false :=
  ⟨{ rf 4 5 6 7 .i8 with gd := true, gs := 7 }, seated fun h => { h with ctl := { h.ctl with greg := 0x80 } }, _, rfl, rfl, rfl,
    rfl⟩

theorem witness_SaturatingResults : ∃ (f : RFields) (s : State) (h : Hart),
    s.running = some h ∧ h.GuardOn f.gd f.gs ∧ f.sat = true :=
  ⟨{ rf 4 5 6 7 .i8 with sat := true }, world, tester, rfl, rfl, rfl⟩

/-- The world's hart with two operands. -/
def two (a b : Word) : State := seated fun h => (h.setS 5 a).setS 6 b

/-- Division by zero, the overflow, and the plain quotient. -/
theorem witness_DivisionResults :
    (∃ (f : RFields) (s : State) (h : Hart), s.running = some h ∧ h.GuardOn f.gd f.gs ∧ h.sreg f.b = 0) ∧
    (∃ (f : RFields) (s : State) (h : Hart), s.running = some h ∧ h.GuardOn f.gd f.gs ∧ (h.sreg f.a).toInt = -(2 ^ 63) ∧
      (h.sreg f.b).toInt = -1) ∧
    ∃ (f : RFields) (s : State) (h : Hart), s.running = some h ∧ h.GuardOn f.gd f.gs ∧ h.sreg f.b ≠ 0 ∧
      ¬ ((h.sreg f.a).toInt = -(2 ^ 63) ∧ (h.sreg f.b).toInt = -1) :=
  ⟨⟨rf 4 5 6 0 .i8, two 5 0, _, rfl, rfl, rfl⟩, ⟨rf 4 5 6 0 .i8, two 0x8000000000000000 (-1), _, rfl, rfl, by decide, by decide⟩,
   ⟨rf 4 5 6 0 .i8, two 0x8000000000000000 1, _, rfl, rfl, by decide, by decide⟩⟩

theorem witness_GuardedOffScalar :
    (∃ (f : RFields) (s : State) (h : Hart), s.running = some h ∧ h.guardedOff f.gd f.gs = true) ∧
    ∃ (f : MFields) (s : State) (h : Hart), s.running = some h ∧ h.guardedOff f.gd f.gs = true :=
  ⟨⟨{ rf 4 5 6 0 .i8 with gd := true }, world, tester, rfl, rfl⟩, ⟨{ mf 4 5 6 .i8 with gd := true }, world, tester, rfl, rfl⟩⟩

/-- The hypothesis of the immediate operations, hints, VDECL, VGETMAX and the vector configuration. -/
theorem witness_ImmediateResults : ∃ (s : State) (h : Hart), s.running = some h := ⟨world, tester, rfl⟩

theorem witness_HintOnlyAdvances : ∃ (s : State) (h : Hart), s.running = some h := ⟨world, tester, rfl⟩

theorem witness_VectorConfiguration : ∃ (s : State) (h : Hart), s.running = some h := ⟨world, tester, rfl⟩

/-- Conditions that hold and fail for BEQ, BLT and BLTN, and with them for BNE, BGE and BGEN. -/
theorem witness_BranchOutcomes :
    (∃ h : Hart, world.running = some h ∧ h.sreg 5 = h.sreg 6 ∧ ¬ (h.sreg 5).toInt < (h.sreg 6).toInt) ∧
    (∃ (s : State) (h : Hart), s.running = some h ∧ h.sreg 5 ≠ h.sreg 6 ∧ (h.sreg 5).toInt < (h.sreg 6).toInt ∧
      (h.sreg 6).toNat ≤ (h.sreg 5).toNat) ∧
    (∃ h : Hart, h.trp.prv = true) ∧ ∃ h : Hart, h.trp.prv = false ∧ h.ctl.loops ≠ [] :=
  ⟨⟨tester, rfl, by decide⟩, ⟨seated fun h => h.setS 5 (-1), _, rfl, by decide⟩, ⟨system tester, rfl⟩, ⟨loopFirst, rfl, by decide⟩⟩

/-- Targets that are multiples of 8 and that are not, for JR and for RET. -/
theorem witness_JumpOutcomes :
    (∃ (f : JFields) (s : State) (h : Hart), s.running = some h ∧ h.trp.prv = false ∧
      (BitVec.ofInt 64 ((h.sreg f.a).toNat + 8 * f.off.toInt)).toNat % 8 = 0 ∧ (h.sreg 1).toNat % 8 = 0) ∧
    ∃ (f : JFields) (s : State) (h : Hart), s.running = some h ∧ h.trp.prv = false ∧
      (BitVec.ofInt 64 ((h.sreg f.a).toNat + 8 * f.off.toInt)).toNat % 8 ≠ 0 ∧ (h.sreg 1).toNat % 8 ≠ 0 :=
  ⟨⟨jf 0 5 0 0xFFFFFFFE, seated fun h => (h.setS 5 0x10040).setS 1 0x10100, _, rfl, rfl, by decide⟩,
   ⟨jf 0 5 0 1, seated fun h => (h.setS 5 0x10044).setS 1 7, _, rfl, rfl, by decide⟩⟩

/-- A level of the loop stack, plain or pipelined. -/
def level (p : Option (BitVec 32 × BitVec 4)) : LoopLevel := { start := 0x10000, stop := 0x10008, count := 2, pipe := p }

def looping (ls : List LoopLevel) (h : Hart) : Hart := { h with ctl := { h.ctl with loops := ls } }

/-- LCNT with and without a level, each of the checks of LOOP and LOOPP at program level, and loop-back steps: out of a level,
round a plain one, and round a pipelined one without and with a rotating block. -/
theorem witness_LoopOutcomes :
    (∃ h : Hart, world.running = some h ∧ h.ctl.loops = []) ∧
    (∃ (s : State) (h : Hart) (l : LoopLevel) (r : List LoopLevel), s.running = some h ∧ h.ctl.loops = l :: r) ∧
    (∃ (f : JFields) (h : Hart), world.running = some h ∧ h.trp.prv = false ∧ f.off.toInt < 2) ∧
    (∃ (f : JFields) (s : State) (h : Hart), s.running = some h ∧ h.trp.prv = false ∧ 2 ≤ f.off.toInt ∧
      4 ≤ h.ctl.loops.length) ∧
    (∃ (f : JFields) (h : Hart), world.running = some h ∧ h.trp.prv = false ∧ 2 ≤ f.off.toInt ∧ ¬ 4 ≤ h.ctl.loops.length ∧
      (h.sreg f.a).toNat % 2 ^ 32 = 0 ∧ h.ctl.loops.any (fun l => l.pipe.isSome) = false ∧
      64 * bit01 (f.d.getLsbD 3) + f.b.toNat ≤ h.nv) ∧
    (∃ (f : JFields) (s : State) (h : Hart), s.running = some h ∧ h.trp.prv = false ∧ 2 ≤ f.off.toInt ∧
      ¬ 4 ≤ h.ctl.loops.length ∧ (h.sreg f.a).toNat % 2 ^ 32 ≠ 0 ∧ h.ctl.loops.any (fun l => l.pipe.isSome) = false ∧
      64 * bit01 (f.d.getLsbD 3) + f.b.toNat ≤ h.nv) ∧
    (∃ (f : JFields) (h : Hart), world.running = some h ∧ h.trp.prv = false ∧ 2 ≤ f.off.toInt ∧ ¬ 4 ≤ h.ctl.loops.length ∧
      h.ctl.loops.any (fun l => l.pipe.isSome) = false ∧ h.nv < 64 * bit01 (f.d.getLsbD 3) + f.b.toNat) ∧
    (∃ (f : JFields) (s : State) (h : Hart), s.running = some h ∧ h.trp.prv = false ∧ 2 ≤ f.off.toInt ∧
      ¬ 4 ≤ h.ctl.loops.length ∧ h.ctl.loops.any (fun l => l.pipe.isSome) = true) ∧
    (∃ h : Hart, h.trp.prv = true) ∧
    (∀ c ∈ ([1, 2] : List (BitVec 64)), ∀ p ∈ [none, some (2, 2)], ∀ size ∈ ([0, 8] : List (BitVec 7)), ∃ h : Hart,
      h.trp.prv = false ∧ h.vec.rotSize = size ∧
      ∃ l r, h.ctl.loops = l :: r ∧ l.stop = h.pc + 8 ∧ l.count = c ∧ l.pipe = p) :=
  ⟨⟨tester, rfl, rfl⟩, ⟨seated (looping [level none]), _, _, _, rfl, rfl⟩, ⟨jf 0 5 0 1, tester, rfl, rfl, by decide⟩,
   ⟨jf 0 5 0 2, seated (looping (List.replicate 4 (level none))), _, rfl, rfl, by decide, by decide⟩,
   ⟨jf 1 5 8 2, tester, rfl, rfl, by decide⟩, ⟨jf 1 5 8 2, seated fun h => h.setS 5 3, _, rfl, rfl, by decide⟩,
   ⟨jf 8 5 0 2, tester, rfl, rfl, by decide⟩,
   ⟨jf 1 5 4 2, seated (looping (List.replicate 3 (level (some (3, 2))))), _, rfl, rfl, by decide⟩, ⟨system tester, rfl⟩,
   fun c _ p _ size _ => ⟨looping [{ level p with count := c }] { tester with vec := { tester.vec with rotSize := size } }, rfl, rfl,
     _, _, rfl, rfl, rfl, rfl⟩⟩

/-- Queues with entries, and empty ones with and without QCHK. -/
theorem witness_QueuePops :
    (∃ (s : State) (h : Hart), s.running = some h ∧ (∃ b r, h.ctl.cq = b :: r) ∧ ∃ n r, h.ctl.lq = n :: r) ∧
    (∃ (s : State) (h : Hart), s.running = some h ∧ h.ctl.cq = [] ∧ h.ctl.lq = [] ∧ h.ctl.cqChk = false ∧
      h.ctl.lqChk = false) ∧
    ∃ h : Hart, world.running = some h ∧ h.trp.prv = false ∧ h.ctl.cq = [] ∧ h.ctl.lq = [] ∧ h.ctl.cqChk = true ∧
      h.ctl.lqChk = true :=
  ⟨⟨seated fun h => { h with ctl := { h.ctl with lq := [3], cq := [true] } }, _, rfl, ⟨_, _, rfl⟩, ⟨_, _, rfl⟩⟩,
   ⟨seated fun h => { h with ctl := { h.ctl with lqChk := false, cqChk := false } }, _, rfl, rfl, rfl, rfl, rfl⟩,
   ⟨tester, rfl, rfl, rfl, rfl, rfl, rfl⟩⟩

theorem witness_StripsOpen :
    (∃ h : Hart, world.running = some h ∧ h.stripStops = false ∧ h.trp.prv = false ∧ h.ctl.lq = [] ∧ h.ctl.lqChk = true) ∧
    (∃ (s : State) (h : Hart) (n : BitVec 32) (r : List (BitVec 32)),
      s.running = some h ∧ h.stripStops = false ∧ h.ctl.lq = n :: r) ∧
    ∃ (s : State) (h : Hart), s.running = some h ∧ h.stripStops = false ∧ h.ctl.lq = [] ∧ h.ctl.lqChk = false :=
  ⟨⟨tester, rfl, rfl, rfl, rfl, rfl⟩, ⟨seated fun h => { h with ctl := { h.ctl with lq := [3] } }, _, _, _, rfl, rfl, rfl⟩,
   ⟨seated fun h => { h with ctl := { h.ctl with lqChk := false } }, _, rfl, rfl, rfl, rfl⟩⟩

/-- A hart with a strip of two elements, NV 32 and SEW 32. -/
def vectors (h : Hart) : Hart := wide (strip 2 h)

theorem vectors_ready {i : Instr} {f : RFields} {gs : List Group} (o : vectorOperands i = some (f, gs, false))
    (k : gs.any (vectors tester).badGroup = false) (q : (vectors tester).guardedOff f.gd f.gs = false) :
    VectorReady i (seated vectors) (vectors tester) :=
  ready rfl o (by decide) (by decide) k q

/-- A group that is not aligned, operands that overlap, and a guard that is off, on registers and on memory. -/
theorem witness_VectorChecks :
    (∃ (i : Instr) (f : RFields) (gs : List Group) (clash : Bool) (s : State) (h : Hart),
      vectorOperands i = some (f, gs, clash) ∧ s.running = some h ∧ h.trp.prv = false ∧ ¬ h.GroupsOk gs) ∧
    (∃ (i : Instr) (f : RFields) (gs : List Group) (clash : Bool) (s : State) (h : Hart),
      vectorOperands i = some (f, gs, clash) ∧ s.running = some h ∧ h.trp.prv = false ∧ h.GroupsOk gs ∧ ¬ clash = false) ∧
    (∃ (i : Instr) (f : RFields) (gs : List Group) (s : State) (h : Hart), vectorOperands i = some (f, gs, false) ∧
      s.running = some h ∧ h.GroupsOk gs ∧ h.guardedOff f.gd f.gs = true) ∧
    (∃ (f : MFields) (s : State) (h : Hart), s.running = some h ∧ h.trp.prv = false ∧
      f.am = 2 ∧ ¬ h.GroupsOk [groupM f f.d f.et.bits] ∧ ¬ h.GroupsOk [groupM f f.b (indexWidth f)]) ∧
    (∃ (f : MFields) (s : State) (h : Hart), s.running = some h ∧ h.trp.prv = false ∧ f.am = 2 ∧
      h.GroupsOk [groupM f f.d f.et.bits, groupM f f.b (indexWidth f)] ∧
      (groupM f f.d f.et.bits).overlaps (groupM f f.b (indexWidth f)) = true) ∧
    ∃ (f : MFields) (s : State) (h : Hart), s.running = some h ∧ f.am = 2 ∧
      h.GroupsOk [groupM f f.d f.et.bits, groupM f f.b (indexWidth f)] ∧
      (groupM f f.d f.et.bits).overlaps (groupM f f.b (indexWidth f)) = false ∧ h.guardedOff f.gd f.gs = true :=
  ⟨⟨.vadd { rf 5 8 12 0 .i8 with gm := 1 }, _, _, _, seated vectors, _, rfl, rfl, rfl, by unfold Hart.GroupsOk; decide⟩,
   ⟨.vperm (rf 4 8 4 0 .i8), _, _, _, seated vectors, _, rfl, rfl, rfl, rfl, by decide⟩,
   ⟨.vadd { rf 4 8 12 0 .i8 with gd := true }, _, _, seated vectors, _, rfl, rfl, rfl, rfl⟩,
   ⟨{ mf 5 5 9 .i32 with am := 2, gm := 1 }, seated vectors, vectors tester, rfl, rfl, rfl, by unfold Hart.GroupsOk; decide,
    by unfold Hart.GroupsOk; decide⟩,
   ⟨{ mf 8 5 8 .i32 with am := 2 }, seated vectors, vectors tester, rfl, rfl, rfl, by unfold Hart.GroupsOk; decide, by decide⟩,
   ⟨{ mf 8 5 12 .i32 with am := 2, gd := true }, seated vectors, vectors tester, rfl, rfl, by unfold Hart.GroupsOk; decide,
    by decide, rfl⟩⟩

/-- Each integer operation, with and without a clamped result. -/
theorem witness_VectorIntegerResults : ∃ (f : RFields) (s : State) (h : Hart), s.running = some h ∧ f.et.isInt = true ∧
    f.sat = true ∧ h.active (govR f) 0 = true ∧
    ∀ i ∈ [Instr.vadd f, .vsub f, .vmul f, .vmulh f, .vmac f, .vadds f, .vsubs f, .vmin f, .vmax f, .vabs f, .vneg f],
      VectorReady i s h :=
  ⟨{ rf 4 8 12 0 .i16 with sat := true }, seated vectors, vectors tester, rfl, rfl, rfl, by decide, by
    simp only [List.forall_mem_cons, List.not_mem_nil, false_imp_iff, implies_true, and_true]
    (repeat' apply And.intro) <;> exact vectors_ready rfl rfl rfl⟩

theorem witness_VectorBitResults : ∃ (f : RFields) (s : State) (h : Hart), s.running = some h ∧
    ∀ i ∈ [Instr.vand f, .vor f, .vxor f, .vsll f, .vsrl f, .vsra f, .vpopc f, .vclz f, .vmv f, .vbcast f, .vid f, .vsel f],
      VectorReady i s h :=
  ⟨{ rf 4 8 12 0 .n32 with masked := true, mr := 1 }, seated vectors, vectors tester, rfl, by
    simp only [List.forall_mem_cons, List.not_mem_nil, false_imp_iff, implies_true, and_true]
    (repeat' apply And.intro) <;> exact vectors_ready rfl rfl rfl⟩

theorem witness_WideningAndDivision :
    (∃ (f : RFields) (s : State) (h : Hart), s.running = some h ∧ etWiden f.et = true ∧ f.sat = true ∧
      h.active (govR f) 1 = true ∧ VectorReady (.vwmul f) s h ∧ VectorReady (.vwmac f) s h) ∧
    ∃ (f : RFields) (s : State) (h : Hart), VectorReady (.vdiv f) s h ∧ f.et.isInt = true ∧ f.et.isSigned = true ∧
      h.active (govR f) 0 = true ∧ h.readElem f.b f.et.bits 0 = 0 ∧ h.readElem f.b f.et.bits 1 = 0xFF :=
  ⟨⟨{ rf 4 8 12 0 .i16 with sat := true }, seated vectors, vectors tester, rfl, rfl, rfl, by decide, vectors_ready rfl rfl rfl,
    vectors_ready rfl rfl rfl⟩,
   ⟨rf 4 8 12 0 .i8, seated fun h => (vectors h).setVreg 12 0xFF00, (vectors tester).setVreg 12 0xFF00,
    ready (g := fun h => (vectors h).setVreg 12 0xFF00) rfl rfl (by decide) (by decide) rfl rfl, rfl, rfl, by decide, by decide,
    by decide⟩⟩

theorem witness_CompareResults :
    (∃ (f : RFields) (s : State) (h : Hart), VectorReady (.vcmp f) s h ∧ f.d.toNat < 8 ∧ f.et.isInt = true ∧
      f.aux.toNat < 6) ∧
    ∃ (f : RFields) (s : State) (h : Hart), VectorReady (.vcmp f) s h ∧ f.d.toNat < 8 ∧ f.et.isFloat = true ∧
      f.aux.toNat < 8 :=
  ⟨⟨{ rf 7 8 12 0 .i32 with aux := 5 }, seated vectors, vectors tester, vectors_ready rfl rfl rfl, by decide, rfl, by decide⟩,
   ⟨{ rf 7 8 12 0 .f32 with aux := 7 }, seated vectors, vectors tester, vectors_ready rfl rfl rfl, by decide, rfl, by decide⟩⟩

theorem witness_VectorFrames :
    (∃ (f : RFields) (s : State) (h : Hart),
      ∀ i ∈ [Instr.vfadd f, .vfsub f, .vfmul f, .vfma f, .vfms f, .vfnma f, .vfmin f, .vfmax f, .vfclass f, .vfabs f, .vfneg f,
        .vfdiv f, .vfsqrt f, .vfrcp f, .vfrsq f, .vexp2 f, .vlog2 f, .vexp f, .vlog f, .vtanh f, .vslideup f,
        .vslidedn f, .vperm f, .vexpnd f], VectorReady i s h) ∧
    (∃ (f : RFields) (s : State) (h : Hart), VectorReady (.vcvt f) s h) ∧
    (∃ (f : RFields) (s : State) (h : Hart),
      (∀ i ∈ [Instr.vpushl f, .vcompr f, .vrec f, .vredsum f, .vredmax f, .vredmin f, .vredand f, .vredor f, .vscan f,
        .vbsort f, .vbmerge f, .vtopk f, .vgtopk f, .vsprs f], VectorReady i s h) ∧
      ∀ p, gateOf h.begun (h.sreg f.b) = some p →
        h.vl / p.experts * (p.choose + 1) ≤ groupSize f.gm * h.vlmax * h.sew / 32) :=
  ⟨⟨rf 4 8 12 16 .f32, seated vectors, vectors tester, by
    simp only [List.forall_mem_cons, List.not_mem_nil, false_imp_iff, implies_true, and_true]
    (repeat' apply And.intro) <;> exact vectors_ready rfl rfl rfl⟩,
   ⟨{ rf 4 8 0 0 .bf16 with aux := 10 }, seated vectors, vectors tester, vectors_ready rfl rfl rfl⟩,
   ⟨rf 4 8 12 16 .f32, seated fun h => (vectors h).setS 12 0x01010002, (vectors tester).setS 12 0x01010002, by
    simp only [List.forall_mem_cons, List.not_mem_nil, false_imp_iff, implies_true, and_true]
    (repeat' apply And.intro) <;>
      exact ready (g := fun h => (vectors h).setS 12 0x01010002) rfl rfl (by decide) (by decide) rfl rfl, by decide⟩⟩

theorem witness_FloatResults : ∃ (f : RFields) (s : State) (h : Hart) (m : Mode), f.et.isFloat = true ∧ f.rm ≠ .rsr ∧
    h.roundMode f.rm = (m, h) ∧ ∀ i ∈ [Instr.vfadd f, .vfsub f, .vfmul f, .vfdiv f, .vfma f, .vfms f, .vfnma f,
      .vfmin f, .vfmax f, .vfabs f, .vfneg f], VectorReady i s h :=
  ⟨{ rf 4 8 12 16 .f32 with rm := .rup }, seated vectors, vectors tester, _, rfl, by decide, rfl, by
    simp only [List.forall_mem_cons, List.not_mem_nil, false_imp_iff, implies_true, and_true]
    (repeat' apply And.intro) <;> exact vectors_ready rfl rfl rfl⟩

/-- Queues with room and full ones, for the pushing forms; forms without AUX bit 0 for the others. -/
theorem witness_MaskResults :
    (∃ (f : RFields) (s : State) (h : Hart), f.d.toNat < 8 ∧ ∀ i ∈ [Instr.vmand f, .vmor f, .vmxor f, .vmnot f, .vmset f,
      .vmclr f, .vmpre f, .vminc f, .vmone f], VectorReady i s h) ∧
    (∃ (f : RFields) (s : State) (h : Hart), VectorReady (.vmpop f) s h ∧ VectorReady (.vmfirst f) s h ∧
      f.aux.getLsbD 0 = false ∧ h.vstart < h.vl) ∧
    (∃ (f : RFields) (s : State) (h : Hart), VectorReady (.vmpop f) s h ∧ VectorReady (.vmfirst f) s h ∧
      f.aux.getLsbD 0 = true ∧ VectorReady (.vanyq f) s h ∧ VectorReady (.vallq f) s h ∧ h.ctl.lq.length < 16 ∧
      h.ctl.cq.length < 16) ∧
    ∃ (f : RFields) (s : State) (h : Hart), VectorReady (.vmpop f) s h ∧ VectorReady (.vmfirst f) s h ∧
      f.aux.getLsbD 0 = true ∧ VectorReady (.vanyq f) s h ∧ VectorReady (.vallq f) s h ∧ 16 ≤ h.ctl.lq.length ∧
      16 ≤ h.ctl.cq.length ∧ h.trp.prv = false := by
  let full (h : Hart) : Hart :=
    { vectors h with ctl := { h.ctl with lq := List.replicate 16 1, cq := List.replicate 16 true } }
  have r {i : Instr} {f : RFields} {gs : List Group} (o : vectorOperands i = some (f, gs, false))
      (k : gs.any (full tester).badGroup = false) (q : (full tester).guardedOff f.gd f.gs = false) :
      VectorReady i (seated full) (full tester) := ready rfl o (by decide) (by decide) k q
  refine ⟨⟨rf 7 1 2 0 .i8, seated vectors, vectors tester, by decide, ?_⟩,
    ⟨rf 4 1 0 0 .i32, seated vectors, vectors tester, vectors_ready rfl rfl rfl, vectors_ready rfl rfl rfl, rfl, by decide⟩,
    ⟨{ rf 0 1 0 0 .i8 with aux := 1 }, seated vectors, vectors tester, vectors_ready rfl rfl rfl, vectors_ready rfl rfl rfl,
      rfl, vectors_ready rfl rfl rfl, vectors_ready rfl rfl rfl, by decide, by decide⟩,
    ⟨{ rf 0 1 0 0 .i8 with aux := 1 }, seated full, full tester, r rfl rfl rfl, r rfl rfl rfl, rfl, r rfl rfl rfl,
      r rfl rfl rfl, by decide, by decide, rfl⟩⟩
  simp only [List.forall_mem_cons, List.not_mem_nil, false_imp_iff, implies_true, and_true]
  (repeat' apply And.intro) <;> exact vectors_ready rfl rfl rfl

theorem witness_PermuteResults : ∃ (f : RFields) (s : State) (h : Hart),
    ∀ i ∈ [Instr.vslideup f, .vslidedn f, .vperm f, .vcompr f], VectorReady i s h :=
  ⟨rf 4 8 12 0 .i32, seated vectors, vectors tester, by
    simp only [List.forall_mem_cons, List.not_mem_nil, false_imp_iff, implies_true, and_true]
    (repeat' apply And.intro) <;> exact vectors_ready rfl rfl rfl⟩

/-- Reductions with active elements and with none; both sorts. -/
theorem witness_ReductionsAndSorts :
    (∃ (f : RFields) (s : State) (h : Hart), f.et.isInt = true ∧ f.sat = false ∧ h.vstart < h.vl ∧
      (List.range h.vl).filter (h.active (govR f)) ≠ [] ∧
      ∀ i ∈ [Instr.vredsum f, .vredand f, .vredor f, .vredmax f, .vredmin f], VectorReady i s h) ∧
    (∃ (f : RFields) (s : State) (h : Hart), f.et.isInt = true ∧ f.sat = false ∧ h.vstart < h.vl ∧
      (List.range h.vl).filter (h.active (govR f)) = [] ∧
      ∀ i ∈ [Instr.vredsum f, .vredand f, .vredor f, .vredmax f, .vredmin f], VectorReady i s h) ∧
    ∃ (f : RFields) (s : State) (h : Hart), f.et ≠ .f64 ∧ f.et.isInt = true ∧ VectorReady (.vbsort f) s h ∧
      VectorReady (.vbmerge f) s h := by
  refine ⟨⟨rf 4 8 0 0 .i32, seated vectors, vectors tester, rfl, rfl, by decide, by decide, ?_⟩,
    ⟨{ rf 4 8 0 0 .n32 with masked := true }, seated vectors, vectors tester, rfl, rfl, by decide, by decide, ?_⟩,
    ⟨rf 4 8 12 16 .i32, seated vectors, vectors tester, by decide, rfl, vectors_ready rfl rfl rfl, vectors_ready rfl rfl rfl⟩⟩ <;>
  · simp only [List.forall_mem_cons, List.not_mem_nil, false_imp_iff, implies_true, and_true]
    (repeat' apply And.intro) <;> exact vectors_ready rfl rfl rfl

/-- Room for the headers, at the last scale register, and none. -/
theorem witness_ScaledVectors :
    (∃ (f : RFields) (s : State) (h : Hart), VectorReady (.vquant f) s h ∧ VectorReady (.vdeq f) s h ∧
      f.c.toNat + ((h.vl + 31) / 32 - 1) / 64 ≤ 7) ∧
    ∃ (f : RFields) (s : State) (h : Hart), VectorReady (.vquant f) s h ∧ VectorReady (.vdeq f) s h ∧
      ¬ (h.vl ≤ h.vstart ∨ f.c.toNat + ((h.vl + 31) / 32 - 1) / 64 ≤ 7) ∧ h.trp.prv = false :=
  ⟨⟨{ rf 4 8 0 7 .k4 with aux := 14 }, seated vectors, vectors tester, vectors_ready rfl rfl rfl, vectors_ready rfl rfl rfl,
    by decide⟩,
   ⟨{ rf 4 8 0 8 .k4 with aux := 14 }, seated vectors, vectors tester, vectors_ready rfl rfl rfl, vectors_ready rfl rfl rfl,
    by decide, rfl⟩⟩

theorem witness_PairedWords :
    (∃ (s : State) (h : Hart), s.running = some h) ∧
    (∃ (d0 a0 d1 a1 : RegIdx) (t0 t1 : ElemType) (s : State) (h : Hart), s.running = some h ∧ h.VectorOk ∧ d0 ≠ d1 ∧
      h.GroupsOk (slotGroups (.vector .vadd d0 a0 t0 false false) ++ slotGroups (.vector .vsub d1 a1 t1 false false))) ∧
    (∃ (d0 a0 d1 a1 : RegIdx) (t0 t1 : ElemType) (s : State) (h : Hart), s.running = some h ∧ h.VectorOk ∧ d0 ≠ d1 ∧
      h.trp.prv = false ∧
      ¬ h.GroupsOk (slotGroups (.vector .vadd d0 a0 t0 false false) ++ slotGroups (.vector .vsub d1 a1 t1 false false))) :=
  ⟨⟨world, tester, rfl⟩,
   ⟨4, 8, 5, 9, .i32, .i8, seated vectors, vectors tester, rfl, ⟨by decide, by decide⟩, by decide, rfl⟩,
   ⟨4, 8, 5, 9, .i32, .i64, seated vectors, vectors tester, rfl, ⟨by decide, by decide⟩, by decide, rfl, by
    unfold Hart.GroupsOk; decide⟩⟩

/-- An access that goes through, and one that fails. -/
theorem got_ok {α : Type} {x : Got α} (p : State → α → Bool) (h : (match x with | .ok s a => p s a | _ => false) = true) :
    ∃ s a, x = .ok s a ∧ p s a = true := by
  cases x with
  | ok s a => exact ⟨s, a, rfl, h⟩
  | fail _ _ _ => cases h
  | wait _ => cases h

theorem got_fail {α : Type} {x : Got α} (h : (match x with | .fail _ _ _ => true | _ => false) = true) :
    ∃ s c t, x = .fail s c t := by
  cases x with
  | ok _ _ => cases h
  | fail s c t => exact ⟨s, c, t, rfl⟩
  | wait _ => cases h

/-- The element of a scalar access at s5, without offset. -/
def scalarElement (h : Hart) (n : Nat) : Element :=
  { va := (h.sreg 5 + BitVec.ofInt 64 ((((0 : BitVec 9).toInt) * n))).toNat, size := n, lane := 0, aligned := false, hint := 0 }

/-- The world's hart with s5 at an address, and words of memory that fail. -/
def pointing (a : Word) (bad : List Nat) : State := { seated fun h => h.setS 5 a with badWords := bad }

/-- A read that goes through, one that meets a failing word, and one that fails its checks, at every size. -/
theorem witness_ScalarLoads :
    let s0 (s : State) (h : Hart) := s.setHart s.cur h.begun
    let meets (s : State) (h : Hart) : Prop := s.running = some h ∧ h.GuardOn false 0 ∧ h.wait.request = none ∧
      h.wait.answer = none ∧ h.wait.left = [] ∧ h.trp.prv = false
    (∃ (s : State) (h : Hart), meets s h ∧ ∀ n ∈ [1, 2, 4, 8], ∃ s1 ps,
      (s0 s h).openElement h.begun (scalarElement h n) .read = .ok s1 ps ∧
        decide (farPieces ps = false ∧ s1.badPieces ps = none ∧ ps.all (fun p => !p.place.phased) = true) = true) ∧
    (∃ (s : State) (h : Hart), meets s h ∧ ∃ s1 ps, (s0 s h).openElement h.begun (scalarElement h 8) .read = .ok s1 ps ∧
        decide (farPieces ps = false ∧ s1.badPieces ps = some 0x2200) = true) ∧
    ∃ (s : State) (h : Hart), meets s h ∧ ∃ s1 c t, (s0 s h).openElement h.begun (scalarElement h 8) .read = .fail s1 c t :=
  ⟨⟨pointing 0x11003 [], tester.setS 5 0x11003, ⟨rfl, rfl, rfl, rfl, rfl, rfl⟩, by
      simp only [List.forall_mem_cons, List.not_mem_nil, false_imp_iff, implies_true, and_true]
      exact ⟨got_ok _ (by decide), got_ok _ (by decide), got_ok _ (by decide), got_ok _ (by decide)⟩⟩,
   ⟨pointing 0x11000 [0x2200], tester.setS 5 0x11000, ⟨rfl, rfl, rfl, rfl, rfl, rfl⟩, got_ok _ (by decide)⟩,
   ⟨pointing 0x1FFFC [], tester.setS 5 0x1FFFC, ⟨rfl, rfl, rfl, rfl, rfl, rfl⟩, got_fail (by decide)⟩⟩

theorem witness_ScalarStores :
    let s0 (s : State) (h : Hart) := s.setHart s.cur h.begun
    let meets (s : State) (h : Hart) : Prop := s.running = some h ∧ h.GuardOn false 0 ∧ h.wait.request = none ∧
      h.wait.answer = none ∧ h.wait.left = [] ∧ h.trp.prv = false ∧ s.MemoryOk
    (∃ (s : State) (h : Hart), meets s h ∧ ∀ n ∈ [1, 2, 4, 8], ∃ s1 ps,
      (s0 s h).openElement h.begun (scalarElement h n) .write = .ok s1 ps ∧
        decide (farPieces ps = false ∧ ps.length = 1 ∧ ∀ p ∈ ps, s.mirror p.place.addr = none ∧ s.contested p.place.addr n = false) = true) ∧
    ∃ (s : State) (h : Hart), meets s h ∧ ∃ s1 c t, (s0 s h).openElement h.begun (scalarElement h 8) .write = .fail s1 c t :=
  ⟨⟨pointing 0x11003 [], tester.setS 5 0x11003, ⟨rfl, rfl, rfl, rfl, rfl, rfl, by unfold State.MemoryOk; decide⟩, by
      simp only [List.forall_mem_cons, List.not_mem_nil, false_imp_iff, implies_true, and_true]
      exact ⟨got_ok _ (by decide), got_ok _ (by decide), got_ok _ (by decide), got_ok _ (by decide)⟩⟩,
   ⟨pointing 0x20000 [], tester.setS 5 0x20000, ⟨rfl, rfl, rfl, rfl, rfl, rfl, by unfold State.MemoryOk; decide⟩,
    got_fail (by decide)⟩⟩

/-- A request in flight, of a waiter, to a peer or to the host. -/
def asked (w : Waiter) (peer : Bool) : Pending :=
  { waiter := w, peer := peer, size := 8, asid := 1, holder := 0, dest := 1, track := none }

/-- As many requests as there are tags. -/
def everyTag : Assoc Pending := (List.range' 0 65536).map fun k => (k, asked .device true)

theorem freeTag_run (x : Pending) (n : Nat) : ∀ k, freeTag ((List.range' k n).map fun i => (i, x)) k = k + n := by
  induction n with
  | zero => intro k; rfl
  | succ n ih => intro k; simp [List.range'_succ, freeTag, ih, Nat.add_assoc, Nat.add_comm 1 n]

theorem everyTag_full (s : State) (h : s.pending = everyTag) : s.tagless = true := by
  rw [State.tagless, h, everyTag, freeTag_run]
  rfl

/-- A place at a peer, for the last piece of an access. -/
def farPiece : Piece :=
  { place := { target := .peer, addr := 0x11000, row := 0, col := 1, inc := 1, asid := 1, phased := false, track := none,
               nc := false }, size := 8 }

def awaiting (r : Option (BitVec 16)) (a : Option Answer) (h : Hart) : Hart :=
  { h with wait := { h.wait with request := r, answer := a, left := [farPiece] } }

theorem witness_FarScalarAccesses :
    (∃ (s : State) (h : Hart) (v : Nat) (p : Piece), s.running = some h ∧ h.GuardOn false 0 ∧
      h.wait.answer = some (.data v) ∧ h.wait.left = [p]) ∧
    (∃ (s : State) (h : Hart) (c : Cause), s.running = some h ∧ h.GuardOn false 0 ∧ h.wait.answer = some (.failed c) ∧
      h.trp.prv = false) ∧
    (∃ (s : State) (h : Hart) (t : BitVec 16), s.running = some h ∧ h.GuardOn false 0 ∧ h.wait.answer = none ∧
      h.wait.request = some t) ∧
    ∃ (s : State) (h : Hart), s.running = some h ∧ h.GuardOn false 0 ∧ h.wait.answer = none ∧ h.wait.request = none ∧
      h.wait.left = [farPiece] ∧ s.inGrid farPiece.place = true ∧ s.tagless = true :=
  ⟨⟨seated (awaiting none (some (.data 7))), _, _, _, rfl, rfl, rfl, rfl⟩,
   ⟨seated (awaiting none (some (.failed .peer))), _, _, rfl, rfl, rfl, rfl⟩,
   ⟨seated (awaiting (some 3) none), _, _, rfl, rfl, rfl, rfl⟩,
   ⟨{ seated (awaiting none none) with pending := everyTag, hub := { world.hub with nc := 1 } }, _, rfl, rfl, rfl, rfl, rfl, by decide,
    everyTag_full _ rfl⟩⟩

/-- Atomics of both widths on a home that stands, and one that is misaligned. -/
theorem witness_ScalarAtomics :
    let meets (s s1 : State) (h : Hart) : Prop := s.running = some h ∧ h.GuardOn false 0 ∧ h.wait.request = none ∧
      h.wait.answer = none ∧ h.wait.left = [] ∧ s.MemoryOk ∧ h.trp.prv = false ∧ s1 = s.setHart s.cur h.begun ∧
      (∀ l, s.launch? h.tag = some l → l.replay = none) ∧ s.compactions.toList.all Option.isNone = true
    (∃ (s s1 : State) (h : Hart), meets s s1 h ∧ ∀ n ∈ [4, 8], ∀ acquire ∈ [false, true], ∃ s2 ps,
      s1.openElement h.begun { scalarElement h n with aligned := true, acquire := acquire } .atomic = .ok s2 ps ∧
        decide (ps.length = 1 ∧ ps.all (fun p => decide (p.place.target = .memory) && !p.place.phased && !s.contested p.place.addr n) = true ∧
          s2.badPieces ps = none ∧ (s2.atomicTurn h.begun).2 = true) = true) ∧
    ∃ (s s1 : State) (h : Hart), meets s s1 h ∧ ∃ s2 c t,
      s1.openElement h.begun { scalarElement h 8 with aligned := true } .atomic = .fail s2 c t := by
  have l (g : Hart → Hart) (h : (g tester).tag = 1) : ∀ l, (seated g).launch? (g tester).tag = some l → l.replay = none := by
    intro l e
    rw [h] at e
    cases e
    rfl
  exact ⟨⟨pointing 0x11008 [], _, tester.setS 5 0x11008, ⟨rfl, rfl, rfl, rfl, rfl, by unfold State.MemoryOk; decide, rfl, rfl,
      l (fun h => h.setS 5 0x11008) rfl, rfl⟩, by
      simp only [List.forall_mem_cons, List.not_mem_nil, false_imp_iff, implies_true, and_true]
      exact ⟨⟨got_ok _ (by decide), got_ok _ (by decide)⟩, got_ok _ (by decide), got_ok _ (by decide)⟩⟩,
    ⟨pointing 0x11004 [], _, tester.setS 5 0x11004, ⟨rfl, rfl, rfl, rfl, rfl, by unfold State.MemoryOk; decide, rfl, rfl,
      l (fun h => h.setS 5 0x11004) rfl, rfl⟩, got_fail (by decide)⟩⟩

/-- How a loop over elements ends, as a number: 0 done, 1 stopped, 2 held. -/
def ending (x : LoopEnd) : Nat :=
  match x with
  | .done _ => 0
  | .stopped _ _ _ _ => 1
  | .held _ _ => 2

/-- The six accesses of the statement, each with elements that all go through, with one that fails, and with one that waits. -/
theorem witness_VectorAccessOrder :
    let go (g : Hart → Hart) : List Nat :=
      let s0 := (seated g).setHart 0 (g tester).begun
      let f := mf 8 5 0 .i32
      let h := g tester
      let loop (elem : Nat → Element) (k : Access) (m : Probing) (step : Assoc Probe → Nat → State → Got Unit) : Nat :=
        let r := s0.probes h.begun (govM f) elem k m
        ending (memLoop (h.active (govM f)) (step r.2) (h.vl - h.vstart) h.vstart r.1)
      let single (j : Nat) : Element := { elementOf f h.begun j with aligned := true }
      let atomic (ps : Assoc Probe) (j : Nat) (t : State) : Got Unit :=
        (t.atomicElement ((single j).under ps j) (vectorAtomicOp f.et .add .add .fadd) (h.readElem f.d f.et.bits j) 0).bind
          fun t _ => .ok t ()
      [loop (elementOf f h.begun) .read (probing f) (loadInto f h.begun),
       loop (elementOf f h.begun) .write (probing f) (storeFrom f h.begun),
       loop (reduceElement f h.begun) .atomic .shared (reduceInto f h.begun), loop single .atomic (probing f) atomic]
    (∃ g : Hart → Hart, (seated g).running = some (g tester) ∧ (g tester).trp.prv = false ∧
      (g tester).GroupsOk (memGroups (mf 8 5 0 .i32)) ∧ go g = [0, 0, 0, 0]) ∧
    (∃ g : Hart → Hart, (seated g).running = some (g tester) ∧ (g tester).trp.prv = false ∧
      (g tester).GroupsOk (memGroups (mf 8 5 0 .i32)) ∧ go g = [1, 1, 1, 1]) ∧
    ∃ g : Hart → Hart, (seated g).running = some (g tester) ∧
      (g tester).GroupsOk (memGroups (mf 8 5 0 .i32)) ∧ go g = [2, 2, 2, 2] :=
  ⟨⟨fun h => (vectors h).setS 5 0x11000, rfl, rfl, rfl, by decide⟩,
   ⟨fun h => (vectors h).setS 5 0x1FFFC, rfl, rfl, rfl, by decide⟩,
   ⟨fun h => awaiting (some 3) none ((vectors h).setS 5 0x11000), rfl, rfl, by decide⟩⟩

/-- The first and the last bytes of the scratchpad. -/
theorem witness_ScratchpadVectors : ∀ a ∈ ([0x003FFFFF00000000, 0x003FFFFF000FFFF8] : List Nat),
    ∃ (s : State) (h : Hart), s.running = some h ∧ s.stopAt = none ∧ h.VectorOk ∧ h.GuardOn false 0 ∧
      h.GroupsOk [groupM (mf 8 5 0 .i32) 8 32] ∧ h.wp.cfg = 0 ∧ h.wait.request = none ∧ h.wait.answer = none ∧ h.wait.left = [] ∧
      h.wait.probed = none ∧ s.badWords = [] ∧ s.MemoryOk ∧ (∀ l, s.launch? h.tag = some l → l.replay = none) ∧
      (∀ c ∈ s.compactions.toList, c = none) ∧ (h.sreg 5).toNat = a ∧ a % 4 = 0 ∧ 0x003FFFFF00000000 ≤ a ∧
      a + h.vl * 4 ≤ 0x003FFFFF00100000 := by
  have l (g : Hart → Hart) (h : (g tester).tag = 1) : ∀ l, (seated g).launch? (g tester).tag = some l → l.replay = none := by
    intro l e
    rw [h] at e
    cases e
    rfl
  simp only [List.forall_mem_cons, List.not_mem_nil, false_imp_iff, implies_true, and_true]
  exact ⟨⟨seated fun h => (vectors h).setS 5 0x003FFFFF00000000, (vectors tester).setS 5 0x003FFFFF00000000, rfl, rfl,
      ⟨by decide, by decide⟩, rfl, rfl, rfl, rfl, rfl, rfl, rfl, rfl, by unfold State.MemoryOk; decide,
      l (fun h => (vectors h).setS 5 0x003FFFFF00000000) rfl, by decide, by decide⟩,
    ⟨seated fun h => (vectors h).setS 5 0x003FFFFF000FFFF8, (vectors tester).setS 5 0x003FFFFF000FFFF8, rfl, rfl,
      ⟨by decide, by decide⟩, rfl, rfl, rfl, rfl, rfl, rfl, rfl, rfl, by unfold State.MemoryOk; decide,
      l (fun h => (vectors h).setS 5 0x003FFFFF000FFFF8) rfl, by decide, by decide⟩⟩

/-- What VLDFF's loop comes to: 0 done, 1 stopped past the first active element by RMISS, 2 stopped at the first. -/
def tentative (g : Hart → Hart) : Nat :=
  let f := { mf 8 5 0 .i32 with am := 3 }
  let h := g tester
  let start : Option Nat := match h.wait.first with
    | some i => some i
    | none => ((List.range (h.vl - h.vstart)).map (h.vstart + ·)).find? (h.active (govM f))
  let r := (((seated g).setHart 0 h.begun).onWait fun w => { w with first := start }).probes h.begun (govM f) (elementOf f h.begun) .read (probing f)
  match memLoop (h.active (govM f)) (loadInto f h.begun r.2) (h.vl - h.vstart) h.vstart r.1 with
  | .done _ => 0
  | .stopped _ i c _ => if c = .rmiss then (if start = some i then 2 else 1) else 3
  | .held _ _ => 4

theorem witness_TentativeLoads :
    let meets (g : Hart → Hart) : Prop := (seated g).running = some (g tester) ∧ (g tester).GuardOn false 0 ∧
      (g tester).GroupsOk (memGroups { mf 8 5 0 .i32 with am := 3 }) ∧ (g tester).trp.prv = false
    (∃ g, meets g ∧ 16 ≤ (g tester).ctl.lq.length) ∧
    (∃ g, meets g ∧ (g tester).ctl.lq.length < 16 ∧ (g tester).wait.first = some 0 ∧ (g tester).vstart = 1 ∧ tentative g = 1) ∧
    ∀ n ∈ [0, 1, 2], ∃ g, meets g ∧ (g tester).ctl.lq.length < 16 ∧ tentative g = n := by
  refine ⟨⟨fun h => { vectors h with ctl := { h.ctl with lq := List.replicate 16 1 } }, ⟨rfl, rfl, rfl, rfl⟩, by decide⟩,
    ⟨fun h => { ((vectors h).setS 5 0x1FFFC).setVstart 1 with wait := { h.wait with first := some 0 } }, ⟨rfl, rfl, rfl, rfl⟩, by decide, rfl,
      by decide, by decide⟩, ?_⟩
  simp only [List.forall_mem_cons, List.not_mem_nil, false_imp_iff, implies_true, and_true]
  exact ⟨⟨fun h => (vectors h).setS 5 0x11000, ⟨rfl, rfl, rfl, rfl⟩, by decide, by decide⟩,
    ⟨fun h => (vectors h).setS 5 0x1FFFC, ⟨rfl, rfl, rfl, rfl⟩, by decide, by decide⟩,
    ⟨fun h => (vectors h).setS 5 0x20000, ⟨rfl, rfl, rfl, rfl⟩, by decide, by decide⟩⟩

/-- The world's one member at its phase groups of scope `sc`, beside `others` members that have not arrived. -/
def phaseLaunch (sc : Nat) (arrived : Option Nat) (waits : Bool) (others : Nat) : Launch :=
  let m : Member := { seat := 0, epoch := 0, clock := [], arrivals := (arrived.map fun n => (sc, { number := n, clock := [(0, 1)] })).toList,
                      inPhase := if waits then [(0, (0x10000, sc))] else [], inEwait := [], exited := false }
  let l := loadLaunch State.reset 0
  { l with
    members := (0, m) :: (List.range others).map fun i => (i + 1, { m with seat := i + 1, arrivals := [] }),
    boundaries := [(phaseKey sc 0 0, { complete := 4, clock := [(1, 3)] })] }

/-- The world with this launch; with `map`, as a system launch of the devices of a group. -/
def phaseWorld (l : Launch) (map : Nat) : State :=
  { world with launches := [(1, l)], hub := { world.hub with groups := [(recGroup l.dwords, BitVec.ofNat 256 map)] } }

/-- What tells the cases of a boundary at scope `sc` apart: the arrival of WID 0 and whether its boundary is complete, whether
the hart waits in the PHASE at its PC, whether all have arrived, with WID 0 and without, and whether other devices take part. -/
def phaseCase (sc : Nat) (l : Launch) (map : Nat) : Option (Option Bool × Bool × Bool × Bool × Bool) :=
  (Assoc.find l.members 0).map fun m =>
    let key := phaseKey sc 0 m.seat
    let n := (l.boundary key).complete + 1
    let m1 := { m with arrivals := Assoc.put m.arrivals sc { number := n, clock := [(0, 1)] } }
    ((Assoc.find m.arrivals sc).map fun a => decide (a.number < n), Assoc.find m.inPhase 0 == some (tester.pc, sc),
     (({ l with members := Assoc.put l.members 0 m1 } : Launch).phaseGroup sc key).all (fun p => p.2.arrived sc n),
     (l.phaseGroup sc key).all (fun p => p.2.arrived sc n), decide (sc = 5) && (phaseWorld l map).otherDevices l)

/-- Each case of the statement, at each scope at which it can stand. -/
theorem witness_PhaseBoundaries :
    (∀ l map, (phaseWorld l map).running = some tester ∧ (phaseWorld l map).launch? tester.tag = some l) ∧
    ([0, 1, 2, 3, 4, 5].all fun sc => phaseCase sc (phaseLaunch sc none false 0) 1 == some (none, false, true, false, false) &&
      phaseCase sc (phaseLaunch sc none true 0) 1 == some (none, true, true, false, false) &&
      phaseCase sc (phaseLaunch sc (some 4) true 0) 1 == some (some true, true, true, false, false) &&
      phaseCase sc (phaseLaunch sc (some 5) true 0) 1 == some (some false, true, true, true, false) &&
      phaseCase sc (phaseLaunch sc (some 5) false 0) 1 == some (some false, false, true, true, false)) = true ∧
    ([1, 2, 3, 4, 5].all fun sc => phaseCase sc (phaseLaunch sc none false 1) 1 == some (none, false, false, false, false) &&
      phaseCase sc (phaseLaunch sc (some 5) true 1) 1 == some (some false, true, false, false, false)) = true ∧
    phaseCase 5 (phaseLaunch 5 none false 0) 3 = some (none, false, true, false, true) :=
  ⟨fun _ _ => ⟨rfl, rfl⟩, by decide, by decide, by decide⟩

/-- A hart that waits for the word at 0x11000 to meet a condition. -/
theorem witness_FencesAndWaits :
    let e (h : Hart) : Element := { va := (h.sreg 5).toNat, size := 8, lane := 0, aligned := true, hint := 1 }
    let s0 (a : Word) : State := (pointing a []).setHart 0 (tester.setS 5 a).begun.issueAll
    (∀ a bad, (pointing a bad).running = some (tester.setS 5 a) ∧
      ((s0 a).atomicTurn (tester.setS 5 a).begun.issueAll).2 = true) ∧
    (tester.wait.request = none ∧ tester.wait.answer = none ∧ tester.wait.left = [] ∧ tester.trp.prv = false) ∧
    (∃ s2 ps, (s0 0x11000).openElement (tester.setS 5 0x11000).begun.issueAll (e (tester.setS 5 0x11000)) .read = .ok s2 ps ∧
      decide (ps.length = 1 ∧ ps.all (fun p => decide (p.place.target = .memory) && !p.place.phased) = true ∧
        s2.badPieces ps = none ∧ (s2.atomicTurn (tester.setS 5 0x11000).begun.issueAll).2 = true) = true) ∧
    (∃ (s : State) (h : Hart) (f : XFields), s.running = some h ∧ f.acq = true ∧ f.rel = true ∧ h.polled ≠ []) ∧
    (∃ s2 c t, (s0 0x11004).openElement (tester.setS 5 0x11004).begun.issueAll (e (tester.setS 5 0x11004)) .read = .fail s2 c t) := by
  exact ⟨fun _ _ => ⟨rfl, rfl⟩, ⟨rfl, rfl, rfl, rfl⟩, got_ok _ (by decide),
    ⟨seated fun h => { h with polled := [5] }, _, { xf 0 0 0 0 with acq := true, rel := true }, rfl, rfl, rfl, by decide⟩,
    got_fail (by decide)⟩

/-- A node of the world's launch, by its state, commands and status. -/
def nodeIn (st : NodeState) (c : Command) (status : Word) (succ : List Nat) : Node :=
  { gen := 1, st := st, tag := tester.tag, wid := 0, asid := loadAsid, dwords := c, count := 1, succ := succ, ancestors := [],
    cancelled := false, status := status, fval := 0, epoch := 0, clock := [], position := 0, ordinal := 0, plan := [],
    closing := false, request := none, answer := none }

/-- The world with nodes by slot of core 0, where its hart sits. -/
def nodeWorld (ns : Assoc Node) : State := { world with nodes := ns }

/-- A command of some kind and successor count, with its other doublewords. -/
def command (kind nsucc succ a b len : Nat) : Command :=
  #v[BitVec.ofNat 64 (kind * 2 ^ 60 + nsucc * 2 ^ 40), BitVec.ofNat 64 succ, 0, 0, BitVec.ofNat 64 a, BitVec.ofNat 64 b,
    BitVec.ofNat 64 len, if kind = 3 then 8 else 0]

/-- One waiting node, in slot 3. -/
def oneWaiting : State := nodeWorld [(3, nodeIn .waiting (command 5 0 0 0 0 0) 0 [])]

/-- Every slot of the core taken. -/
def allTaken : State := nodeWorld ((List.range' 0 1024).map fun i => (i, nodeIn .waiting (command 5 0 0 0 0 0) 0 []))

theorem find_run {α : Type} (x : α) (i : Nat) : ∀ n k, k ≤ i → i < k + n →
    Assoc.find ((List.range' k n).map fun j => (j, x)) i = some x := by
  intro n
  induction n with
  | zero => intro k a b; omega
  | succ n ih =>
    intro k a b
    simp only [List.range'_succ, List.map_cons, Assoc.find]
    by_cases e : i = k
    · simp [e]
    · have d : ¬ i < k := by omega
      simp only [e, d, if_false]
      exact ih (k + 1) (by omega) (by omega)

theorem taken_all : allTaken.freeSlots 0 = [] := by
  unfold State.freeSlots
  refine List.filter_eq_nil_iff.mpr fun i hi => ?_
  have r : Assoc.find allTaken.nodes (nodeKey 0 i) = some (nodeIn .waiting (command 5 0 0 0 0 0) 0 []) := by
    have e : nodeKey 0 i = i := by unfold nodeKey; omega
    rw [e]
    exact find_run _ i 1024 0 (by omega) (by simpa using hi)
  rw [r]
  decide

theorem room_left : oneWaiting.freeSlots 0 ≠ [] := by
  have h : 0 ∈ oneWaiting.freeSlots 0 := List.mem_filter.mpr ⟨by simp, by decide⟩
  exact List.ne_nil_of_mem h

/-- A command for each reason of rejection and one that is accepted; records and spans that are and are not in place. -/
theorem witness_EngineSubmission :
    (allTaken.running = some tester ∧ allTaken.freeSlots (coreIndex allTaken.cur) = []) ∧
    (oneWaiting.running = some tester ∧ oneWaiting.freeSlots (coreIndex oneWaiting.cur) ≠ [] ∧
      let judged (c : Command) := (cmdFieldsOk c, oneWaiting.namedSuccessors tester.tag 0 [] c, cmdOverlaps c, cmdMisplaced c)
      (judged (command 6 0 0 0 0 0)).1 = false ∧ judged (command 5 1 1028 0 0 0) = (true, none, false, false) ∧
      judged (command 0 1 1027 0x11000 0x11000 8) = (true, some [1027], true, false) ∧
      judged (command 3 0 0 0x11000 0x11000 1) = (true, some [], false, true) ∧
      judged (command 5 1 1027 0 0 0) = (true, some [1027], false, false)) ∧
    (∃ (s : State) (h : Hart), s.running = some h ∧ (h.sreg 5).toNat % 64 ≠ 0 ∧ h.trp.prv = false) ∧
    (∃ (s : State) (h : Hart), s.running = some h ∧ (h.sreg 5).toNat % 64 = 0 ∧ ∃ s1 x, (s.setHart s.cur h.begun).loadElement
      { va := (h.sreg 5).toNat, size := 64, lane := 0, aligned := false, hint := 1 } = .ok s1 x ∧ decide (x < 2 ^ 64) = true) ∧
    (∃ (s : State) (h : Hart), s.running = some h ∧ commandSpans (xf 1 24 0 24) h = true ∧ h.trp.prv = false) ∧
    ∃ (s : State) (h : Hart), s.running = some h ∧ h.vstart < h.vl ∧ commandSpans (xf 1 8 0 24) h = false :=
  ⟨⟨rfl, taken_all⟩, ⟨rfl, room_left, by decide⟩,
   ⟨pointing 0x11020 [], tester.setS 5 0x11020, rfl, by decide, rfl⟩,
   ⟨pointing 0x11040 [], tester.setS 5 0x11040, rfl, by decide, got_ok _ (by decide)⟩,
   ⟨seated fun h => wide (strip 64 h), wide (strip 64 tester), rfl, by decide, rfl⟩,
   ⟨seated fun h => wide (strip 2 h), wide (strip 2 tester), rfl, by decide, by decide⟩⟩

/-- A node in slot 3 with node 1028 as its successor. -/
def twoNodes (st : NodeState) (status : Word) (other : Nat) : State :=
  nodeWorld [(3, nodeIn st (command 5 1 1028 0 0 0) status [1028]),
    (4, { nodeIn .waiting (command 5 0 0 0 0 0) 0 [] with count := other })]

/-- The one hart waits in EWAIT for a node that nothing will release. -/
def stuckLaunch : Launch :=
  { loadLaunch State.reset 0 with
    members := [(0, { seat := 0, epoch := 0, clock := [], arrivals := [], inPhase := [], inEwait := [(0, { pc := 0x10000, reg := 5, handle := 1027 })], exited := false })] }

def stuckWorld : State := { oneWaiting.onCur fun h => h.setS 5 1027 with launches := [(1, stuckLaunch)] }

/-- Handles with and without a node; a node in each state; a finish with every kind of status, with successors of both counts. -/
theorem witness_EngineNodes :
    let meets (s : State) (h : Hart) : Prop := s.running = some h
    (∃ (s : State) (h : Hart), meets s h ∧ s.nodeOf (h.sreg 5).toNat = none) ∧
    (∃ (s : State) (h : Hart) (key : Nat) (n : Node), meets s h ∧ s.nodeOf (h.sreg 5).toNat = some (key, n) ∧ n.tag = h.tag ∧ n.st = .finished) ∧
    (∃ (s : State) (h : Hart) (key : Nat) (n : Node), meets s h ∧ s.nodeOf (h.sreg 5).toNat = some (key, n) ∧ n.tag = h.tag ∧ n.st ≠ .finished) ∧
    (∃ (s : State) (n : Node), Assoc.find s.nodes (nodeKey 0 3) = some n ∧ n.st ≠ .released) ∧
    (∃ (s : State) (n : Node), Assoc.find s.nodes (nodeKey 0 3) = some n ∧ n.st = .released ∧
      (∀ l, s.launch? n.tag = some l → l.replay = none)) ∧
    (∀ code ∈ [0, 1, 2, 3, 4], ∀ count ∈ [1, 2], ∃ (s : State) (n m : Node), Assoc.find s.nodes (nodeKey 0 3) = some n ∧ n.st = .running ∧ n.plan = [] ∧
      n.closing = false ∧ cmdStat n.dwords = 0 ∧ s.earlierNeverReleased (nodeKey 0 3) n = false ∧
      s.overDecrements n.succ = false ∧ fieldOf n.status 56 8 = code ∧
      n.succ.count 1028 = 1 ∧ s.nodeOf 1028 = some (nodeKey 0 4, m) ∧ m.st = .waiting ∧ m.count = count) ∧
    (∃ (s : State) (n : Node), Assoc.find s.nodes (nodeKey 0 3) = some n ∧ n.st = .running ∧ n.plan = [] ∧ n.closing = false ∧
      cmdStat n.dwords = 0 ∧ s.earlierNeverReleased (nodeKey 0 3) n = false ∧ fieldOf n.status 56 8 = 0 ∧ s.overDecrements n.succ = true) ∧
    (∀ count ∈ [1, 2], ∃ (s : State) (n m : Node), Assoc.find s.nodes (nodeKey 0 3) = some n ∧ n.st = .running ∧ n.plan = [] ∧
      n.closing = false ∧ cmdStat n.dwords = 0 ∧ s.earlierNeverReleased (nodeKey 0 3) n = false ∧ fieldOf n.status 56 8 = 0 ∧
      n.succ.count 1028 = 1 ∧ s.nodeOf 1028 = some (nodeKey 0 4, m) ∧ m.st = .waiting ∧ m.count = count ∧ s.underWayDecrements 1028 = 1) ∧
    oneWaiting.neverReleased tester.tag oneWaiting.vacatedPc oneWaiting.vacatedReg = false ∧
    ∃ (s : State) (n : Node), Assoc.find s.nodes (nodeKey 0 3) = some n ∧ n.st = .waiting ∧
      s.neverReleased n.tag s.vacatedPc s.vacatedReg = true :=
  ⟨⟨seated fun h => h.setS 5 1027, tester.setS 5 1027, rfl, by decide⟩,
   ⟨(twoNodes .finished 0 1).onCur fun h => h.setS 5 1027, tester.setS 5 1027, 3, _, rfl, rfl, rfl, rfl⟩,
   ⟨(twoNodes .running 0 1).onCur fun h => h.setS 5 1027, tester.setS 5 1027, 3, _, rfl, rfl, rfl, by decide⟩,
   ⟨twoNodes .running 0 1, _, rfl, by decide⟩,
   ⟨twoNodes .released 0 1, _, rfl, rfl, by intro l e; cases e; rfl⟩,
   by
    intro code h count g
    refine ⟨twoNodes .running (BitVec.ofNat 64 (code * 2 ^ 56)) count, _, _, rfl, rfl, rfl, rfl, ?_, ?_, ?_, ?_, rfl, rfl, rfl,
      rfl⟩ <;> fin_cases h <;> fin_cases g <;> decide,
   ⟨nodeWorld [(3, nodeIn .running (command 5 1 1028 0 0 0) 0 [1028])], nodeIn .running (command 5 1 1028 0 0 0) 0 [1028], rfl, rfl,
    rfl, rfl, by decide, by decide, by decide, by decide⟩,
   by
    intro count h
    refine ⟨{ twoNodes .running 0 count with
      nodes := (2, { nodeIn .running (command 5 1 1028 0 0 0) 0 [1028] with closing := true }) :: (twoNodes .running 0 count).nodes }, _, _, rfl,
      rfl, rfl, rfl, ?_, ?_, ?_, ?_, rfl, rfl, rfl, ?_⟩ <;> fin_cases h <;> decide,
   by decide,
   ⟨stuckWorld, _, rfl, rfl, by decide⟩⟩

/-- The world once the engine of its core holds its hart's matrix state. -/
def claimed (g : Hart → Hart) : State := ((seated g).setHart 0 (g tester).begun).claimMatrix 0

theorem matrix_ready {g : Hart → Hart} (r : (seated g).running = some (g tester)) :
    MatrixReady (seated g) (g tester) (claimed g) (g tester).begun :=
  ⟨r, rfl, rfl⟩

/-- TLOAD's operands: bases and strides at the edges of the conditions, and a tile that fills the scratchpad's end. -/
def tileFrom (base st : Word) (h : Hart) : Hart := (h.setS 5 base).setS 6 st

/-- A hart of another seat of the core. -/
def twoHarts (owner : Nat) (spilled : List Nat) : State :=
  { world with harts := [(0, tester), (1, tester)], owners := [(0, owner)], spilled := spilled }

theorem twoHarts_ok (sp : List Nat) : (twoHarts 1 sp).MemoryOk := (by decide : world.mem.wf = true)

theorem witness_MatrixStateWrites :
    let bad (f : XFields) (h : Hart) : Prop := h.vstart < h.vl ∧ h.badSpan f.a (2 * min h.vl 64) = true
    let ready (g : Hart → Hart) : Prop := MatrixReady (seated g) (g tester) (claimed g) (g tester).begun
    let base (g : Hart → Hart) := ((g tester).begun.sreg 5).toNat
    let st (g : Hart → Hart) := ((g tester).begun.sreg 6).toNat
    (∃ g, ready g ∧ bad (xf 0 40 0 0) (g tester).begun ∧ (g tester).begun.trp.prv = false) ∧
    (∃ g, ready g ∧ ¬ bad (xf 0 8 0 0) (g tester).begun) ∧
    (∃ g, ready g ∧ base g % 16 ≠ 0 ∧ (g tester).begun.trp.prv = false) ∧
    (∃ g, ready g ∧ base g % 16 = 0 ∧ st g % 16 ≠ 0) ∧ (∃ g, ready g ∧ base g % 16 = 0 ∧ st g % 16 = 0 ∧ st g < 128) ∧
    (∃ g, ready g ∧ base g % 16 = 0 ∧ st g % 16 = 0 ∧ 128 ≤ st g ∧ (g tester).begun.vstart < 33 ∧ (seated g).stopAt = none ∧
      (g tester).begun.wp.cfg = 0 ∧ (claimed g).badWords = [] ∧ 0x003FFFFF00000000 ≤ base g ∧
      base g + 32 * st g + 256 = 0x003FFFFF00100000) ∧
    (∃ s : State, s.hart? 0 = none) ∧ (∃ (s : State) (g : Hart), s.hart? 0 = some g ∧ Assoc.find s.owners (coreIndex 0) = some 0) ∧
    ∀ sp ∈ [[], [0]], ∃ (s : State) (g : Hart) (o : Nat) (g1 : Hart), s.hart? 0 = some g ∧ Assoc.find s.owners (coreIndex 0) = some o ∧ o ≠ 0 ∧
      s.hart? o = some g1 ∧ s.MemoryOk ∧ s.spilled = sp :=
  ⟨⟨fun h => wide (strip 256 h), matrix_ready rfl, by decide, rfl⟩,
   ⟨fun h => wide (strip 64 h), matrix_ready rfl, by decide⟩,
   ⟨tileFrom 0x003FFFFF00000008 128, matrix_ready rfl, by decide, rfl⟩,
   ⟨tileFrom 0x003FFFFF00000000 136, matrix_ready rfl, by decide, by decide⟩,
   ⟨tileFrom 0x003FFFFF00000000 112, matrix_ready rfl, by decide, by decide, by decide⟩,
   ⟨tileFrom 0x003FFFFF000FEF00 128, matrix_ready rfl, by decide, by decide, by decide, by decide, rfl, rfl, rfl, by decide,
    by decide⟩,
   ⟨State.reset, rfl⟩, ⟨twoHarts 0 [], _, rfl, rfl⟩,
   fun sp _ => ⟨twoHarts 1 sp, _, 1, _, rfl, rfl, by decide, rfl, twoHarts_ok sp, rfl⟩⟩

/-- A hart with tile 0 of the shape that IMM18 gives and no data, and registers 8 and 24 given. -/
def tiled (imm : BitVec 18) (zf : Bool) (a c : Nat) (h : Hart) : Hart :=
  (((wide (strip 1 h)).setVreg 8 a).setVreg 24 c).setTile 0 { data := 0, headers := 0, shape := shapeOf imm zf }

/-- The metadata of eight groups: positions 0 to 3 each. -/
def metadata (n : Nat) : Nat := elems 16 (List.replicate n 0x688)

/-- Products of integers, floats, with and without headers and scales, dense and sparse, and each stop. -/
theorem witness_MatrixProducts :
    let ready (g : Hart → Hart) : Prop :=
      MatrixReady (seated g) (g tester) (claimed g) (g tester).begun ∧ (seated g).stopAt = none ∧ (g tester).begun.trp.prv = false
    let t (g : Hart → Hart) := (g tester).begun.tile 0
    let span (g : Hart → Hart) (x : RegIdx) (n : Nat) := (g tester).begun.badSpan x n
    (∃ g, ready g ∧ legalPair 0 (t g).fmt = false) ∧
    (∃ g, ready g ∧ legalPair 0 (t g).fmt = true ∧ (t g).sp = true) ∧
    (∃ g, ready g ∧ legalPair 0 (t g).fmt = true ∧ (t g).sp = false) ∧
    (∀ p ∈ ([(0, 0), (15, 15), (8, 8), (9, 9), (12, 12), (13, 12), (12, 14)] : List (Nat × Nat)), ∀ zf, ∃ g, ready g ∧
      legalPair p.1 (t g).fmt = true ∧ (t g).sp = false ∧ (t g).zf = zf ∧ (t g).fmt = p.2 ∧
      span g 8 (((t g).depth * codeBits p.1 + 7) / 8) = false ∧ ((t g).depth + 2047) / 2048 - 1 ≤ 7) ∧
    (∀ p ∈ ([(0, 0), (15, 15), (8, 8), (12, 14)] : List (Nat × Nat)), ∃ g, ready g ∧
      legalPair p.1 (t g).fmt = true ∧ (t g).sp = true ∧ (t g).zf = false ∧ span g 8 (((t g).depth / 2 * codeBits p.1 + 7) / 8) = false ∧
      span g 24 ((t g).depth / 8 * 2) = false ∧ (g tester).begun.vstart < 1 ∧
      ∀ b, b < (t g).depth / 8 → metadataOk ((g tester).begun.readElem 24 16 b) = true) ∧
    ∃ g, ready g ∧ legalPair 0 (t g).fmt = true ∧ (t g).sp = true ∧ (t g).zf = false ∧ 2 < (t g).depth / 8 ∧
      metadataOk ((g tester).begun.readElem 24 16 2) = false ∧
      ∀ j, j < 2 → metadataOk ((g tester).begun.readElem 24 16 j) = true := by
  have dense (p : Nat × Nat) (h : p ∈ ([(0, 0), (15, 15), (8, 8), (9, 9), (12, 12), (13, 12), (12, 14)] : List (Nat × Nat))) (zf : Bool) :
      let g := tiled (BitVec.ofNat 18 p.2) zf 0 0
      legalPair p.1 ((g tester).begun.tile 0).fmt = true ∧ ((g tester).begun.tile 0).sp = false ∧
        ((g tester).begun.tile 0).zf = zf ∧ ((g tester).begun.tile 0).fmt = p.2 ∧
        (g tester).begun.badSpan 8 ((((g tester).begun.tile 0).depth * codeBits p.1 + 7) / 8) = false ∧
        (((g tester).begun.tile 0).depth + 2047) / 2048 - 1 ≤ 7 := by
    fin_cases h <;> cases zf <;> decide
  have sparse (p : Nat × Nat) (h : p ∈ ([(0, 0), (15, 15), (8, 8), (12, 14)] : List (Nat × Nat))) :
      let g := tiled (BitVec.ofNat 18 (p.2 + 16)) false 0 (metadata 4)
      legalPair p.1 ((g tester).begun.tile 0).fmt = true ∧ ((g tester).begun.tile 0).sp = true ∧
        ((g tester).begun.tile 0).zf = false ∧
        (g tester).begun.badSpan 8 ((((g tester).begun.tile 0).depth / 2 * codeBits p.1 + 7) / 8) = false ∧
        (g tester).begun.badSpan 24 (((g tester).begun.tile 0).depth / 8 * 2) = false ∧ (g tester).begun.vstart < 1 ∧
        ∀ b, b < ((g tester).begun.tile 0).depth / 8 → metadataOk ((g tester).begun.readElem 24 16 b) = true := by
    fin_cases h <;> decide
  have r (imm : BitVec 18) (zf : Bool) (a c : Nat) : MatrixReady (seated (tiled imm zf a c)) (tiled imm zf a c tester)
      (claimed (tiled imm zf a c)) (tiled imm zf a c tester).begun := matrix_ready rfl
  exact ⟨⟨tiled 8 false 0 0, ⟨r .., rfl, rfl⟩, by decide⟩, ⟨tiled 16 false 0 0, ⟨r .., rfl, rfl⟩, by decide, by decide⟩,
    ⟨tiled 0 false 0 0, ⟨r .., rfl, rfl⟩, by decide, by decide⟩,
    fun p h zf => ⟨_, ⟨r .., rfl, rfl⟩, dense p h zf⟩, fun p h => ⟨_, ⟨r .., rfl, rfl⟩, sparse p h⟩,
    ⟨tiled 16 false 0 (metadata 2), ⟨r .., rfl, rfl⟩, by decide, by decide, by decide, by decide, by decide, by decide⟩⟩

/-- Every type of MDRAIN, and a span that leaves the registers, one past row 127, and headers past e7. -/
theorem witness_MatrixDrains :
    let ready (g : Hart → Hart) : Prop := MatrixReady (seated g) (g tester) (claimed g) (g tester).begun ∧
      (g tester).begun.VectorOk ∧ (seated g).stopAt = none ∧ (g tester).begun.trp.prv = false
    let bad (h0 : Hart) (f : XFields) : Bool := decide (h0.vstart < h0.vl) && (decide (128 < f.imm.toNat / 2 ^ 7 % 128 + (h0.vl + 127) / 128) ||
      h0.badSpan f.d ((h0.vl * (ElemType.ofCode (f.imm.toNat % 16)).bits + 7) / 8) ||
      ((f.imm.toNat % 16 == 12 || f.imm.toNat % 16 == 13 || f.imm.toNat % 16 == 14) && decide (7 < f.c.toNat + ((h0.vl + 31) / 32 - 1) / 64)))
    (∃ g, ready g ∧ (g tester).begun.vstart < (g tester).begun.vl ∧
      [0, 3, 8, 9, 10, 11, 12, 13, 14].all (fun t => !bad (g tester).begun { xf 8 0 0 7 with imm := BitVec.ofNat 18 (t + 127 * 2 ^ 7) }) = true ∧
      drainMode { xf 8 0 0 7 with imm := 8 } ≠ .rsr ∧
      ∃ m, (g tester).begun.roundMode (drainMode { xf 8 0 0 7 with imm := 8 }) = (m, (g tester).begun)) ∧
    (∃ g, ready g ∧ bad (g tester).begun (xf 40 0 0 0) = true) ∧
    (∃ g, ready g ∧ bad (g tester).begun { xf 0 0 0 0 with imm := 127 * 2 ^ 7 } = true) ∧
    ∃ g, ready g ∧ bad (g tester).begun { xf 0 0 0 8 with imm := 12 } = true := by
  have r (n : Nat) : MatrixReady (seated fun h => long (strip n h)) (long (strip n tester)) (claimed fun h => long (strip n h))
      (long (strip n tester)).begun := matrix_ready rfl
  exact ⟨⟨_, ⟨r 2, ⟨by decide, by decide⟩, rfl, rfl⟩, by decide, by decide, by decide, _, rfl⟩,
    ⟨_, ⟨r 2, ⟨by decide, by decide⟩, rfl, rfl⟩, by decide⟩, ⟨_, ⟨r 129, ⟨by decide, by decide⟩, rfl, rfl⟩, by decide⟩,
    ⟨_, ⟨r 1, ⟨by decide, by decide⟩, rfl, rfl⟩, by decide⟩⟩

/-! Exchanges: one sender and one receiver, both WID 0 of this device. -/

def ownPoint : Endpoint := { row := 0, col := 0, kind := 0, die := 0, wid := 0 }

/-- An open exchange of the world's launch; WID 0 sends, receives, or both, with a run and an area as given. -/
def exchangeOf (comb mode : Nat) (segs : List (Nat × Nat)) (sends receives : Bool) (floor sent : Nat) (area : Option Area) : Exchange :=
  { tag := tester.tag, plan := 0x11000, die := 0, scope := 0, wide := false, comb := comb, sshift := 0, segs := segs, map := [0, 0, 0],
    senderList := if sends then [ownPoint] else [], receiverList := if receives then [ownPoint] else [], splitters := [5, 9],
    senders := [(0, { joined := true, leaf := 0, gone := false, round := 1, floor := floor, sent := sent, queue := [] })],
    receivers := [(0, { joined := true, gone := false, area := area, stream := [] })],
    far := [], farReceivers := [], points := [], round := 1, mode := mode, nextMode := mode, install := none, shadow := none, samples := [], discarded := 0,
    ingress := [] }

def exchangeWorld (x : Exchange) (g : Hart → Hart) : State := { seated g with exchanges := [(0, x)] }

theorem exchange_runs {x : Exchange} {g : Hart → Hart} (r : (seated g).running = some (g tester)) :
    (exchangeWorld x g).running = some (g tester) := r

def areaOf (ended : Option Bool) : Area :=
  { asid := 1, core := 0, va := 0x11000, size := 0x40, pieces := [], key := 0, written := 16, round := 1, ended := ended }

/-- What XSEND or XSENDQ asks of the strip. -/
def sendable (quant : Bool) (f : XFields) (x : Exchange) (h : Hart) : Bool :=
  let on := (List.range h.vl).filter (h.active (govX f))
  let used (i : Nat) : Nat := if x.concat && !quant then h.readElem f.c 16 i else x.payloadBytes
  decide (h.vstart < h.vl) && (!quant || x.segs.any fun g => g.1 == 14) && (f.b == 0 || x.payloadBytes != 0) && (f.c == 0 || x.concat) &&
  !sendSpans f quant x h && on.all (fun i => !x.concat || quant || x.usedOk (used i)) &&
  match Assoc.find x.senders 0 with
  | none => false
  | some y => decide ((y.floor :: on.map (h.readElem f.a x.keyBits)).Pairwise (· ≤ ·) ∧ y.sent + on.length ≤ 16)

/-- Each role and each case of the instructions; senders at the edges of the key, of the floor and of the outstanding records. -/
theorem witness_ExchangeInstructions :
    (∃ g, (seated g).running = some (g tester) ∧ (seated g).ownExchange (g tester) 0 = none ∧ (g tester).trp.prv = false ∧
      (g tester).vstart < (g tester).vl) ∧
    (∃ (s : State) (h : Hart), s.running = some h ∧ h.vl ≤ h.vstart) ∧
    (∃ x, (exchangeWorld x id).ownExchange tester 0 = some x ∧ (x.rankOf world.hub 0) = none) ∧
    (∃ x, (exchangeWorld x id).ownExchange tester 0 = some x ∧ (x.recvOf world.hub 0) = none) ∧
    (∀ a ∈ ([0, 7, 8, 2 ^ 32 - 1, 2 ^ 32] : List Nat), ∃ x y, (exchangeWorld x fun h => h.setS 5 (BitVec.ofNat 64 a)).ownExchange
        (tester.setS 5 (BitVec.ofNat 64 a)) 0 = some x ∧ x.rankOf world.hub 0 = some 0 ∧ Assoc.find x.senders 0 = some y ∧
        y.floor = 7 ∧ x.keyBits = 32 ∧ ((tester.setS 5 (BitVec.ofNat 64 a)).sreg 5).toNat = a) ∧
    (∀ p ∈ ([(0, false, [(0, 4)]), (7, false, [(0, 4)]), (0, true, [(14, 18)])] : List (Nat × Bool × List (Nat × Nat))), ∃ x g,
      (exchangeWorld x g).running = some (g tester) ∧ (exchangeWorld x g).ownExchange (g tester) 0 = some x ∧
      x.rankOf world.hub 0 = some 0 ∧ (exchangeWorld x g).stopAt = none ∧
      sendable p.2.1 (xf 0 8 16 (if x.concat then 24 else 0)) x (g tester) = true) ∧
    (∃ x y g, (exchangeWorld x g).ownExchange (g tester) 0 = some x ∧ x.recvOf world.hub 0 = some 0 ∧
      Assoc.find x.receivers 0 = some y ∧ y.area = none ∧ ((g tester).sreg 5).toNat % 8 ≠ 0) ∧
    (∃ x y z g, (exchangeWorld x g).ownExchange (g tester) 0 = some x ∧ x.recvOf world.hub 0 = some 0 ∧
      Assoc.find x.receivers 0 = some y ∧ y.area = some z ∧ z.va ≠ ((g tester).sreg 5).toNat) ∧
    ∀ e, ∃ x y z g, (exchangeWorld x g).ownExchange (g tester) 0 = some x ∧ x.recvOf world.hub 0 = some 0 ∧
      Assoc.find x.receivers 0 = some y ∧ y.area = some z ∧ z.va = ((g tester).sreg 5).toNat ∧
      z.size = ((g tester).sreg 6).toNat ∧ z.ended = e := by
  have two : (exchangeWorld (exchangeOf 0 0 [(0, 4)] true true 7 0 none) vectors).running = some (vectors tester) := rfl
  refine ⟨⟨vectors, rfl, rfl, rfl, by decide⟩, ⟨world, tester, rfl, by decide⟩,
    ⟨exchangeOf 0 0 [(0, 4)] false true 7 0 none, rfl, rfl⟩, ⟨exchangeOf 0 0 [(0, 4)] true false 7 0 none, rfl, rfl⟩, ?_, ?_,
    ⟨exchangeOf 0 0 [(0, 4)] true true 7 0 none, _, fun h => h.setS 5 0x11004, rfl, rfl, rfl, rfl, by decide⟩,
    ⟨exchangeOf 0 0 [(0, 4)] true true 7 0 (some (areaOf none)), _, _, fun h => h.setS 5 0x11008, rfl, rfl, rfl, rfl, by decide⟩,
    fun e => ⟨exchangeOf 0 0 [(0, 4)] true true 7 0 (some (areaOf e)), _, _, fun h => (h.setS 5 0x11000).setS 6 0x40, rfl, rfl, rfl, rfl, rfl, rfl, rfl⟩⟩
  · intro a h
    refine ⟨exchangeOf 0 0 [(0, 4)] true true 7 16 none, _, rfl, rfl, rfl, rfl, rfl, ?_⟩
    fin_cases h <;> rfl
  · simp only [List.forall_mem_cons, List.not_mem_nil, false_imp_iff, implies_true, and_true]
    exact ⟨⟨exchangeOf 0 0 [(0, 4)] true true 7 14 none, fun h => (vectors h).setVreg 8 (elems 32 [7, 9]), rfl, rfl, rfl, rfl, by decide⟩,
      ⟨exchangeOf 7 0 [(0, 4)] true true 7 14 none, fun h => ((vectors h).setVreg 8 (elems 32 [7, 9])).setVreg 24 (elems 16 [0, 4]), rfl, rfl,
        rfl, rfl, by decide⟩,
      ⟨exchangeOf 0 0 [(14, 18)] true true 7 14 none, fun h => (vectors h).setVreg 8 (elems 32 [7, 9]), rfl, rfl, rfl, rfl, by decide⟩⟩

/-- A plan that passes the checks: WID 0 sends to WID 0 in one round trip of its die; without its version, one that does not. -/
def planWorld (version : Nat) : State :=
  { pointing 0x11000 [] with
    mem := (world.mem.writeBytes 0x11000 (toBytesLE 8 (version * 2 ^ 56))).writeBytes 0x11018 (toBytesLE 8 (2 ^ 32 + 1)) }

/-- What XOPEN finds at 0x11000: 0 an open exchange, 1 to 15 the reason, 100 the exchange it opens. -/
def planOutcome (s : State) (h : Hart) : Nat :=
  match (s.setHart s.cur h.begun).readSpan h.begun 0x11000 planNeed with
  | .ok s1 got =>
    match Assoc.find s1.exchanges (fieldOf (BitVec.ofNat 64 (ofBytesLE (got.take 8))) 52 4), s1.openPlan h.begun 0x11000 got with
    | some _, _ => 0
    | none, (_, .error r) => r
    | none, (_, .ok _) => 100
  | _ => 200

/-- What XSPLIT reads at 0x11000: whether two splitters do not decrease and fit the key. -/
def splitOutcome (s : State) (h : Hart) : Option Bool :=
  match (s.setHart s.cur h.begun).readSpan h.begun 0x11000 fun _ => 16 with
  | .ok _ got => some (tableOk 32 ((List.range 2).map fun j => ofBytesLE ((got.drop (8 * j)).take 8)))
  | _ => none

/-- The table that XSAMPLE writes goes through. -/
def sampleOutcome (s : State) (h : Hart) : Bool :=
  match (s.setHart s.cur h.begun).writeOn h.begun 0x11000 { round := 0, data := [5, 9].flatMap (toBytesLE 8) } 4 0 with
  | .seq _ => true
  | _ => false

theorem witness_ExchangeTables :
    let at_ (a : Word) (h : Hart) : Hart := h.setS 5 a
    let found (x : Exchange) : Prop := (exchangeWorld x (at_ 0x11000)).running = some (at_ 0x11000 tester) ∧
      (exchangeWorld x (at_ 0x11000)).exchanges.find? (fun p => p.2.tag == tester.tag && p.2.plan == 0x11000) = some (0, x)
    (∃ x, found x ∧ x.hasJoined world.hub 0 = true) ∧
    (∃ x r, found x ∧ x.hasJoined world.hub 0 = false ∧ x.refuses world.hub 0 0 = some r) ∧
    (∃ x, found x ∧ x.hasJoined world.hub 0 = false ∧ x.refuses world.hub 0 0 = none) ∧
    (∀ v ∈ [0, 1], ∃ s, s.running = some (at_ 0x11000 tester) ∧ s.exchanges = [] ∧
      (at_ 0x11000 tester).watchHit 0x11000 0x940 .read = false ∧ planOutcome s (at_ 0x11000 tester) = if v = 0 then 2 else 100) ∧
    (∀ good, ∃ s x, s.running = some (at_ 0x11000 tester) ∧ s.ownExchange (at_ 0x11000 tester) 0 = some x ∧
      (at_ 0x11000 tester).watchedDword 0x11000 x.splitters.length .read = none ∧ splitOutcome s (at_ 0x11000 tester) = some good) ∧
    ∀ mode ∈ [0, 1], ∀ a ∈ ([0x11000, 0x11004] : List Word), ∃ x, (exchangeWorld x (at_ a)).running = some (at_ a tester) ∧
      (exchangeWorld x (at_ a)).ownExchange (at_ a tester) 0 = some x ∧ x.mode = mode ∧ (at_ a tester).wait.answer = none ∧
      (at_ a tester).wait.request = none ∧ (at_ a tester).wait.left = [] ∧ (at_ a tester).watchedDword a.toNat x.splitters.length .write = none ∧
      (a = 0x11000 → sampleOutcome (exchangeWorld x (at_ a)) (at_ a tester) = true) := by
  simp only [List.forall_mem_cons, List.not_mem_nil, false_imp_iff, implies_true, and_true, Bool.forall_bool]
  let e (m : Nat) := exchangeOf 0 m [(0, 4)] true false 7 0 none
  let sp (v : Nat) (w : Nat) : State :=
    { exchangeWorld (e 0) (fun h => h.setS 5 0x11000) with mem := (world.mem.writeBytes 0x11000 (toBytesLE 8 v)).writeBytes 0x11008 (toBytesLE 8 w) }
  exact ⟨⟨_, ⟨rfl, rfl⟩, (rfl : ({ exchangeOf 0 1 [(0, 4)] true false 7 0 none with
        senders := [(0, { joined := true, leaf := 0, gone := false, round := 1, floor := 0, sent := 0, queue := [] })] } : Exchange).hasJoined
          world.hub 0 = true)⟩,
    ⟨{ exchangeOf 0 1 [(0, 4)] false false 7 0 none with senders := [] }, 12, ⟨rfl, rfl⟩, rfl, rfl⟩,
    ⟨{ exchangeOf 0 1 [(0, 4)] true false 7 0 none with
        senders := [(0, { joined := false, leaf := 0, gone := false, round := 1, floor := 0, sent := 0, queue := [] })] }, ⟨rfl, rfl⟩, rfl, rfl⟩,
    ⟨⟨planWorld 0, rfl, rfl, by decide, by decide +kernel⟩, ⟨planWorld 1, rfl, rfl, by decide, by decide +kernel⟩⟩,
    ⟨⟨sp 9 5, e 0, rfl, rfl, by decide, by decide⟩, ⟨sp 5 (2 ^ 32 - 1), e 0, rfl, rfl, by decide, by decide⟩⟩,
    ⟨⟨e 0, rfl, rfl, rfl, rfl, rfl, rfl, by decide, fun _ => by decide⟩, ⟨e 0, rfl, rfl, rfl, rfl, rfl, rfl, by decide, by decide⟩⟩,
    ⟨⟨e 1, rfl, rfl, rfl, rfl, rfl, rfl, by decide, fun _ => by decide⟩, ⟨e 1, rfl, rfl, rfl, rfl, rfl, rfl, by decide, by decide⟩⟩⟩

/-- The world's launch with a task queue, or a schedule for its core group. -/
def workWorld (l : Launch) (g : Hart → Hart) : State := { seated g with launches := [(1, l)] }

def scheduled (entries : List Word) (fault : Option (Cause × Word)) (cursor : Nat) : Launch :=
  { loadLaunch State.reset 0 with schedules := [(0, { core := 0, entries := entries, fault := fault, cursor := cursor })] }

def intervals (n : Nat) : List Interval := (List.range n).map fun i => { start := 1000 * i, count := 10 }

/-- LAUNCH's queue 0 on die 0, enabled or not, with `n` positions taken. -/
def queueOf (on : Bool) (n : Nat) : State :=
  { pointing 0x11080 [] with queues := (Vector.replicate 64 LaunchQueue.reset).set 0 { LaunchQueue.reset with enable := on, tail := BitVec.ofNat 64 n } }

/-- LAUNCH's record translates to memory. -/
def recordOutcome (s : State) (h : Hart) : Bool :=
  let s0 := s.setHart s.cur h.begun.issueAll
  match s0.translate (s0.hartAgent s.cur h.begun 0) (h.sreg 5).toNat .read with
  | (_, .ok p) => decide (p.target = .memory) && decide (p.addr < 0x8000000000)
  | _ => false

/-- Each case of the work instructions: positions 255 and 256 of a queue, both ends of a schedule, a task queue that is empty, full
and neither, and added intervals at each edge. -/
theorem witness_WorkInstructions :
    let at_ (a b : Nat) (h : Hart) : Hart := (h.setS 5 (BitVec.ofNat 64 a)).setS 6 (BitVec.ofNat 64 b)
    (∃ (s : State) (h : Hart), s.running = some h ∧ (h.sreg 5).toNat % 128 ≠ 0 ∧ h.trp.prv = false) ∧
    (∀ p ∈ ([(true, 255), (true, 256), (false, 0)] : List (Bool × Nat)), ∃ (s : State) (h : Hart), s.running = some h ∧
      (h.sreg 5).toNat % 128 = 0 ∧ recordOutcome s h = true ∧ (s.queue 0).enable = p.1 ∧ ((s.queue 0).tail - (s.queue 0).head).toNat = p.2) ∧
    (∀ p ∈ ([([3, BitVec.allOnes 64], 0), ([3, BitVec.allOnes 64], 1), ([3], 1)] : List (List Word × Nat)), ∃ l c,
      (workWorld l id).running = some tester ∧ (workWorld l id).launch? tester.tag = some l ∧
      Assoc.find l.schedules (tester.wid.toNat / 2 ^ recCoreBits l.dwords) = some c ∧ c.fault = none ∧ c.entries = p.1 ∧ c.cursor = p.2) ∧
    (∃ l c e v, (workWorld l id).launch? tester.tag = some l ∧
      Assoc.find l.schedules (tester.wid.toNat / 2 ^ recCoreBits l.dwords) = some c ∧ c.fault = some (e, v)) ∧
    (∃ l, (workWorld l id).launch? tester.tag = some l ∧ recTqen l.dwords = false) ∧
    (∀ n ∈ [0, 1, 63, 64], ∃ l, (workWorld l id).running = some tester ∧ (workWorld l id).launch? tester.tag = some l ∧
      recTqen l.dwords = true ∧ l.replay = none ∧ l.tasks[0]?.getD [] = intervals n) ∧
    (∀ p ∈ ([(0, 0), (5, 2 ^ 40), (2 ^ 40 - 1, 2 ^ 40), (1, 2 ^ 40 - 1), (10, 1), (11, 1)] : List (Nat × Nat)), ∃ l,
      (workWorld l (at_ p.1 p.2)).running = some (at_ p.1 p.2 tester) ∧ ((at_ p.1 p.2 tester).sreg 5).toNat = p.1 ∧
      ((at_ p.1 p.2 tester).sreg 6).toNat = p.2 ∧ l.tasks[0]?.getD [] = [] ++ [{ start := 0, count := 10 }]) ∧
    (∃ s l m, State.running s = some tester ∧ tester.stripStops = false ∧ Assoc.wf s.harts = true ∧ s.launch? tester.tag = some l ∧
      Assoc.find l.members tester.wid.toNat = some m) := by
  refine ⟨⟨pointing 0x11040 [], tester.setS 5 0x11040, rfl, by decide, rfl⟩, ?_, ?_,
    ⟨scheduled [] (some (.rmiss, 8)) 0, _, .rmiss, 8, rfl, rfl, rfl⟩, ⟨loadLaunch State.reset 0, rfl, rfl⟩, ?_, ?_,
    ⟨world, _, _, rfl, rfl, rfl, rfl, rfl⟩⟩
  · intro p h
    refine ⟨queueOf p.1 p.2, tester.setS 5 0x11080, rfl, by decide, ?_, ?_⟩ <;> fin_cases h <;> decide
  · intro p h
    refine ⟨scheduled p.1 none p.2, { core := 0, entries := p.1, fault := none, cursor := p.2 }, rfl, rfl, ?_, rfl, rfl, rfl⟩
    fin_cases h <;> decide
  · intro n _
    exact ⟨queueLaunch (intervals n), rfl, rfl, (by decide : recTqen (queueLaunch []).dwords = true), rfl, rfl⟩
  · intro p h
    refine ⟨queueLaunch (intervals 1), rfl, ?_, ?_, rfl⟩ <;> fin_cases h <;> rfl

/-- The world with the hart at system level, s5 and s6 given. -/
def ranger (a b : Word) (h : Hart) : Hart := ((system h).setS 5 a).setS 6 b

/-- The world's range in two. -/
def mergeWorld (a b : Word) : State :=
  let d := world.descriptorAt 0x1020
  (seated (ranger a b)).putLeaf 0x1000 [(d.split 0x18000).1, (d.split 0x18000).2]

/-- What is asked of the range at s5. -/
def rangeCase (s : State) (a b : Word) (p : State → RangeAt → Bool) : Bool :=
  match (s.setHart s.cur (ranger a b tester).begun.issueAll).rangeAt (ranger a b tester).begun 0x1000 a.toNat with
  | (s1, some r) => p s1 r
  | _ => false

/-- What is asked of two ranges that meet at s5. -/
def mergeCase (s : State) (h : Hart) (va : Nat) : Bool :=
  let s0 := s.setHart s.cur h.begun.issueAll
  let g := s0.hartAgent s.cur h.begun 0
  match s0.rawRange g 0x1000 (va - 1) with
  | (s1, some l) =>
    match s1.rawRange g 0x1000 va with
    | (s2, some u) => l.desc.limit == va && u.desc.base == va && !s2.sealedRange l.desc && !s2.sealedRange u.desc &&
        !l.desc.cmpx && !u.desc.cmpx && s2.wellFormedRange h.asid l.desc && s2.wellFormedRange h.asid u.desc &&
        decide (((l.desc.setBase 0).setLimit 0).setResident 0 = ((u.desc.setBase 0).setLimit 0).setResident 0) &&
        l.desc.resident == l.desc.size && !s2.underWay h.asid 4 l.desc.base u.desc.limit
    | _ => false
  | _ => false

theorem witness_RangeInstructions :
    let meets (s : State) (a b : Word) : Prop := s.running = some (ranger a b tester) ∧ (ranger a b tester).trp.prv = true ∧
      (s.setHart s.cur (ranger a b tester).begun.issueAll).rootOf (ranger a b tester).asid = some 0x1000
    (∃ (s : State) (h : Hart), s.running = some h ∧ h.trp.prv = false) ∧
    (∃ s a b, meets s a b ∧ a.toNat % 256 = 0 ∧ b.toNat % 4096 = 0 ∧ rangeCase s a b (fun s1 r => r.desc.base != a.toNat &&
      !s1.sealedRange r.desc && !r.desc.cmpx && decide ((s1.leafDescriptors r.leaf).length < 127)) = true) ∧
    (∃ s a b, meets s a b ∧ a ≠ 0 ∧ mergeCase s (ranger a b tester) a.toNat = true) ∧
    (∃ s a b, meets s a b ∧ b = 0 ∧ (s.setHart s.cur (ranger a b tester).begun.issueAll).underWay 1 5 0 (2 ^ 54) = false) ∧
    (∃ s a b, meets s a b ∧ b ≠ 0 ∧
      (s.setHart s.cur (ranger a b tester).begun.issueAll).underWay 1 0 a.toNat (a.toNat + b.toNat) = false) ∧
    (∃ s a b, meets s a b ∧ rangeCase s a b (fun s1 r => r.desc.base == a.toNat && r.desc.tgt == 0 &&
      decide (r.desc.extent.1 + r.desc.size ≤ 0x8000000000) && r.desc.resident == r.desc.size && !r.desc.cmpx &&
      decide (s1.seals.length < 256) &&
      decide (s1.attestation.length + (s1.seals.filter fun e => e.under.isSome).length < 256) &&
      !s1.seals.any (fun e => e.base == r.desc.extent.1 && e.size == r.desc.size) &&
      let s2 := s1.installSeal r
      !s2.underWay 1 4 r.desc.base r.desc.limit && !s2.writingTo r.desc.extent.1 r.desc.size &&
      (s2.firstBad r.desc.extent.1 r.desc.size).isNone) = true) ∧
    (∀ b ∈ ([0x10000, 0x18000, 0x20000] : List Word), ∃ s a, meets s a b ∧ rangeCase s a b (fun s1 r => !s1.sealedRange r.desc &&
      b.toNat % 256 == 0 && decide (r.desc.base ≤ b.toNat) && decide (b.toNat ≤ r.desc.limit) &&
      (decide (b = 0x20000) == (b.toNat == r.desc.base + r.desc.resident)) && !s1.underWay 1 4 r.desc.base r.desc.limit) = true) ∧
    (∃ s a b, meets s a b ∧ rangeCase s a b (fun s1 r => r.desc.base == a.toNat && !s1.sealedRange r.desc && b.toNat % 256 == 0 &&
      r.desc.tgt == 0 && decide (r.desc.extent.1 + r.desc.size ≤ 0x8000000000) && decide (b.toNat + r.desc.size ≤ 0x8000000000) &&
      !r.desc.cmpx && !overlapping b.toNat r.desc.size r.desc.extent.1 r.desc.size && !s1.freeContexts.isEmpty) = true) := by
  refine ⟨⟨world, tester, rfl, rfl⟩, ⟨seated (ranger 0x11000 0x2000), 0x11000, 0x2000, ⟨rfl, rfl, by decide⟩, by decide, by decide, by decide⟩,
    ⟨mergeWorld 0x18000 0, 0x18000, 0, ⟨by rfl, rfl, by decide⟩, by decide, by decide⟩,
    ⟨seated (ranger 0 0), 0, 0, ⟨rfl, rfl, by decide⟩, rfl, by decide⟩,
    ⟨seated (ranger 0x11000 0x100), 0x11000, 0x100, ⟨rfl, rfl, by decide⟩, by decide, by decide⟩,
    ⟨seated (ranger 0x10000 0), 0x10000, 0, ⟨rfl, rfl, by decide⟩, by decide⟩, ?_,
    ⟨seated (ranger 0x10000 0x30000), 0x10000, 0x30000, ⟨rfl, rfl, by decide⟩, by decide⟩⟩
  simp only [List.forall_mem_cons, List.not_mem_nil, false_imp_iff, implies_true, and_true]
  exact ⟨⟨seated (ranger 0x11000 0x10000), 0x11000, ⟨rfl, rfl, by decide⟩, by decide⟩,
    ⟨seated (ranger 0x11000 0x18000), 0x11000, ⟨rfl, rfl, by decide⟩, by decide⟩,
    ⟨seated (ranger 0x11000 0x20000), 0x11000, ⟨rfl, rfl, by decide⟩, by decide⟩⟩

/-- Every kind of access to a register at both levels, and SAMPBUF at each dword of its oldest record. -/
theorem witness_SpecialRegisters :
    let level (n : Nat) : Prop := (0x030 ≤ n ∧ n ≤ 0x035) ∨ n = 0x051 ∨ n = 0x023 ∨ n = 0x050 ∨ 0x060 ≤ n
    (∃ (s : State) (h : Hart), s.running = some h ∧ h.trp.prv = true) ∧ (∃ (s : State) (h : Hart), s.running = some h ∧ h.trp.prv = false) ∧
    (∀ n ∈ [0x030, 0x035, 0x051, 0x023, 0x050, 0x060, 0x07F], level n) ∧ (∀ n ∈ [0x000, 0x02F, 0x040, 0x048], ¬ level n) ∧
    (∀ j ∈ [0, 3, 7], ∃ (s : State) (h : Hart) (r : Vector Word 8) (rs : List (Vector Word 8)), s.running = some h ∧
      h.obs.records = r :: rs ∧ h.obs.next = j ∧ h.trp.prv = true ∧ h.obs.tagged = none) ∧
    (∃ (h : Hart) (x : Word), let base := x.toNat % 64; let size := x.toNat / 256 % 128
      size ≤ h.nv ∧ (base < size ∨ (size = 0 ∧ base = 0))) ∧
    (∃ (h : Hart) (x : Word), let base := x.toNat % 64; let size := x.toNat / 256 % 128
      ¬ (size ≤ h.nv ∧ (base < size ∨ (size = 0 ∧ base = 0)))) :=
  ⟨⟨seated system, _, rfl, rfl⟩, ⟨world, _, rfl, rfl⟩, by decide, by decide,
   fun j _ => ⟨seated fun h => { system h with obs := { h.obs with records := [Vector.replicate 8 1], next := j } }, _, _, _, rfl, rfl, rfl, rfl,
    rfl⟩, ⟨tester, 0x0403, by decide⟩, ⟨tester, 0x0404, by decide⟩⟩

theorem toBytes_length (n x : Nat) : (toBytesLE n x).length = n := by
  induction n generalizing x with
  | zero => rfl
  | succ n ih => simp [toBytesLE, ih]

theorem readBytes_count (m : Mem) (a n : Nat) : (m.readBytes a n).length = n := by
  induction n generalizing a with
  | zero => rfl
  | succ n ih => simp [Mem.readBytes, ih]

/-- How many bytes the parts of a record come to. -/
def partCount : List (Nat × Nat × Nat) → Nat → Nat → Nat
  | [], _, n => n
  | p :: r, o, n => (p.1 - o) + p.2.1 + partCount r (p.1 + p.2.1) (n - (p.1 + p.2.1 - o))

theorem partBytes_count (ps : List (Nat × Nat × Nat)) : ∀ o n, (partBytes ps o n).length = partCount ps o n := by
  induction ps with
  | nil => intro o n; simp [partBytes, partCount]
  | cons p r ih => intro o n; simp [partBytes, partCount, ih, toBytes_length, Nat.add_assoc]

/-- A hart at system level that saves and restores at its core's scratchpad, which holds what `m` gives it. -/
def saver (m : Mem) : State := { seated fun h => (system h).setS 5 0x003FFFFF00000000 with mem := m }

/-- That hart, as its matrix state is claimed. -/
def saving : Hart := ((system tester).setS 5 0x003FFFFF00000000).begun.issueAll

def saver0 (m : Mem) : State := ((saver m).setHart 0 saving).claimMatrix 0

theorem writeOn_once (s : State) (h : Hart) (va : Nat) (x : Table) (n : Nat) (p : Piece) (len : x.data.length = n) (pos : 0 < n)
    (r : s.routeWide (s.hartAgent s.cur h 0) .write (granules n) ((va + 0) % 2 ^ 64) n = (s, [p], none))
    (t : p.place.target = .memory) (z : p.size = n) : ∃ s2, s.writeOn h va x 4 0 = .seq s2 := by
  have a : ¬ x.data.length ≤ 0 := by omega
  have b : x.data.length ≤ 0 + p.size := by omega
  have c : x.data.length - 0 = n := by omega
  have q : splitBlocks [p] = [p] := by simp [splitBlocks, t]
  simp only [State.writeOn, a, if_false, c, r, q, t, if_true, State.writePieces, b, Eff.seq.injEq, exists_eq']

theorem readSpan_once (s : State) (h : Hart) (va n : Nat) (p : Piece) (xs : List Byte) (pos : 0 < n)
    (a : s.resumeSpan h = .ok s []) (r : s.routeWide (s.hartAgent s.cur h 0) .read (granules n) ((va + 0) % 2 ^ 64) n = (s, [p], none))
    (t : p.place.target = .memory) (k : s.badWord p.place.addr p.size = none) (v : s.noteRead h [p] = s)
    (w : s.readNear h [p] = (xs, s)) (l : n ≤ xs.length) :
    s.readSpan h va (fun _ => n) = .ok s xs := by
  have b : ¬ n ≤ 0 := by omega
  simp only [State.readSpan, a, Span.more, List.length_nil, b, if_false, State.readUpTo, Nat.sub_zero, r, splitWords,
    List.flatMap_cons, t, if_true, List.flatMap_nil, List.append_nil, State.readPieces, k, v, w, List.nil_append, l]

theorem saver_writes (m : Mem) : ∃ s2, (saver0 m).writeOn saving 0x003FFFFF00000000
    { round := 0, data := partBytes (contextParts saving 0 false saving.trp.tpc) 0 0xD2000 } 4 0 = .seq s2 := by
  have n : (partBytes (contextParts saving 0 false saving.trp.tpc) 0 0xD2000).length = 0xD2000 := by
    rw [partBytes_count]; decide +kernel
  exact writeOn_once _ _ _ _ 0xD2000 _ n (by decide) rfl rfl rfl

theorem saver_reads (m : Mem) : (saver0 m).readSpan saving 0x003FFFFF00000000 (fun _ => 0xD2000) =
    .ok (saver0 m) (m.readBytes 0x20000000000000 0xD2000) := by
  have e : (0x003FFFFF00000000 + 0) % 2 ^ 64 = 0x003FFFFF00000000 := by decide
  obtain ⟨p, r, t, q, z, a, k, v⟩ : ∃ p, ((saver0 m).routeWide ((saver0 m).hartAgent (saver0 m).cur saving 0) .read (granules 0xD2000)
      0x003FFFFF00000000 0xD2000) = (saver0 m, [p], none) ∧ p.place.target = .memory ∧ p.place.phased = false ∧
      p.size = 0xD2000 ∧ p.place.addr = 0x20000000000000 ∧ (saver0 m).badWord p.place.addr p.size = none ∧
      (saver0 m).noteRead saving [p] = saver0 m :=
    ⟨_, rfl, rfl, rfl, rfl, (by decide : 2 ^ 53 + coreIndex 0 * 2 ^ 20 + (0x003FFFFF00000000 - 0x003FFFFF00000000) = 0x20000000000000), rfl, rfl⟩
  have w : (saver0 m).readNear saving [p] = (m.readBytes 0x20000000000000 0xD2000, saver0 m) := by
    simp only [State.readNear, State.readBytes, q, Bool.false_eq_true, if_false, List.append_nil, a, z]
    cases (saver0 m).launchOf saving <;> rfl
  exact readSpan_once _ _ _ _ p _ (by decide) rfl (by rw [e]; exact r) t k v w (Nat.le_of_eq (readBytes_count ..).symm)

/-- A record's header in the scratchpad: MAGIC, version 1, the launch's TAG, and VCFG (Table 24.4). -/
def recordHead (magic tag vcfg : Nat) : Mem :=
  (((world.mem.writeBytes 0x20000000000000 (toBytesLE 4 magic)).writeBytes 0x20000000000004 (toBytesLE 2 1)).writeBytes
    0x20000000000020 (toBytesLE 8 tag)).writeBytes 0x20000000000410 (toBytesLE 8 vcfg)

/-- What a record's checks come to: the status that TRSTR gives. -/
def recordStatus (m : Mem) : Option Nat := restoreStatus saving (listReader (m.readBytes 0x20000000000000 0xD2000))

theorem witness_TrapsAndSystem :
    (∃ (s : State) (h : Hart), s.running = some h ∧ h.trp.prv = false) ∧
    (∃ (s : State) (h : Hart), s.running = some h ∧ h.trp.prv = true ∧ (h.sreg 5).toNat % 4096 ≠ 0) ∧
    (∃ (s : State) (h h0 : Hart), s.running = some h ∧ h.trp.prv = true ∧ (h.sreg 5).toNat % 4096 = 0 ∧
      let s0 := (s.setHart s.cur h.begun.issueAll).claimMatrix s.cur
      s0.hart? s.cur = some h0 ∧ h0.wait.answer = none ∧ h0.wait.request = none ∧ h0.wait.left = [] ∧ ∃ s2, s0.writeOn h0 (h.sreg 5).toNat
        { round := 0, data := partBytes (contextParts h0 s.cur false h0.trp.tpc) 0 0xD2000 } 4 0 = .seq s2) ∧
    (∀ r ∈ [some 1, some 2, some 3, none], ∃ (s : State) (h h0 : Hart), s.running = some h ∧ h.trp.prv = true ∧
      let s0 := (s.setHart s.cur h.begun.issueAll).claimMatrix s.cur
      s0.hart? s.cur = some h0 ∧ h0.wait.answer = none ∧ h0.wait.request = none ∧ h0.wait.left = [] ∧
      ∃ s2 got, s0.readSpan h0 (h.sreg 5).toNat (fun _ => 0xD2000) = .ok s2 got ∧ restoreStatus h0 (listReader got) = r) ∧
    (∃ (s : State) (h g : Hart), s.running = some h ∧ h.trp.prv = true ∧ s.hart? ((h.sreg 5).toNat % 2 ^ 13) = some g ∧ g.tag = h.tag ∧
      (h.sreg 5).toNat % 2 ^ 13 ≠ s.cur) ∧
    (∃ (s : State) (h : Hart), s.running = some h ∧ h.trp.prv = true ∧ (h.sreg 5).toNat % 2 ^ 13 = s.cur) ∧
    (∃ (s : State) (h : Hart), s.running = some h ∧ h.trp.prv = true ∧ ∀ g, s.hart? ((h.sreg 5).toNat % 2 ^ 13) = some g → g.tag ≠ h.tag) ∧
    (∃ (s : State) (h : Hart), s.running = some h ∧ h.wait.wfeDone = true) ∧
    (∀ w ∈ [none, some (none : Option Nat)], ∀ n ∈ [0, 5], ∃ (s : State) (h : Hart), s.running = some h ∧ s.hart? 0 = some h ∧
      h.wait.wfeDone = false ∧ h.trp.irq = 0 ∧ h.trp.dreq = false ∧ h.wait.wfe = w ∧ h.wait.limit = n) := by
  have st : recordStatus [] = some 1 ∧ recordStatus (recordHead 0x31585443 1 0x30) = some 2 ∧
      recordStatus (recordHead 0x31585443 2 0) = some 3 ∧ recordStatus (recordHead 0x31585443 1 0) = none := by
    decide +kernel
  have go (m : Mem) (r : Option Nat) (e : recordStatus m = r) : ∃ (s : State) (h h0 : Hart), s.running = some h ∧ h.trp.prv = true ∧
      let s0 := (s.setHart s.cur h.begun.issueAll).claimMatrix s.cur
      s0.hart? s.cur = some h0 ∧ h0.wait.answer = none ∧ h0.wait.request = none ∧ h0.wait.left = [] ∧
      ∃ s2 got, s0.readSpan h0 (h.sreg 5).toNat (fun _ => 0xD2000) = .ok s2 got ∧ restoreStatus h0 (listReader got) = r :=
    ⟨saver m, (system tester).setS 5 0x003FFFFF00000000, saving, rfl, rfl, rfl, rfl, rfl, rfl, _, _, saver_reads m, e⟩
  refine ⟨⟨world, _, rfl, rfl⟩, ⟨seated fun h => (system h).setS 5 0x11008, (system tester).setS 5 0x11008, rfl, rfl, by decide⟩,
    ⟨saver [], (system tester).setS 5 0x003FFFFF00000000, saving, rfl, rfl, by decide, rfl, rfl, rfl, rfl, saver_writes []⟩, ?_,
    ⟨{ seated fun h => (system h).setS 5 1 with harts := [(0, (system tester).setS 5 1), (1, tester)] }, (system tester).setS 5 1, tester, rfl, rfl,
      rfl, rfl, by decide⟩,
    ⟨seated system, system tester, rfl, rfl, by decide⟩,
    ⟨seated fun h => (system h).setS 5 1, (system tester).setS 5 1, rfl, rfl, by intro g h; cases h⟩,
    ⟨seated fun h => { h with wait := { h.wait with wfeDone := true } }, _, rfl, rfl⟩,
    fun w _ n _ => ⟨seated fun h => { h with wait := { h.wait with wfe := w, limit := n } }, _, rfl, rfl, rfl, rfl, rfl, rfl, rfl⟩⟩
  simp only [List.forall_mem_cons, List.not_mem_nil, false_imp_iff, implies_true, and_true]
  exact ⟨go _ _ st.1, go _ _ st.2.1, go _ _ st.2.2.1, go _ _ st.2.2.2⟩

/-- The world about to execute an instruction, its hart changed. -/
def facing (i : Instr) (g : Hart → Hart) : State := (State.reset.withFetchWord 64 (encodeWord i).toNat).onCur g

/-- What STRIPSTOP asks of the hart at seat 0. -/
def stripCase (s : State) (d : Bool) (p : Instr → Bool) : Bool :=
  match s.hart? 0 with
  | none => false
  | some h => (match s.peek 0 h with | some i => p i | none => false) && !h.trp.prv && h.trp.dreq == d && (h.trp.dreq || h.trp.sstop) && !h.trp.stripDone &&
      !h.halted && h.wait.word.isNone

/-- Both ends of the interrupt sources, the three instructions of a STRIPSTOP with each request, sampling with room and without,
and a counter of each timing event at each level. -/
theorem witness_HartEvents :
    (∃ (s : State) (h : Hart), s.hart? 0 = some h ∧ h.obs.ops ≠ 0) ∧
    (∀ q ∈ [0, 15, 16], ∃ (s : State) (h : Hart), s.hart? 0 = some h ∧ (List.range 17).find? (fun j => h.trp.irq.getLsbD j) = some q ∧
      h.trp.prv = false ∧ h.halted = false ∧ h.wait.word = none ∧ h.wait.request = none ∧ h.wait.left = [] ∧ s.stoppable 0 h = true ∧
      h.obs.tagged = none ∧ h.obs.ops = 0 ∧
      ∀ j : Fin 16, h.obs.pmsel[j].toNat % 2 ^ 16 ≠ 0x0D) ∧
    (∀ d, (∃ s, stripCase s d (fun i => match i with | .vsetl _ => true | _ => false) = true) ∧
      (∃ s, stripCase s d (fun i => match i with | .vsetlq _ => true | _ => false) = true) ∧
      ∃ s, stripCase s d (fun i => match i with | .hexit _ => true | _ => false) = true) ∧
    (∃ (s : State) (h : Hart), s.hart? 0 = some h ∧ h.trp.irq = 0) ∧
    (∀ n ∈ [0, 63, 64], ∀ u, ∃ (s : State) (h : Hart), s.hart? 0 = some h ∧ h.halted = false ∧ h.obs.en = true ∧ h.obs.period ≠ 0 ∧
      h.obs.tagged = none ∧ h.obs.records.length = n ∧ h.obs.untag = u) ∧
    ∀ e ∈ [0x01, 0x05, 0x06, 0x07, 0x08, 0x09, 0x0A], ∀ prv, ∀ ovie, ∃ (s : State) (h : Hart), s.hart? 0 = some h ∧ h.trp.prv = prv ∧
      (h.obs.pmsel[0]).toNat % 2 ^ 16 = e ∧ (h.obs.pmsel[0]).getLsbD (if h.trp.prv then 17 else 16) = true ∧
      (h.obs.pmsel[0]).getLsbD 18 = ovie := by
  refine ⟨⟨seated fun h => { h with obs := { h.obs with ops := 2 } }, _, rfl, by decide⟩, ?_, ?_, ⟨world, _, rfl, rfl⟩, ?_, ?_⟩
  · intro q h
    refine ⟨seated fun h => { h with trp := { h.trp with irq := BitVec.ofNat 17 (2 ^ q ||| 2 ^ 16) } }, _, rfl, ?_, rfl, rfl, rfl, rfl, rfl, ?_, rfl, rfl, ?_⟩
    · fin_cases h <;> decide
    · fin_cases h <;> decide
    · exact (by decide : ∀ j : Fin 16, tester.obs.pmsel[j].toNat % 2 ^ 16 ≠ 0x0D)
  · let asks (i : Instr) (d : Bool) : State := facing i fun h => { h with trp := { h.trp with dreq := d, sstop := true } }
    intro d
    cases d
    · exact ⟨⟨asks (.vsetl (rf 4 5 0 0 .i8)) false, by decide⟩, ⟨asks (.vsetlq (rf 0 0 0 0 .i8)) false, by decide⟩,
        ⟨asks (.hexit (xf 0 0 0 0)) false, by decide⟩⟩
    · exact ⟨⟨asks (.vsetl (rf 4 5 0 0 .i8)) true, by decide⟩, ⟨asks (.vsetlq (rf 0 0 0 0 .i8)) true, by decide⟩,
        ⟨asks (.hexit (xf 0 0 0 0)) true, by decide⟩⟩
  · intro n h u
    exact ⟨seated fun h => { h with obs := { h.obs with en := true, period := 1, records := List.replicate n (Vector.replicate 8 0), untag := u } },
      _, rfl, rfl, rfl, (by decide : (1 : BitVec 16) ≠ 0), rfl, by simp, rfl⟩
  · intro e h prv ovie
    let x : Word := BitVec.ofNat 64 (e + 3 * 2 ^ 16 + bit01 ovie * 2 ^ 18)
    refine ⟨seated fun h => { h with trp := { h.trp with prv := prv }, obs := { h.obs with pmsel := h.obs.pmsel.set 0 x } }, _, rfl, rfl, ?_, ?_, ?_⟩ <;>
      fin_cases h <;> cases prv <;> cases ovie <;> decide

/-- A launch of `n` WIDs with VLCLASS `v`, CLASS `c` and, when `p`, PREEMPTIBLE; its WIDs' one field is of domain core. -/
def classLaunch (n v c : Nat) (p : Bool) : Launch :=
  { loadLaunch State.reset 0 with
    dwords := ((loadRecord.set 2 (BitVec.ofNat 64 (2 ^ 48 + bit01 p * 2 ^ 47 + c * 2 ^ 42 + v * 2 ^ 36))).set 3 (BitVec.ofNat 64 n)).set 4 65,
    members := [], started := [], units := [], seats := [] }

def memberAt (k : Nat) (arrivals : Assoc Arrival) (exited : Bool) : Member :=
  { seat := k, epoch := 0, clock := [], arrivals := arrivals, inPhase := [], inEwait := [], exited := exited }

/-- Every die's cores reserved for the latency class as a mask of the first 64 says, and the rest unless it is 0. -/
def diesOf (mask : Word) : Vector DieConfig 4 :=
  Vector.replicate 4 { DieConfig.reset with latLo := mask, latHi := if mask = 0 then 0 else BitVec.allOnes 64 }

def firstSeat (lanes : BitVec 4) : Seat := { die := 0, cluster := 0, core := 0, ctx := 0, lanes := lanes, qtr := 0 }

/-- A launch of the latency class without a hart, on an empty device. -/
def emptyWorld : State := { State.reset with launches := [(1, classLaunch 2 0 0 false)], dies := diesOf (BitVec.allOnes 64) }

/-- A borrowed hart takes all of core 0, to which WID 1 of a latency launch is confined: its WID 0 ran there and has exited. -/
def crowdedWorld : State :=
  { emptyWorld with
    harts := [(0, { tester with vec := { tester.vec with vlclass := 3, lcmask := 15 } })],
    launches := [(1, { classLaunch 1 3 1 true with members := [(0, memberAt 0 [] false)], started := [(0, 1)], units := [(0, 0)] }),
      (2, { classLaunch 2 3 0 false with members := [(0, memberAt 0 [] true)], started := [(0, 1)], units := [(0, 0)] })] }

theorem records_free (s : State) (die : Nat) (h : s.vacated = []) : s.freeRecords die = List.range storeRecords := by
  simp [State.freeRecords, h, Assoc.find]

/-- A vacated hart of the world's launch. -/
def vacatedHart (wid : Word) : Vacated :=
  { tag := 1, wid := wid, core := 0, irq := 0, dreq := false, due := false, stripAt := none, stripDone := false, untag := none, strip := 0,
    atomics := 0, submissions := 0, code := [], polled := [], held := none, ahead := false }

/-- WID 0 of a bulk launch waits at a boundary and holds all of core 0; WID 1, confined to it, is vacated. -/
def blockedWorld (scope : Nat) : State :=
  { emptyWorld with
    harts := [(0, { tester with
      vec := { tester.vec with vlclass := 3, lcmask := 15 },
      wait := { tester.wait with word := some (encodeWord (.phase { xf 0 0 0 0 with sc := BitVec.ofNat 3 scope })) } })],
    dies := diesOf (BitVec.allOnes 64 - 1),
    launches := [(1, { classLaunch 2 3 1 false with
      members := [(0, memberAt 0 [(scope, { number := 1, clock := [] })] false), (1, memberAt 0 [] false)],
      started := [(0, 1), (1, 2)], units := [(0, 0)] })],
    vacated := [(storeRecords - 1, vacatedHart 1)] }

/-- A bulk launch's only hart is vacated, and core 0 is free. -/
def resumeWorld : State :=
  { emptyWorld with
    launches := [(1, { classLaunch 1 0 1 false with members := [(0, memberAt 0 [] false)], started := [(0, 1)] })],
    vacated := [(0, vacatedHart 0)], dies := diesOf 0 }

/-- What vacating the hart at seat `k` does to the seats and the launches. -/
def left (k : Nat) (h : Hart) (s : State) : State :=
  let t := (s.freeSeat k).onLaunch h.tag fun l => { l with seats := Assoc.drop l.seats (recHartGroup l.dwords h.wid.toNat) }
  t.onLaunch h.tag fun l => if t.coreGroupSeated h.tag.toNat l h.wid.toNat then l else l.moveStore h.wid.toNat 512

theorem vacate_form (s : State) (k : Nat) (h : Hart) (u : s.unspill k = s) (e : s.hart? k = some h) (p : s.sampleVacated k h = s)
    (v : s.vacated = []) (ahead : Bool) :
    ∃ m w d, s.vacate k ahead = left k h { s with mem := m, vacated := w, draws := d } := by
  have c : ∃ n d, s.choose storeRecords = (n, { s with draws := d }) ∧ n < storeRecords :=
    ⟨_, _, rfl, Nat.mod_lt _ (by decide)⟩
  obtain ⟨n, d, c, b⟩ := c
  have g : (List.range storeRecords)[n]? = some n := by rw [List.getElem?_range b]
  simp only [State.vacate, u, e, p, records_free s _ v, List.length_range, c, g]
  exact ⟨_, _, _, rfl⟩

theorem fits_apart (s : State) (m : Mem) (w : Assoc Vacated) (d k : Nat) (h : Hart) (n : Nat) (l : Launch) (wid core : Nat) :
    (left k h { s with mem := m, vacated := w, draws := d }).groupFits n l wid core = (left k h s).groupFits n l wid core := rfl

theorem witness_PlacementEvents :
    (∀ wid ∈ [0, 1], ∃ (s : State) (l : Launch), let x := firstSeat 1
      s.launch? 1 = some l ∧ l.waiting wid = some wid ∧ l.replay = none ∧ s.canSeat 1 l wid (Assoc.find l.seats wid) x = true ∧
      s.classAllows 1 l wid (Assoc.find l.seats wid) 0 = true ∧ s.outrankedOn (s.keepSeat 1 wid (Seat.code x)) 1 l 0 = false ∧
      s.resumedFirst l = false ∧ l.behind wid 0 = false) ∧
    (∃ (s : State) (h : Hart), s.hart? 0 = some h ∧ Assoc.wf s.harts = true ∧ s.freeRecords (dieOf 0) ≠ []) ∧
    (∃ s : State, let all := s.harts.filter fun p => coreIndex p.1 == 0
      let out := all.filter fun p => s.borrowed p.2
      s.reserved 0 = true ∧ out ≠ [] ∧ (∀ p ∈ all, p.2.halted = false) ∧ (∀ p ∈ out, s.stoppable p.1 p.2 = true) ∧
      out.length ≤ (s.freeRecords 0).length ∧ ∃ p g w, p ∈ s.launches ∧ p.2.latency = true ∧ g < recGroups p.2.dwords ∧
        p.2.waiting g = some w ∧ s.unplaceable p.1 p.2 w 0 = true ∧
        (out.foldl (fun t p => t.vacate p.1 false) s).groupFits p.1 p.2 w 0 = true) ∧
    (∃ s : State, s.reserved 0 = false) ∧
    (∀ scope ∈ [1, 2, 5], ∃ (s : State) (l : Launch), s.launch? 1 = some l ∧
      let key := 8 * (if scope = 1 then 0 else 0) + scope
      let n := (l.boundary key).complete + 1
      let group := l.phaseGroup scope key
      let waiting := s.harts.filter fun (p : Nat × Hart) => p.2.tag == 1 &&
        (match Assoc.find group p.2.wid.toNat with
          | none => false
          | some m => !m.exited && m.arrived scope n && waitsAt p.2.wait.word scope)
      recReplay l.dwords = false ∧ (∀ p ∈ waiting, s.stoppable p.1 p.2 = true) ∧ waiting ≠ [] ∧
      (∀ d, d < 4 → (waiting.filter fun p => dieOf p.1 == d).length ≤ (s.freeRecords d).length) ∧
      ∃ p ∈ group, s.vacatedKey 1 p.1 ≠ none ∧ p.2.arrived scope n = false ∧ p.2.exited = false ∧
        (∀ q ∈ group, q.1 = p.1 ∨ q.2.exited = true ∨ s.waitsOpen 1 q.1 q.2 scope n = true) ∧
        ∀ d, d < 4 → s.unplaceable 1 (s.unitsKept 1 l p.1) p.1 d = true) ∧
    (∃ (s : State) (l : Launch) (v : Vacated), s.launch? 1 = some l ∧ s.vacatedKey 1 0 = some (0, v) ∧
      let kept := s.unitsKept 1 l 0
      s.canSeat 1 kept 0 none (firstSeat 1) = true ∧ s.classAllows 1 kept 0 none 0 = true ∧ (∀ p ∈ s.vacated, p.1 = 0) ∧
      (∀ p ∈ s.launches, p.2.latency = false) ∧ l.latency = false) := by
  have room (s : State) (die : Nat) (h : s.vacated = []) : (s.freeRecords die).length = storeRecords := by
    rw [records_free s die h, List.length_range]
  refine ⟨?_, ⟨world, tester, rfl, rfl, by rw [records_free _ _ rfl]; decide⟩, ?_, ⟨resumeWorld, by decide⟩, ?_, ?_⟩
  · simp only [List.forall_mem_cons, List.not_mem_nil, false_imp_iff, implies_true, and_true]
    exact ⟨⟨emptyWorld, _, rfl, by decide, rfl, by decide, by decide, by decide, by decide, by decide⟩,
      ⟨{ emptyWorld with launches := [(1, { classLaunch 2 0 0 false with members := [(0, memberAt 0 [] true)], started := [(0, 1)] })] }, _, rfl,
        by decide, rfl, by decide, by decide, by decide, by decide, by decide⟩⟩
  · refine ⟨crowdedWorld, by decide, by decide, by decide, by decide, ?_, (2, _), 1, 1, List.mem_cons_of_mem _ (List.mem_cons_self ..), by decide,
      by decide, by decide, by decide +kernel, ?_⟩
    · rw [room _ _ rfl]
      decide
    · obtain ⟨m, w, d, e⟩ := vacate_form crowdedWorld 0 _ rfl rfl rfl rfl false
      show (crowdedWorld.vacate 0 false).groupFits 2 _ 1 0 = true
      rw [e]
      exact (fits_apart ..).trans (by decide)
  · have room1 (scope : Nat) (d : Nat) : (blockedWorld scope).freeRecords d ≠ [] := by
      have q : 0 ∈ (blockedWorld scope).freeRecords d := List.mem_filter.mpr ⟨by decide, by
        rcases d with _ | d
        · rfl
        · have x : ¬ storeRecords * (d + 1) = storeRecords - 1 := by simp only [storeRecords]; omega
          have y : ¬ storeRecords * (d + 1) < storeRecords - 1 := by simp only [storeRecords]; omega
          simp [blockedWorld, Assoc.find, x, y]⟩
      exact List.ne_nil_of_mem q
    intro scope h
    refine ⟨blockedWorld scope, _, rfl, ?_, ?_, ?_, ?_, (1, memberAt 0 [] false), ?_, ?_, ?_, rfl, ?_, ?_⟩
    · fin_cases h <;> decide
    · fin_cases h <;> decide
    · fin_cases h <;> decide
    · intro d _
      refine Nat.le_trans (m := 1) ?_ (List.length_pos_iff.mpr (room1 scope d))
      exact Nat.le_trans (List.length_filter_le ..) (Nat.le_trans (List.length_filter_le ..) (Nat.le_refl 1))
    · fin_cases h <;> decide
    · fin_cases h <;> decide
    · fin_cases h <;> decide
    · fin_cases h <;> decide
    · fin_cases h <;> decide +kernel
  · exact ⟨resumeWorld, _, _, rfl, rfl, by decide, by decide, by decide, by decide, by decide⟩

/-- A compaction of the world's range with some bytes copied, and the world with it and with failing words. -/
def moving (copied : Nat) (swung : Bool) : Compaction :=
  { asid := loadAsid, root := loadRoot, base := 0x10000, size := 0x10000, source := 0x10000, target := 0x30000, copied := copied, swung := swung }

def compactWorld (c : Compaction) (bad : List Nat) : State :=
  { world with badWords := bad, compactions := #v[some c, none, none, none] }

/-- Compactions that copy, swing and end, and two that meet a failing word, the first and the last of the range; words of each
storage and of a hart. -/
theorem witness_CompactionAndErrors :
    (∀ copied ∈ [0, 0x100, 0x10000], ∃ (s : State) (c : Compaction) (r : RangeAt), s.compaction 0 = some c ∧ c.copied = copied ∧ c.swung = false ∧
      s.firstUncopied c = none ∧ s.underWayBut none c.asid 4 c.base (c.base + c.size) = false ∧ s.seals = [] ∧
      overlapping c.target c.size c.source c.size = false ∧ s.MemoryOk ∧
      ∃ s1, ((s.copyOn 0 c (c.size - c.copied)).moveExtent c).rawRange c.agent c.root c.base = (s1, some r) ∧ r.desc.base = c.base) ∧
    (∃ (s s1 : State) (c : Compaction) (r : RangeAt), s.compaction 0 = some c ∧ c.swung = true ∧
      s.rawRange c.agent c.root c.base = (s1, some r) ∧ r.desc.base = c.base) ∧
    (∃ (s : State) (c : Compaction) (n : Nat), s.compaction 0 = some c ∧ s.agenda = [.compactionCopy 0 n]) ∧
    (∀ w ∈ [0x2000, 0x3FFF], ∃ (s : State) (c : Compaction), s.compaction 0 = some c ∧ c.swung = false ∧ s.firstUncopied c = some w) ∧
    (∃ q, q % 256 = 0 ∧ q < 2 ^ 54 ∧ q + 256 = 2 ^ 54) ∧
    (∀ a ∈ [0, 0x7FFFFFFFF8, 2 ^ 52, 2 ^ 53, 2 ^ 54, 2 ^ 55], storageWord a = true) ∧
    (∃ (s : State) (h : Hart), s.hart? 0 = some h ∧ ∀ w ∈ ([.scalar 1, .scalar 63, .vector 0 0, .mask 7 0, .tile 3 8191, .headers 3 1023,
      .accumulator 3 8191, .scale 7 15, .length 0, .condition] : List HartWord), h.hasWord w = true) :=
  ⟨by
    simp only [List.forall_mem_cons, List.not_mem_nil, false_imp_iff, implies_true, and_true]
    exact ⟨⟨compactWorld (moving 0 false) [], moving 0 false, _, rfl, rfl, rfl, by decide, by decide, rfl, by decide,
      by unfold State.MemoryOk; decide, _, rfl, by decide⟩,
      ⟨compactWorld (moving 0x100 false) [], moving 0x100 false, _, rfl, rfl, rfl, by decide, by decide, rfl, by decide,
      by unfold State.MemoryOk; decide, _, rfl, by decide⟩,
      ⟨compactWorld (moving 0x10000 false) [], moving 0x10000 false, _, rfl, rfl, rfl, by decide, by decide, rfl, by decide,
      by unfold State.MemoryOk; decide, _, rfl, by decide⟩⟩,
   ⟨compactWorld (moving 0x10000 true) [], _, moving 0x10000 true, _, rfl, rfl, rfl, by decide⟩,
   ⟨{ compactWorld (moving 0 false) [] with agenda := [.compactionCopy 0 256] }, moving 0 false, 256, rfl, rfl⟩,
   by
    intro w h
    refine ⟨compactWorld (moving 0 false) [w], moving 0 false, rfl, rfl, ?_⟩
    fin_cases h <;> decide,
   ⟨2 ^ 54 - 256, by decide, by decide, by decide⟩, by decide,
   ⟨seated fun h => { h with ctl := { h.ctl with lq := [1], cq := [true] } }, _, rfl, by decide⟩⟩

/-! Merge points, deliveries and rounds. -/

def xrec (k : Nat) : XRecord := { key := k, payload := [1, 2, 3, 4], used := 4, trunc := false }

/-- A merge point whose input 0 is as given. -/
def onePoint (link : List XItem) (held : List XRecord) (floor : Nat) (closed : Bool) : MergeState :=
  { inputs := [(0, { link := link, held := held, floor := floor, closed := closed })], sentFloor := 0, sentClose := false }

/-- An exchange of one sender, of column `c`, and one receiver, of column `d`, with the run of the sender and a merge point. -/
def mergeExchange (scope c d : Nat) (joined : Bool) (queue : List (Nat × XItem)) (pt : MergePt) (p : MergeState) : Exchange :=
  { exchangeOf 0 0 [(0, 4)] true true 0 0 none with
    scope := scope, senderList := [{ ownPoint with col := c }], receiverList := [{ ownPoint with col := d }],
    senders := [(0, { joined := joined, leaf := 0, gone := false, round := 1, floor := 0, sent := 0, queue := queue })],
    points := [(pointKey 0 pt, p)] }

/-- The world of a grid of 1 × 2 with this exchange. -/
def mergeWorld8 (e : Exchange) : State := { world with exchanges := [(0, e)], hub := { world.hub with nc := 1 } }

/-- What a merge point emits: 0 nothing, 1 a record, 2 a floor, 3 a close. -/
def emits (e : Exchange) (pt : MergePt) : Nat :=
  let b := (mergeWorld8 e).hub
  let p := e.point (pointKey 0 pt)
  match e.emission p ((e.inputsOf b pt).map fun n => (n, p.input n)) with
  | none => 0
  | some (.record _, _) => 1
  | some (.floor _, _) => 2
  | some (.close, _) => 3

/-- The inputs of a merge point. -/
def insOf (e : Exchange) (pt : MergePt) : List (Nat × MergeInput) :=
  (e.inputsOf (mergeWorld8 e).hub pt).map fun n => (n, (e.point (pointKey 0 pt)).input n)

/-- The premises of an emission at die 0's point: record `k`'s input passes it under combiner none (0), the records of the least key
fold under another (1), it waits and its floor rises (2) or does not (3), and it is over, its close sent (5) or not (4). -/
def emitCase (e : Exchange) : Nat :=
  let ins := insOf e (.die 0)
  let p := e.point (pointKey 0 (.die 0))
  let floor := (ins.map fun q => q.2.first).foldl min (2 ^ 64)
  match (ins.flatMap fun q => q.2.held).head? with
  | some r =>
    if ins.all (fun q => q.2.held.all fun y => decide (r.key ≤ y.key)) then
      if e.comb = 0 then
        if ins.zipIdx.all fun q => (q.2 == 0 || decide (r.key ≤ q.1.2.first)) && (q.2 != 0 || !q.1.2.held.isEmpty) then 0 else 6
      else if ins.all fun q => decide (r.key < q.2.after r.key) then 1 else 6
    else 6
  | none =>
    if ins.all fun q => q.2.closed then (if p.sentClose then 5 else 4) else if p.sentFloor < floor then 2 else 3

/-- Items of each kind from a sender, from a point of this device and from abroad; each emission, and each next place. -/
theorem witness_MergeSteps :
    let b := (mergeWorld8 (exchangeOf 0 0 [(0, 4)] true true 0 0 none)).hub
    (∀ x ∈ ([.record (xrec 5), .floor 5, .close] : List XItem), ∃ e rest z,
      Assoc.find (mergeWorld8 e).exchanges 0 = some e ∧ e.holds b 0 (.cluster 0 0) = true ∧ 0 ∈ e.inputsOf b (.cluster 0 0) ∧
      Assoc.find e.senders 0 = some z ∧ z.queue = (e.round, x) :: rest) ∧
    (∀ x ∈ ([.record (xrec 5), .floor 5, .close] : List XItem), ∃ e rest,
      Assoc.find (mergeWorld8 e).exchanges 0 = some e ∧ e.holds b 0 (.die 0) = true ∧ 0 ∈ e.inputsOf b (.die 0) ∧
      e.fromAbroad b (.die 0) 0 = false ∧ ((e.point (pointKey 0 (.die 0))).input 0).link = x :: rest) ∧
    (∀ gone ∈ [false, true], ∃ e z, Assoc.find (mergeWorld8 e).exchanges 0 = some e ∧ e.holds b 0 (.cluster 0 0) = true ∧ 0 ∈ e.inputsOf b (.cluster 0 0) ∧
      Assoc.find e.senders 0 = some z ∧ z.queue = [] ∧ z.gone = gone) ∧
    (∃ e z, Assoc.find (mergeWorld8 e).exchanges 0 = some e ∧ e.holds b 0 (.cluster 0 0) = true ∧ 0 ∈ e.inputsOf b (.cluster 0 0) ∧
      Assoc.find e.senders 0 = some z ∧ z.queue = [(e.round + 1, .close)]) ∧
    (∃ e, Assoc.find (mergeWorld8 e).exchanges 0 = some e ∧ e.holds b 0 (.die 0) = true ∧ 0 ∈ e.inputsOf b (.die 0) ∧
      e.fromAbroad b (.die 0) 0 = false ∧ ((e.point (pointKey 0 (.die 0))).input 0).link = [] ∧ 1 ∉ e.inputsOf b (.die 0)) ∧
    (∀ n ∈ [0, 1, 2, 3, 4, 5], ∃ e, Assoc.find (mergeWorld8 e).exchanges 0 = some e ∧ e.holds b 0 (.die 0) = true ∧ emitCase e = n) ∧
    (∃ e, Assoc.find (mergeWorld8 e).exchanges 0 = some e ∧ e.holds b 0 (.die 0) = true ∧ e.formed = false) ∧
    (∀ sends, ∃ e, Assoc.find (mergeWorld8 e).exchanges 0 = some e ∧ e.holds b 0 .rowHop = true ∧ 0 ∈ e.inputsOf b .rowHop ∧
      e.fromAbroad b .rowHop 0 = true ∧ e.inputSends .rowHop 0 = sends) ∧
    (∀ n ∈ [0, 1, 2, 3], ∃ e, Assoc.find (mergeWorld8 e).exchanges 0 = some e ∧ e.holds b 0 (.die 0) = true ∧ e.formed = true ∧
      e.stands b 0 (.die 0) = true ∧ emits e (.die 0) = n ∧ e.nextOf b 0 (.die 0) = .stream) ∧
    (∃ e, e.holds b 0 (.cluster 0 0) = true ∧ e.formed = true ∧ e.stands b 0 (.cluster 0 0) = true ∧ emits e (.cluster 0 0) = 1 ∧
      e.nextOf b 0 (.cluster 0 0) = .point (.die 0) ∧ e.numberOf b (.cluster 0 0) = some 0) ∧
    ∃ e, e.holds b 0 .hub = true ∧ e.formed = true ∧ e.stands b 0 .hub = true ∧ emits e .hub = 1 ∧ e.nextOf b 0 .hub = .away 0 1 := by
  simp only [List.forall_mem_cons, List.not_mem_nil, false_imp_iff, implies_true, and_true]
  let q (x : XItem) := mergeExchange 0 0 0 true [(1, x)] (.die 0) (onePoint [x] [] 0 false)
  let p (m : MergeState) := mergeExchange 0 0 0 true [] (.die 0) m
  exact ⟨⟨⟨q (.record (xrec 5)), _, _, rfl, by decide, by decide, rfl, rfl⟩, ⟨q (.floor 5), _, _, rfl, by decide, by decide, rfl, rfl⟩,
      ⟨q .close, _, _, rfl, by decide, by decide, rfl, rfl⟩⟩,
    ⟨⟨q (.record (xrec 5)), _, rfl, by decide, by decide, by decide, rfl⟩, ⟨q (.floor 5), _, rfl, by decide, by decide, by decide, rfl⟩,
      ⟨q .close, _, rfl, by decide, by decide, by decide, rfl⟩⟩,
    ⟨⟨p (onePoint [] [] 0 false), _, rfl, by decide, by decide, rfl, rfl, rfl⟩,
      ⟨{ p (onePoint [] [] 0 false) with
          senders := [(0, { joined := true, leaf := 0, gone := true, round := 1, floor := 0, sent := 0, queue := [] })] }, _, rfl, by decide,
        by decide, rfl, rfl, rfl⟩⟩,
    ⟨mergeExchange 0 0 0 true [(2, .close)] (.die 0) (onePoint [] [] 0 false), _, rfl, by decide, by decide, rfl, rfl⟩,
    ⟨p (onePoint [] [] 0 false), rfl, by decide, by decide, by decide, rfl, by decide⟩,
    ⟨⟨p (onePoint [] [xrec 5, xrec 5] 5 false), rfl, by decide, by decide⟩,
      ⟨{ p (onePoint [] [xrec 5, xrec 5] 6 false) with comb := 1 }, rfl, by decide, by decide⟩,
      ⟨p (onePoint [] [] 9 false), rfl, by decide, by decide⟩, ⟨p (onePoint [] [] 0 false), rfl, by decide, by decide⟩,
      ⟨p (onePoint [] [] 9 true), rfl, by decide, by decide⟩, ⟨p { onePoint [] [] 9 true with sentClose := true }, rfl, by decide, by decide⟩⟩,
    ⟨mergeExchange 0 0 0 false [] (.die 0) (onePoint [] [] 0 false), rfl, by decide, by decide⟩,
    fun sends => ⟨{ mergeExchange 2 1 0 true [] .rowHop (onePoint [] [] 0 false) with far := [(0, { joined := sends, gone := false, round := 1 })] },
      by cases sends <;> rfl, by cases sends <;> decide, by cases sends <;> decide, by cases sends <;> decide, by cases sends <;> decide⟩,
    ⟨⟨p (onePoint [] [] 0 false), rfl, by decide, by decide, by decide, by decide, by decide⟩,
      ⟨p (onePoint [] [xrec 5] 5 false), rfl, by decide, by decide, by decide, by decide, by decide⟩,
      ⟨p (onePoint [] [] 9 false), rfl, by decide, by decide, by decide, by decide, by decide⟩,
      ⟨p (onePoint [] [] 9 true), rfl, by decide, by decide, by decide, by decide, by decide⟩⟩,
    ⟨mergeExchange 0 0 0 true [] (.cluster 0 0) (onePoint [] [xrec 5] 5 false), by decide, by decide, by decide, by decide, by decide, by decide⟩,
    ⟨mergeExchange 2 0 1 true [] .hub (onePoint [] [xrec 5] 5 false), by decide, by decide, by decide, by decide, by decide⟩⟩

/-- An exchange whose one receiver has a stream. -/
def streamExchange (kind : Nat) (gone : Bool) (area : Option Area) (stream : List (Nat × XItem)) : Exchange :=
  { exchangeOf 0 0 [(0, 4)] true true 0 0 none with
    receiverList := [{ ownPoint with kind := kind }], receivers := [(0, { joined := true, gone := gone, area := area, stream := stream })] }

/-- An exchange of which everything is closed, or nothing, with a mode, the next one, and perhaps a table to install. -/
def roundExchange (done : Bool) (mode next : Nat) (install : Option (List Nat)) : Exchange :=
  { exchangeOf 0 mode [(0, 4)] true true 0 0 none with
    nextMode := next, install := install,
    senders := [(0, { joined := true, leaf := 0, gone := done, round := if done then 2 else 1, floor := 0, sent := 0, queue := [] })],
    receivers := [(0, { joined := true, gone := done, area := none, stream := [] })],
    points := if done then [(pointKey 0 (.cluster 0 0), { onePoint [] [] 0 true with sentClose := true }),
      (pointKey 0 (.die 0), { onePoint [] [] 0 true with sentClose := true })] else [] }

/-- Each item for each state of the receiver, areas with just room and with none, and rounds that are done and not. -/
theorem witness_DeliveryAndRounds :
    let is (e : Exchange) : Prop := Assoc.find (exchangeWorld e id).exchanges 0 = some e
    (∀ x ∈ ([.record (xrec 5), .floor 5, .close] : List XItem), ∀ gone, ∀ a ∈ ([none, some (areaOf none), some (areaOf (some true))] : List (Option Area)),
      ∃ e r rest, is e ∧ Assoc.find e.receivers 0 = some r ∧ r.stream = (1, x) :: rest ∧ (e.entry 0).kind ≠ 1 ∧ r.gone = gone ∧ r.area = a) ∧
    (∃ e r a, is e ∧ Assoc.find e.receivers 0 = some r ∧ r.area = some a ∧ a.ended = none ∧ a.written + e.slotSize = a.size) ∧
    (∃ e r a, is e ∧ Assoc.find e.receivers 0 = some r ∧ r.area = some a ∧ a.ended = none ∧ a.size < a.written + e.slotSize) ∧
    (∃ e r rest u, is e ∧ Assoc.find e.receivers 0 = some r ∧ r.stream = (1, .record (xrec 5)) :: rest ∧ (e.entry 0).kind = 1 ∧
      (exchangeWorld e id).ingress? (e.entry 0).die 0 = some u) ∧
    (∀ inbox ∈ [[], [xrec 5]], ∃ e r rest u, is e ∧ Assoc.find e.receivers 0 = some r ∧ r.stream = (1, .close) :: rest ∧
      (e.entry 0).kind = 1 ∧ (exchangeWorld e id).ingress? (e.entry 0).die 0 = some u ∧ u.inbox = inbox ∧ u.waiting = []) ∧
    (∀ done, ∃ e, is e ∧ e.roundDone world.hub = done ∧ e.farMember = false) ∧
    (∀ m ∈ [0, 1, 2], ∀ n ∈ [0, 1, 2], ∀ t ∈ [none, some [3, 4]], ∃ e, is e ∧ e.roundDone world.hub = true ∧ e.mode = m ∧ e.nextMode = n ∧
      e.install = t ∧ e.farMember = false ∧ e.far = []) ∧
    (∃ e, is e ∧ e.far ≠ [] ∧ e.farMember = false ∧ ∀ p ∈ e.far, p.2.sends e.round = false) ∧
    (∀ f, ∃ e, is e ∧ e.finished = f) := by
  let z (written : Nat) : Area := { areaOf none with written := written }
  let u (inbox : List XRecord) : Ingress :=
    { asid := 1, gs := 1, kg := 1, ng := 1, glo := 0, nbq := 1, thresh := 1, nb := 2, poolVa := 0, ringVa := 0, pool := [], ring := [], entrySize := 32,
      ringEntry := 128, pub := 0, dropped := 0, nans := 0, short := 0, nextSeq := 0, seedsOut := [], taken := [], buffers := [], inbox := inbox,
      waiting := [], pressed := false, started := [], published := [], releases := [], contests := [] }
  exact ⟨fun x _ gone a _ => ⟨streamExchange 0 gone a [(1, x)], _, _, rfl, rfl, rfl, Nat.zero_ne_one, rfl, rfl⟩,
    ⟨streamExchange 0 false (some (z 0x38)) [], _, z 0x38, rfl, rfl, rfl, rfl, by decide⟩,
    ⟨streamExchange 0 false (some (z 0x39)) [], _, z 0x39, rfl, rfl, rfl, rfl, by decide⟩,
    ⟨{ streamExchange 1 false none [(1, .record (xrec 5))] with ingress := [(0, u [])] }, _, _, u [], rfl, rfl, rfl, rfl, rfl⟩,
    fun xs _ => ⟨{ streamExchange 1 false none [(1, .close)] with ingress := [(0, u xs)] }, _, _, u xs, rfl, rfl, rfl, rfl, rfl, rfl, rfl⟩,
    fun done => ⟨roundExchange done 0 0 none, rfl, by cases done <;> decide +kernel, by cases done <;> decide⟩,
    fun m _ n _ t _ => ⟨roundExchange true m n t, rfl, (by decide +kernel : (roundExchange true 0 0 none).roundDone world.hub = true), rfl, rfl, rfl,
      (by decide : (roundExchange true 0 0 none).farMember = false), rfl⟩,
    ⟨{ roundExchange true 0 0 none with far := [(0, { joined := true, gone := true, round := 1 })] }, rfl, by decide, by decide, by decide⟩,
    fun f => ⟨{ roundExchange f 0 0 none with round := 2 }, rfl, by cases f <;> decide⟩⟩

/-- An ingress context of two experts in one group. -/
def unitOf8 (inbox : List XRecord) (started : List Batch) (published : Assoc Batch) (releases : List (Nat × Nat)) : Ingress :=
  { asid := 1, gs := 2, kg := 1, ng := 1, glo := 3, nbq := 2, thresh := 1, nb := 3, poolVa := 0, ringVa := 0, pool := [], ring := [], entrySize := 32,
    ringEntry := 128, pub := 0, dropped := 0, nans := 0, short := 0, nextSeq := 0, seedsOut := [], taken := [], buffers := [], inbox := inbox,
    waiting := [], pressed := false, started := started, published := published, releases := releases, contests := [] }

def batch (seq freed : Nat) : Batch :=
  { seq := seq, expert := 0, round := 1, rows := 1, blocks := [0, 2], short := false, close := false, freed := freed }

/-- A row of four bytes and two scores, the first the greater. -/
def routed (group : Nat) : XRecord :=
  { key := group * 2 ^ 32, payload := [1, 2, 3, 4] ++ toBytesLE 4 0x40000000 ++ toBytesLE 4 0x3F800000 ++ toBytesLE 4 0x40000000, used := 12,
    trunc := false }

/-- An ingress context whose next entry, of expert 0, waits. -/
def waitingUnit (thresh : Nat) (buffers : Assoc Buffer) (out : Bool) (pressed : Bool) (started : List Batch) : Ingress :=
  { unitOf8 [] started [] [] with
    thresh := thresh, buffers := buffers, waiting := [{ expert := 0, bytes := List.replicate 32 7 }], pressed := pressed,
    seedsOut := if out then [0] else [], taken := if out then [2] else [] }

/-- How many blocks more the entry that waits needs. -/
def waitingNeed (u : Ingress) : Nat :=
  let b := (Assoc.find u.buffers 0).getD { blocks := [], rows := 0 }
  (b.rows * u.entrySize + u.entrySize + 4095) / 4096 - b.blocks.length

/-- Groups on both sides of the die's and in it; an entry that waits with room in its buffer, with a free block and without one, as
the unit has pressed or not; ring entries that are empty, released in full and in part; and writes to RELEASE below,
at and past what is freed. -/
theorem witness_IngressSteps :
    let is (u : Ingress) (e : Exchange) : Prop := Assoc.find (exchangeWorld e id).exchanges 0 = some e ∧ Assoc.find e.ingress 0 = some u
    (∀ g ∈ [2, 4], ∃ u e r, is u e ∧ u.waiting = [] ∧ u.inbox = [r] ∧ r.key / 2 ^ 32 = g ∧ u.entriesOf 4 r = none) ∧
    (∃ u e r es m, is u e ∧ u.waiting = [] ∧ u.inbox = [r] ∧ u.entriesOf 4 r = some (es, m) ∧ es.length = 1) ∧
    (∀ thresh ∈ [1, 2, 3], ∃ u e w, is u e ∧ u.waiting = [w] ∧ w.expert = 0 ∧ waitingNeed u = 0 ∧ u.thresh = thresh ∧
      Assoc.find u.buffers 0 = some { blocks := [0], rows := 1 }) ∧
    (∃ u e w, is u e ∧ u.waiting = [w] ∧ w.expert = 0 ∧ waitingNeed u = 1 ∧ u.freeBlock 0 = some 0) ∧
    (∀ pressed, ∀ started ∈ [[], [batch 2 0]], ∃ u e w, is u e ∧ u.waiting = [w] ∧ w.expert = 0 ∧ waitingNeed u = 1 ∧ u.freeBlock 0 = none ∧
      u.pressed = pressed ∧ u.settled = started.isEmpty ∧ u.buffers = []) ∧
    (∃ u e w, is u e ∧ u.waiting = [w] ∧ w.expert = 0 ∧ waitingNeed u = 1 ∧ u.freeBlock 0 = none ∧ u.pressed = false ∧ u.fullest = some 1 ∧
      Assoc.find u.buffers 1 = some { blocks := [1], rows := 1 }) ∧
    (∀ old ∈ [none, some (batch 0 2), some (batch 0 1)], ∃ u e b rest, is u e ∧ u.started = b :: rest ∧
      Assoc.find u.published (b.seq % u.nbq) = old) ∧
    (∀ v ∈ [0, 1, 2, 3], ∃ u e rest b, is u e ∧ u.releases = (4, v) :: rest ∧ Assoc.find u.published (4 % u.nbq) = some b ∧ b.seq = 4 ∧
      b.freed = 1 ∧ b.blocks.length = 2) := by
  let e (u : Ingress) : Exchange := { exchangeOf 0 0 [(0, 4)] true true 0 0 none with ingress := [(0, u)] }
  refine ⟨?_, ?_, fun t _ => ⟨waitingUnit t [(0, { blocks := [0], rows := 1 })] false false [], e _, _, ⟨rfl, rfl⟩, rfl, rfl,
      (by decide : waitingNeed (waitingUnit 1 [(0, { blocks := [0], rows := 1 })] false false []) = 0), rfl, rfl⟩,
    ⟨waitingUnit 1 [] false false [], e _, _, ⟨rfl, rfl⟩, rfl, rfl, rfl, by decide⟩,
    fun p t h => ⟨waitingUnit 1 [] true p t, e _, _, ⟨rfl, rfl⟩, rfl, rfl, (by decide : waitingNeed (waitingUnit 1 [] true true []) = 1),
      (by decide : (waitingUnit 1 [] true true []).freeBlock 0 = none), rfl, by fin_cases h <;> rfl, rfl⟩,
    ⟨waitingUnit 1 [(1, { blocks := [1], rows := 1 })] true false [], e _, _, ⟨rfl, rfl⟩, rfl, rfl, by decide, by decide, rfl, by decide, rfl⟩,
    ?_, ?_⟩
  · intro g h
    refine ⟨unitOf8 [routed g] [] [] [], e _, routed g, ⟨rfl, rfl⟩, rfl, rfl, ?_, ?_⟩ <;> fin_cases h <;> decide
  · exact ⟨unitOf8 [routed 3] [] [] [], e _, routed 3, _, _, ⟨rfl, rfl⟩, rfl, rfl, rfl, by decide⟩
  · intro old h
    refine ⟨unitOf8 [] [batch 2 0] (old.map fun b => (0, b)).toList [], e _, batch 2 0, [], ⟨rfl, rfl⟩, rfl, ?_⟩
    fin_cases h <;> rfl
  · intro v _
    exact ⟨unitOf8 [] [] [(0, batch 4 1)] [(4, v)], e _, [], batch 4 1, ⟨rfl, rfl⟩, rfl, (by decide : Assoc.find [(0, batch 4 1)] (4 % 2) = some (batch 4 1)), rfl, rfl, rfl⟩

/-! The fabric, launches, the host's windows. -/

/-- The world, its range open to peers, with one request that has arrived, failing words, and positions of the fault log. -/
def peerWorld (q : PeerRequest) (bad : List Nat) (tail : BitVec 32) : State :=
  { world with mem := world.mem.write 0x1020 0xF8, peerIn := [q], badWords := bad, hub := { world.hub with flTail := tail } }

def peerRequest (op aop : BitVec 8) (va b : Word) : PeerRequest :=
  { row := 0, col := 1, expinc := 1, tag := 5, srcinc := 1, asid := 1, op := op, size := if op = 1 then 0 else 8, aop := aop, va := va,
    bmask := BitVec.allOnes 64, opb := b, opc := 0, block := List.replicate 64 7 }

/-- How a request's route ends: 0 in an error, 1 at a failing word, 2 in one piece of COHERENT storage, 3 otherwise. -/
def routeCase (s : State) (q : PeerRequest) (n : Nat) (k : Access) : Nat :=
  let s : State := if q.op = 1 then s else s.settleTree .outside
  match s.outsideRoute (outsideAgent q.asid (s.rootOf q.asid)) q.va.toNat n k true with
  | (_, .error _) => 0
  | (s1, .ok [p]) => if p.place.target ≠ .memory then 3
      else if if q.op = 1 then (q.runs p.place).any fun r => (s1.badWord r.place.addr r.size).isSome
        else (s1.badWord p.place.addr p.size).isSome then 1
      else if p.place.phased then 3 else 2
  | (_, .ok _) => 3

/-- The word that the world's memory holds at a place is old; what an atomic of code `aop` makes of it. -/
def atomicCase (aop : Nat) (old operand compare : Nat) : Option (Option Nat) :=
  (AtomicOp.ofCode aop).map fun op => op.apply 8 old operand compare

/-- A hart that waits for the answer to request 5, which is as given. -/
def askedWorld (p : Pending) : State :=
  { seated fun h => { h with wait := { h.wait with request := some 5 } } with pending := [(5, p)] }

/-- The world with its range at the host, or at device (0, `col`) of a row of two, open to peers, and a load that has arrived. -/
def beyondWorld (far : Nat) (q : PeerRequest) : State :=
  { world with
    mem := ((world.mem.write 0x1020 0xF8).write 0x1027 (BitVec.ofNat 8 far)).write 0x1028 (if far = 0 then 0x84 else 0x88),
    peerIn := [q], hub := { world.hub with nc := 1 } }

/-- How the load of a range beyond the device goes on: 0 sent, 1 refused, 2 otherwise. -/
def beyondCase (s : State) (q : PeerRequest) : Nat :=
  match s.outsideRoute (outsideAgent q.asid (s.rootOf q.asid)) q.va.toNat 8 .read true with
  | (s1, .ok [p]) =>
    if p.place.target = .memory then 2
    else match s1.issueRead .peer p.place p.size with
      | (_, .sent _) => 0
      | (_, .answered (.failed _)) => 1
      | _ => 2
  | _ => 2

/-- A hub of a row of two, with spare lanes and ports down. -/
def rowOfTwo (spares : Nat) (down : List Nat) : Hub := { world.hub with nc := 1, spares := spares, down := down }

/-- A flit for the device of column `c`, of kind `k`, for an incarnation. -/
def flitFor (c k : Nat) (inc : BitVec 16) : Flit :=
  { header := ({ vc := 2, kind := k, drow := 0, dcol := c, srow := 0, scol := 1, det := false, expinc := inc, tag := 5 } : FlitHead).word,
    payload := [] }

/-- A load of a range at the host that finds every tag taken. -/
theorem load_full : ∃ (s1 s2 : State) (p : Piece),
    ({ beyondWorld 0 (peerRequest 0 0 0x11000 1) with pending := everyTag } : State).outsideRoute (outsideAgent 1 (some 0x1000)) 0x11000 8 .read true =
      (s1, .ok [p]) ∧ p.place.target = .host ∧ s1.issueRead .peer p.place p.size = (s2, .full) := by
  have full (s : State) (p : Place) (n : Nat) (t : p.target = .host) (a : s.ownWindowA p.addr = none) (e : s.tagless = true) :
      s.issueRead .peer p n = (s, .full) := by
    simp [State.issueRead, State.sendTagged, t, a, e]
  refine ⟨_, _, _, rfl, rfl, full _ _ _ rfl rfl (everyTag_full _ ?_)⟩
  rfl

theorem witness_FabricSteps :
    let first (s : State) (q : PeerRequest) : Prop := s.peerIn[0]? = some q ∧ s.heldStore q = none ∧ s.peerIn.take 0 = [] ∧
      q.left = [] ∧ s.replaying q.source q.asid q.va.toNat (if q.op = 1 then 64 else 8) = false
    (∀ n ∈ [0, 1, 2], ∃ s q, first s q ∧ q.op = 0 ∧ routeCase s q 8 .read = n) ∧
    (∀ full, ∃ s q, first s q ∧ q.op = 1 ∧ routeCase s q 1 .write = 0 ∧ s.hub.logFull = full) ∧
    (∃ s q, first s q ∧ q.op = 1 ∧ routeCase s q 1 .write = 2) ∧
    (∀ n ∈ [0, 1, 2], ∃ s q, first s q ∧ q.op = 2 ∧ (AtomicOp.ofCode q.aop.toNat).isSome = true ∧ routeCase s q 8 .atomic = n) ∧
    (atomicCase 0 7 1 0 = some (some 8) ∧ atomicCase 9 7 1 0 = some none ∧ atomicCase 9 7 1 7 = some (some 1)) ∧
    (∃ s : State, s.hub.flHead ≠ s.hub.flTail) ∧
    (∃ (r : PeerResponse) (s : State), r.expinc ≠ s.hub.incarnation) ∧
    (∀ op ∈ [0, 1, 2], ∃ (s : State) (q : PeerRequest) (tag : BitVec 16), s.peerIn[0]? = some q ∧ s.heldStore q = none ∧ q.op = op ∧
      q.request = some tag ∧ q.answer = none) ∧
    (∃ (s : State) (q : PeerRequest) (tag : BitVec 16) (c : Cause), s.peerIn[0]? = some q ∧ s.heldStore q = none ∧ q.op = 0 ∧
      q.request = some tag ∧ q.answer = some (.failed c)) ∧
    (∃ (s : State) (q : PeerRequest) (tag : BitVec 16) (v : Nat) (p : Piece), s.peerIn[0]? = some q ∧ s.heldStore q = none ∧ q.op = 0 ∧
      q.request = some tag ∧ q.answer = some (.data v) ∧ q.left = [p]) ∧
    (∀ n ∈ [0, 1], ∃ s q, first s q ∧ q.request = none ∧ q.op = 0 ∧ beyondCase s q = n) ∧
    (∃ (s s1 s2 : State) (q : PeerRequest) (p : Piece), first s q ∧ q.request = none ∧ q.op = 0 ∧
      s.outsideRoute (outsideAgent q.asid (s.rootOf q.asid)) q.va.toNat 8 .read true = (s1, .ok [p]) ∧ p.place.target = .host ∧
      s1.issueRead .peer p.place p.size = (s2, .full)) ∧
    (∃ (s : State) (q : PeerRequest) (tag : BitVec 16) (v : Nat), s.peerIn[0]? = some q ∧ s.heldStore q = none ∧ q.op = 2 ∧
      q.request = some tag ∧ q.answer = some (.data v) ∧ AtomicOp.ofCode q.aop.toNat = some .add) ∧
    (∃ (r : PeerResponse) (s : State), r.expinc = s.hub.incarnation ∧ Assoc.find s.pending r.tag.toNat = none) ∧
    (∀ peer, ∀ track ∈ [none, some (1, 0x11000, 0x11008)], ∃ (r : PeerResponse) (s : State) (h : Hart), s.hart? 0 = some h ∧
      r.expinc = s.hub.incarnation ∧ r.tag = 5 ∧
      Assoc.find s.pending r.tag.toNat = some { asked (.hart 0) peer with track := track } ∧ h.wait.request = some r.tag) ∧
    (∃ (r : PeerResponse) (s : State), r.expinc = s.hub.incarnation ∧ Assoc.find s.pending r.tag.toNat = some (asked .gone true)) ∧
    (∃ s : State, s.hub.working 0 = false) ∧ (∃ s : State, s.hub.working 0 = true ∧ s.hub.spares ≠ 0) ∧
    (∃ s : State, s.hub.working 0 = true ∧ s.hub.spares = 0) ∧
    (∃ (s : State) (f : Flit), s.hub.working 0 = true ∧ s.hub.recovery = false ∧ 4 ≤ (flitHead f.header).kind) ∧
    (∃ (s : State) (f : Flit), let x := flitHead f.header
      s.hub.working 0 = true ∧ s.hub.recovery = false ∧ x.kind = 3 ∧ x.drow = s.hub.row.toNat ∧ x.dcol = s.hub.col.toNat ∧
        x.expinc ≠ s.hub.incarnation) ∧
    (∃ (s : State) (f : Flit) (p : Nat), let x := flitHead f.header
      s.hub.working 0 = true ∧ s.hub.recovery = false ∧ x.kind = 3 ∧ x.dcol ≠ s.hub.col.toNat ∧ s.hub.outPort x = some p) ∧
    (∀ k ∈ [0, 1, 2], ∀ m ∈ [[], [(2, ({ head := flitFor 1 0 1, body := [] } : Flow))]], ∃ (s : State) (f : Flit), s.hub.working 0 = true ∧
      s.hub.recovery = false ∧ (flitHead f.header).kind = k ∧ s.hub.arriving = m ∧ 8 * 0 + (flitHead f.header).vc = 2) ∧
    (∃ s : State, s.hub.outPort (flitHead (flitFor 1 0 1).header) = none) ∧
    (∃ (s : State) (p : Nat), s.hub.outPort (flitHead (flitFor 1 0 1).header) = some p) := by
  simp only [List.forall_mem_cons, List.not_mem_nil, false_imp_iff, implies_true, and_true, Bool.forall_bool]
  let at_ (op aop : BitVec 8) (va : Word) (bad : List Nat) (tail : BitVec 32) := peerWorld (peerRequest op aop va 1) bad tail
  let two (n : Nat) (d : List Nat) : State := { world with hub := rowOfTwo n d }
  let half (op : BitVec 8) (a : Option Answer) : PeerRequest :=
    { peerRequest op 0 0x11000 1 with request := some 5, answer := a, left := [farPiece] }
  let part : State := { world with hub := { rowOfTwo 0 [] with arriving := [(2, { head := flitFor 1 0 1, body := [] })] } }
  let load : PeerRequest := peerRequest 0 0 0x11000 1
  let r (inc : BitVec 16) : PeerResponse := { expinc := inc, tag := 5, rsp := 0, data := 1 }
  obtain ⟨s1, s2, p, e1, e2, e3⟩ := load_full
  exact ⟨⟨⟨at_ 0 0 0x20000 [] 0, _, ⟨rfl, rfl, rfl, rfl, by decide⟩, rfl, by decide⟩, ⟨at_ 0 0 0x11000 [0x2200] 0, _, ⟨rfl, rfl, rfl, rfl, by decide⟩, rfl, by decide⟩,
      ⟨at_ 0 0 0x11000 [] 0, _, ⟨rfl, rfl, rfl, rfl, by decide⟩, rfl, by decide⟩⟩,
    ⟨⟨at_ 1 0 0x20000 [] 4095, _, ⟨rfl, rfl, rfl, rfl, by decide⟩, rfl, by decide, by decide⟩,
      ⟨at_ 1 0 0x20000 [] 4096, _, ⟨rfl, rfl, rfl, rfl, by decide⟩, rfl, by decide, by decide⟩⟩,
    ⟨at_ 1 0 0x11000 [] 0, _, ⟨rfl, rfl, rfl, rfl, by decide⟩, rfl, by decide⟩,
    ⟨⟨at_ 2 0 0x20000 [] 0, _, ⟨rfl, rfl, rfl, rfl, by decide⟩, rfl, rfl, by decide⟩,
      ⟨at_ 2 12 0x11000 [0x2200] 0, _, ⟨rfl, rfl, rfl, rfl, by decide⟩, rfl, by decide, by decide⟩,
      ⟨at_ 2 9 0x11000 [] 0, _, ⟨rfl, rfl, rfl, rfl, by decide⟩, rfl, by decide, by decide⟩⟩,
    by decide, ⟨at_ 0 0 0 [] 1, by decide⟩, ⟨r 2, world, by decide⟩,
    ⟨⟨peerWorld (half 0 none) [] 0, half 0 none, 5, rfl, rfl, rfl, rfl, rfl⟩, ⟨peerWorld (half 1 none) [] 0, half 1 none, 5, rfl, rfl, rfl, rfl, rfl⟩,
      ⟨peerWorld (half 2 none) [] 0, half 2 none, 5, rfl, rfl, rfl, rfl, rfl⟩⟩,
    ⟨peerWorld (half 0 (some (.failed .rmiss))) [] 0, _, 5, .rmiss, rfl, rfl, rfl, rfl, rfl⟩,
    ⟨peerWorld (half 0 (some (.data 7))) [] 0, _, 5, 7, farPiece, rfl, rfl, rfl, rfl, rfl, rfl⟩,
    ⟨⟨beyondWorld 0 load, load, ⟨rfl, rfl, rfl, rfl, by decide⟩, rfl, rfl, by decide⟩, ⟨beyondWorld 5 load, load, ⟨rfl, rfl, rfl, rfl, by decide⟩, rfl, rfl, by decide⟩⟩,
    ⟨{ beyondWorld 0 load with pending := everyTag }, s1, s2, load, p, ⟨rfl, rfl, rfl, rfl, by decide⟩, rfl, rfl, e1, e2, e3⟩,
    ⟨peerWorld (half 2 (some (.data 7))) [] 0, _, 5, 7, rfl, rfl, rfl, rfl, rfl, rfl⟩, ⟨r 1, world, rfl, rfl⟩,
    ⟨⟨⟨r 1, askedWorld (asked (.hart 0) false), _, rfl, rfl, rfl, rfl, rfl⟩,
        ⟨r 1, askedWorld { asked (.hart 0) false with track := some (1, 0x11000, 0x11008) }, _, rfl, rfl, rfl, rfl, rfl⟩⟩,
      ⟨r 1, askedWorld (asked (.hart 0) true), _, rfl, rfl, rfl, rfl, rfl⟩,
      ⟨r 1, askedWorld { asked (.hart 0) true with track := some (1, 0x11000, 0x11008) }, _, rfl, rfl, rfl, rfl, rfl⟩⟩,
    ⟨r 1, askedWorld (asked .gone true), rfl, rfl⟩,
    ⟨world, by decide⟩, ⟨two 64 [], by decide, by decide⟩, ⟨two 0 [], by decide, by decide⟩,
    ⟨two 0 [], flitFor 0 4 1, by decide, rfl, by decide⟩, ⟨two 0 [], flitFor 0 3 2, by decide, rfl, by decide, by decide, by decide, by decide⟩,
    ⟨two 0 [], flitFor 1 3 1, 0, by decide, rfl, by decide, by decide, by decide⟩,
    ⟨⟨⟨two 0 [], flitFor 1 0 1, by decide, rfl, by decide, rfl, by decide⟩, ⟨part, flitFor 1 0 1, by decide, rfl, by decide, rfl, by decide⟩⟩,
      ⟨⟨two 0 [], flitFor 1 1 1, by decide, rfl, by decide, rfl, by decide⟩, ⟨part, flitFor 1 1 1, by decide, rfl, by decide, rfl, by decide⟩⟩,
      ⟨two 0 [], flitFor 1 2 1, by decide, rfl, by decide, rfl, by decide⟩, ⟨part, flitFor 1 2 1, by decide, rfl, by decide, rfl, by decide⟩⟩,
    ⟨world, by decide⟩, ⟨two 0 [], 0, by decide⟩⟩

/-- The device before its first launch, with a slot in a queue of die 0 and a record at 0x2000. -/
def takeWorld (bulk : Bool) (x : Word) (r : Record) : State :=
  { State.reset with
    mem := r.toList.zipIdx.foldl (fun m p => m.writeBytes (0x2000 + 8 * p.2) (toBytesLE 8 p.1.toNat)) [],
    queues := State.reset.queues.setIfInBounds (if bulk then 8 else 0)
      { LaunchQueue.reset with enable := true, tail := 1, slots := [(0, x)], copies := [(0, { base := 0x2000, values := r.toList.map fun x => [x] })],
                               late := if bulk then [(0, 0x2001)] else [] } }

/-- A record for the bulk class, valid or with a reserved bit set. -/
def bulkRecord (bad : Bool) : Record := (loadRecord.set 2 (BitVec.ofNat 64 (2 ^ 48 + 2 ^ 42))).set 7 (if bad then 1 else 0)

/-- What the record at HEAD of queue 0 or 8 comes to: 0 unreadable, 1 rejected, 2 taken. -/
def takeCase (s : State) (bulk : Bool) : Nat :=
  let x := s.queue (if bulk then 8 else 0)
  let slot := x.slot (x.head.toNat % 256)
  let pa := slot.toNat / 128 % 2 ^ 45 * 128
  if slot.toNat / 2 ^ 52 ≠ 0 || slot.toNat / 2 % 64 ≠ 0 || 0x8000000000 ≤ pa || (s.badWord pa 128).isSome then 0
  else if (s.recordFault (Vector.ofFn fun j : Fin 16 => s.mem.dword (pa + 8 * j.val)) (some (bit01 bulk))).isSome then 1 else 2

/-- The world's launch, over or not, and a replaying one whose next entry is not the hart's event. -/
def endingLaunch (exited ended : Bool) : Launch :=
  { loadLaunch State.reset 0 with members := [(0, memberAt 0 [] exited)], ended := ended }

def replayed : Replay :=
  { on := true, blockOk := true, blk := false, rmode := true, rlog := 0x11000, rcap := 0x40, rlen := 0x40, rpos := 0, rovf := false, rdiv := false }

def stuckReplay : State :=
  { facing (.aadd (mf 12 21 13 .i32)) (fun h => h.setS 21 0x11100) with launches := [(1, { loadLaunch State.reset 0 with replay := some replayed })] }

/-- How the completion word of the world's launch is written at an address: 0 performed, 1 it fails, 2 sent and awaited. -/
def wordCase (s : State) (a : Nat) : Nat :=
  match (s.deviceDword (.completion 1) (endingLaunch true false).agent a 0).2 with
  | .done => 0
  | .failed _ => 1
  | .sent _ => 2

/-- A launch that is completing, with what has become of its word. -/
def closingLaunch (written : Bool) (answer : Option Answer) : Launch :=
  { endingLaunch true false with closing := some { word := 0, written := written, copy := none, next := none, request := none, answer := answer } }

theorem witness_LaunchSteps :
    (∃ s : State, s.nextQueue 0 ≠ some 0) ∧
    (∀ late ∈ [none, some 0x2001], ∃ (s : State) (i : Nat), (i = 0 ∨ i = 8) ∧ s.nextQueue 0 = some i ∧ Assoc.wf (s.queue i).slots = true ∧
      Assoc.find (s.queue i).late 0 = late ∧ (Assoc.find (s.queue i).copies 0).isSome = true) ∧
    (recCaddr loadRecord = 0 ∧ recCaddr (loadRecord.set 6 0x11000) ≠ 0) ∧
    (wordCase world 0x11000 = 0 ∧ wordCase world 0x20000 = 1 ∧ wordCase (beyondWorld 1 (peerRequest 0 0 0 0)) 0x11000 = 2) ∧
    (∀ bulk, ∀ n ∈ [0, 1, 2], ∃ s : State, (s.launches.filter fun p => p.2.die == 0).length < 64 ∧
      s.nextQueue 0 = some (if bulk then 8 else 0) ∧ takeCase s bulk = n) ∧
    (∃ s l, State.launch? s 1 = some l ∧ ¬ (∀ p ∈ l.members, p.2.exited = true)) ∧
    (∀ ended, ∃ s l, State.launch? s 1 = some l ∧ (∀ p ∈ l.members, p.2.exited = true) ∧ l.members.length = recWidcount l.dwords ∧
      l.ended = ended ∧ s.nodes = [] ∧ s.exchanges = [] ∧ l.closing = none ∧ l.replay = none ∧ recSucc l.dwords = 0) ∧
    (∀ quiet, ∃ s l c, State.launch? s 1 = some l ∧ l.closing = some c ∧ s.quiet 1 = quiet) ∧
    (∀ a ∈ [none, some (.failed .peer), some (.data 0)], ∃ s l c, State.launch? s 1 = some l ∧ l.closing = some c ∧ s.quiet 1 = true ∧
      c.written = true ∧ c.next = none ∧ recSucc l.dwords = 0 ∧ c.answer = a) ∧
    (∃ s l, State.launch? s 1 = some l ∧ l.replay = none) ∧
    (∃ s l r, State.launch? s 1 = some l ∧ l.replay = some r ∧ r.constrains = true ∧
      (s.harts.any fun p => p.2.tag == 1 && s.waitsOnLog p.1 p.2) = true ∧ s.harts.length = 1) := by
  refine ⟨⟨State.reset, by decide⟩, ?_, by decide, by decide, ?_, ⟨world, _, rfl, by decide⟩, ?_,
    fun quiet => ⟨{ world with launches := [(1, closingLaunch false none)], pending := if quiet then [] else [(5, asked (.completion 1) true)] }, _, _,
      rfl, rfl, by cases quiet <;> rfl⟩,
    fun a _ => ⟨{ world with launches := [(1, closingLaunch true a)] }, _, _, rfl, rfl, rfl, rfl, rfl, (by decide : recSucc loadRecord = 0), rfl⟩,
    ⟨world, _, rfl, rfl⟩, ⟨stuckReplay, _, _, rfl, rfl, by decide, by decide, rfl⟩⟩
  · simp only [List.forall_mem_cons, List.not_mem_nil, false_imp_iff, implies_true, and_true]
    exact ⟨⟨takeWorld false 0x2001 loadRecord, 0, .inl rfl, by decide, by decide, by decide, by decide⟩,
      ⟨takeWorld true 0x2001 loadRecord, 8, .inr rfl, by decide, by decide, by decide, by decide⟩⟩
  · simp only [List.forall_mem_cons, List.not_mem_nil, false_imp_iff, implies_true, and_true, Bool.forall_bool]
    exact ⟨⟨⟨takeWorld false 0x2003 loadRecord, by decide, by decide, by decide⟩,
        ⟨takeWorld false 0x2001 (bulkRecord false), by decide, by decide, by decide +kernel⟩,
        ⟨takeWorld false 0x2001 loadRecord, by decide, by decide, by decide +kernel⟩⟩,
      ⟨⟨takeWorld true 0x8000000001 loadRecord, by decide, by decide, by decide⟩,
        ⟨takeWorld true 0x2001 (bulkRecord true), by decide, by decide, by decide +kernel⟩,
        ⟨takeWorld true 0x2001 (bulkRecord false), by decide, by decide, by decide +kernel⟩⟩⟩
  · intro ended
    refine ⟨{ world with launches := [(1, endingLaunch true ended)] }, _, rfl, ?_, (by decide : 1 = recWidcount loadRecord), rfl, rfl, rfl, rfl, rfl, (by decide : recSucc loadRecord = 0)⟩
    intro p h
    cases h with
    | head => rfl
    | tail _ h => cases h

/-- LATHI's value completes a mask of eight cores while every queue of die 0 is disabled. -/
def maskGood (s : State) (v : Word) : Bool :=
  let lo := (s.die 0).pendingLo.getD (s.die 0).latLo
  let ones (w : Word) : Nat := (List.range 64).countP fun j => w.getLsbD j
  v.toNat / 2 ^ 32 == 0 && ones lo + ones v == 8 && (List.range 16).all fun j => !(s.queue j).enable

/-- Registers of Window A at the edges of what they take; the mailbox idle and not. -/
theorem witness_WindowRegisters :
    (∃ s : State, s.hub.recovery = true) ∧
    (∀ n ∈ [0, 256], ∃ (s : State) (w : Word), s.hub.recovery = false ∧ (s.queue 0).enable = true ∧ w.toNat = n) ∧
    (∃ (s : State), s.hub.recovery = false ∧ (s.queue 0).enable = false) ∧
    (∃ (s : State) (v : Word), s.hub.recovery = false ∧ maskGood s v = true) ∧
    (∃ (s : State) (v : Word), s.hub.recovery = false ∧ maskGood s v = false) ∧
    (∀ n ∈ [3, 4], ∃ (s : State) (h : BitVec 32), s.hub.recovery = false ∧ (s.hub.flTail - s.hub.flHead).toNat = 3 ∧
      (h - s.hub.flHead).toNat = n) ∧
    (∀ valid, ∃ s : State, s.hub.recovery = false ∧ ((s.queue 0).slot 0).getLsbD 0 = valid) ∧
    (∀ p, ∀ m ∈ [(false, false), (true, false), (true, true)], ∃ s : State, s.hub.recovery = false ∧ s.hub.msix.pending.getLsbD 63 = p ∧
      s.hub.msix.enabled = m.1 ∧ s.hub.msix.masked = m.2) ∧
    (∃ s : State, s.hub.recovery = false ∧ s.hub.box.stage = .idle) ∧ (∃ s : State, s.hub.recovery = false ∧ s.hub.box.stage ≠ .idle) := by
  let hub (b : Hub) : State := { State.reset with hub := b }
  refine ⟨⟨hub { Hub.reset with recovery := true }, rfl⟩, ?_, ⟨State.reset, rfl, rfl⟩, ⟨State.reset, 0, rfl, by decide⟩, ⟨State.reset, 1, rfl, by decide⟩, ?_, ?_, ?_, ⟨State.reset, rfl, rfl⟩,
    ⟨hub { Hub.reset with box := { Mailbox.reset with stage := .started } }, rfl, by decide⟩⟩
  · intro n h
    refine ⟨queueOf true 0, BitVec.ofNat 64 n, rfl, by decide, ?_⟩
    fin_cases h <;> decide
  · intro n h
    refine ⟨hub { Hub.reset with flTail := 3 }, BitVec.ofNat 32 n, rfl, (by decide : ((3 : BitVec 32) - 0).toNat = 3), ?_⟩
    fin_cases h <;> decide
  · intro valid
    exact ⟨takeWorld false (if valid then 0x2001 else 0) loadRecord, rfl, by cases valid <;> decide⟩
  · intro p m _
    exact ⟨hub { Hub.reset with msix := { Msix.reset with pending := if p then 2 ^ 63 else 0, enabled := m.1, masked := m.2 } }, rfl,
      (by cases p <;> decide : (if p then (2 ^ 63 : Word) else 0).getLsbD 63 = p), rfl, rfl⟩

/-- Window B on, at a base, in the world's address space; with failing words, and the range in the device or at the host. -/
def windowWorld (base : Word) (bad : List Nat) (host : Bool) : State :=
  { world with mem := if host then (beyondWorld 0 (peerRequest 0 0 0 0)).mem else world.mem, badWords := bad, hub := { world.hub with wbctl := 0x0001000000000001, wbbase := base, wbroot := 0x1000 } }

/-- How an access of 8 bytes at Window B's base ends, as `routeCase` numbers it. -/
def windowCase (s : State) (k : Access) : Nat :=
  let s : State := if k = .write then s else s.settleTree .outside
  match s.routeRow (outsideAgent (BitVec.ofNat 16 (s.hub.wbctl.toNat / 2 ^ 48)) (some s.hub.wbroot.toNat)) (s.hub.wbbase.toNat % 2 ^ 54) 8 k with
  | (_, .error _) => 0
  | (s1, .ok [p]) => if farPieces [p] then 4 else if (s1.badPieces [p]).isSome then 1 else if p.place.phased then 3 else 2
  | (_, .ok _) => 3

/-- How a read of 8 bytes there goes on beyond the device: 0 sent, 1 with its data, 2 refused, 3 not at all. -/
def windowAsks (s : State) : Nat :=
  match (s.settleTree .outside).routeRow (outsideAgent (BitVec.ofNat 16 (s.hub.wbctl.toNat / 2 ^ 48)) (some s.hub.wbroot.toNat))
      (s.hub.wbbase.toNat % 2 ^ 54) 8 .read with
  | (s1, .ok [p]) =>
    if p.place.target = .memory ∨ p.size ≠ 8 then 3
    else match s1.issueRead .window p.place p.size with
      | (_, .sent _) => 0
      | (_, .answered (.data _)) => 1
      | (_, .answered (.failed c)) => if c = .dataerr then 3 else 2
      | (_, .full) => 3
  | _ => 3

/-- Window B on, at the base of the world's range, which leads beyond the device. -/
def farWindow (far : Nat) (barA : Option Nat) : State :=
  { beyondWorld far (peerRequest 0 0 0 0) with
    hub := { world.hub with nc := 1, barA := barA, wbctl := 0x0001000000000001, wbbase := 0x11000, wbroot := 0x1000 } }

/-- A request at Window B that has gone on. -/
def windowAsked (op : Option (HostAtomic × Word × Word)) (a : Option Answer) : WindowRequest :=
  { asid := 1, va := 0x11000, op := op, left := [farPiece], got := [], request := some 5, answer := a }

theorem witness_WindowAccesses :
    let on (s : State) : Prop := s.hub.wbctl.getLsbD 0 = true ∧ s.hub.recovery = false
    (∃ s : State, ¬ on s) ∧
    (∃ s, on s ∧ s.hub.wbbase.toNat % 8 = 4) ∧ (∃ (s : State) (off : Nat), off + 8 = s.hub.sizeB) ∧
    (∀ k ∈ [Access.read, .write, .atomic], ∀ n ∈ [0, 1, 2, 4], ∃ s, on s ∧ s.replaying .host 1 s.hub.wbbase.toNat 8 = false ∧
      s.hub.wbbase.toNat % 8 = 0 ∧ windowCase s k = n) ∧
    (∀ n ∈ [0, 1, 2], ∃ s, on s ∧ windowAsks s = n) ∧
    (∃ (s s1 : State) (p : Piece), on s ∧ s.routeRow (outsideAgent (BitVec.ofNat 16 (s.hub.wbctl.toNat / 2 ^ 48)) (some s.hub.wbroot.toNat))
      (s.hub.wbbase.toNat % 2 ^ 54) 8 .write = (s1, .ok [p]) ∧ p.place.target = .host ∧ s1.ownWindowA p.place.addr = none ∧ p.size = 8) ∧
    (∃ (s s1 s2 : State) (p : Piece), on s ∧
      (s.settleTree .outside).routeRow (outsideAgent (BitVec.ofNat 16 (s.hub.wbctl.toNat / 2 ^ 48)) (some s.hub.wbroot.toNat))
        (s.hub.wbbase.toNat % 2 ^ 54) 8 .read = (s1, .ok [p]) ∧ p.place.target = .host ∧ p.size = 8 ∧
      s1.issueRead .window p.place p.size = (s2, .full)) ∧
    (∀ op ∈ [none, some (HostAtomic.swap, (1 : Word), (0 : Word))], ∀ a ∈ [none, some (.data 7)], ∃ (s : State) (q : WindowRequest),
      s.hub.windowIn[0]? = some q ∧ q.request = some 5 ∧ q.left = [farPiece] ∧ q.op = op ∧ q.answer = a) := by
  have full (s : State) (p : Place) (n : Nat) (t : p.target = .host) (a : s.ownWindowA p.addr = none) (e : s.tagless = true) :
      s.issueRead .window p n = (s, .full) := by
    simp [State.issueRead, State.sendTagged, t, a, e]
  refine ⟨⟨State.reset, by decide⟩, ⟨windowWorld 0x11004 [] false, ⟨by decide, rfl⟩, by decide⟩, ⟨State.reset, 2 ^ 30 - 8, by decide⟩, ?_, ?_,
    ⟨farWindow 0 none, _, _, ⟨by decide, rfl⟩, rfl, rfl, rfl, rfl⟩,
    ⟨{ farWindow 0 none with pending := everyTag }, _, _, _, ⟨by decide, rfl⟩, rfl, rfl, rfl, full _ _ _ rfl rfl (everyTag_full _ rfl)⟩,
    fun op _ a _ => ⟨{ State.reset with hub := { Hub.reset with windowIn := [windowAsked op a] } }, _, rfl, rfl, rfl, rfl, rfl⟩⟩
  rotate_left
  · simp only [List.forall_mem_cons, List.not_mem_nil, false_imp_iff, implies_true, and_true]
    exact ⟨⟨farWindow 0 none, ⟨by decide, rfl⟩, by decide⟩, ⟨farWindow 0 (some 0x1000), ⟨by decide, rfl⟩, by decide⟩,
      ⟨farWindow 5 none, ⟨by decide, rfl⟩, by decide⟩⟩
  simp only [List.forall_mem_cons, List.not_mem_nil, false_imp_iff, implies_true, and_true]
  (repeat' apply And.intro) <;>
    first
      | exact ⟨windowWorld 0x20000 [] false, ⟨by decide, rfl⟩, rfl, by decide, by decide⟩
      | exact ⟨windowWorld 0x11000 [0x2200] false, ⟨by decide, rfl⟩, rfl, by decide, by decide⟩
      | exact ⟨windowWorld 0x11000 [] false, ⟨by decide, rfl⟩, rfl, by decide, by decide⟩
      | exact ⟨windowWorld 0x11000 [] true, ⟨by decide, rfl⟩, rfl, by decide, by decide⟩

/-! Management, and what holds of every step. -/

/-- A device whose mailbox has started a command. -/
def commandWorld (recovery : Bool) (code : Nat) (args : List Nat) (s : State) : State :=
  let cmd := BitVec.ofNat 64 (0xABCD0000 + code)
  let given : Vector Word 32 := Vector.ofFn fun i => BitVec.ofNat 64 (args[i.val]?.getD 0)
  { s with hub := { s.hub with recovery := recovery, box := { s.hub.box with stage := .started, cmd := cmd, args := given } } }

/-- Every command with arguments at the edges of its checks, in recovery and outside it, and a command that has been executed. -/
theorem witness_ManagementCommands :
    let is (s : State) (r : Bool) (c : Nat) : Prop := s.hub.box.stage = .started ∧ s.hub.box.cmd.toNat % 256 = c ∧ s.hub.recovery = r
    let arg (s : State) (i : Fin 32) : Nat := s.hub.box.args[i].toNat
    (∀ r, ∀ c ∈ [1, 2, 3, 4, 5, 6, 7, 8, 9, 10, 11, 16, 0, 12, 255], ∃ s, is s r c) ∧
    (∀ n ∈ [3, 4], ∃ s, is s false 2 ∧ arg s 0 = n) ∧ (∀ n ∈ [0, 3, 4], ∃ s, is s false 3 ∧ arg s 0 = n) ∧
    (∀ n ∈ [480, 481], ∃ s, is s false 5 ∧ arg s 1 = n) ∧
    (∃ s, is s false 7 ∧ s.hart? (arg s 0) = none) ∧
    (∃ s h, is s false 7 ∧ s.hart? (arg s 0) = some h ∧ h.halted = false ∧ (∀ l, s.launch? h.tag = some l → recReplay l.dwords = false) ∧
      s.freeRecords (dieOf (arg s 0)) ≠ [] ∧ s.stoppable (arg s 0) h = true) ∧
    (∃ s h, is s false 7 ∧ s.hart? (arg s 0) = some h ∧ h.halted = false ∧ (∀ l, s.launch? h.tag = some l → recReplay l.dwords = false) ∧
      s.freeRecords (dieOf (arg s 0)) ≠ [] ∧ s.stoppable (arg s 0) h = false) ∧
    (∃ s h, is s false 7 ∧ s.hart? (arg s 0) = some h ∧ h.halted = true) ∧
    (∃ s, is s false 8 ∧ s.launch? (s.hub.box.args[0]) = none) ∧ (∃ s l, is s false 8 ∧ s.launch? (s.hub.box.args[0]) = some l ∧ Assoc.wf s.harts = true ∧
      s.allStoppable (s.hub.box.args[0]) = true) ∧
    (∃ s l, is s false 8 ∧ s.launch? (s.hub.box.args[0]) = some l ∧ s.allStoppable (s.hub.box.args[0]) = false) ∧
    (∃ s, is s false 9 ∧ s.hart? (arg s 0) = none) ∧ (∃ s h, is s false 9 ∧ s.hart? (arg s 0) = some h) ∧
    (∀ g ∈ [0, 1], ∀ m ∈ [0, 1, 2], ∃ s, is s false 10 ∧ arg s 0 = g ∧ arg s 1 = m ∧ s.launches = [] ∧ s.hub.nr = 0 ∧ s.hub.nc = 0) ∧
    (∀ n ∈ [3, 4, 0xFF], ∃ s, is s false 11 ∧ arg s 0 = n) ∧
    (∀ n ∈ [61440, 61441], ∀ last ∈ [0, 1], ∃ s, is s true 16 ∧ arg s 1 = n ∧ arg s 2 = last) ∧
    (∀ m, ∃ (s : State) (c : Nat), s.hub.box.stage = .executed c ∧ s.hub.box.msi.getLsbD 0 = m) ∧
    (∃ s : State, ∀ c, s.hub.box.stage ≠ .executed c) ∧ (∀ m, ∃ s : State, s.hub.msiMasked 0 = m) ∧ (∀ v, ∃ g, gridValid g = v) := by
  have go (r : Bool) (c x y z : Nat) (s0 : State) (a : c < 256) (bx : x < 2 ^ 64) (by' : y < 2 ^ 64) (bz : z < 2 ^ 64) :
      let s := commandWorld r c [x, y, z] s0
      (s.hub.box.stage = .started ∧ s.hub.box.cmd.toNat % 256 = c ∧ s.hub.recovery = r) ∧ (s.hub.box.args[0]).toNat = x ∧
        (s.hub.box.args[1]).toNat = y ∧ (s.hub.box.args[2]).toNat = z := by
    refine ⟨⟨rfl, ?_, rfl⟩, ?_, ?_, ?_⟩
    · show (BitVec.ofNat 64 (0xABCD0000 + c)).toNat % 256 = c
      rw [BitVec.toNat_ofNat]
      omega
    · simpa [commandWorld] using bx
    · simpa [commandWorld] using by'
    · simpa [commandWorld] using bz
  have small {n : Nat} {xs : List Nat} (h : n ∈ xs) (b : xs.all (fun n => decide (n < 2 ^ 64)) = true) : n < 2 ^ 64 :=
    of_decide_eq_true (List.all_eq_true.mp b n h)
  have zero : (0 : Nat) < 2 ^ 64 := by decide
  refine ⟨fun r c h => ⟨_, (go r c 0 0 0 world ?_ zero zero zero).1⟩,
    fun n h => ⟨_, (go false 2 n 0 0 world (by decide) (small h (by decide)) zero zero).1, (go false 2 n 0 0 world (by decide) (small h (by decide)) zero zero).2.1⟩,
    fun n h => ⟨_, (go false 3 n 0 0 world (by decide) (small h (by decide)) zero zero).1, (go false 3 n 0 0 world (by decide) (small h (by decide)) zero zero).2.1⟩,
    fun n h => ⟨_, (go false 5 0 n 0 world (by decide) zero (small h (by decide)) zero).1, (go false 5 0 n 0 world (by decide) zero (small h (by decide)) zero).2.2.1⟩,
    ⟨commandWorld false 7 [9] world, ⟨rfl, by decide, rfl⟩, by decide⟩,
    ⟨commandWorld false 7 [0] world, tester, ⟨rfl, by decide, rfl⟩, rfl, rfl, ?_, by rw [records_free _ _ rfl]; decide, by decide⟩,
    ⟨commandWorld false 7 [0] (askedWorld (asked (.hart 0) true)), _, ⟨rfl, by decide, rfl⟩, rfl, rfl, ?_, by rw [records_free _ _ rfl]; decide,
      by decide⟩,
    ⟨commandWorld false 7 [0] (seated fun h => { h with halted := true }), _, ⟨rfl, by decide, rfl⟩, rfl, rfl⟩,
    ⟨commandWorld false 8 [9] world, ⟨rfl, by decide, rfl⟩, rfl⟩, ⟨commandWorld false 8 [1] world, _, ⟨rfl, by decide, rfl⟩, rfl, rfl, by decide⟩,
    ⟨commandWorld false 8 [1] (askedWorld (asked (.hart 0) true)), _, ⟨rfl, by decide, rfl⟩, rfl, by decide⟩,
    ⟨commandWorld false 9 [9] world, ⟨rfl, by decide, rfl⟩, by decide⟩, ⟨commandWorld false 9 [0] world, tester, ⟨rfl, by decide, rfl⟩, rfl⟩,
    fun g h m k => ⟨_, (go false 10 g m 0 State.reset (by decide) (small h (by decide)) (small k (by decide)) zero).1,
      (go false 10 g m 0 State.reset (by decide) (small h (by decide)) (small k (by decide)) zero).2.1,
      (go false 10 g m 0 State.reset (by decide) (small h (by decide)) (small k (by decide)) zero).2.2.1, rfl, rfl, rfl⟩,
    fun n h => ⟨_, (go false 11 n 0 0 world (by decide) (small h (by decide)) zero zero).1, (go false 11 n 0 0 world (by decide) (small h (by decide)) zero zero).2.1⟩,
    fun n h l k => ⟨_, (go true 16 0 n l world (by decide) zero (small h (by decide)) (small k (by decide))).1,
      (go true 16 0 n l world (by decide) zero (small h (by decide)) (small k (by decide))).2.2⟩,
    fun m => ⟨{ State.reset with hub := { Hub.reset with box := { Mailbox.reset with stage := .executed 2, msi := if m then 1 else 0 } } }, 2, rfl,
      by cases m <;> rfl⟩,
    ⟨State.reset, by intro c h; cases h⟩,
    fun m => ⟨{ State.reset with hub := { Hub.reset with msix := { Msix.reset with enabled := !m, control := Vector.replicate 64 0 } } },
      by cases m <;> decide⟩,
    fun v => ⟨{ nr := 1, nc := 1, row := if v then 1 else 2, col := 0 }, by cases v <;> decide⟩⟩
  · exact of_decide_eq_true (List.all_eq_true.mp (by decide : [1, 2, 3, 4, 5, 6, 7, 8, 9, 10, 11, 16, 0, 12, 255].all (fun n => decide (n < 256)) = true) c h)
  · intro l e
    cases e
    decide
  · intro l e
    cases e
    decide

/-- The world is in order, and it steps. -/
theorem witness_StepKeepsOrder : ∃ s t : State, s.Ordered ∧ step s = .next t :=
  ⟨world, _, ⟨by unfold State.MemoryOk; decide, by decide⟩, rfl⟩

theorem witness_DecodeEncode : ∃ (i : Instr) (w : Word), i.wellFormed = true ∧ encode i = some w :=
  ⟨.add (rf 4 5 6 0 .i8), _, by decide, rfl⟩

/-- A source that is due, a word that decodes, one that does not, a fetch that sees memory, and a scheduled event. -/
theorem witness_StepRunsDecoded :
    (∃ (s : State) (h : Hart) (n : Nat), s.agenda = [] ∧ s.running = some h ∧ s.dueSource s.cur h = some n) ∧
    (∃ (s s1 : State) (w : Word) (h : Hart) (i : Instr), s.agenda = [] ∧ s.running = some h ∧ s.dueSource s.cur h = none ∧ s.nextWord h = (s1, .word w) ∧
      decodeWord w = .ok i ∧ s1.badHarts = []) ∧
    (∃ (s s1 : State) (w : Word) (h : Hart), s.agenda = [] ∧ s.running = some h ∧ s.dueSource s.cur h = none ∧ s.nextWord h = (s1, .word w) ∧
      ∀ i, decodeWord w ≠ .ok i) ∧
    (∃ (s s1 : State) (h : Hart) (p : Place), h.wait.word = none ∧ h.wp.cfg = 0 ∧ h.obs.en = false ∧
      s.translate (s.hartAgent s.cur h 0) h.pc.toNat .execute = (s1, .ok p) ∧ p.target = .memory ∧ s1.badWord p.addr 8 = none ∧
      h.code.dword p.addr = s1.mem.dword p.addr) ∧
    (∃ (s : State) (i : Instr) (rest : List Action), s.agenda = .event i :: rest ∧ Instr.isEvent i = true) := by
  refine ⟨⟨seated fun h => { h with trp := { h.trp with irq := 8, due := true } }, _, 3, rfl, rfl, by decide⟩,
    ⟨world, _, 0x7C00000000000000, tester, .nop 0 0, rfl, rfl, rfl, rfl, by rfl, rfl⟩, ⟨State.reset.withFetchWord 64 0x0F1083009A580020, _,
    0x0F1083009A580020, _, rfl, rfl, rfl, rfl, ?_⟩, ⟨world, _, tester, _, rfl, rfl, rfl, rfl, rfl, rfl, rfl⟩,
    ⟨{ State.reset with agenda := [.event (.linkDown 0)] }, .linkDown 0, [], rfl, rfl⟩⟩
  intro i h
  have : (decodeWord 0x0F1083009A580020).isOk = false := by decide
  rw [h] at this
  cases this

end Sys2Proof.Tests
end

section
/-! SUPPORT. LOOP, LOOPP, LCNT and the loop-back step: one equation for each check of the two instructions, one for each way the
loop-back step comes out, and from them the statement on loops. -/

namespace Sys2Proof.Machine

/-! ### Words that the statement spells with integers -/

/-- The J-format offset of a target or a loop end, in words from the PC (R138, R157). -/
theorem add_offset_eq_ofInt (pc : Word) (off : BitVec 32) :
    pc + 8 * off.signExtend 64 = BitVec.ofInt 64 (pc.toNat + 8 * off.toInt) := by
  rw [BitVec.ofInt_add, BitVec.ofInt_mul, BitVec.ofInt_natCast, BitVec.ofNat_toNat, BitVec.setWidth_eq]
  rfl

theorem loopStop_eq (h : Hart) (f : JFields) : loopStop h f = BitVec.ofInt 64 (h.pc.toNat + 8 * f.off.toInt) :=
  add_offset_eq_ofInt h.pc f.off

/-- The trip count of a loop: bits 31:0 of its count register (R138). -/
def tripCount (f : JFields) (h : Hart) : Nat := (h.sreg f.a).toNat % 2 ^ 32

theorem tripCount_lt (f : JFields) (h : Hart) : tripCount f h < 2 ^ 32 := Nat.mod_lt _ (by decide)

theorem low32_eq_ofNat_tripCount (f : JFields) (h : Hart) :
    (h.sreg f.a).extractLsb' 0 32 = BitVec.ofNat 32 (tripCount f h) := by
  apply BitVec.eq_of_toNat_eq
  simp [tripCount]

/-- Numbers below 2^32 keep their value in 32 bits. -/
theorem ofNat32_eq_zero_iff {n : Nat} (hn : n < 2 ^ 32) : BitVec.ofNat 32 n = 0 ↔ n = 0 := by
  rw [← BitVec.toNat_inj, BitVec.toNat_ofNat, Nat.mod_eq_of_lt hn]
  rfl

theorem low32_eq_zero_iff (f : JFields) (h : Hart) : (h.sreg f.a).extractLsb' 0 32 = 0 ↔ tripCount f h = 0 := by
  rw [low32_eq_ofNat_tripCount, ofNat32_eq_zero_iff (tripCount_lt f h)]

theorem setWidth_ofNat32 {n : Nat} (hn : n < 2 ^ 32) : (BitVec.ofNat 32 n).setWidth 64 = BitVec.ofNat 64 n := by
  apply BitVec.eq_of_toNat_eq
  simp only [BitVec.toNat_setWidth, BitVec.toNat_ofNat]
  omega

/-! ### LOOP and LOOPP, check by check (R138, R142) -/

/-- The hart with a level pushed on its loop stack. -/
def Hart.pushLevel (h : Hart) (l : LoopLevel) : Hart := { h with ctl := { h.ctl with loops := l :: h.ctl.loops } }

/-- The level of a LOOP or LOOPP at the hart's PC, with `c` executions and the pipelined counts `p`. -/
def newLevel (f : JFields) (h : Hart) (c : Nat) (p : Option (BitVec 32 × BitVec 4)) : LoopLevel :=
  { start := h.pc + 8, stop := BitVec.ofInt 64 (h.pc.toNat + 8 * f.off.toInt), count := BitVec.ofNat 64 c, pipe := p }

/-- The guards and the rotating block with which LOOPP begins (R142). -/
def Hart.startPipeline (h : Hart) (f : JFields) : Hart :=
  { h with ctl := { h.ctl with greg := 1 }, vec := { h.vec with rotBase := 0, rotSize := BitVec.ofNat 7 (looppBlock f) } }

/-- The stage count of a LOOPP (R160). -/
def stageCount (f : JFields) : Nat := f.d.toNat % 8 + 1

section
variable {f : JFields} {h : Hart}

theorem loopOp_short (short : f.off.toInt < 2) : loopOp f h = .stop h .illop (encodeWord (.loop f)) := by
  simp [loopOp, short]

theorem looppOp_short (short : f.off.toInt < 2) : looppOp f h = .stop h .illop (encodeWord (.loopp f)) := by
  simp [looppOp, short]

variable (prog : h.trp.prv = false) (long : 2 ≤ f.off.toInt)
include prog long

theorem loopOp_full (full : 4 ≤ h.ctl.loops.length) : loopOp f h = .stop h .queue 5 := by
  simp [loopOp, prog, not_lt.2 long, full]

theorem looppOp_full (full : 4 ≤ h.ctl.loops.length) : looppOp f h = .stop h .queue 5 := by
  simp [looppOp, prog, not_lt.2 long, full]

variable (room : ¬ 4 ≤ h.ctl.loops.length)
include room

theorem loopOp_zero (zero : tripCount f h = 0) :
    loopOp f h = leaveTo h (BitVec.ofInt 64 (h.pc.toNat + 8 * f.off.toInt)) := by
  simp only [loopOp, prog, not_lt.2 long, room, low32_eq_zero_iff, zero, loopStop_eq]
  rfl

theorem loopOp_enter (trips : tripCount f h ≠ 0) :
    loopOp f h = .jump (h.pushLevel (newLevel f h (tripCount f h) none)) (h.pc + 8) := by
  simp only [loopOp, prog, not_lt.2 long, room, low32_eq_zero_iff, trips, loopStop_eq]
  rw [low32_eq_ofNat_tripCount, setWidth_ofNat32 (tripCount_lt f h)]
  rfl

theorem looppOp_nested (nested : h.ctl.loops.any (fun l => l.pipe.isSome) = true) : looppOp f h = .stop h .queue 6 := by
  simp only [looppOp, prog, not_lt.2 long, room, nested]
  rfl

variable (flat : h.ctl.loops.any (fun l => l.pipe.isSome) = false)
include flat

theorem looppOp_group (big : h.nv < looppBlock f) : looppOp f h = .stop h .group (encodeWord (.loopp f)) := by
  simp only [looppOp, prog, not_lt.2 long, room, flat, big]
  rfl

variable (fits : looppBlock f ≤ h.nv)
include fits

theorem looppOp_zero (zero : tripCount f h = 0) :
    looppOp f h = leaveTo h (BitVec.ofInt 64 (h.pc.toNat + 8 * f.off.toInt)) := by
  simp only [looppOp, prog, not_lt.2 long, room, flat, not_lt.2 fits, low32_eq_zero_iff, zero, loopStop_eq]
  rfl

theorem looppOp_enter (trips : tripCount f h ≠ 0) :
    looppOp f h = .jump
      ((h.startPipeline f).pushLevel (newLevel f h (tripCount f h + stageCount f - 1)
        (some (BitVec.ofNat 32 (tripCount f h), BitVec.ofNat 4 (stageCount f)))))
      (h.pc + 8) := by
  simp only [looppOp, prog, not_lt.2 long, room, flat, not_lt.2 fits, low32_eq_zero_iff, trips, loopStop_eq]
  rw [low32_eq_ofNat_tripCount, setWidth_ofNat32 (tripCount_lt f h), Nat.add_sub_cancel, ← BitVec.ofNat_add]
  rfl

end

/-! ### LCNT (R141) -/

theorem exec_lcnt (f : JFields) (s : State) : exec (.lcnt f) s = performHart (.lcnt f) s fun h =>
    .seq (h.setS f.d (match h.ctl.loops with | [] => 0 | l :: _ => l.count)) := rfl

theorem lcnt_empty {f : JFields} {s : State} {h : Hart} (r : s.running = some h) (e : h.ctl.loops = []) :
    CompletesWith (.lcnt f) s (h.begun.setS f.d 0) :=
  hart_seq (exec_lcnt f s) r (by simp only [Hart.begun_ctl, e])

theorem lcnt_level {f : JFields} {s : State} {h : Hart} {l : LoopLevel} {ls : List LoopLevel} (r : s.running = some h)
    (e : h.ctl.loops = l :: ls) : CompletesWith (.lcnt f) s (h.begun.setS f.d l.count) :=
  hart_seq (exec_lcnt f s) r (by simp only [Hart.begun_ctl, e])

/-! ### The loop-back step (R139, R145) -/

/-- The level ends at `e` and has no execution left after this one, so the loop-back step at `e` pops it. -/
def LoopLevel.DoneAt (e : Word) (l : LoopLevel) : Prop := l.stop = e ∧ l.count.toNat ≤ 1

theorem loopBack_done {e : Word} {l : LoopLevel} (r : List LoopLevel) (d : l.DoneAt e) :
    loopBack e (l :: r) = loopBack e r := by
  obtain ⟨stop, last⟩ := d
  have last : l.count ≤ 1 := last
  rw [loopBack, if_pos stop, if_pos last]

/-- The loop-back step at `e` pops the `k` innermost levels, which are done there, and comes to a level that is not. -/
theorem loopBack_pops (e : Word) (ls : List LoopLevel) :
    ∃ k, (∀ l ∈ ls.take k, l.DoneAt e) ∧ loopBack e ls = loopBack e (ls.drop k) ∧
      ∀ l ∈ (ls.drop k).head?, ¬ l.DoneAt e := by
  induction ls with
  | nil => exact ⟨0, by simp, rfl, by simp⟩
  | cons l r ih =>
    by_cases d : l.DoneAt e
    · obtain ⟨k, done, same, first⟩ := ih
      exact ⟨k + 1, by simpa [d] using done, (loopBack_done r d).trans same, first⟩
    · exact ⟨0, by simp, rfl, by simpa using d⟩

theorem loopBack_outside {e : Word} {l : LoopLevel} (r : List LoopLevel) (o : l.stop ≠ e) :
    loopBack e (l :: r) = (l :: r, e, none) := by
  simp [loopBack, o]

/-- One of the executions that start is used up, down to 0 (R145). -/
theorem countDown_eq (n : BitVec 32) : (if n = 0 then 0 else n - 1) = BitVec.ofNat 32 (n.toNat - 1) := by
  split
  · simp [*]
  · bv_omega

/-- The level after a loop-back step that goes on with it. -/
def LoopLevel.again (l : LoopLevel) : LoopLevel :=
  { l with count := l.count - 1, pipe := l.pipe.map fun p => (BitVec.ofNat 32 (p.1.toNat - 1), p.2) }

theorem loopBack_again {e : Word} {l : LoopLevel} (r : List LoopLevel) (stop : l.stop = e) (more : 1 < l.count.toNat) :
    loopBack e (l :: r) = (l.again :: r, l.start, l.pipe.map fun p => BitVec.ofNat 32 (p.1.toNat - 1)) := by
  have more : ¬ l.count ≤ 1 := not_le.2 more
  simp only [loopBack, if_pos stop, if_neg more, countDown_eq]
  rfl

/-! ### Falling through -/

theorem fallThrough_system {h : Hart} (p : h.trp.prv = true) : h.fallThrough = { h with pc := h.pc + 8 } := by
  simp [Hart.fallThrough, p]

theorem fallThrough_plain {h : Hart} {ls : List LoopLevel} {pc : Word} (p : h.trp.prv = false)
    (b : loopBack (h.pc + 8) h.ctl.loops = (ls, pc, none)) :
    h.fallThrough = { h with pc := pc, ctl := { h.ctl with loops := ls } } := by
  rw [Hart.fallThrough, if_neg (by simp [p]), b]

theorem fallThrough_pipelined {h : Hart} {ls : List LoopLevel} {pc : Word} {nn : BitVec 32} (p : h.trp.prv = false)
    (b : loopBack (h.pc + 8) h.ctl.loops = (ls, pc, some nn)) :
    h.fallThrough = { h with pc := pc, ctl := { h.ctl with loops := ls } : Hart }.rotate nn := by
  rw [Hart.fallThrough, if_neg (by simp [p]), b]

/-- The guards after the shift of a pipelined loop-back step, bit by bit (R145). -/
theorem shiftedGuards_getLsbD (g : BitVec 8) {left : Nat} (small : left < 2 ^ 32) (j : Nat) (hj : j < 8) :
    ((g <<< 1) ||| (if BitVec.ofNat 32 left = 0 then 0 else 1)).getLsbD j =
      if j = 0 then decide (left ≠ 0) else g.getLsbD (j - 1) := by
  simp only [ofNat32_eq_zero_iff small]
  cases j with
  | zero => by_cases z : left = 0 <;> simp [z]
  | succ j =>
    have hj' : j < 8 := Nat.lt_of_succ_lt hj
    by_cases z : left = 0 <;> simp [z, hj, BitVec.getLsbD_eq_getElem, hj']

/-! ### The statement -/

/-- Settles O9: LCNT, LOOP and LOOPP by the equations above, the loop-back step by the level it comes to (`loopBack_pops`). -/
theorem loopOutcomes : Obligations.LoopOutcomes := by
  unfold Obligations.LoopOutcomes
  refine ⟨fun f s h r => ⟨lcnt_empty r, fun l ls => lcnt_level r, fun p => ⟨?_, ?_, ?_, ?_, ?_, ?_, ?_, ?_⟩⟩,
    fun h => ⟨fallThrough_system, fun p => ?_⟩⟩
  · exact fun short => ⟨hart_stop rfl r (loopOp_short short) p, hart_stop rfl r (looppOp_short short) p⟩
  · exact fun long full => ⟨hart_stop rfl r (loopOp_full p long full) p, hart_stop rfl r (looppOp_full p long full) p⟩
  · exact fun long room zero => hart_jump rfl r (loopOp_zero (h := h.begun) p long room zero)
  · exact fun long room trips => hart_jump rfl r (loopOp_enter (h := h.begun) p long room trips)
  · exact fun long room nested => hart_stop rfl r (looppOp_nested p long room nested) p
  · exact fun long room flat big => hart_stop rfl r (looppOp_group p long room flat big) p
  · exact fun long room flat fits zero => hart_jump rfl r (looppOp_zero (h := h.begun) p long room flat fits zero)
  · exact fun long room flat fits trips => hart_jump rfl r (looppOp_enter (h := h.begun) p long room flat fits trips)
  · obtain ⟨k, done, same, first⟩ := loopBack_pops (h.pc + 8) h.ctl.loops
    refine ⟨k, done, ?_⟩
    generalize h.ctl.loops.drop k = ls at same first
    cases ls with
    | nil => exact fallThrough_plain p same
    | cons l r =>
      have going : ¬ l.DoneAt (h.pc + 8) := first l rfl
      show if l.stop = h.pc + 8 then _ else _
      split
      case isFalse outside => exact fallThrough_plain p (same.trans (loopBack_outside r outside))
      case isTrue stop =>
        have more : 1 < l.count.toNat := not_le.1 fun last => going ⟨stop, last⟩
        have back := same.trans (loopBack_again r stop more)
        refine ⟨more, ?_⟩
        obtain ⟨start, stop, count, pipe⟩ := l
        cases pipe with
        | none => exact fallThrough_plain p back
        | some c =>
          obtain ⟨nn, st⟩ := c
          exact ⟨_, _, shiftedGuards_getLsbD h.ctl.greg (by omega), rfl, fallThrough_pipelined p back⟩

end Sys2Proof.Machine
end

section
/-! SUPPORT. Table 6.1: what an unguarded scalar operation of MAJ 0x00 completes with, then the values of the table, plain (R152)
and saturated (R153), and from them the two statements on MAJ 0x00. -/

namespace Sys2Proof.Machine

/-! ### What an operation completes with -/

theorem Hart.begun_sreg (h : Hart) (r : RegIdx) : h.begun.sreg r = h.sreg r := rfl

@[simp] theorem Hart.raise_zero (h : Hart) : h.raise 0 = h := by
  simp [Hart.raise]

section
variable {i : Instr} {s : State} {h : Hart} {f : RFields} {x : Word}

/-- An operation whose guard lets it run writes sD and raises its flags. -/
theorem scalarOp_completes (op : Hart → Word × FlagSet) {fl : FlagSet}
    (e : exec i s = performHart i s fun h => scalarOp f h (op h)) (r : s.running = some h) (on : h.GuardOn f.gd f.gs)
    (v : op h.begun = (x, fl)) : CompletesWith i s ((h.begun.setS f.d x).raise fl) := by
  have on : h.begun.guardedOff f.gd f.gs = false := on
  exact hart_seq e r (by simp [scalarOp, on, v])

/-- One that raises no flag changes sD alone. -/
theorem scalarOp_writes (op : Hart → Word × FlagSet) (e : exec i s = performHart i s fun h => scalarOp f h (op h))
    (r : s.running = some h) (on : h.GuardOn f.gd f.gs) (v : op h.begun = (x, 0)) :
    CompletesWith i s (h.begun.setS f.d x) := by
  simpa using scalarOp_completes op e r on v

/-- One that has no saturating form, on sA and sB. -/
theorem scalarBinary_writes (op : Word → Word → Word) (e : exec i s = performHart i s fun h => scalarBinary f h op)
    (r : s.running = some h) (on : h.GuardOn f.gd f.gs) (v : op (h.sreg f.a) (h.sreg f.b) = x) :
    CompletesWith i s (h.begun.setS f.d x) :=
  scalarOp_writes (fun h => (op (h.sreg f.a) (h.sreg f.b), 0)) e r on (congrArg (·, 0) v)

/-- One on sA alone. -/
theorem scalarUnary_writes (op : Word → Word)
    (e : exec i s = performHart i s fun h => scalarOp f h (op (h.sreg f.a), 0)) (r : s.running = some h)
    (on : h.GuardOn f.gd f.gs) (v : op (h.sreg f.a) = x) : CompletesWith i s (h.begun.setS f.d x) :=
  scalarOp_writes (fun h => (op (h.sreg f.a), 0)) e r on (congrArg (·, 0) v)

end

/-! ### Values of two operands -/

section
variable {f : RFields} (a b : Word) (plain : f.sat = false)
include plain

theorem addValue_plain : addValue f a b = (a + b, 0) := by simp [addValue, plain]
theorem subValue_plain : subValue f a b = (a - b, 0) := by simp [subValue, plain]
theorem sllValue_plain : sllValue f a b = (a <<< (b.toNat % 64), 0) := by simp [sllValue, plain]
theorem mulValue_plain : mulValue f a b = (a * b, 0) := by simp [mulValue, plain]

end

theorem truthWord_decide (c : Prop) [Decidable c] : truthWord (decide c) = if c then 1 else 0 := by
  simp [truthWord]

/-- MIN and MINN: the operand of the lesser key. -/
theorem ite_le_isLeast {α : Type} [LinearOrder α] (key : Word → α) (a b : Word) :
    let x := if key a ≤ key b then a else b
    (x = a ∨ x = b) ∧ key x ≤ key a ∧ key x ≤ key b := by
  split
  case isTrue le => exact ⟨.inl rfl, le_rfl, le⟩
  case isFalse gt => exact ⟨.inr rfl, le_of_not_ge gt, le_rfl⟩

/-- MAX and MAXN: the operand of the greater key. -/
theorem ite_le_isGreatest {α : Type} [LinearOrder α] (key : Word → α) (a b : Word) :
    let x := if key a ≤ key b then b else a
    (x = a ∨ x = b) ∧ key a ≤ key x ∧ key b ≤ key x := by
  split
  case isTrue le => exact ⟨.inr rfl, le, le_rfl⟩
  case isFalse gt => exact ⟨.inl rfl, le_rfl, le_of_not_ge gt⟩

/-! ### Counting and reversing bits -/

theorem leadingZeros_succ_of_set {x n : Nat} (top : x.testBit n = true) : leadingZeros x (n + 1) = 0 := by
  simp [leadingZeros, top]

theorem leadingZeros_succ_of_clear {x n : Nat} (top : x.testBit n = false) :
    leadingZeros x (n + 1) = leadingZeros x n + 1 := by
  simp [leadingZeros, top]

theorem leadingZeros_le (x n : Nat) : leadingZeros x n ≤ n := by
  induction n with
  | zero => exact Nat.le_refl 0
  | succ n ih =>
    cases top : x.testBit n with
    | true => simp [leadingZeros_succ_of_set top]
    | false => simpa [leadingZeros_succ_of_clear top] using ih

/-- The bits that CLZ counts are 0. -/
theorem testBit_of_leadingZeros (x : Nat) {n j : Nat} (above : n - leadingZeros x n ≤ j) (below : j < n) :
    x.testBit j = false := by
  induction n with
  | zero => omega
  | succ n ih =>
    cases top : x.testBit n with
    | true =>
      rw [leadingZeros_succ_of_set top] at above
      omega
    | false =>
      rw [leadingZeros_succ_of_clear top] at above
      rcases Nat.lt_succ_iff_lt_or_eq.1 below with lower | rfl
      · exact ih (by omega) lower
      · exact top

/-- The bit below those that CLZ counts is 1. -/
theorem testBit_leadingZeros (x : Nat) {n : Nat} (fewer : leadingZeros x n < n) :
    x.testBit (n - 1 - leadingZeros x n) = true := by
  induction n with
  | zero => omega
  | succ n ih =>
    cases top : x.testBit n with
    | true => simpa [leadingZeros_succ_of_set top] using top
    | false =>
      rw [leadingZeros_succ_of_clear top] at fewer ⊢
      rw [show n + 1 - 1 - (leadingZeros x n + 1) = n - 1 - leadingZeros x n by omega]
      exact ih (by omega)

theorem trailingZeros_succ_of_set {x i : Nat} (n : Nat) (bottom : x.testBit i = true) :
    trailingZeros x (n + 1) i = 0 := by
  simp [trailingZeros, bottom]

theorem trailingZeros_succ_of_clear {x i : Nat} (n : Nat) (bottom : x.testBit i = false) :
    trailingZeros x (n + 1) i = trailingZeros x n (i + 1) + 1 := by
  simp [trailingZeros, bottom]

theorem trailingZeros_le (x n i : Nat) : trailingZeros x n i ≤ n := by
  induction n generalizing i with
  | zero => exact Nat.le_refl 0
  | succ n ih =>
    cases bottom : x.testBit i with
    | true => simp [trailingZeros_succ_of_set n bottom]
    | false => simpa [trailingZeros_succ_of_clear n bottom] using ih (i + 1)

/-- The bits that CTZ counts are 0. -/
theorem testBit_of_trailingZeros (x : Nat) {n i j : Nat} (counted : j < trailingZeros x n i) :
    x.testBit (i + j) = false := by
  induction n generalizing i j with
  | zero => exact absurd counted (Nat.not_lt_zero j)
  | succ n ih =>
    cases bottom : x.testBit i with
    | true =>
      rw [trailingZeros_succ_of_set n bottom] at counted
      exact absurd counted (Nat.not_lt_zero j)
    | false =>
      rw [trailingZeros_succ_of_clear n bottom] at counted
      cases j with
      | zero => exact bottom
      | succ j =>
        rw [show i + (j + 1) = i + 1 + j by omega]
        exact ih (Nat.lt_of_succ_lt_succ counted)

/-- The bit above those that CTZ counts is 1. -/
theorem testBit_trailingZeros (x : Nat) {n i : Nat} (fewer : trailingZeros x n i < n) :
    x.testBit (i + trailingZeros x n i) = true := by
  induction n generalizing i with
  | zero => omega
  | succ n ih =>
    cases bottom : x.testBit i with
    | true => simpa [trailingZeros_succ_of_set n bottom] using bottom
    | false =>
      rw [trailingZeros_succ_of_clear n bottom] at fewer ⊢
      rw [show i + (trailingZeros x n (i + 1) + 1) = i + 1 + trailingZeros x n (i + 1) by omega]
      exact ih (Nat.lt_of_succ_lt_succ fewer)

theorem popCount_eq_countP (x n : Nat) : popCount x n = (List.range n).countP x.testBit := by
  induction n with
  | zero => rfl
  | succ n ih => simp [popCount, ih, List.range_succ, bit01, List.countP_singleton, Nat.add_comm]

theorem leadingZeros_counts (a : Word) :
    let n := leadingZeros a.toNat 64
    n ≤ 64 ∧ (∀ j, 64 - n ≤ j → a.getLsbD j = false) ∧ (n < 64 → a.getLsbD (63 - n) = true) := by
  refine ⟨leadingZeros_le _ _, fun j above => ?_, testBit_leadingZeros a.toNat⟩
  rcases Nat.lt_or_ge j 64 with below | past
  · exact testBit_of_leadingZeros a.toNat above below
  · exact BitVec.getLsbD_of_ge a j past

theorem trailingZeros_counts (a : Word) :
    let n := trailingZeros a.toNat 64 0
    n ≤ 64 ∧ (∀ j, j < n → a.getLsbD j = false) ∧ (n < 64 → a.getLsbD n = true) := by
  refine ⟨trailingZeros_le _ _ _, fun j counted => ?_, fun fewer => ?_⟩
  · rw [← Nat.zero_add j]
    exact testBit_of_trailingZeros a.toNat counted
  · rw [← Nat.zero_add (trailingZeros _ _ _)]
    exact testBit_trailingZeros a.toNat fewer

theorem getLsbD_brevValue (a : Word) {j : Nat} (hj : j < 64) : (brevValue a).getLsbD j = a.getLsbD (63 - j) := by
  rw [brevValue, BitVec.getLsbD_reverse, BitVec.getMsbD_eq_getLsbD, decide_eq_true hj, Bool.true_and]

/-- Settles O1: each instruction's value is that of its line of Table 6.1, and it raises no flag. -/
theorem scalarResults : Obligations.ScalarResults := by
  unfold Obligations.ScalarResults
  intro f s h r on plain a b sh gives test
  refine ⟨?add, ?sub, scalarBinary_writes andValue rfl r on rfl, scalarBinary_writes orValue rfl r on rfl,
    scalarBinary_writes xorValue rfl r on rfl, ?sll, scalarBinary_writes srlValue rfl r on rfl,
    scalarBinary_writes sraValue rfl r on rfl, scalarBinary_writes sltValue rfl r on (truthWord_decide _),
    scalarBinary_writes sltnValue rfl r on (truthWord_decide _),
    ⟨_, scalarBinary_writes minValue rfl r on rfl, ite_le_isLeast BitVec.toInt a b⟩,
    ⟨_, scalarBinary_writes maxValue rfl r on rfl, ite_le_isGreatest BitVec.toInt a b⟩,
    ⟨_, scalarBinary_writes minnValue rfl r on rfl, ite_le_isLeast BitVec.toNat a b⟩,
    ⟨_, scalarBinary_writes maxnValue rfl r on rfl, ite_le_isGreatest BitVec.toNat a b⟩,
    ?mul, scalarBinary_writes mulhValue rfl r on rfl, scalarBinary_writes mulhnValue rfl r on rfl,
    ⟨_, scalarUnary_writes clzValue rfl r on rfl, leadingZeros_counts a⟩,
    ⟨_, scalarUnary_writes ctzValue rfl r on rfl, trailingZeros_counts a⟩, ?popc,
    ⟨_, scalarUnary_writes brevValue rfl r on rfl, fun j => getLsbD_brevValue a⟩, ?sel⟩
  case add => exact scalarOp_writes (fun h => addValue f (h.sreg f.a) (h.sreg f.b)) rfl r on (addValue_plain a b plain)
  case sub => exact scalarOp_writes (fun h => subValue f (h.sreg f.a) (h.sreg f.b)) rfl r on (subValue_plain a b plain)
  case sll => exact scalarOp_writes (fun h => sllValue f (h.sreg f.a) (h.sreg f.b)) rfl r on (sllValue_plain a b plain)
  case mul => exact scalarOp_writes (fun h => mulValue f (h.sreg f.a) (h.sreg f.b)) rfl r on (mulValue_plain a b plain)
  case popc =>
    exact scalarUnary_writes popcValue rfl r on (congrArg (BitVec.ofNat 64) (popCount_eq_countP a.toNat 64))
  case sel =>
    refine scalarOp_writes (fun h => (if h.sreg f.c ≠ 0 then h.sreg f.a else h.sreg f.b, 0)) rfl r on ?_
    simp only [Hart.begun_sreg, ← BitVec.toNat_inj.ne]
    rfl

/-! ### The saturated values (R153) -/

/-- An operand or result as the number that AUX bit 0 makes of it: unsigned, or signed. -/
def numberOf (unsigned : Bool) (x : Word) : Int := if unsigned then x.toNat else x.toInt

/-- The least number of 64 bits. -/
def leastOf (unsigned : Bool) : Int := if unsigned then 0 else -(2 ^ 63)

/-- The greatest number of 64 bits. -/
def greatestOf (unsigned : Bool) : Int := if unsigned then 2 ^ 64 - 1 else 2 ^ 63 - 1

/-- The clamping of Table 0.3 to 64 bits: SatN or SatI. -/
def clamp64 (unsigned : Bool) (x : Int) : Nat × FlagSet := if unsigned then satN x 64 else satI x 64

theorem saturated_eq (u : Bool) (a b : Word) (op : Int → Int → Int) :
    saturated u a b op = (BitVec.ofNat 64 (clamp64 u (op (numberOf u a) (numberOf u b))).1,
      (clamp64 u (op (numberOf u a) (numberOf u b))).2) := by
  cases u <;> simp [saturated, clamp64, numberOf]

theorem ofNat_wrapI (x : Int) (w : Nat) : BitVec.ofNat w (wrapI x w) = BitVec.ofInt w x := by
  apply BitVec.eq_of_toNat_eq
  have below : (x % 2 ^ w).toNat < 2 ^ w := by
    rw [Int.toNat_lt (Int.emod_nonneg _ (by positivity))]
    exact_mod_cast Int.emod_lt_of_pos x (by positivity : (0 : Int) < 2 ^ w)
  rw [BitVec.toNat_ofNat, BitVec.toNat_ofInt, wrapI, Nat.mod_eq_of_lt below]
  norm_cast

/-- SatI: below the range, above it and in it. -/
theorem satI_clamps (x : Int) :
    (satI x 64).2 = (if -(2 ^ 63) ≤ x ∧ x ≤ 2 ^ 63 - 1 then 0 else Flag.ovf.bit) ∧
      (BitVec.ofNat 64 (satI x 64).1).toInt = max (-(2 ^ 63)) (min (2 ^ 63 - 1) x) := by
  unfold satI
  split
  case isTrue low =>
    rw [if_neg (by omega), min_eq_right (by omega), max_eq_left (by omega)]
    decide
  case isFalse low =>
    split
    case isTrue high =>
      rw [if_neg (by omega), min_eq_left (by omega)]
      decide
    case isFalse high =>
      rw [if_pos (by omega), min_eq_right (by omega), max_eq_right (by omega), ofNat_wrapI, BitVec.toInt_ofInt]
      exact ⟨rfl, Int.bmod_eq_of_le (by omega) (by omega)⟩

/-- SatN: below the range, above it and in it. -/
theorem satN_clamps (x : Int) :
    (satN x 64).2 = (if 0 ≤ x ∧ x ≤ 2 ^ 64 - 1 then 0 else Flag.ovf.bit) ∧
      ((BitVec.ofNat 64 (satN x 64).1).toNat : Int) = max 0 (min (2 ^ 64 - 1) x) := by
  unfold satN
  split
  case isTrue low =>
    rw [if_neg (by omega), min_eq_right (by omega), max_eq_left (by omega)]
    decide
  case isFalse low =>
    split
    case isTrue high =>
      rw [if_neg (by omega), min_eq_left (by omega)]
      decide
    case isFalse high =>
      rw [if_pos (by omega), min_eq_right (by omega), max_eq_right (by omega), BitVec.toNat_ofNat]
      exact ⟨rfl, by omega⟩

/-- Clamping sets OF when it changes the number, and gives the nearest number of 64 bits. -/
theorem clamp64_clamps (u : Bool) (x : Int) :
    (clamp64 u x).2 = (if leastOf u ≤ x ∧ x ≤ greatestOf u then 0 else Flag.ovf.bit) ∧
      numberOf u (BitVec.ofNat 64 (clamp64 u x).1) = max (leastOf u) (min (greatestOf u) x) := by
  cases u with
  | false => simpa only [numberOf, leastOf, greatestOf, clamp64, Bool.false_eq_true, if_false] using satI_clamps x
  | true => simpa only [numberOf, leastOf, greatestOf, clamp64, if_true] using satN_clamps x

section
variable {f : RFields} (a b : Word) (sat : f.sat = true)
include sat

theorem addValue_sat : addValue f a b = saturated (f.aux.getLsbD 0) a b (· + ·) := by simp [addValue, sat]
theorem subValue_sat : subValue f a b = saturated (f.aux.getLsbD 0) a b (· - ·) := by simp [subValue, sat]
theorem mulValue_sat : mulValue f a b = saturated (f.aux.getLsbD 0) a b (· * ·) := by simp [mulValue, sat]
theorem sllValue_sat : sllValue f a b = saturated (f.aux.getLsbD 0) a b (fun x _ => x * 2 ^ (b.toNat % 64)) := by
  simp [sllValue, sat]

end

/-- An instruction whose value saturates writes the clamped result and sets OF when clamping changes it. -/
theorem saturated_completes {i : Instr} {s : State} {h : Hart} {f : RFields}
    (value : RFields → Word → Word → Word × FlagSet) (op : Int → Int → Int)
    (e : exec i s = performHart i s fun h => scalarOp f h (value f (h.sreg f.a) (h.sreg f.b))) (r : s.running = some h)
    (on : h.GuardOn f.gd f.gs) {u : Bool}
    (v : value f (h.sreg f.a) (h.sreg f.b) = saturated u (h.sreg f.a) (h.sreg f.b) op) :
    let x := op (numberOf u (h.sreg f.a)) (numberOf u (h.sreg f.b))
    ∃ y : Word, CompletesWith i s
        ((h.begun.setS f.d y).raise (if leastOf u ≤ x ∧ x ≤ greatestOf u then 0 else Flag.ovf.bit)) ∧
      numberOf u y = max (leastOf u) (min (greatestOf u) x) := by
  obtain ⟨flags, clamped⟩ := clamp64_clamps u (op (numberOf u (h.sreg f.a)) (numberOf u (h.sreg f.b)))
  rw [saturated_eq, flags] at v
  exact ⟨_, scalarOp_completes (fun h => value f (h.sreg f.a) (h.sreg f.b)) e r on v, clamped⟩

/-- Settles O2: the four instructions saturate the exact result of their operation (`saturated_completes`). -/
theorem saturatingResults : Obligations.SaturatingResults := by
  unfold Obligations.SaturatingResults
  intro f s h r on sat u a b lo hi gives
  exact ⟨saturated_completes addValue (· + ·) rfl r on (addValue_sat _ _ sat),
    saturated_completes subValue (· - ·) rfl r on (subValue_sat _ _ sat),
    saturated_completes mulValue (· * ·) rfl r on (mulValue_sat _ _ sat),
    saturated_completes sllValue (fun x _ => x * 2 ^ ((h.sreg f.b).toNat % 64)) rfl r on (sllValue_sat _ _ sat)⟩

end Sys2Proof.Machine
end

section
/-! SUPPORT. VDECL and VGETMAX (R165, R166, R171). -/

namespace Sys2Proof.Machine

/-- VDECL does not look at what observation may change. -/
theorem Observed.declare {a b : Hart} (h : Observed a b) (aux : BitVec 4) :
    Observed (Machine.declare a aux) (Machine.declare b aux) :=
  ⟨congrArg (Machine.declare · aux) h.rest, h.strip, h.period, h.fie, h.ven, h.en, h.select, h.pending⟩

theorem exec_vdecl (f : RFields) (s : State) :
    exec (.vdecl f) s = performHart (.vdecl f) s fun h => .seq (declare h.issueAll f.aux) := rfl

theorem vdecl_completes (f : RFields) {s : State} {h : Hart} (r : s.running = some h) :
    CompletesWith (.vdecl f) s (declare h.begun f.aux) :=
  (hart_seq (exec_vdecl f s) r rfl).observed ((issueAll_observed h.begun).declare f.aux)

theorem exec_vgetmax (f : RFields) (s : State) :
    exec (.vgetmax f) s = performHart (.vgetmax f) s fun h => .seq (h.setS f.d (BitVec.ofNat 64 h.vlmax)) := rfl

theorem vgetmax_completes (f : RFields) {s : State} {h : Hart} (r : s.running = some h) :
    CompletesWith (.vgetmax f) s (h.begun.setS f.d (BitVec.ofNat 64 h.vlmax)) :=
  hart_seq (exec_vgetmax f s) r rfl

theorem vlmax_lt (h : Hart) : h.vlmax < 2 ^ 16 :=
  (Nat.min_le_right _ 32768).trans_lt (by decide)

/-- Settles O11: VDECL's effect is `declare`, VGETMAX reads VLMAX, which R165 bounds by 32768. -/
theorem vectorConfiguration : Obligations.VectorConfiguration := by
  unfold Obligations.VectorConfiguration
  exact fun f s h r => ⟨vdecl_completes f r, vgetmax_completes f r, vlmax_lt h, rfl⟩

end Sys2Proof.Machine
end

section
/-! SUPPORT. Vector operations on element bits (R218, R220, R221): what an element loop that sets no flag completes with, then the
values of the operations, and from them the statement on them. -/

namespace Sys2Proof.Machine

/-! ### Element loops that set no flag -/

/-- From a state ready for it, the instruction completes with `x j` in each active element `j` of its destination group; no flag
changes. -/
def GivesElements (f : RFields) (s : State) (h : Hart) (g : Governing) (i : Instr) (x : Nat → Nat) : Prop :=
  VectorReady i s h →
    ∃ e, CompletesWith i s e ∧ WritesGroup h e f.d (groupSize f.gm) ∧ Elements h e g f.d (groupSize f.gm) f.et.bits x ∧
      e.ar = h.ar

theorem writeElem_writes (r : Hart) (first : RegIdx) (w i x : Nat) : Writes r (r.writeElem first w i x) first w i x :=
  ⟨_, _, rfl, fun _ set => set⟩

theorem writeElem_ar (r : Hart) (first : RegIdx) (w i x : Nat) : (r.writeElem first w i x).ar = r.ar := rfl

theorem Observed.ar {a b : Hart} (o : Observed a b) : b.ar = a.ar := by
  rw [o.rest]

theorem forElems_ar {body : Nat → Hart → Hart} (keeps : ∀ i r, (body i r).ar = r.ar) (n lo : Nat) (r : Hart) :
    (forElems body n lo r).ar = r.ar := by
  induction n generalizing lo r with
  | zero => rfl
  | succ n ih => exact (ih (lo + 1) (body lo r)).trans (keeps lo r)

/-- A loop that only writes elements leaves the arithmetic state alone. -/
theorem elementLoop_ar {g : Governing} {h o : Hart} {body : Nat → Hart → Hart} (keeps : ∀ i r, (body i r).ar = r.ar)
    (e : elementLoop g h none body = .seq o) : o.ar = h.ar := by
  simp only [elementLoop, loopEnd_none, lt_irrefl, if_false, Eff.seq.injEq] at e
  rw [← e, Hart.setVstart_ar, (countVector_observed _ h g h.vl).ar]
  apply forElems_ar
  intro i r
  split
  · exact keeps i r
  · rfl

/-- The frame of an element loop, read from the start of its instruction. -/
theorem InLoop.writesGroup {h e : Hart} {first : RegIdx} {n : Nat} (l : InLoop (h.begun.setVstart 0) e first n)
    (ar : e.ar = h.ar) : WritesGroup h e first n := by
  refine ⟨l.rest.trans ?_, l.others, l.sticky⟩
  rw [ar]
  rfl

section
variable {f : RFields} {s : State} {h : Hart} {i : Instr} {rest : List Group}

/-- An instruction that is one loop, writing the value `x j` to each active element `j`. -/
theorem gives_of_elementLoop {effect : Hart → Option Nat → Eff Hart} {g : Governing} {x : Nat → Nat}
    (ops : vectorOperands i = some (f, groupR f f.d f.et.bits :: rest, false))
    (e : exec i s = performVector i s f (groupR f f.d f.et.bits :: rest) false effect)
    (loop : effect h.begun none = elementLoop g h.begun none fun j r => r.writeElem f.d f.et.bits j (x j)) :
    GivesElements f s h g i x := by
  rintro ⟨running, uncut, state, f', gs, operands, ok, on⟩
  rw [ops] at operands
  obtain ⟨rfl, rfl⟩ : f = f' ∧ groupR f f.d f.et.bits :: rest = gs := by simpa using operands
  have good : h.begun.badGroup (groupR f f.d f.et.bits) = false := by
    have ok : (groupR f f.d f.et.bits :: rest).any h.badGroup = false := ok
    exact (Bool.or_eq_false_iff.1 ok).1
  obtain ⟨a, o, out, obs, frame, elements⟩ := elementLoop_elements (h := h.begun) (g := g) state good (bits_dvd f.et)
    (bits_pos f.et) fun j r _ _ => writeElem_writes r f.d f.et.bits j (x j)
  have ar : a.ar = h.ar := obs.ar.symm.trans (elementLoop_ar (h := h.begun) (fun j r => writeElem_ar r f.d f.et.bits j (x j)) out)
  refine ⟨a, ?_, frame.writesGroup ar, elements, ar⟩
  exact (vector_seq e running ok rfl on (by rw [uncut, loop, out])).observed obs

/-- An instruction that writes `x j` wrapped to the width of ET (R218, R221). -/
theorem gives_of_elementWrite {effect : Hart → Option Nat → Eff Hart} {x : Nat → Nat}
    (ops : vectorOperands i = some (f, groupR f f.d f.et.bits :: rest, false))
    (e : exec i s = performVector i s f (groupR f f.d f.et.bits :: rest) false effect)
    (write : effect h.begun none = elementWrite f h.begun none fun j => (x j % 2 ^ f.et.bits, 0)) :
    GivesElements f s h (govR f) i x := by
  intro ready
  obtain ⟨a, completes, frame, elements, ar⟩ := gives_of_elementLoop (g := govR f) ops e
    (x := fun j => x j % 2 ^ f.et.bits) (by simp [write, elementWrite]) ready
  exact ⟨a, completes, frame, by simpa [Elements] using elements, ar⟩

/-- One on the bits of the elements of A and B. -/
theorem gives_of_bitsBinary (op : Nat → Nat → Nat) {op' : Nat → Nat → Nat}
    (ops : vectorOperands i = some (f, groupsDAB f, false))
    (e : exec i s = performVector i s f (groupsDAB f) false (bitsBinary f op)) (v : ∀ a b, op a b = op' a b) :
    GivesElements f s h (govR f) i fun j => op' (h.readElem f.a f.et.bits j) (h.readElem f.b f.et.bits j) :=
  gives_of_elementWrite ops e (by simp only [← v]; rfl)

/-- One on those of A alone. -/
theorem gives_of_bitsUnary (op : Nat → Nat) {op' : Nat → Nat} (ops : vectorOperands i = some (f, groupsDA f, false))
    (e : exec i s = performVector i s f (groupsDA f) false (bitsUnary f op)) (v : ∀ a, op a = op' a) :
    GivesElements f s h (govR f) i fun j => op' (h.readElem f.a f.et.bits j) :=
  gives_of_elementWrite ops e (by simp only [← v]; rfl)

end

/-! ### VBCAST, VID and VSEL -/

theorem exec_vbcast (f : RFields) (s : State) : exec (.vbcast f) s = performVector (.vbcast f) s f (groupsD f) false
    fun h stopAt => elementWrite f h stopAt fun _ => ((h.sreg f.a).toNat % 2 ^ f.et.bits, 0) := rfl

theorem exec_vid (f : RFields) (s : State) : exec (.vid f) s = performVector (.vid f) s f (groupsD f) false
    fun h stopAt => elementWrite f h stopAt fun i => (i % 2 ^ f.et.bits, 0) := rfl

theorem exec_vsel (f : RFields) (s : State) :
    exec (.vsel f) s = performVector (.vsel f) s f (groupsDAB f) false (selectElements f) := rfl

/-- VSEL as a loop that writes, at every element, the element its selector bit chooses. -/
theorem selectElements_eq (f : RFields) (h : Hart) (stopAt : Option Nat) :
    selectElements f h stopAt = elementLoop Governing.off h stopAt fun i r => r.writeElem f.d f.et.bits i
      (if h.maskBit f.mr.toNat i != f.aux4 then h.readElem f.a f.et.bits i else h.readElem f.b f.et.bits i) := by
  unfold selectElements
  congr! 4 with i r
  exact apply_ite (h.readElem · f.et.bits i) _ _ _

/-! ### Values of shifts -/

theorem wrapI_eq_toNat_ofInt (x : Int) (w : Nat) : wrapI x w = (BitVec.ofInt w x).toNat := by
  rw [BitVec.toNat_ofInt, wrapI]
  norm_cast

theorem signExt_eq_toInt (x : Nat) {w : Nat} (pos : 0 < w) : signExt x w = (BitVec.ofNat w x).toInt := by
  have half : 2 ^ w = 2 * 2 ^ (w - 1) := (Nat.two_pow_pred_mul_two pos).symm.trans (Nat.mul_comm _ _)
  have lower : x % 2 ^ w < 2 ^ (w - 1) ↔ 2 * (x % 2 ^ w) < 2 ^ w := by omega
  simp only [signExt, BitVec.toInt_eq_toNat_cond, BitVec.toNat_ofNat, lower]
  norm_cast

/-- VSRA: dividing the signed element by a power of two, rounding down, is the arithmetic shift. -/
theorem wrapI_signExt_div (x n : Nat) {w : Nat} (pos : 0 < w) :
    wrapI (signExt x w / 2 ^ n) w = ((BitVec.ofNat w x).sshiftRight n).toNat := by
  rw [wrapI_eq_toNat_ofInt, signExt_eq_toInt x pos, BitVec.sshiftRight, Int.shiftRight_eq_div_pow]
  norm_cast

/-! ### The statement -/

/-- Settles O15: each operation is one element loop that sets no flag (`gives_of_elementLoop`); left to show are the values of the
shifts and of the counts. -/
theorem vectorBitResults : Obligations.VectorBitResults := by
  unfold Obligations.VectorBitResults
  intro f s h _ w a b gives does
  refine ⟨gives_of_bitsBinary (· &&& ·) rfl rfl fun _ _ => rfl, gives_of_bitsBinary (· ||| ·) rfl rfl fun _ _ => rfl,
    gives_of_bitsBinary (· ^^^ ·) rfl rfl fun _ _ => rfl, ?sll, ?srl, ?sra, ?popc,
    ⟨_, gives_of_bitsUnary (leadingZeros · w) rfl rfl fun _ => rfl, ?clz⟩,
    gives_of_bitsUnary (fun x => x) rfl rfl fun _ => rfl,
    gives_of_elementWrite rfl (exec_vbcast f s) rfl, gives_of_elementWrite rfl (exec_vid f s) rfl,
    gives_of_elementLoop rfl (exec_vsel f s) (selectElements_eq f h.begun none)⟩
  case sll =>
    exact gives_of_bitsBinary (fun x y => x * 2 ^ shiftCount w y) rfl rfl fun _ _ => (Nat.shiftLeft_eq _ _).symm
  case srl =>
    exact gives_of_bitsBinary (fun x y => x / 2 ^ shiftCount w y) rfl rfl fun _ _ => (Nat.shiftRight_eq_div_pow _ _).symm
  case sra =>
    exact gives_of_bitsBinary (fun x y => wrapI (signExt x w / 2 ^ shiftCount w y) w) rfl rfl
      fun x y => wrapI_signExt_div x (y % w) (bits_pos f.et)
  case popc => exact gives_of_bitsUnary (popCount · w) rfl rfl fun x => popCount_eq_countP x w
  case clz =>
    exact fun i => ⟨leadingZeros_le _ _, fun _ => testBit_of_leadingZeros (a i), testBit_leadingZeros (a i)⟩

end Sys2Proof.Machine
end
